-- ==== Sys2Proof/Word.lean ====
section
/-! DEFINITION. The word types of the machine (R3). -/

namespace Sys2Proof

/-- A byte, 8 bits (R3). -/
abbrev Byte := BitVec 8
/-- A doubleword, 64 bits (R3): the width of a scalar register. -/
abbrev Word := BitVec 64
/-- A word, 32 bits (R3): the width of an instruction. -/
abbrev Word32 := BitVec 32

end Sys2Proof
end

