-- ==== Sys2Proof/Syntax.lean ====
section
/-! DEFINITION. The instructions and events of the Palyon 9: one constructor per row of the table of operations
and events. A word's constructor carries the operands of its fields; an event carries nothing here: what the outside world supplies with it stands in the state
(State.input). The words with operands come first, then the words without, then the events. -/

namespace Sys2Proof

/-- A scalar register number, g0 to g127 (R63). -/
abbrev GReg := Fin 128
/-- A vector register number of the window, v0 to v127 (R65). -/
abbrev VReg := Fin 128
/-- A mask register number, m0 to m15. -/
abbrev MReg := Fin 16
/-- A tile register number, t0 to t7. -/
abbrev TReg := Fin 8
/-- An accumulator number, a0 to a15. -/
abbrev AReg := Fin 16
/-- A field-layout register number, f0 to f7. -/
abbrev FReg := Fin 8
/-- A segment register number, sg0 to sg15. -/
abbrev SReg := Fin 16
/-- A batch number, b0 to b7. -/
abbrev Batch := Fin 8

/-- One step of the table: an instruction word or an event. -/
inductive Instr where
  /-- ADD (R147). -/
  | add (a : GReg) (b : GReg) (c : GReg)
  /-- SUB (R147). -/
  | sub (a : GReg) (b : GReg) (c : GReg)
  /-- AND (R147). -/
  | and (a : GReg) (b : GReg) (c : GReg)
  /-- OR (R147). -/
  | or (a : GReg) (b : GReg) (c : GReg)
  /-- XOR (R147). -/
  | xor (a : GReg) (b : GReg) (c : GReg)
  /-- SLL (R147). -/
  | sll (a : GReg) (b : GReg) (c : GReg)
  /-- SRL (R147). -/
  | srl (a : GReg) (b : GReg) (c : GReg)
  /-- SRA (R147). -/
  | sra (a : GReg) (b : GReg) (c : GReg)
  /-- MIN (R147). -/
  | min (a : GReg) (b : GReg) (c : GReg)
  /-- MAX (R147). -/
  | max (a : GReg) (b : GReg) (c : GReg)
  /-- MINS (R147). -/
  | mins (a : GReg) (b : GReg) (c : GReg)
  /-- MAXS (R147). -/
  | maxs (a : GReg) (b : GReg) (c : GReg)
  /-- SLT (R147). -/
  | slt (a : GReg) (b : GReg) (c : GReg)
  /-- SLTS (R147). -/
  | slts (a : GReg) (b : GReg) (c : GReg)
  /-- SEL (R147). -/
  | sel (a : GReg) (b : GReg) (c : GReg)
  /-- MUL (R148). -/
  | mul (a : GReg) (b : GReg) (c : GReg)
  /-- MULH (R148). -/
  | mulh (a : GReg) (b : GReg) (c : GReg)
  /-- MULHS (R148). -/
  | mulhs (a : GReg) (b : GReg) (c : GReg)
  /-- DIV (R148). -/
  | div (a : GReg) (b : GReg) (c : GReg)
  /-- DIVS (R148). -/
  | divs (a : GReg) (b : GReg) (c : GReg)
  /-- REM (R148). -/
  | rem (a : GReg) (b : GReg) (c : GReg)
  /-- REMS (R148). -/
  | rems (a : GReg) (b : GReg) (c : GReg)
  /-- CLZ (R149). -/
  | clz (a : GReg) (b : GReg)
  /-- CTZ (R149). -/
  | ctz (a : GReg) (b : GReg)
  /-- POPC (R149). -/
  | popc (a : GReg) (b : GReg)
  /-- BREV (R149). -/
  | brev (a : GReg) (b : GReg)
  /-- BSWAP (R149). -/
  | bswap (a : GReg) (b : GReg)
  /-- SEXT (R149). -/
  | sext (a : GReg) (b : GReg) (c : GReg)
  /-- ZEXT (R149). -/
  | zext (a : GReg) (b : GReg) (c : GReg)
  /-- EXTR (R149). -/
  | extr (a : GReg) (b : GReg) (c : GReg)
  /-- INS (R149). -/
  | ins (a : GReg) (b : GReg) (c : GReg)
  /-- ADDI (R150). -/
  | addi (a : GReg) (b : GReg) (imm : BitVec 11)
  /-- ANDI (R150). -/
  | andi (a : GReg) (b : GReg) (imm : BitVec 11)
  /-- ORI (R150). -/
  | ori (a : GReg) (b : GReg) (imm : BitVec 11)
  /-- XORI (R150). -/
  | xori (a : GReg) (b : GReg) (imm : BitVec 11)
  /-- SLTI (R150). -/
  | slti (a : GReg) (b : GReg) (imm : BitVec 11)
  /-- SLTIS (R150). -/
  | sltis (a : GReg) (b : GReg) (imm : BitVec 11)
  /-- SLLI (R150). -/
  | slli (a : GReg) (b : GReg) (sh : Fin 64)
  /-- SRLI (R150). -/
  | srli (a : GReg) (b : GReg) (sh : Fin 64)
  /-- SRAI (R150). -/
  | srai (a : GReg) (b : GReg) (sh : Fin 64)
  /-- LUI (R151). -/
  | lui (a : GReg) (imm : BitVec 18)
  /-- LSH (R151). -/
  | lsh (a : GReg) (imm : BitVec 18)
  /-- LD_B (R153). -/
  | ldB (a : GReg) (b : GReg) (imm : BitVec 11)
  /-- LD_BS (R153). -/
  | ldBs (a : GReg) (b : GReg) (imm : BitVec 11)
  /-- LD_H (R153). -/
  | ldH (a : GReg) (b : GReg) (imm : BitVec 11)
  /-- LD_HS (R153). -/
  | ldHs (a : GReg) (b : GReg) (imm : BitVec 11)
  /-- LD_W (R153). -/
  | ldW (a : GReg) (b : GReg) (imm : BitVec 11)
  /-- LD_WS (R153). -/
  | ldWs (a : GReg) (b : GReg) (imm : BitVec 11)
  /-- LD_D (R153). -/
  | ldD (a : GReg) (b : GReg) (imm : BitVec 11)
  /-- ST_B (R153). -/
  | stB (a : GReg) (b : GReg) (imm : BitVec 11)
  /-- ST_H (R153). -/
  | stH (a : GReg) (b : GReg) (imm : BitVec 11)
  /-- ST_W (R153). -/
  | stW (a : GReg) (b : GReg) (imm : BitVec 11)
  /-- ST_D (R153). -/
  | stD (a : GReg) (b : GReg) (imm : BitVec 11)
  /-- BEQ (R155). -/
  | beq (a : GReg) (b : GReg) (imm : BitVec 11)
  /-- BNE (R155). -/
  | bne (a : GReg) (b : GReg) (imm : BitVec 11)
  /-- BLT (R155). -/
  | blt (a : GReg) (b : GReg) (imm : BitVec 11)
  /-- BGE (R155). -/
  | bge (a : GReg) (b : GReg) (imm : BitVec 11)
  /-- BLTS (R155). -/
  | blts (a : GReg) (b : GReg) (imm : BitVec 11)
  /-- BGES (R155). -/
  | bges (a : GReg) (b : GReg) (imm : BitVec 11)
  /-- J (R155). -/
  | j (imm : BitVec 25)
  /-- JAL (R155). -/
  | jal (imm : BitVec 25)
  /-- JR (R155). -/
  | jr (b : GReg)
  /-- JALR (R155). -/
  | jalr (a : GReg) (b : GReg)
  /-- LOOP (R156). -/
  | loop (k : Fin 2) (b : GReg) (len : BitVec 11)
  /-- LCLR (R158). -/
  | lclr (mask : Fin 4)
  /-- WBASE (R159). -/
  | wbase (b : GReg)
  /-- FLSET (R160). -/
  | flset (f : FReg) (b : GReg)
  /-- FLGET (R160). -/
  | flget (a : GReg) (f : FReg)
  /-- DROSS (R167). -/
  | dross (b : GReg) (c : GReg)
  /-- WAITT (R168). -/
  | waitt (b : GReg)
  /-- WAITEV (R169). -/
  | waitev (b : GReg)
  /-- CRR (R161). -/
  | crr (a : GReg) (n : Fin 2048)
  /-- CRW (R161). -/
  | crw (a : GReg) (n : Fin 2048)
  /-- CRS (R161). -/
  | crs (a : GReg) (n : Fin 2048)
  /-- CRC (R161). -/
  | crc (a : GReg) (n : Fin 2048)
  /-- TRAP (R164). -/
  | trap (code : BitVec 18)
  /-- LAUNCH (R170). -/
  | launch (b : GReg) (n : Batch)
  /-- PADD (R152). -/
  | padd (a : GReg) (b : GReg) (c : GReg)
  /-- PMK (R152). -/
  | pmk (a : GReg) (b : GReg) (c : GReg)
  /-- PSEG (R152). -/
  | pseg (a : GReg) (b : GReg)
  /-- POFF (R152). -/
  | poff (a : GReg) (b : GReg)
  /-- PADDI (R152). -/
  | paddi (a : GReg) (b : GReg) (imm : BitVec 11)
  /-- CONVOY_HEADER (R136). -/
  | convoyHeader (t : Bool) (d3 : Fin 32) (d2 : Fin 32) (d1 : Fin 32) (d0 : Fin 32) (cnt : Fin 4)
  /-- VADD (R176). -/
  | vadd (m : Bool) (a : VReg) (b : VReg) (c : VReg)
  /-- VSUB (R176). -/
  | vsub (m : Bool) (a : VReg) (b : VReg) (c : VReg)
  /-- VAND (R176). -/
  | vand (m : Bool) (a : VReg) (b : VReg) (c : VReg)
  /-- VOR (R176). -/
  | vor (m : Bool) (a : VReg) (b : VReg) (c : VReg)
  /-- VXOR (R176). -/
  | vxor (m : Bool) (a : VReg) (b : VReg) (c : VReg)
  /-- VMIN (R176). -/
  | vmin (m : Bool) (a : VReg) (b : VReg) (c : VReg)
  /-- VMAX (R176). -/
  | vmax (m : Bool) (a : VReg) (b : VReg) (c : VReg)
  /-- VMUL (R176). -/
  | vmul (m : Bool) (a : VReg) (b : VReg) (c : VReg)
  /-- VSLL (R176). -/
  | vsll (m : Bool) (a : VReg) (b : VReg) (c : VReg)
  /-- VSRL (R176). -/
  | vsrl (m : Bool) (a : VReg) (b : VReg) (c : VReg)
  /-- VSRA (R176). -/
  | vsra (m : Bool) (a : VReg) (b : VReg) (c : VReg)
  /-- VADDS (R176). -/
  | vadds (m : Bool) (a : VReg) (b : VReg) (c : VReg)
  /-- VSUBS (R176). -/
  | vsubs (m : Bool) (a : VReg) (b : VReg) (c : VReg)
  /-- VMULH (R176). -/
  | vmulh (m : Bool) (a : VReg) (b : VReg) (c : VReg)
  /-- VABS (R176). -/
  | vabs (m : Bool) (a : VReg) (b : VReg)
  /-- VNEG (R176). -/
  | vneg (m : Bool) (a : VReg) (b : VReg)
  /-- VCMP (R177). -/
  | vcmp (m : Bool) (cc : Fin 8) (a : MReg) (b : VReg) (c : VReg)
  /-- VFADD (R178). -/
  | vfadd (m : Bool) (a : VReg) (b : VReg) (c : VReg)
  /-- VFSUB (R178). -/
  | vfsub (m : Bool) (a : VReg) (b : VReg) (c : VReg)
  /-- VFMUL (R178). -/
  | vfmul (m : Bool) (a : VReg) (b : VReg) (c : VReg)
  /-- VFMIN (R178). -/
  | vfmin (m : Bool) (a : VReg) (b : VReg) (c : VReg)
  /-- VFMAX (R178). -/
  | vfmax (m : Bool) (a : VReg) (b : VReg) (c : VReg)
  /-- VFDIV (R178). -/
  | vfdiv (m : Bool) (a : VReg) (b : VReg) (c : VReg)
  /-- VFSQRT (R178). -/
  | vfsqrt (m : Bool) (a : VReg) (b : VReg)
  /-- VFMA (R178). -/
  | vfma (m : Bool) (a : VReg) (b : VReg) (c : VReg)
  /-- VFMS (R178). -/
  | vfms (m : Bool) (a : VReg) (b : VReg) (c : VReg)
  /-- VFNMA (R178). -/
  | vfnma (m : Bool) (a : VReg) (b : VReg) (c : VReg)
  /-- VFNEG (R178). -/
  | vfneg (m : Bool) (a : VReg) (b : VReg)
  /-- VFABS (R178). -/
  | vfabs (m : Bool) (a : VReg) (b : VReg)
  /-- VFCMP (R178). -/
  | vfcmp (m : Bool) (cc : Fin 8) (a : MReg) (b : VReg) (c : VReg)
  /-- VEXP2 (R179). -/
  | vexp2 (m : Bool) (a : VReg) (b : VReg)
  /-- VLOG2 (R179). -/
  | vlog2 (m : Bool) (a : VReg) (b : VReg)
  /-- VRCP (R179). -/
  | vrcp (m : Bool) (a : VReg) (b : VReg)
  /-- VRSQRT (R179). -/
  | vrsqrt (m : Bool) (a : VReg) (b : VReg)
  /-- VTANH (R179). -/
  | vtanh (m : Bool) (a : VReg) (b : VReg)
  /-- VSIGM (R179). -/
  | vsigm (m : Bool) (a : VReg) (b : VReg)
  /-- VCVT (R180). -/
  | vcvt (m : Bool) (a : VReg) (b : VReg) (ty : Fin 16) (rc : Fin 8)
  /-- VMV (R181). -/
  | vmv (m : Bool) (a : VReg) (b : VReg)
  /-- VBCAST (R181). -/
  | vbcast (m : Bool) (a : VReg) (b : GReg)
  /-- VEXT (R181). -/
  | vext (m : Bool) (a : GReg) (b : VReg) (c : GReg)
  /-- VINS (R181). -/
  | vins (m : Bool) (a : VReg) (b : GReg) (c : GReg)
  /-- VIOTA (R181). -/
  | viota (m : Bool) (a : VReg)
  /-- VSLIDEUP (R181). -/
  | vslideup (m : Bool) (a : VReg) (b : VReg) (c : GReg)
  /-- VSLIDEDN (R181). -/
  | vslidedn (m : Bool) (a : VReg) (b : VReg) (c : GReg)
  /-- VGATHERI (R181). -/
  | vgatheri (m : Bool) (a : VReg) (b : VReg) (c : VReg)
  /-- VREDSUM (R182). -/
  | vredsum (m : Bool) (a : GReg) (b : VReg)
  /-- VREDMIN (R182). -/
  | vredmin (m : Bool) (a : GReg) (b : VReg)
  /-- VREDMAX (R182). -/
  | vredmax (m : Bool) (a : GReg) (b : VReg)
  /-- VREDMINS (R182). -/
  | vredmins (m : Bool) (a : GReg) (b : VReg)
  /-- VREDMAXS (R182). -/
  | vredmaxs (m : Bool) (a : GReg) (b : VReg)
  /-- VFREDSUM (R98). -/
  | vfredsum (m : Bool) (a : GReg) (b : VReg)
  /-- VFREDMIN (R182). -/
  | vfredmin (m : Bool) (a : GReg) (b : VReg)
  /-- VFREDMAX (R182). -/
  | vfredmax (m : Bool) (a : GReg) (b : VReg)
  /-- VSCAN_ADD (R183). -/
  | vscanAdd (m : Bool) (a : VReg) (b : VReg)
  /-- VSCAN_MIN (R183). -/
  | vscanMin (m : Bool) (a : VReg) (b : VReg)
  /-- VSCAN_MAX (R183). -/
  | vscanMax (m : Bool) (a : VReg) (b : VReg)
  /-- VFSCAN_ADD (R183). -/
  | vfscanAdd (m : Bool) (a : VReg) (b : VReg)
  /-- VFSCAN_MAX (R183). -/
  | vfscanMax (m : Bool) (a : VReg) (b : VReg)
  /-- MAND (R184). -/
  | mand (m : Bool) (a : MReg) (b : MReg) (c : MReg)
  /-- MOR (R184). -/
  | mor (m : Bool) (a : MReg) (b : MReg) (c : MReg)
  /-- MXOR (R184). -/
  | mxor (m : Bool) (a : MReg) (b : MReg) (c : MReg)
  /-- MANDN (R184). -/
  | mandn (m : Bool) (a : MReg) (b : MReg) (c : MReg)
  /-- MNOT (R184). -/
  | mnot (m : Bool) (a : MReg) (b : MReg)
  /-- MPOPC (R184). -/
  | mpopc (m : Bool) (a : GReg) (b : MReg)
  /-- MFIRST (R184). -/
  | mfirst (m : Bool) (a : GReg) (b : MReg)
  /-- VCOMPRESS (R184). -/
  | vcompress (m : Bool) (a : VReg) (b : VReg) (c : MReg)
  /-- VPACK (R188). -/
  | vpack (m : Bool) (f : FReg) (a : VReg) (b : VReg)
  /-- SETVL (R174). -/
  | setvl (a : GReg) (b : GReg) (ty : Fin 16)
  /-- VMSEL (R191). -/
  | vmsel (a : MReg)
  /-- VBIND (R192). -/
  | vbind (a : VReg) (b : SReg)
  /-- VUNBIND (R192). -/
  | vunbind (a : VReg)
  /-- VAPPEND (R194). -/
  | vappend (a : GReg) (b : SReg) (c : GReg)
  /-- VSPILL (R195). -/
  | vspill (a : VReg) (b : GReg)
  /-- VFILL (R195). -/
  | vfill (a : VReg) (b : GReg)
  /-- VMBOX (R197). -/
  | vmbox (b : GReg) (c : GReg)
  /-- VLD (R185). -/
  | vld (m : Bool) (a : VReg) (b : GReg)
  /-- VST (R185). -/
  | vst (m : Bool) (a : VReg) (b : GReg)
  /-- VLDS (R185). -/
  | vlds (m : Bool) (a : VReg) (b : GReg) (c : GReg)
  /-- VSTS (R185). -/
  | vsts (m : Bool) (a : VReg) (b : GReg) (c : GReg)
  /-- VLDX (R185). -/
  | vldx (m : Bool) (a : VReg) (b : GReg) (c : VReg)
  /-- VSTX (R185). -/
  | vstx (m : Bool) (a : VReg) (b : GReg) (c : VReg)
  /-- VLDT (R186). -/
  | vldt (m : Bool) (a : VReg) (b : GReg) (c : GReg)
  /-- VPMUL (R189). -/
  | vpmul (m : Bool) (f : FReg) (a : VReg) (b : VReg) (c : VReg)
  /-- VPMULA (R189). -/
  | vpmula (m : Bool) (f : FReg) (a : VReg) (b : VReg) (c : VReg)
  /-- VPEXT (R190). -/
  | vpext (m : Bool) (f : FReg) (a : VReg) (b : VReg)
  /-- MSHAPE (R200). -/
  | mshape (a : GReg) (b : GReg)
  /-- TMVR (R208). -/
  | tmvr (a : TReg) (rc : Fin 8) (b : VReg) (c : GReg)
  /-- TMVC (R209). -/
  | tmvc (a : VReg) (b : TReg) (rc : Fin 8) (c : GReg)
  /-- TMVRR (R210). -/
  | tmvrr (a : TReg) (b : TReg) (c : GReg)
  /-- TZERO (R211). -/
  | tzero (a : TReg)
  /-- TLD (R212). -/
  | tld (a : TReg) (b : GReg) (c : GReg)
  /-- TST (R213). -/
  | tst (a : TReg) (b : GReg)
  /-- MMA (R204). -/
  | mma (a : AReg) (b : TReg) (c : GReg)
  /-- MMA_A (R207). -/
  | mmaA (a : AReg) (n : Batch) (b : TReg) (c : GReg)
  /-- MMAS (R205). -/
  | mmas (a : AReg) (b : TReg) (c : GReg)
  /-- MMAS_A (R207). -/
  | mmasA (a : AReg) (n : Batch) (b : TReg) (c : GReg)
  /-- AZERO (R214). -/
  | azero (a : AReg)
  /-- AMV (R216). -/
  | amv (a : VReg) (b : GReg) (ty : Fin 16) (rc : Fin 8)
  /-- ALD (R214). -/
  | ald (a : AReg) (b : GReg)
  /-- AST (R214). -/
  | ast (a : AReg) (b : GReg)
  /-- BLD (R217). -/
  | bld (b : GReg) (c : GReg)
  /-- VQUANT (R218). -/
  | vquant (a : TReg) (b : VReg) (c : GReg)
  /-- MPERM (R219). -/
  | mperm (b : VReg)
  /-- MCODE (R220). -/
  | mcode (b : VReg)
  /-- AMO_ADD (R221). -/
  | amoAdd (a : GReg) (b : GReg) (c : GReg)
  /-- AMO_MIN (R221). -/
  | amoMin (a : GReg) (b : GReg) (c : GReg)
  /-- AMO_MAX (R221). -/
  | amoMax (a : GReg) (b : GReg) (c : GReg)
  /-- AMO_MINS (R221). -/
  | amoMins (a : GReg) (b : GReg) (c : GReg)
  /-- AMO_MAXS (R221). -/
  | amoMaxs (a : GReg) (b : GReg) (c : GReg)
  /-- AMO_AND (R221). -/
  | amoAnd (a : GReg) (b : GReg) (c : GReg)
  /-- AMO_OR (R221). -/
  | amoOr (a : GReg) (b : GReg) (c : GReg)
  /-- AMO_XOR (R221). -/
  | amoXor (a : GReg) (b : GReg) (c : GReg)
  /-- AMO_SWAP (R221). -/
  | amoSwap (a : GReg) (b : GReg) (c : GReg)
  /-- AMO_CAS (R221). -/
  | amoCas (a : GReg) (b : GReg) (c : GReg)
  /-- AMO_FADD_F32 (R221). -/
  | amoFaddF32 (a : GReg) (b : GReg) (c : GReg)
  /-- AMO_FADD_F64 (R221). -/
  | amoFaddF64 (a : GReg) (b : GReg) (c : GReg)
  /-- AMO_ADDNR (R222). -/
  | amoAddnr (b : GReg) (c : GReg)
  /-- ACQ (R224). -/
  | acq (a : GReg) (b : GReg)
  /-- REL (R224). -/
  | rel (b : GReg) (c : GReg)
  /-- SEGACQ (R124). -/
  | segacq (b : SReg)
  /-- SEGREL (R124). -/
  | segrel (b : SReg) (c : GReg)
  /-- SEGPHASE (R123). -/
  | segphase (b : SReg)
  /-- FENCE (R226). -/
  | fence (sc : Fin 8)
  /-- WAITEQ (R224). -/
  | waiteq (a : GReg) (b : GReg) (c : GReg)
  /-- WAITGE (R224). -/
  | waitge (a : GReg) (b : GReg) (c : GReg)
  /-- LCPY (R233). -/
  | lcpy (a : GReg) (b : GReg) (tr : Bool) (cv : Fin 16) (rc : Fin 8) (n : Batch)
  /-- BCOMMIT (R228). -/
  | bcommit (n : Batch)
  /-- BWAIT (R228). -/
  | bwait (n : Batch)
  /-- BTEST (R229). -/
  | btest (a : GReg) (n : Batch)
  /-- ISTREAM (R239). -/
  | istream (b : GReg) (n : Batch)
  /-- TXCFG (R266). -/
  | txcfg (a : GReg) (b : GReg)
  /-- TXSUB (R241). -/
  | txsub (a : GReg) (b : GReg) (n : Batch)
  /-- QPUSH (R241). -/
  | qpush (a : GReg) (b : SReg)
  /-- QPOP (R241). -/
  | qpop (a : GReg) (b : SReg)
  /-- QSTAT (R241). -/
  | qstat (a : GReg) (b : SReg)
  /-- TFREE (R244). -/
  | tfree (b : GReg)
  /-- SPTAG (R244). -/
  | sptag (b : GReg) (c : GReg)
  /-- SPSIZE (R244). -/
  | spsize (a : GReg) (b : GReg)
  /-- RMUL (R250). -/
  | rmul (m : Bool) (a : VReg) (b : VReg) (c : VReg)
  /-- RFMA (R250). -/
  | rfma (m : Bool) (a : VReg) (b : VReg) (c : VReg)
  /-- RSHR (R250). -/
  | rshr (m : Bool) (a : VReg) (b : VReg) (c : GReg)
  /-- RLRELU (R250). -/
  | rlrelu (m : Bool) (a : VReg) (b : VReg) (c : GReg)
  /-- RSCALE (R250). -/
  | rscale (m : Bool) (a : VReg) (b : VReg) (c : GReg)
  /-- RCVT (R250). -/
  | rcvt (m : Bool) (a : VReg) (b : VReg) (ty : Fin 16) (rc : Fin 8)
  /-- UMUL (R251). -/
  | umul (m : Bool) (a : VReg) (b : VReg) (c : VReg)
  /-- UFMA (R251). -/
  | ufma (m : Bool) (a : VReg) (b : VReg) (c : VReg)
  /-- USHR (R251). -/
  | ushr (m : Bool) (a : VReg) (b : VReg) (c : GReg)
  /-- ULRELU (R251). -/
  | ulrelu (m : Bool) (a : VReg) (b : VReg) (c : GReg)
  /-- USCALE (R251). -/
  | uscale (m : Bool) (a : VReg) (b : VReg) (c : GReg)
  /-- UCVT (R251). -/
  | ucvt (m : Bool) (a : VReg) (b : VReg) (ty : Fin 16)
  /-- RSDEPTH (R256). -/
  | rsdepth (a : GReg)
  /-- YIELD (R162). -/
  | yield
  /-- EXIT (R163). -/
  | exit
  /-- RPOINT (R166). -/
  | rpoint
  /-- REALIGN (R166). -/
  | realign
  /-- FENCEI (R165). -/
  | fencei
  /-- BRK (R164). -/
  | brk
  /-- ERET (R356). -/
  | eret
  /-- VRELEASE (R39). -/
  | vrelease
  /-- RSMARK (R256). -/
  | rsmark
  /-- RSDROP (R256). -/
  | rsdrop
  /-- RSSYNC (R256). -/
  | rssync
  /-- VECTOR_MEMBER_ISSUE (R42). -/
  | vectorMemberIssue
  /-- CONVOY_RETIRE (R40). -/
  | convoyRetire
  /-- SEGPHASE_COMPLETE (R123). -/
  | segphaseComplete
  /-- WAIT_CONDITION_MET (R62). -/
  | waitConditionMet
  /-- RISER_SPILL (R254). -/
  | riserSpill
  /-- RISER_FILL (R254). -/
  | riserFill
  /-- STRIP_COMMIT (R45). -/
  | stripCommit
  /-- ENGINE_COMMAND_FORK (R49). -/
  | engineCommandFork
  /-- LADLE_COPY_COMPLETE (R238). -/
  | ladleCopyComplete
  /-- MAILBOX_WRITE_LAND (R115). -/
  | mailboxWriteLand
  /-- MATRIX_COMMAND_COMPLETE (R207). -/
  | matrixCommandComplete
  /-- ISTREAM_COMPLETE (R240). -/
  | istreamComplete
  /-- TEXT_STAGE_MESSAGE (R270). -/
  | textStageMessage
  /-- DECODER_MEMBER_COMMIT (R399). -/
  | decoderMemberCommit
  /-- TXSUB_COMPLETE (R242). -/
  | txsubComplete
  /-- LAUNCH_COMMAND_COMPLETE (R170). -/
  | launchCommandComplete
  /-- TRAP_ENTRY (R354). -/
  | trapEntry
  /-- LAUNCH_END_BY_TRAP (R359). -/
  | launchEndByTrap
  /-- PAGE_FAULT (R361). -/
  | pageFault
  /-- PAGE_FAULT_REPLY_DOORBELL (R362). -/
  | pageFaultReplyDoorbell
  /-- PAGE_FAULT_REPLY (R363). -/
  | pageFaultReply
  /-- CONTEXT_RESTORE (R366). -/
  | contextRestore
  /-- PREEMPTION (R364). -/
  | preemption
  /-- CONTEXT_SAVE (R365). -/
  | contextSave
  /-- SAVERETRY (R367). -/
  | saveretry
  /-- TIMED_ROLLBACK (R368). -/
  | timedRollback
  /-- TIMED_RESUME (R370). -/
  | timedResume
  /-- DOMAIN_TICK (R52). -/
  | domainTick
  /-- HOST_QUEUE_DOORBELL (R326). -/
  | hostQueueDoorbell
  /-- ADMIN_DOORBELL (R299). -/
  | adminDoorbell
  /-- INVALIDATION_COMPLETE (R299). -/
  | invalidationComplete
  /-- LAUNCH_SELECTION (R276). -/
  | launchSelection
  /-- TASK_PLACEMENT (R277). -/
  | taskPlacement
  /-- TASK_START (R75). -/
  | taskStart
  /-- LAUNCH_COMPLETE (R35). -/
  | launchComplete
  /-- RAMP_SLOT (R283). -/
  | rampSlot
  /-- ESTIMATE_PARTIAL (R282). -/
  | estimatePartial
  /-- CODE_OBJECT_LOAD (R305). -/
  | codeObjectLoad
  /-- CODE_OBJECT_UNLOAD (R306). -/
  | codeObjectUnload
  /-- FORCED_UNLOAD (R404). -/
  | forcedUnload
  /-- DUSK (R412). -/
  | dusk
  /-- DUSKDONE (R412). -/
  | duskdone
  /-- DAWN (R334). -/
  | dawn
  /-- WARM_RESET (R334). -/
  | warmReset
  /-- ATTESTATION (R417). -/
  | attestation
  /-- REDUCTION_CLEAR (R327). -/
  | reductionClear
  /-- HOST_REGISTER_WRITE (R10). -/
  | hostRegisterWrite
  /-- PTM_EXCHANGE (R329). -/
  | ptmExchange
  /-- PTP_EVENT_MESSAGE (R329). -/
  | ptpEventMessage
  /-- LINK_FLIT_RECEIVE (R386). -/
  | linkFlitReceive
  /-- LINK_HEARTBEAT (R410). -/
  | linkHeartbeat
  /-- HEARTBEAT_TIMEOUT (R410). -/
  | heartbeatTimeout
  /-- LINK_PORT_FAILURE (R410). -/
  | linkPortFailure
  /-- ROUTE_TIMEOUT (R411). -/
  | routeTimeout
  /-- MEMORY_SCRUB (R388). -/
  | memoryScrub
  /-- FREQHEAD_WRITE (R362). -/
  | freqheadWrite
  /-- POWER_LOSS (R413). -/
  | powerLoss
  /-- PREEMPTION_DRAIN_TIMEOUT (R364). -/
  | preemptionDrainTimeout
  deriving DecidableEq, Repr

end Sys2Proof
end

