-- ==== Sys2Proof/WellFormed.lean ====
section
/-! DEFINITION. Which terms of Instr stand for an instruction or an event the part has: the codes of their fields are
assigned (R145) and an event names a unit that exists. -/

namespace Sys2Proof

/-- Codes 0 to 5 are the rounding codes (R144); 6 and 7 are reserved (R145). -/
def rcOk (rc : Fin 8) : Bool := rc.val < 6

/-- Every code field of the instruction holds an assigned value (R145) and a header's delays past its last
member are zero (R136). -/
def Instr.wf : Instr → Bool
  | .convoyHeader _ d3 d2 d1 _ cnt =>
      (cnt.val ≥ 1 || d1.val == 0) && (cnt.val ≥ 2 || d2.val == 0) && (cnt.val ≥ 3 || d3.val == 0)
  | .vcmp _ cc _ _ _ => cc.val < 6
  | .vfcmp _ cc _ _ _ => cc.val < 5
  | .vcvt _ _ _ _ rc => rcOk rc
  | .tmvr _ rc _ _ => rcOk rc
  | .tmvc _ _ rc _ => rcOk rc
  | .amv _ _ _ rc => rcOk rc
  | .rcvt _ _ _ _ rc => rcOk rc
  | .fence sc => sc.val < 5
  | .lcpy _ _ _ cv rc _ => cv.val < 9 && rcOk rc
  | _ => true

end Sys2Proof
end

