-- ==== Sys2Proof/Decode.lean ====
section
/-! DEFINITION. The decoder of instruction words, total on any bytes, which rejects a word by the cause and kind the
spec gives it (R337, R353), and after it the encoder, from the same field tables (Tables 7-1 to 7-5). -/

namespace Sys2Proof

/-- Why a word is no instruction, from its own bits (R337 step 1, checks 1 to 3). -/
inductive DecodeErr where
  /-- Cause 0x01: kind 0 reserved OPC, kind 1 unassigned FN, kind 2 reserved code value (R339). -/
  | reserved (kind : Nat)
  /-- Cause 0x02: a field of the word that must be zero is not; `bit` is its lowest offending bit (Table 20-1). -/
  | nonzero (bit : Nat)
  /-- Fewer than four bytes: no whole word (R132). -/
  | short
  deriving DecidableEq, Repr

/-- The fields of a word (Table 7-1). -/
structure Raw where
  fn  : Nat
  c   : Nat
  b   : Nat
  a   : Nat
  opc : Nat
  deriving DecidableEq, Repr

/-- The fields of the word w (Table 7-1). -/
def rawOf (w : Nat) : Raw :=
  { fn := w / 2 ^ 28 % 16, c := w / 2 ^ 21 % 128, b := w / 2 ^ 14 % 128, a := w / 2 ^ 7 % 128, opc := w % 128 }

/-- The word whose fields are r (Table 7-1). -/
def wordOf (r : Raw) : Nat := r.opc + r.a * 2 ^ 7 + r.b * 2 ^ 14 + r.c * 2 ^ 21 + r.fn * 2 ^ 28

/-- imm11, bits 31:21 (Table 7-2). -/
def Raw.imm11 (r : Raw) : Nat := r.fn * 128 + r.c
/-- imm18, bits 31:14 (Table 7-2). -/
def Raw.imm18 (r : Raw) : Nat := r.fn * 16384 + r.c * 128 + r.b
/-- imm25, bits 31:7 (Table 7-2). -/
def Raw.imm25 (r : Raw) : Nat := r.fn * 2097152 + r.c * 16384 + r.b * 128 + r.a

/-- The position of the lowest 1 bit of v, looking at `fuel` bits. -/
def lowBit : Nat → Nat → Nat
  | 0, _ => 0
  | fuel + 1, v => if v % 2 = 1 then 0 else lowBit fuel (v / 2) + 1

/-- A field at bit `pos` that must be zero (R133, R140): otherwise cause 0x02. -/
def needZero (pos v : Nat) (k : Except DecodeErr Instr) : Except DecodeErr Instr :=
  if v = 0 then k else .error (.nonzero (pos + lowBit 32 v))

/-- A code field must hold an assigned value (R145): otherwise cause 0x01 kind 2. -/
def needCode (p : Prop) [Decidable p] (k : Except DecodeErr Instr) : Except DecodeErr Instr :=
  if p then k else .error (.reserved 2)

/-- OPC 0x01: ADD, SUB, AND, OR, XOR, SLL, SRL, SRA, MIN, MAX, MINS, MAXS, SLT, SLTS, SEL (Table 7-4). -/
def decodeOp01 (r : Raw) : Except DecodeErr Instr :=
  match r.fn with
  | 0 => .ok (.add (Fin.ofNat 128 (r.a)) (Fin.ofNat 128 (r.b)) (Fin.ofNat 128 (r.c)))
  | 1 => .ok (.sub (Fin.ofNat 128 (r.a)) (Fin.ofNat 128 (r.b)) (Fin.ofNat 128 (r.c)))
  | 2 => .ok (.and (Fin.ofNat 128 (r.a)) (Fin.ofNat 128 (r.b)) (Fin.ofNat 128 (r.c)))
  | 3 => .ok (.or (Fin.ofNat 128 (r.a)) (Fin.ofNat 128 (r.b)) (Fin.ofNat 128 (r.c)))
  | 4 => .ok (.xor (Fin.ofNat 128 (r.a)) (Fin.ofNat 128 (r.b)) (Fin.ofNat 128 (r.c)))
  | 5 => .ok (.sll (Fin.ofNat 128 (r.a)) (Fin.ofNat 128 (r.b)) (Fin.ofNat 128 (r.c)))
  | 6 => .ok (.srl (Fin.ofNat 128 (r.a)) (Fin.ofNat 128 (r.b)) (Fin.ofNat 128 (r.c)))
  | 7 => .ok (.sra (Fin.ofNat 128 (r.a)) (Fin.ofNat 128 (r.b)) (Fin.ofNat 128 (r.c)))
  | 8 => .ok (.min (Fin.ofNat 128 (r.a)) (Fin.ofNat 128 (r.b)) (Fin.ofNat 128 (r.c)))
  | 9 => .ok (.max (Fin.ofNat 128 (r.a)) (Fin.ofNat 128 (r.b)) (Fin.ofNat 128 (r.c)))
  | 10 => .ok (.mins (Fin.ofNat 128 (r.a)) (Fin.ofNat 128 (r.b)) (Fin.ofNat 128 (r.c)))
  | 11 => .ok (.maxs (Fin.ofNat 128 (r.a)) (Fin.ofNat 128 (r.b)) (Fin.ofNat 128 (r.c)))
  | 12 => .ok (.slt (Fin.ofNat 128 (r.a)) (Fin.ofNat 128 (r.b)) (Fin.ofNat 128 (r.c)))
  | 13 => .ok (.slts (Fin.ofNat 128 (r.a)) (Fin.ofNat 128 (r.b)) (Fin.ofNat 128 (r.c)))
  | 14 => .ok (.sel (Fin.ofNat 128 (r.a)) (Fin.ofNat 128 (r.b)) (Fin.ofNat 128 (r.c)))
  | _ => .error (.reserved 1)

/-- OPC 0x02: MUL, MULH, MULHS, DIV, DIVS, REM, REMS (Table 7-4). -/
def decodeOp02 (r : Raw) : Except DecodeErr Instr :=
  match r.fn with
  | 0 => .ok (.mul (Fin.ofNat 128 (r.a)) (Fin.ofNat 128 (r.b)) (Fin.ofNat 128 (r.c)))
  | 1 => .ok (.mulh (Fin.ofNat 128 (r.a)) (Fin.ofNat 128 (r.b)) (Fin.ofNat 128 (r.c)))
  | 2 => .ok (.mulhs (Fin.ofNat 128 (r.a)) (Fin.ofNat 128 (r.b)) (Fin.ofNat 128 (r.c)))
  | 3 => .ok (.div (Fin.ofNat 128 (r.a)) (Fin.ofNat 128 (r.b)) (Fin.ofNat 128 (r.c)))
  | 4 => .ok (.divs (Fin.ofNat 128 (r.a)) (Fin.ofNat 128 (r.b)) (Fin.ofNat 128 (r.c)))
  | 5 => .ok (.rem (Fin.ofNat 128 (r.a)) (Fin.ofNat 128 (r.b)) (Fin.ofNat 128 (r.c)))
  | 6 => .ok (.rems (Fin.ofNat 128 (r.a)) (Fin.ofNat 128 (r.b)) (Fin.ofNat 128 (r.c)))
  | _ => .error (.reserved 1)

/-- OPC 0x03: CLZ, CTZ, POPC, BREV, BSWAP, SEXT, ZEXT, EXTR, INS (Table 7-4). -/
def decodeOp03 (r : Raw) : Except DecodeErr Instr :=
  match r.fn with
  | 0 => needZero 21 (r.c) <| .ok (.clz (Fin.ofNat 128 (r.a)) (Fin.ofNat 128 (r.b)))
  | 1 => needZero 21 (r.c) <| .ok (.ctz (Fin.ofNat 128 (r.a)) (Fin.ofNat 128 (r.b)))
  | 2 => needZero 21 (r.c) <| .ok (.popc (Fin.ofNat 128 (r.a)) (Fin.ofNat 128 (r.b)))
  | 3 => needZero 21 (r.c) <| .ok (.brev (Fin.ofNat 128 (r.a)) (Fin.ofNat 128 (r.b)))
  | 4 => needZero 21 (r.c) <| .ok (.bswap (Fin.ofNat 128 (r.a)) (Fin.ofNat 128 (r.b)))
  | 5 => .ok (.sext (Fin.ofNat 128 (r.a)) (Fin.ofNat 128 (r.b)) (Fin.ofNat 128 (r.c)))
  | 6 => .ok (.zext (Fin.ofNat 128 (r.a)) (Fin.ofNat 128 (r.b)) (Fin.ofNat 128 (r.c)))
  | 7 => .ok (.extr (Fin.ofNat 128 (r.a)) (Fin.ofNat 128 (r.b)) (Fin.ofNat 128 (r.c)))
  | 8 => .ok (.ins (Fin.ofNat 128 (r.a)) (Fin.ofNat 128 (r.b)) (Fin.ofNat 128 (r.c)))
  | _ => .error (.reserved 1)

/-- OPC 0x04: ADDI (Table 7-4). -/
def decodeOp04 (r : Raw) : Except DecodeErr Instr :=
  .ok (.addi (Fin.ofNat 128 (r.a)) (Fin.ofNat 128 (r.b)) (BitVec.ofNat 11 (r.imm11)))

/-- OPC 0x05: ANDI (Table 7-4). -/
def decodeOp05 (r : Raw) : Except DecodeErr Instr :=
  .ok (.andi (Fin.ofNat 128 (r.a)) (Fin.ofNat 128 (r.b)) (BitVec.ofNat 11 (r.imm11)))

/-- OPC 0x06: ORI (Table 7-4). -/
def decodeOp06 (r : Raw) : Except DecodeErr Instr :=
  .ok (.ori (Fin.ofNat 128 (r.a)) (Fin.ofNat 128 (r.b)) (BitVec.ofNat 11 (r.imm11)))

/-- OPC 0x07: XORI (Table 7-4). -/
def decodeOp07 (r : Raw) : Except DecodeErr Instr :=
  .ok (.xori (Fin.ofNat 128 (r.a)) (Fin.ofNat 128 (r.b)) (BitVec.ofNat 11 (r.imm11)))

/-- OPC 0x08: SLTI (Table 7-4). -/
def decodeOp08 (r : Raw) : Except DecodeErr Instr :=
  .ok (.slti (Fin.ofNat 128 (r.a)) (Fin.ofNat 128 (r.b)) (BitVec.ofNat 11 (r.imm11)))

/-- OPC 0x09: SLTIS (Table 7-4). -/
def decodeOp09 (r : Raw) : Except DecodeErr Instr :=
  .ok (.sltis (Fin.ofNat 128 (r.a)) (Fin.ofNat 128 (r.b)) (BitVec.ofNat 11 (r.imm11)))

/-- OPC 0x0A: SLLI, SRLI, SRAI (Table 7-4). -/
def decodeOp0A (r : Raw) : Except DecodeErr Instr :=
  match r.imm11 / 512 with
  | 0 => needZero 27 (r.imm11 / 64 % 8) <| .ok (.slli (Fin.ofNat 128 (r.a)) (Fin.ofNat 128 (r.b)) (Fin.ofNat 64 (r.imm11)))
  | 1 => needZero 27 (r.imm11 / 64 % 8) <| .ok (.srli (Fin.ofNat 128 (r.a)) (Fin.ofNat 128 (r.b)) (Fin.ofNat 64 (r.imm11)))
  | 2 => needZero 27 (r.imm11 / 64 % 8) <| .ok (.srai (Fin.ofNat 128 (r.a)) (Fin.ofNat 128 (r.b)) (Fin.ofNat 64 (r.imm11)))
  | _ => .error (.reserved 2)

/-- OPC 0x0B: LUI (Table 7-4). -/
def decodeOp0B (r : Raw) : Except DecodeErr Instr :=
  .ok (.lui (Fin.ofNat 128 (r.a)) (BitVec.ofNat 18 (r.imm18)))

/-- OPC 0x0C: LSH (Table 7-4). -/
def decodeOp0C (r : Raw) : Except DecodeErr Instr :=
  .ok (.lsh (Fin.ofNat 128 (r.a)) (BitVec.ofNat 18 (r.imm18)))

/-- OPC 0x0D: LD_B (Table 7-4). -/
def decodeOp0D (r : Raw) : Except DecodeErr Instr :=
  .ok (.ldB (Fin.ofNat 128 (r.a)) (Fin.ofNat 128 (r.b)) (BitVec.ofNat 11 (r.imm11)))

/-- OPC 0x0E: LD_BS (Table 7-4). -/
def decodeOp0E (r : Raw) : Except DecodeErr Instr :=
  .ok (.ldBs (Fin.ofNat 128 (r.a)) (Fin.ofNat 128 (r.b)) (BitVec.ofNat 11 (r.imm11)))

/-- OPC 0x0F: LD_H (Table 7-4). -/
def decodeOp0F (r : Raw) : Except DecodeErr Instr :=
  .ok (.ldH (Fin.ofNat 128 (r.a)) (Fin.ofNat 128 (r.b)) (BitVec.ofNat 11 (r.imm11)))

/-- OPC 0x10: LD_HS (Table 7-4). -/
def decodeOp10 (r : Raw) : Except DecodeErr Instr :=
  .ok (.ldHs (Fin.ofNat 128 (r.a)) (Fin.ofNat 128 (r.b)) (BitVec.ofNat 11 (r.imm11)))

/-- OPC 0x11: LD_W (Table 7-4). -/
def decodeOp11 (r : Raw) : Except DecodeErr Instr :=
  .ok (.ldW (Fin.ofNat 128 (r.a)) (Fin.ofNat 128 (r.b)) (BitVec.ofNat 11 (r.imm11)))

/-- OPC 0x12: LD_WS (Table 7-4). -/
def decodeOp12 (r : Raw) : Except DecodeErr Instr :=
  .ok (.ldWs (Fin.ofNat 128 (r.a)) (Fin.ofNat 128 (r.b)) (BitVec.ofNat 11 (r.imm11)))

/-- OPC 0x13: LD_D (Table 7-4). -/
def decodeOp13 (r : Raw) : Except DecodeErr Instr :=
  .ok (.ldD (Fin.ofNat 128 (r.a)) (Fin.ofNat 128 (r.b)) (BitVec.ofNat 11 (r.imm11)))

/-- OPC 0x14: ST_B (Table 7-4). -/
def decodeOp14 (r : Raw) : Except DecodeErr Instr :=
  .ok (.stB (Fin.ofNat 128 (r.a)) (Fin.ofNat 128 (r.b)) (BitVec.ofNat 11 (r.imm11)))

/-- OPC 0x15: ST_H (Table 7-4). -/
def decodeOp15 (r : Raw) : Except DecodeErr Instr :=
  .ok (.stH (Fin.ofNat 128 (r.a)) (Fin.ofNat 128 (r.b)) (BitVec.ofNat 11 (r.imm11)))

/-- OPC 0x16: ST_W (Table 7-4). -/
def decodeOp16 (r : Raw) : Except DecodeErr Instr :=
  .ok (.stW (Fin.ofNat 128 (r.a)) (Fin.ofNat 128 (r.b)) (BitVec.ofNat 11 (r.imm11)))

/-- OPC 0x17: ST_D (Table 7-4). -/
def decodeOp17 (r : Raw) : Except DecodeErr Instr :=
  .ok (.stD (Fin.ofNat 128 (r.a)) (Fin.ofNat 128 (r.b)) (BitVec.ofNat 11 (r.imm11)))

/-- OPC 0x18: BEQ (Table 7-4). -/
def decodeOp18 (r : Raw) : Except DecodeErr Instr :=
  .ok (.beq (Fin.ofNat 128 (r.a)) (Fin.ofNat 128 (r.b)) (BitVec.ofNat 11 (r.imm11)))

/-- OPC 0x19: BNE (Table 7-4). -/
def decodeOp19 (r : Raw) : Except DecodeErr Instr :=
  .ok (.bne (Fin.ofNat 128 (r.a)) (Fin.ofNat 128 (r.b)) (BitVec.ofNat 11 (r.imm11)))

/-- OPC 0x1A: BLT (Table 7-4). -/
def decodeOp1A (r : Raw) : Except DecodeErr Instr :=
  .ok (.blt (Fin.ofNat 128 (r.a)) (Fin.ofNat 128 (r.b)) (BitVec.ofNat 11 (r.imm11)))

/-- OPC 0x1B: BGE (Table 7-4). -/
def decodeOp1B (r : Raw) : Except DecodeErr Instr :=
  .ok (.bge (Fin.ofNat 128 (r.a)) (Fin.ofNat 128 (r.b)) (BitVec.ofNat 11 (r.imm11)))

/-- OPC 0x1C: BLTS (Table 7-4). -/
def decodeOp1C (r : Raw) : Except DecodeErr Instr :=
  .ok (.blts (Fin.ofNat 128 (r.a)) (Fin.ofNat 128 (r.b)) (BitVec.ofNat 11 (r.imm11)))

/-- OPC 0x1D: BGES (Table 7-4). -/
def decodeOp1D (r : Raw) : Except DecodeErr Instr :=
  .ok (.bges (Fin.ofNat 128 (r.a)) (Fin.ofNat 128 (r.b)) (BitVec.ofNat 11 (r.imm11)))

/-- OPC 0x1E: J (Table 7-4). -/
def decodeOp1E (r : Raw) : Except DecodeErr Instr :=
  .ok (.j (BitVec.ofNat 25 (r.imm25)))

/-- OPC 0x1F: JAL (Table 7-4). -/
def decodeOp1F (r : Raw) : Except DecodeErr Instr :=
  .ok (.jal (BitVec.ofNat 25 (r.imm25)))

/-- OPC 0x20: JR, JALR (Table 7-4). -/
def decodeOp20 (r : Raw) : Except DecodeErr Instr :=
  match r.fn with
  | 0 => needZero 7 (r.a) <| needZero 21 (r.c) <| .ok (.jr (Fin.ofNat 128 (r.b)))
  | 1 => needZero 21 (r.c) <| .ok (.jalr (Fin.ofNat 128 (r.a)) (Fin.ofNat 128 (r.b)))
  | _ => .error (.reserved 1)

/-- OPC 0x21: LOOP (Table 7-4). -/
def decodeOp21 (r : Raw) : Except DecodeErr Instr :=
  needZero 8 (r.a / 2) <| .ok (.loop (Fin.ofNat 2 (r.a)) (Fin.ofNat 128 (r.b)) (BitVec.ofNat 11 (r.imm11)))

/-- OPC 0x22: LCLR, WBASE, FLSET, FLGET, YIELD, EXIT, RPOINT, REALIGN, FENCEI, BRK, DROSS, WAITT, WAITEV (Table 7-4). -/
def decodeOp22 (r : Raw) : Except DecodeErr Instr :=
  match r.fn with
  | 0 => needZero 9 (r.a / 4) <| needZero 14 (r.b) <| needZero 21 (r.c) <| .ok (.lclr (Fin.ofNat 4 (r.a)))
  | 1 => needZero 7 (r.a) <| needZero 21 (r.c) <| .ok (.wbase (Fin.ofNat 128 (r.b)))
  | 2 => needZero 10 (r.a / 8) <| needZero 21 (r.c) <| .ok (.flset (Fin.ofNat 8 (r.a)) (Fin.ofNat 128 (r.b)))
  | 3 => needZero 17 (r.b / 8) <| needZero 21 (r.c) <| .ok (.flget (Fin.ofNat 128 (r.a)) (Fin.ofNat 8 (r.b)))
  | 4 => needZero 7 (r.a) <| needZero 14 (r.b) <| needZero 21 (r.c) <| .ok (.yield)
  | 5 => needZero 7 (r.a) <| needZero 14 (r.b) <| needZero 21 (r.c) <| .ok (.exit)
  | 6 => needZero 7 (r.a) <| needZero 14 (r.b) <| needZero 21 (r.c) <| .ok (.rpoint)
  | 7 => needZero 7 (r.a) <| needZero 14 (r.b) <| needZero 21 (r.c) <| .ok (.realign)
  | 8 => needZero 7 (r.a) <| needZero 14 (r.b) <| needZero 21 (r.c) <| .ok (.fencei)
  | 9 => needZero 7 (r.a) <| needZero 14 (r.b) <| needZero 21 (r.c) <| .ok (.brk)
  | 10 => needZero 7 (r.a) <| .ok (.dross (Fin.ofNat 128 (r.b)) (Fin.ofNat 128 (r.c)))
  | 11 => needZero 7 (r.a) <| needZero 21 (r.c) <| .ok (.waitt (Fin.ofNat 128 (r.b)))
  | 12 => needZero 7 (r.a) <| needZero 21 (r.c) <| .ok (.waitev (Fin.ofNat 128 (r.b)))
  | _ => .error (.reserved 1)

/-- OPC 0x23: CRR (Table 7-4). -/
def decodeOp23 (r : Raw) : Except DecodeErr Instr :=
  needZero 14 (r.b) <| .ok (.crr (Fin.ofNat 128 (r.a)) (Fin.ofNat 2048 (r.imm11)))

/-- OPC 0x24: CRW (Table 7-4). -/
def decodeOp24 (r : Raw) : Except DecodeErr Instr :=
  needZero 14 (r.b) <| .ok (.crw (Fin.ofNat 128 (r.a)) (Fin.ofNat 2048 (r.imm11)))

/-- OPC 0x25: CRS (Table 7-4). -/
def decodeOp25 (r : Raw) : Except DecodeErr Instr :=
  needZero 14 (r.b) <| .ok (.crs (Fin.ofNat 128 (r.a)) (Fin.ofNat 2048 (r.imm11)))

/-- OPC 0x26: CRC (Table 7-4). -/
def decodeOp26 (r : Raw) : Except DecodeErr Instr :=
  needZero 14 (r.b) <| .ok (.crc (Fin.ofNat 128 (r.a)) (Fin.ofNat 2048 (r.imm11)))

/-- OPC 0x27: TRAP (Table 7-4). -/
def decodeOp27 (r : Raw) : Except DecodeErr Instr :=
  needZero 7 (r.a) <| .ok (.trap (BitVec.ofNat 18 (r.imm18)))

/-- OPC 0x28: ERET (Table 7-4). -/
def decodeOp28 (r : Raw) : Except DecodeErr Instr :=
  needZero 7 (r.a) <| needZero 14 (r.b) <| needZero 21 (r.c) <| needZero 28 (r.fn) <| .ok (.eret)

/-- OPC 0x29: LAUNCH (Table 7-4). -/
def decodeOp29 (r : Raw) : Except DecodeErr Instr :=
  match r.fn with
  | 0 => needZero 7 (r.a) <| needZero 24 (r.c / 8) <| .ok (.launch (Fin.ofNat 128 (r.b)) (Fin.ofNat 8 (r.c)))
  | _ => .error (.reserved 1)

/-- OPC 0x2A: PADD, PMK, PSEG, POFF (Table 7-4). -/
def decodeOp2A (r : Raw) : Except DecodeErr Instr :=
  match r.fn with
  | 0 => .ok (.padd (Fin.ofNat 128 (r.a)) (Fin.ofNat 128 (r.b)) (Fin.ofNat 128 (r.c)))
  | 1 => .ok (.pmk (Fin.ofNat 128 (r.a)) (Fin.ofNat 128 (r.b)) (Fin.ofNat 128 (r.c)))
  | 2 => needZero 21 (r.c) <| .ok (.pseg (Fin.ofNat 128 (r.a)) (Fin.ofNat 128 (r.b)))
  | 3 => needZero 21 (r.c) <| .ok (.poff (Fin.ofNat 128 (r.a)) (Fin.ofNat 128 (r.b)))
  | _ => .error (.reserved 1)

/-- OPC 0x2B: PADDI (Table 7-4). -/
def decodeOp2B (r : Raw) : Except DecodeErr Instr :=
  .ok (.paddi (Fin.ofNat 128 (r.a)) (Fin.ofNat 128 (r.b)) (BitVec.ofNat 11 (r.imm11)))

/-- d0, bits 13:9 of a header (Table 7-3). -/
def Raw.hd0 (r : Raw) : Nat := r.a / 4
/-- d1, bits 18:14. -/
def Raw.hd1 (r : Raw) : Nat := r.b % 32
/-- d2, bits 23:19. -/
def Raw.hd2 (r : Raw) : Nat := r.b / 32 + r.c % 8 * 4
/-- d3, bits 28:24. -/
def Raw.hd3 (r : Raw) : Nat := r.c / 8 + r.fn % 2 * 16

/-- OPC 0x7F: the convoy header (Table 7-3, R352). -/
def decodeOp7F (r : Raw) : Except DecodeErr Instr :=
  let cnt := r.a % 4
  needZero 14 (if cnt < 1 then r.hd1 else 0) <| needZero 19 (if cnt < 2 then r.hd2 else 0) <|
    needZero 24 (if cnt < 3 then r.hd3 else 0) <| needZero 30 (r.fn / 4) <|
    .ok (.convoyHeader (r.fn / 2 % 2 == 1) (Fin.ofNat 32 r.hd3) (Fin.ofNat 32 r.hd2) (Fin.ofNat 32 r.hd1)
      (Fin.ofNat 32 r.hd0) (Fin.ofNat 4 cnt))

/-- OPC 0x30: VADD, VSUB, VAND, VOR, VXOR, VMIN, VMAX, VMUL (Table 7-4). -/
def decodeOp30 (r : Raw) : Except DecodeErr Instr :=
  match r.fn % 8 with
  | 0 => .ok (.vadd ((r.fn / 8) % 2 == 1) (Fin.ofNat 128 (r.a)) (Fin.ofNat 128 (r.b)) (Fin.ofNat 128 (r.c)))
  | 1 => .ok (.vsub ((r.fn / 8) % 2 == 1) (Fin.ofNat 128 (r.a)) (Fin.ofNat 128 (r.b)) (Fin.ofNat 128 (r.c)))
  | 2 => .ok (.vand ((r.fn / 8) % 2 == 1) (Fin.ofNat 128 (r.a)) (Fin.ofNat 128 (r.b)) (Fin.ofNat 128 (r.c)))
  | 3 => .ok (.vor ((r.fn / 8) % 2 == 1) (Fin.ofNat 128 (r.a)) (Fin.ofNat 128 (r.b)) (Fin.ofNat 128 (r.c)))
  | 4 => .ok (.vxor ((r.fn / 8) % 2 == 1) (Fin.ofNat 128 (r.a)) (Fin.ofNat 128 (r.b)) (Fin.ofNat 128 (r.c)))
  | 5 => .ok (.vmin ((r.fn / 8) % 2 == 1) (Fin.ofNat 128 (r.a)) (Fin.ofNat 128 (r.b)) (Fin.ofNat 128 (r.c)))
  | 6 => .ok (.vmax ((r.fn / 8) % 2 == 1) (Fin.ofNat 128 (r.a)) (Fin.ofNat 128 (r.b)) (Fin.ofNat 128 (r.c)))
  | 7 => .ok (.vmul ((r.fn / 8) % 2 == 1) (Fin.ofNat 128 (r.a)) (Fin.ofNat 128 (r.b)) (Fin.ofNat 128 (r.c)))
  | _ => .error (.reserved 1)

/-- OPC 0x31: VSLL, VSRL, VSRA, VADDS, VSUBS, VMULH, VABS, VNEG (Table 7-4). -/
def decodeOp31 (r : Raw) : Except DecodeErr Instr :=
  match r.fn % 8 with
  | 0 => .ok (.vsll ((r.fn / 8) % 2 == 1) (Fin.ofNat 128 (r.a)) (Fin.ofNat 128 (r.b)) (Fin.ofNat 128 (r.c)))
  | 1 => .ok (.vsrl ((r.fn / 8) % 2 == 1) (Fin.ofNat 128 (r.a)) (Fin.ofNat 128 (r.b)) (Fin.ofNat 128 (r.c)))
  | 2 => .ok (.vsra ((r.fn / 8) % 2 == 1) (Fin.ofNat 128 (r.a)) (Fin.ofNat 128 (r.b)) (Fin.ofNat 128 (r.c)))
  | 3 => .ok (.vadds ((r.fn / 8) % 2 == 1) (Fin.ofNat 128 (r.a)) (Fin.ofNat 128 (r.b)) (Fin.ofNat 128 (r.c)))
  | 4 => .ok (.vsubs ((r.fn / 8) % 2 == 1) (Fin.ofNat 128 (r.a)) (Fin.ofNat 128 (r.b)) (Fin.ofNat 128 (r.c)))
  | 5 => .ok (.vmulh ((r.fn / 8) % 2 == 1) (Fin.ofNat 128 (r.a)) (Fin.ofNat 128 (r.b)) (Fin.ofNat 128 (r.c)))
  | 6 => needZero 21 (r.c) <| .ok (.vabs ((r.fn / 8) % 2 == 1) (Fin.ofNat 128 (r.a)) (Fin.ofNat 128 (r.b)))
  | 7 => needZero 21 (r.c) <| .ok (.vneg ((r.fn / 8) % 2 == 1) (Fin.ofNat 128 (r.a)) (Fin.ofNat 128 (r.b)))
  | _ => .error (.reserved 1)

/-- OPC 0x32: VCMP (Table 7-4). -/
def decodeOp32 (r : Raw) : Except DecodeErr Instr :=
  if r.fn % 8 < 6 then needZero 11 (r.a / 16) <| .ok (.vcmp ((r.fn / 8) % 2 == 1) (Fin.ofNat 8 (r.fn)) (Fin.ofNat 16 (r.a)) (Fin.ofNat 128 (r.b)) (Fin.ofNat 128 (r.c))) else .error (.reserved 1)

/-- OPC 0x33: VFADD, VFSUB, VFMUL, VFMIN, VFMAX, VFDIV, VFSQRT (Table 7-4). -/
def decodeOp33 (r : Raw) : Except DecodeErr Instr :=
  match r.fn % 8 with
  | 0 => .ok (.vfadd ((r.fn / 8) % 2 == 1) (Fin.ofNat 128 (r.a)) (Fin.ofNat 128 (r.b)) (Fin.ofNat 128 (r.c)))
  | 1 => .ok (.vfsub ((r.fn / 8) % 2 == 1) (Fin.ofNat 128 (r.a)) (Fin.ofNat 128 (r.b)) (Fin.ofNat 128 (r.c)))
  | 2 => .ok (.vfmul ((r.fn / 8) % 2 == 1) (Fin.ofNat 128 (r.a)) (Fin.ofNat 128 (r.b)) (Fin.ofNat 128 (r.c)))
  | 3 => .ok (.vfmin ((r.fn / 8) % 2 == 1) (Fin.ofNat 128 (r.a)) (Fin.ofNat 128 (r.b)) (Fin.ofNat 128 (r.c)))
  | 4 => .ok (.vfmax ((r.fn / 8) % 2 == 1) (Fin.ofNat 128 (r.a)) (Fin.ofNat 128 (r.b)) (Fin.ofNat 128 (r.c)))
  | 5 => .ok (.vfdiv ((r.fn / 8) % 2 == 1) (Fin.ofNat 128 (r.a)) (Fin.ofNat 128 (r.b)) (Fin.ofNat 128 (r.c)))
  | 6 => needZero 21 (r.c) <| .ok (.vfsqrt ((r.fn / 8) % 2 == 1) (Fin.ofNat 128 (r.a)) (Fin.ofNat 128 (r.b)))
  | _ => .error (.reserved 1)

/-- OPC 0x34: VFMA, VFMS, VFNMA, VFNEG, VFABS (Table 7-4). -/
def decodeOp34 (r : Raw) : Except DecodeErr Instr :=
  match r.fn % 8 with
  | 0 => .ok (.vfma ((r.fn / 8) % 2 == 1) (Fin.ofNat 128 (r.a)) (Fin.ofNat 128 (r.b)) (Fin.ofNat 128 (r.c)))
  | 1 => .ok (.vfms ((r.fn / 8) % 2 == 1) (Fin.ofNat 128 (r.a)) (Fin.ofNat 128 (r.b)) (Fin.ofNat 128 (r.c)))
  | 2 => .ok (.vfnma ((r.fn / 8) % 2 == 1) (Fin.ofNat 128 (r.a)) (Fin.ofNat 128 (r.b)) (Fin.ofNat 128 (r.c)))
  | 3 => needZero 21 (r.c) <| .ok (.vfneg ((r.fn / 8) % 2 == 1) (Fin.ofNat 128 (r.a)) (Fin.ofNat 128 (r.b)))
  | 4 => needZero 21 (r.c) <| .ok (.vfabs ((r.fn / 8) % 2 == 1) (Fin.ofNat 128 (r.a)) (Fin.ofNat 128 (r.b)))
  | _ => .error (.reserved 1)

/-- OPC 0x35: VFCMP (Table 7-4). -/
def decodeOp35 (r : Raw) : Except DecodeErr Instr :=
  if r.fn % 8 < 5 then needZero 11 (r.a / 16) <| .ok (.vfcmp ((r.fn / 8) % 2 == 1) (Fin.ofNat 8 (r.fn)) (Fin.ofNat 16 (r.a)) (Fin.ofNat 128 (r.b)) (Fin.ofNat 128 (r.c))) else .error (.reserved 1)

/-- OPC 0x36: VEXP2, VLOG2, VRCP, VRSQRT, VTANH, VSIGM (Table 7-4). -/
def decodeOp36 (r : Raw) : Except DecodeErr Instr :=
  match r.fn % 8 with
  | 0 => needZero 21 (r.c) <| .ok (.vexp2 ((r.fn / 8) % 2 == 1) (Fin.ofNat 128 (r.a)) (Fin.ofNat 128 (r.b)))
  | 1 => needZero 21 (r.c) <| .ok (.vlog2 ((r.fn / 8) % 2 == 1) (Fin.ofNat 128 (r.a)) (Fin.ofNat 128 (r.b)))
  | 2 => needZero 21 (r.c) <| .ok (.vrcp ((r.fn / 8) % 2 == 1) (Fin.ofNat 128 (r.a)) (Fin.ofNat 128 (r.b)))
  | 3 => needZero 21 (r.c) <| .ok (.vrsqrt ((r.fn / 8) % 2 == 1) (Fin.ofNat 128 (r.a)) (Fin.ofNat 128 (r.b)))
  | 4 => needZero 21 (r.c) <| .ok (.vtanh ((r.fn / 8) % 2 == 1) (Fin.ofNat 128 (r.a)) (Fin.ofNat 128 (r.b)))
  | 5 => needZero 21 (r.c) <| .ok (.vsigm ((r.fn / 8) % 2 == 1) (Fin.ofNat 128 (r.a)) (Fin.ofNat 128 (r.b)))
  | _ => .error (.reserved 1)

/-- OPC 0x37: VCVT (Table 7-4). -/
def decodeOp37 (r : Raw) : Except DecodeErr Instr :=
  needCode (r.c / 16 % 8 < 6) <| needZero 28 (r.fn % 8) <| .ok (.vcvt ((r.fn / 8) % 2 == 1) (Fin.ofNat 128 (r.a)) (Fin.ofNat 128 (r.b)) (Fin.ofNat 16 (r.c)) (Fin.ofNat 8 (r.c / 16)))

/-- OPC 0x38: VMV, VBCAST, VEXT, VINS, VIOTA, VSLIDEUP, VSLIDEDN, VGATHERI (Table 7-4). -/
def decodeOp38 (r : Raw) : Except DecodeErr Instr :=
  match r.fn % 8 with
  | 0 => needZero 21 (r.c) <| .ok (.vmv ((r.fn / 8) % 2 == 1) (Fin.ofNat 128 (r.a)) (Fin.ofNat 128 (r.b)))
  | 1 => needZero 21 (r.c) <| .ok (.vbcast ((r.fn / 8) % 2 == 1) (Fin.ofNat 128 (r.a)) (Fin.ofNat 128 (r.b)))
  | 2 => .ok (.vext ((r.fn / 8) % 2 == 1) (Fin.ofNat 128 (r.a)) (Fin.ofNat 128 (r.b)) (Fin.ofNat 128 (r.c)))
  | 3 => .ok (.vins ((r.fn / 8) % 2 == 1) (Fin.ofNat 128 (r.a)) (Fin.ofNat 128 (r.b)) (Fin.ofNat 128 (r.c)))
  | 4 => needZero 14 (r.b) <| needZero 21 (r.c) <| .ok (.viota ((r.fn / 8) % 2 == 1) (Fin.ofNat 128 (r.a)))
  | 5 => .ok (.vslideup ((r.fn / 8) % 2 == 1) (Fin.ofNat 128 (r.a)) (Fin.ofNat 128 (r.b)) (Fin.ofNat 128 (r.c)))
  | 6 => .ok (.vslidedn ((r.fn / 8) % 2 == 1) (Fin.ofNat 128 (r.a)) (Fin.ofNat 128 (r.b)) (Fin.ofNat 128 (r.c)))
  | 7 => .ok (.vgatheri ((r.fn / 8) % 2 == 1) (Fin.ofNat 128 (r.a)) (Fin.ofNat 128 (r.b)) (Fin.ofNat 128 (r.c)))
  | _ => .error (.reserved 1)

/-- OPC 0x39: VREDSUM, VREDMIN, VREDMAX, VREDMINS, VREDMAXS, VFREDSUM, VFREDMIN, VFREDMAX (Table 7-4). -/
def decodeOp39 (r : Raw) : Except DecodeErr Instr :=
  match r.fn % 8 with
  | 0 => needZero 21 (r.c) <| .ok (.vredsum ((r.fn / 8) % 2 == 1) (Fin.ofNat 128 (r.a)) (Fin.ofNat 128 (r.b)))
  | 1 => needZero 21 (r.c) <| .ok (.vredmin ((r.fn / 8) % 2 == 1) (Fin.ofNat 128 (r.a)) (Fin.ofNat 128 (r.b)))
  | 2 => needZero 21 (r.c) <| .ok (.vredmax ((r.fn / 8) % 2 == 1) (Fin.ofNat 128 (r.a)) (Fin.ofNat 128 (r.b)))
  | 3 => needZero 21 (r.c) <| .ok (.vredmins ((r.fn / 8) % 2 == 1) (Fin.ofNat 128 (r.a)) (Fin.ofNat 128 (r.b)))
  | 4 => needZero 21 (r.c) <| .ok (.vredmaxs ((r.fn / 8) % 2 == 1) (Fin.ofNat 128 (r.a)) (Fin.ofNat 128 (r.b)))
  | 5 => needZero 21 (r.c) <| .ok (.vfredsum ((r.fn / 8) % 2 == 1) (Fin.ofNat 128 (r.a)) (Fin.ofNat 128 (r.b)))
  | 6 => needZero 21 (r.c) <| .ok (.vfredmin ((r.fn / 8) % 2 == 1) (Fin.ofNat 128 (r.a)) (Fin.ofNat 128 (r.b)))
  | 7 => needZero 21 (r.c) <| .ok (.vfredmax ((r.fn / 8) % 2 == 1) (Fin.ofNat 128 (r.a)) (Fin.ofNat 128 (r.b)))
  | _ => .error (.reserved 1)

/-- OPC 0x3A: VSCAN_ADD, VSCAN_MIN, VSCAN_MAX, VFSCAN_ADD, VFSCAN_MAX (Table 7-4). -/
def decodeOp3A (r : Raw) : Except DecodeErr Instr :=
  match r.fn % 8 with
  | 0 => needZero 21 (r.c) <| .ok (.vscanAdd ((r.fn / 8) % 2 == 1) (Fin.ofNat 128 (r.a)) (Fin.ofNat 128 (r.b)))
  | 1 => needZero 21 (r.c) <| .ok (.vscanMin ((r.fn / 8) % 2 == 1) (Fin.ofNat 128 (r.a)) (Fin.ofNat 128 (r.b)))
  | 2 => needZero 21 (r.c) <| .ok (.vscanMax ((r.fn / 8) % 2 == 1) (Fin.ofNat 128 (r.a)) (Fin.ofNat 128 (r.b)))
  | 3 => needZero 21 (r.c) <| .ok (.vfscanAdd ((r.fn / 8) % 2 == 1) (Fin.ofNat 128 (r.a)) (Fin.ofNat 128 (r.b)))
  | 4 => needZero 21 (r.c) <| .ok (.vfscanMax ((r.fn / 8) % 2 == 1) (Fin.ofNat 128 (r.a)) (Fin.ofNat 128 (r.b)))
  | _ => .error (.reserved 1)

/-- OPC 0x3B: MAND, MOR, MXOR, MANDN, MNOT, MPOPC, MFIRST, VCOMPRESS (Table 7-4). -/
def decodeOp3B (r : Raw) : Except DecodeErr Instr :=
  match r.fn % 8 with
  | 0 => needZero 11 (r.a / 16) <| needZero 18 (r.b / 16) <| needZero 25 (r.c / 16) <| .ok (.mand ((r.fn / 8) % 2 == 1) (Fin.ofNat 16 (r.a)) (Fin.ofNat 16 (r.b)) (Fin.ofNat 16 (r.c)))
  | 1 => needZero 11 (r.a / 16) <| needZero 18 (r.b / 16) <| needZero 25 (r.c / 16) <| .ok (.mor ((r.fn / 8) % 2 == 1) (Fin.ofNat 16 (r.a)) (Fin.ofNat 16 (r.b)) (Fin.ofNat 16 (r.c)))
  | 2 => needZero 11 (r.a / 16) <| needZero 18 (r.b / 16) <| needZero 25 (r.c / 16) <| .ok (.mxor ((r.fn / 8) % 2 == 1) (Fin.ofNat 16 (r.a)) (Fin.ofNat 16 (r.b)) (Fin.ofNat 16 (r.c)))
  | 3 => needZero 11 (r.a / 16) <| needZero 18 (r.b / 16) <| needZero 25 (r.c / 16) <| .ok (.mandn ((r.fn / 8) % 2 == 1) (Fin.ofNat 16 (r.a)) (Fin.ofNat 16 (r.b)) (Fin.ofNat 16 (r.c)))
  | 4 => needZero 11 (r.a / 16) <| needZero 18 (r.b / 16) <| needZero 21 (r.c) <| .ok (.mnot ((r.fn / 8) % 2 == 1) (Fin.ofNat 16 (r.a)) (Fin.ofNat 16 (r.b)))
  | 5 => needZero 18 (r.b / 16) <| needZero 21 (r.c) <| .ok (.mpopc ((r.fn / 8) % 2 == 1) (Fin.ofNat 128 (r.a)) (Fin.ofNat 16 (r.b)))
  | 6 => needZero 18 (r.b / 16) <| needZero 21 (r.c) <| .ok (.mfirst ((r.fn / 8) % 2 == 1) (Fin.ofNat 128 (r.a)) (Fin.ofNat 16 (r.b)))
  | 7 => needZero 25 (r.c / 16) <| .ok (.vcompress ((r.fn / 8) % 2 == 1) (Fin.ofNat 128 (r.a)) (Fin.ofNat 128 (r.b)) (Fin.ofNat 16 (r.c)))
  | _ => .error (.reserved 1)

/-- OPC 0x3C: VPACK (Table 7-4). -/
def decodeOp3C (r : Raw) : Except DecodeErr Instr :=
  needZero 21 (r.c) <| .ok (.vpack ((r.fn / 8) % 2 == 1) (Fin.ofNat 8 (r.fn)) (Fin.ofNat 128 (r.a)) (Fin.ofNat 128 (r.b)))

/-- OPC 0x3D: SETVL (Table 7-4). -/
def decodeOp3D (r : Raw) : Except DecodeErr Instr :=
  needZero 25 (r.imm11 / 16) <| .ok (.setvl (Fin.ofNat 128 (r.a)) (Fin.ofNat 128 (r.b)) (Fin.ofNat 16 (r.imm11)))

/-- OPC 0x3E: VMSEL, VBIND, VUNBIND, VAPPEND, VSPILL, VFILL, VRELEASE, VMBOX (Table 7-4). -/
def decodeOp3E (r : Raw) : Except DecodeErr Instr :=
  match r.fn with
  | 0 => needZero 11 (r.a / 16) <| needZero 14 (r.b) <| needZero 21 (r.c) <| .ok (.vmsel (Fin.ofNat 16 (r.a)))
  | 1 => needZero 18 (r.b / 16) <| needZero 21 (r.c) <| .ok (.vbind (Fin.ofNat 128 (r.a)) (Fin.ofNat 16 (r.b)))
  | 2 => needZero 14 (r.b) <| needZero 21 (r.c) <| .ok (.vunbind (Fin.ofNat 128 (r.a)))
  | 3 => needZero 18 (r.b / 16) <| .ok (.vappend (Fin.ofNat 128 (r.a)) (Fin.ofNat 16 (r.b)) (Fin.ofNat 128 (r.c)))
  | 4 => needZero 21 (r.c) <| .ok (.vspill (Fin.ofNat 128 (r.a)) (Fin.ofNat 128 (r.b)))
  | 5 => needZero 21 (r.c) <| .ok (.vfill (Fin.ofNat 128 (r.a)) (Fin.ofNat 128 (r.b)))
  | 6 => needZero 7 (r.a) <| needZero 14 (r.b) <| needZero 21 (r.c) <| .ok (.vrelease)
  | 7 => needZero 7 (r.a) <| .ok (.vmbox (Fin.ofNat 128 (r.b)) (Fin.ofNat 128 (r.c)))
  | _ => .error (.reserved 1)

/-- OPC 0x3F: VLD, VST, VLDS, VSTS, VLDX, VSTX, VLDT (Table 7-4). -/
def decodeOp3F (r : Raw) : Except DecodeErr Instr :=
  match r.fn % 8 with
  | 0 => needZero 21 (r.c) <| .ok (.vld ((r.fn / 8) % 2 == 1) (Fin.ofNat 128 (r.a)) (Fin.ofNat 128 (r.b)))
  | 1 => needZero 21 (r.c) <| .ok (.vst ((r.fn / 8) % 2 == 1) (Fin.ofNat 128 (r.a)) (Fin.ofNat 128 (r.b)))
  | 2 => .ok (.vlds ((r.fn / 8) % 2 == 1) (Fin.ofNat 128 (r.a)) (Fin.ofNat 128 (r.b)) (Fin.ofNat 128 (r.c)))
  | 3 => .ok (.vsts ((r.fn / 8) % 2 == 1) (Fin.ofNat 128 (r.a)) (Fin.ofNat 128 (r.b)) (Fin.ofNat 128 (r.c)))
  | 4 => .ok (.vldx ((r.fn / 8) % 2 == 1) (Fin.ofNat 128 (r.a)) (Fin.ofNat 128 (r.b)) (Fin.ofNat 128 (r.c)))
  | 5 => .ok (.vstx ((r.fn / 8) % 2 == 1) (Fin.ofNat 128 (r.a)) (Fin.ofNat 128 (r.b)) (Fin.ofNat 128 (r.c)))
  | 6 => .ok (.vldt ((r.fn / 8) % 2 == 1) (Fin.ofNat 128 (r.a)) (Fin.ofNat 128 (r.b)) (Fin.ofNat 128 (r.c)))
  | _ => .error (.reserved 1)

/-- OPC 0x40: VPMUL (Table 7-4). -/
def decodeOp40 (r : Raw) : Except DecodeErr Instr :=
  .ok (.vpmul ((r.fn / 8) % 2 == 1) (Fin.ofNat 8 (r.fn)) (Fin.ofNat 128 (r.a)) (Fin.ofNat 128 (r.b)) (Fin.ofNat 128 (r.c)))

/-- OPC 0x41: VPMULA (Table 7-4). -/
def decodeOp41 (r : Raw) : Except DecodeErr Instr :=
  .ok (.vpmula ((r.fn / 8) % 2 == 1) (Fin.ofNat 8 (r.fn)) (Fin.ofNat 128 (r.a)) (Fin.ofNat 128 (r.b)) (Fin.ofNat 128 (r.c)))

/-- OPC 0x42: VPEXT (Table 7-4). -/
def decodeOp42 (r : Raw) : Except DecodeErr Instr :=
  needZero 21 (r.c) <| .ok (.vpext ((r.fn / 8) % 2 == 1) (Fin.ofNat 8 (r.fn)) (Fin.ofNat 128 (r.a)) (Fin.ofNat 128 (r.b)))

/-- OPC 0x50: MSHAPE (Table 7-4). -/
def decodeOp50 (r : Raw) : Except DecodeErr Instr :=
  match r.fn with
  | 0 => needZero 21 (r.c) <| .ok (.mshape (Fin.ofNat 128 (r.a)) (Fin.ofNat 128 (r.b)))
  | _ => .error (.reserved 1)

/-- OPC 0x51: TMVR, TMVC, TMVRR, TZERO, TLD, TST (Table 7-4). DESIGN CHOICE: a rounding code 6 or 7 in a tile field whose
rounding must be zero, here and in OPC 0x52, is cause 0x02, since the whole field must be zero; Table 20-6 also lists the
code under cause 0x01 kind 2 (notes/assumptions/35.md). -/
def decodeOp51 (r : Raw) : Except DecodeErr Instr :=
  match r.fn with
  | 0 => needCode (r.a / 16 % 8 < 6) <| needZero 10 (r.a / 8 % 2) <| .ok (.tmvr (Fin.ofNat 8 (r.a)) (Fin.ofNat 8 (r.a / 16)) (Fin.ofNat 128 (r.b)) (Fin.ofNat 128 (r.c)))
  | 1 => needCode (r.b / 16 % 8 < 6) <| needZero 17 (r.b / 8 % 2) <| .ok (.tmvc (Fin.ofNat 128 (r.a)) (Fin.ofNat 8 (r.b)) (Fin.ofNat 8 (r.b / 16)) (Fin.ofNat 128 (r.c)))
  | 2 => needCode (r.a / 16 % 8 < 6) <| needCode (r.b / 16 % 8 < 6) <| needZero 10 (r.a / 8) <| needZero 17 (r.b / 8) <| .ok (.tmvrr (Fin.ofNat 8 (r.a)) (Fin.ofNat 8 (r.b)) (Fin.ofNat 128 (r.c)))
  | 3 => needCode (r.a / 16 % 8 < 6) <| needZero 10 (r.a / 8) <| needZero 14 (r.b) <| needZero 21 (r.c) <| .ok (.tzero (Fin.ofNat 8 (r.a)))
  | 4 => needCode (r.a / 16 % 8 < 6) <| needZero 10 (r.a / 8) <| .ok (.tld (Fin.ofNat 8 (r.a)) (Fin.ofNat 128 (r.b)) (Fin.ofNat 128 (r.c)))
  | 5 => needCode (r.a / 16 % 8 < 6) <| needZero 10 (r.a / 8) <| needZero 21 (r.c) <| .ok (.tst (Fin.ofNat 8 (r.a)) (Fin.ofNat 128 (r.b)))
  | _ => .error (.reserved 1)

/-- OPC 0x52: MMA, MMA_A, MMAS, MMAS_A, AZERO, AMV, ALD, AST, BLD, VQUANT, MPERM, MCODE (Table 7-4). -/
def decodeOp52 (r : Raw) : Except DecodeErr Instr :=
  match r.fn with
  | 0 => needCode (r.b / 16 % 8 < 6) <| needZero 11 (r.a / 16) <| needZero 17 (r.b / 8) <| .ok (.mma (Fin.ofNat 16 (r.a)) (Fin.ofNat 8 (r.b)) (Fin.ofNat 128 (r.c)))
  | 1 => needCode (r.b / 16 % 8 < 6) <| needZero 17 (r.b / 8) <| .ok (.mmaA (Fin.ofNat 16 (r.a)) (Fin.ofNat 8 (r.a / 16)) (Fin.ofNat 8 (r.b)) (Fin.ofNat 128 (r.c)))
  | 2 => needCode (r.b / 16 % 8 < 6) <| needZero 11 (r.a / 16) <| needZero 17 (r.b / 8) <| .ok (.mmas (Fin.ofNat 16 (r.a)) (Fin.ofNat 8 (r.b)) (Fin.ofNat 128 (r.c)))
  | 3 => needCode (r.b / 16 % 8 < 6) <| needZero 17 (r.b / 8) <| .ok (.mmasA (Fin.ofNat 16 (r.a)) (Fin.ofNat 8 (r.a / 16)) (Fin.ofNat 8 (r.b)) (Fin.ofNat 128 (r.c)))
  | 4 => needZero 11 (r.a / 16) <| needZero 14 (r.b) <| needZero 21 (r.c) <| .ok (.azero (Fin.ofNat 16 (r.a)))
  | 5 => needCode (r.c / 16 % 8 < 6) <| .ok (.amv (Fin.ofNat 128 (r.a)) (Fin.ofNat 128 (r.b)) (Fin.ofNat 16 (r.c)) (Fin.ofNat 8 (r.c / 16)))
  | 6 => needZero 11 (r.a / 16) <| needZero 21 (r.c) <| .ok (.ald (Fin.ofNat 16 (r.a)) (Fin.ofNat 128 (r.b)))
  | 7 => needZero 11 (r.a / 16) <| needZero 21 (r.c) <| .ok (.ast (Fin.ofNat 16 (r.a)) (Fin.ofNat 128 (r.b)))
  | 8 => needZero 7 (r.a) <| .ok (.bld (Fin.ofNat 128 (r.b)) (Fin.ofNat 128 (r.c)))
  | 9 => needCode (r.a / 16 % 8 < 6) <| needZero 10 (r.a / 8) <| .ok (.vquant (Fin.ofNat 8 (r.a)) (Fin.ofNat 128 (r.b)) (Fin.ofNat 128 (r.c)))
  | 10 => needZero 7 (r.a) <| needZero 21 (r.c) <| .ok (.mperm (Fin.ofNat 128 (r.b)))
  | 11 => needZero 7 (r.a) <| needZero 21 (r.c) <| .ok (.mcode (Fin.ofNat 128 (r.b)))
  | _ => .error (.reserved 1)

/-- OPC 0x60: AMO_ADD, AMO_MIN, AMO_MAX, AMO_MINS, AMO_MAXS, AMO_AND, AMO_OR, AMO_XOR, AMO_SWAP, AMO_CAS, AMO_FADD_F32, AMO_FADD_F64, AMO_ADDNR (Table 7-4). -/
def decodeOp60 (r : Raw) : Except DecodeErr Instr :=
  match r.fn with
  | 0 => .ok (.amoAdd (Fin.ofNat 128 (r.a)) (Fin.ofNat 128 (r.b)) (Fin.ofNat 128 (r.c)))
  | 1 => .ok (.amoMin (Fin.ofNat 128 (r.a)) (Fin.ofNat 128 (r.b)) (Fin.ofNat 128 (r.c)))
  | 2 => .ok (.amoMax (Fin.ofNat 128 (r.a)) (Fin.ofNat 128 (r.b)) (Fin.ofNat 128 (r.c)))
  | 3 => .ok (.amoMins (Fin.ofNat 128 (r.a)) (Fin.ofNat 128 (r.b)) (Fin.ofNat 128 (r.c)))
  | 4 => .ok (.amoMaxs (Fin.ofNat 128 (r.a)) (Fin.ofNat 128 (r.b)) (Fin.ofNat 128 (r.c)))
  | 5 => .ok (.amoAnd (Fin.ofNat 128 (r.a)) (Fin.ofNat 128 (r.b)) (Fin.ofNat 128 (r.c)))
  | 6 => .ok (.amoOr (Fin.ofNat 128 (r.a)) (Fin.ofNat 128 (r.b)) (Fin.ofNat 128 (r.c)))
  | 7 => .ok (.amoXor (Fin.ofNat 128 (r.a)) (Fin.ofNat 128 (r.b)) (Fin.ofNat 128 (r.c)))
  | 8 => .ok (.amoSwap (Fin.ofNat 128 (r.a)) (Fin.ofNat 128 (r.b)) (Fin.ofNat 128 (r.c)))
  | 9 => .ok (.amoCas (Fin.ofNat 128 (r.a)) (Fin.ofNat 128 (r.b)) (Fin.ofNat 128 (r.c)))
  | 10 => .ok (.amoFaddF32 (Fin.ofNat 128 (r.a)) (Fin.ofNat 128 (r.b)) (Fin.ofNat 128 (r.c)))
  | 11 => .ok (.amoFaddF64 (Fin.ofNat 128 (r.a)) (Fin.ofNat 128 (r.b)) (Fin.ofNat 128 (r.c)))
  | 12 => needZero 7 (r.a) <| .ok (.amoAddnr (Fin.ofNat 128 (r.b)) (Fin.ofNat 128 (r.c)))
  | _ => .error (.reserved 1)

/-- OPC 0x61: ACQ, REL, SEGACQ, SEGREL, SEGPHASE, FENCE, WAITEQ, WAITGE (Table 7-4). -/
def decodeOp61 (r : Raw) : Except DecodeErr Instr :=
  match r.fn with
  | 0 => needZero 21 (r.c) <| .ok (.acq (Fin.ofNat 128 (r.a)) (Fin.ofNat 128 (r.b)))
  | 1 => needZero 7 (r.a) <| .ok (.rel (Fin.ofNat 128 (r.b)) (Fin.ofNat 128 (r.c)))
  | 2 => needZero 7 (r.a) <| needZero 18 (r.b / 16) <| needZero 21 (r.c) <| .ok (.segacq (Fin.ofNat 16 (r.b)))
  | 3 => needZero 7 (r.a) <| needZero 18 (r.b / 16) <| .ok (.segrel (Fin.ofNat 16 (r.b)) (Fin.ofNat 128 (r.c)))
  | 4 => needZero 7 (r.a) <| needZero 18 (r.b / 16) <| needZero 21 (r.c) <| .ok (.segphase (Fin.ofNat 16 (r.b)))
  | 5 => needCode (r.c % 8 < 5) <| needZero 7 (r.a) <| needZero 14 (r.b) <| needZero 24 (r.c / 8) <| .ok (.fence (Fin.ofNat 8 (r.c)))
  | 6 => .ok (.waiteq (Fin.ofNat 128 (r.a)) (Fin.ofNat 128 (r.b)) (Fin.ofNat 128 (r.c)))
  | 7 => .ok (.waitge (Fin.ofNat 128 (r.a)) (Fin.ofNat 128 (r.b)) (Fin.ofNat 128 (r.c)))
  | _ => .error (.reserved 1)

/-- OPC 0x62: LCPY (Table 7-4). -/
def decodeOp62 (r : Raw) : Except DecodeErr Instr :=
  needCode (r.imm11 / 64 % 16 < 9) <| needCode (r.imm11 / 8 % 8 < 6) <| .ok (.lcpy (Fin.ofNat 128 (r.a)) (Fin.ofNat 128 (r.b)) ((r.imm11 / 1024) % 2 == 1) (Fin.ofNat 16 (r.imm11 / 64)) (Fin.ofNat 8 (r.imm11 / 8)) (Fin.ofNat 8 (r.imm11)))

/-- OPC 0x63: BCOMMIT, BWAIT, BTEST (Table 7-4). -/
def decodeOp63 (r : Raw) : Except DecodeErr Instr :=
  match r.fn with
  | 0 => needZero 7 (r.a) <| needZero 14 (r.b) <| needZero 24 (r.c / 8) <| .ok (.bcommit (Fin.ofNat 8 (r.c)))
  | 1 => needZero 7 (r.a) <| needZero 14 (r.b) <| needZero 24 (r.c / 8) <| .ok (.bwait (Fin.ofNat 8 (r.c)))
  | 2 => needZero 14 (r.b) <| needZero 24 (r.c / 8) <| .ok (.btest (Fin.ofNat 128 (r.a)) (Fin.ofNat 8 (r.c)))
  | _ => .error (.reserved 1)

/-- OPC 0x64: ISTREAM (Table 7-4). -/
def decodeOp64 (r : Raw) : Except DecodeErr Instr :=
  match r.fn with
  | 0 => needZero 7 (r.a) <| needZero 24 (r.c / 8) <| .ok (.istream (Fin.ofNat 128 (r.b)) (Fin.ofNat 8 (r.c)))
  | _ => .error (.reserved 1)

/-- OPC 0x65: TXCFG, TXSUB, QPUSH, QPOP, QSTAT (Table 7-4). -/
def decodeOp65 (r : Raw) : Except DecodeErr Instr :=
  match r.fn with
  | 0 => needZero 21 (r.c) <| .ok (.txcfg (Fin.ofNat 128 (r.a)) (Fin.ofNat 128 (r.b)))
  | 1 => needZero 24 (r.c / 8) <| .ok (.txsub (Fin.ofNat 128 (r.a)) (Fin.ofNat 128 (r.b)) (Fin.ofNat 8 (r.c)))
  | 2 => needZero 18 (r.b / 16) <| needZero 21 (r.c) <| .ok (.qpush (Fin.ofNat 128 (r.a)) (Fin.ofNat 16 (r.b)))
  | 3 => needZero 18 (r.b / 16) <| needZero 21 (r.c) <| .ok (.qpop (Fin.ofNat 128 (r.a)) (Fin.ofNat 16 (r.b)))
  | 4 => needZero 18 (r.b / 16) <| needZero 21 (r.c) <| .ok (.qstat (Fin.ofNat 128 (r.a)) (Fin.ofNat 16 (r.b)))
  | _ => .error (.reserved 1)

/-- OPC 0x66: TFREE, SPTAG, SPSIZE (Table 7-4). -/
def decodeOp66 (r : Raw) : Except DecodeErr Instr :=
  match r.fn with
  | 0 => needZero 7 (r.a) <| needZero 21 (r.c) <| .ok (.tfree (Fin.ofNat 128 (r.b)))
  | 1 => needZero 7 (r.a) <| .ok (.sptag (Fin.ofNat 128 (r.b)) (Fin.ofNat 128 (r.c)))
  | 2 => needZero 21 (r.c) <| .ok (.spsize (Fin.ofNat 128 (r.a)) (Fin.ofNat 128 (r.b)))
  | _ => .error (.reserved 1)

/-- OPC 0x70: RMUL, RFMA, RSHR, RLRELU, RSCALE (Table 7-4). -/
def decodeOp70 (r : Raw) : Except DecodeErr Instr :=
  match r.fn % 8 with
  | 0 => .ok (.rmul ((r.fn / 8) % 2 == 1) (Fin.ofNat 128 (r.a)) (Fin.ofNat 128 (r.b)) (Fin.ofNat 128 (r.c)))
  | 1 => .ok (.rfma ((r.fn / 8) % 2 == 1) (Fin.ofNat 128 (r.a)) (Fin.ofNat 128 (r.b)) (Fin.ofNat 128 (r.c)))
  | 2 => .ok (.rshr ((r.fn / 8) % 2 == 1) (Fin.ofNat 128 (r.a)) (Fin.ofNat 128 (r.b)) (Fin.ofNat 128 (r.c)))
  | 3 => .ok (.rlrelu ((r.fn / 8) % 2 == 1) (Fin.ofNat 128 (r.a)) (Fin.ofNat 128 (r.b)) (Fin.ofNat 128 (r.c)))
  | 4 => .ok (.rscale ((r.fn / 8) % 2 == 1) (Fin.ofNat 128 (r.a)) (Fin.ofNat 128 (r.b)) (Fin.ofNat 128 (r.c)))
  | _ => .error (.reserved 1)

/-- OPC 0x71: RCVT (Table 7-4). -/
def decodeOp71 (r : Raw) : Except DecodeErr Instr :=
  needCode (r.c / 16 % 8 < 6) <| needZero 28 (r.fn % 8) <| .ok (.rcvt ((r.fn / 8) % 2 == 1) (Fin.ofNat 128 (r.a)) (Fin.ofNat 128 (r.b)) (Fin.ofNat 16 (r.c)) (Fin.ofNat 8 (r.c / 16)))

/-- OPC 0x72: UMUL, UFMA, USHR, ULRELU, USCALE (Table 7-4). -/
def decodeOp72 (r : Raw) : Except DecodeErr Instr :=
  match r.fn % 8 with
  | 0 => .ok (.umul ((r.fn / 8) % 2 == 1) (Fin.ofNat 128 (r.a)) (Fin.ofNat 128 (r.b)) (Fin.ofNat 128 (r.c)))
  | 1 => .ok (.ufma ((r.fn / 8) % 2 == 1) (Fin.ofNat 128 (r.a)) (Fin.ofNat 128 (r.b)) (Fin.ofNat 128 (r.c)))
  | 2 => .ok (.ushr ((r.fn / 8) % 2 == 1) (Fin.ofNat 128 (r.a)) (Fin.ofNat 128 (r.b)) (Fin.ofNat 128 (r.c)))
  | 3 => .ok (.ulrelu ((r.fn / 8) % 2 == 1) (Fin.ofNat 128 (r.a)) (Fin.ofNat 128 (r.b)) (Fin.ofNat 128 (r.c)))
  | 4 => .ok (.uscale ((r.fn / 8) % 2 == 1) (Fin.ofNat 128 (r.a)) (Fin.ofNat 128 (r.b)) (Fin.ofNat 128 (r.c)))
  | _ => .error (.reserved 1)

/-- OPC 0x73: UCVT (Table 7-4). -/
def decodeOp73 (r : Raw) : Except DecodeErr Instr :=
  needZero 25 (r.c / 16) <| needZero 28 (r.fn % 8) <| .ok (.ucvt ((r.fn / 8) % 2 == 1) (Fin.ofNat 128 (r.a)) (Fin.ofNat 128 (r.b)) (Fin.ofNat 16 (r.c)))

/-- OPC 0x74: RSMARK, RSDROP, RSDEPTH, RSSYNC (Table 7-4). -/
def decodeOp74 (r : Raw) : Except DecodeErr Instr :=
  match r.fn with
  | 0 => needZero 7 (r.a) <| needZero 14 (r.b) <| needZero 21 (r.c) <| .ok (.rsmark)
  | 1 => needZero 7 (r.a) <| needZero 14 (r.b) <| needZero 21 (r.c) <| .ok (.rsdrop)
  | 2 => needZero 14 (r.b) <| needZero 21 (r.c) <| .ok (.rsdepth (Fin.ofNat 128 (r.a)))
  | 3 => needZero 7 (r.a) <| needZero 14 (r.b) <| needZero 21 (r.c) <| .ok (.rssync)
  | _ => .error (.reserved 1)

/-- The instruction of a word's fields, or why there is none (Table 7-4, R353). -/
def decodeRaw (r : Raw) : Except DecodeErr Instr :=
  match r.opc with
  | 1 => decodeOp01 r
  | 2 => decodeOp02 r
  | 3 => decodeOp03 r
  | 4 => decodeOp04 r
  | 5 => decodeOp05 r
  | 6 => decodeOp06 r
  | 7 => decodeOp07 r
  | 8 => decodeOp08 r
  | 9 => decodeOp09 r
  | 10 => decodeOp0A r
  | 11 => decodeOp0B r
  | 12 => decodeOp0C r
  | 13 => decodeOp0D r
  | 14 => decodeOp0E r
  | 15 => decodeOp0F r
  | 16 => decodeOp10 r
  | 17 => decodeOp11 r
  | 18 => decodeOp12 r
  | 19 => decodeOp13 r
  | 20 => decodeOp14 r
  | 21 => decodeOp15 r
  | 22 => decodeOp16 r
  | 23 => decodeOp17 r
  | 24 => decodeOp18 r
  | 25 => decodeOp19 r
  | 26 => decodeOp1A r
  | 27 => decodeOp1B r
  | 28 => decodeOp1C r
  | 29 => decodeOp1D r
  | 30 => decodeOp1E r
  | 31 => decodeOp1F r
  | 32 => decodeOp20 r
  | 33 => decodeOp21 r
  | 34 => decodeOp22 r
  | 35 => decodeOp23 r
  | 36 => decodeOp24 r
  | 37 => decodeOp25 r
  | 38 => decodeOp26 r
  | 39 => decodeOp27 r
  | 40 => decodeOp28 r
  | 41 => decodeOp29 r
  | 42 => decodeOp2A r
  | 43 => decodeOp2B r
  | 48 => decodeOp30 r
  | 49 => decodeOp31 r
  | 50 => decodeOp32 r
  | 51 => decodeOp33 r
  | 52 => decodeOp34 r
  | 53 => decodeOp35 r
  | 54 => decodeOp36 r
  | 55 => decodeOp37 r
  | 56 => decodeOp38 r
  | 57 => decodeOp39 r
  | 58 => decodeOp3A r
  | 59 => decodeOp3B r
  | 60 => decodeOp3C r
  | 61 => decodeOp3D r
  | 62 => decodeOp3E r
  | 63 => decodeOp3F r
  | 64 => decodeOp40 r
  | 65 => decodeOp41 r
  | 66 => decodeOp42 r
  | 80 => decodeOp50 r
  | 81 => decodeOp51 r
  | 82 => decodeOp52 r
  | 96 => decodeOp60 r
  | 97 => decodeOp61 r
  | 98 => decodeOp62 r
  | 99 => decodeOp63 r
  | 100 => decodeOp64 r
  | 101 => decodeOp65 r
  | 102 => decodeOp66 r
  | 112 => decodeOp70 r
  | 113 => decodeOp71 r
  | 114 => decodeOp72 r
  | 115 => decodeOp73 r
  | 116 => decodeOp74 r
  | 127 => decodeOp7F r
  | _ => .error (.reserved 0)

/-- The instruction of the word w (R132). -/
def decode (w : Nat) : Except DecodeErr Instr := decodeRaw (rawOf w)

/-- The little-endian value of the first n bytes (R4). -/
def leValue : Nat → List Byte → Option Nat
  | 0, _ => some 0
  | _ + 1, [] => none
  | n + 1, x :: xs => (leValue n xs).map (fun v => x.toNat + 256 * v)

/-- The instruction the four bytes at the front of a list hold, with the bytes after it (R132). -/
def decodeBytes (bs : List Byte) : Except DecodeErr (Instr × List Byte) :=
  match leValue 4 bs with
  | none => .error .short
  | some w => (decode w).map (fun i => (i, bs.drop 4))

/-- The n bytes of v, least significant first (R4). -/
def leBytes : Nat → Nat → List Byte
  | 0, _ => []
  | n + 1, v => BitVec.ofNat 8 v :: leBytes n (v / 256)

/-- The instruction the decoder reads from a word of nbits bits whose bits are w: every instruction is one 32-bit
word (R132), so a row's word is laid out as four bytes, least significant first. -/
def decodeTableWord (nbits w : Nat) : Option Instr :=
  match decodeBytes (leBytes 4 (w % 2 ^ nbits)) with
  | .ok (i, _) => some i
  | .error _ => none

/-- The fields of a word of the I11 format (Table 7-2). -/
def rawI11 (imm b a opc : Nat) : Raw := { fn := imm / 128, c := imm % 128, b := b, a := a, opc := opc }
/-- The fields of a word of the I18 format (Table 7-2). -/
def rawI18 (imm a opc : Nat) : Raw :=
  { fn := imm / 16384, c := imm / 128 % 128, b := imm % 128, a := a, opc := opc }
/-- The fields of a word of the J25 format (Table 7-2). -/
def rawJ25 (imm opc : Nat) : Raw :=
  { fn := imm / 2097152, c := imm / 16384 % 128, b := imm / 128 % 128, a := imm % 128, opc := opc }

/-- The fields of an instruction's word; an event of the table has none. -/
def encodeRaw : Instr → Option Raw
  | .add a b c => some { fn := 0, c := c.val, b := b.val, a := a.val, opc := 1 }
  | .sub a b c => some { fn := 1, c := c.val, b := b.val, a := a.val, opc := 1 }
  | .and a b c => some { fn := 2, c := c.val, b := b.val, a := a.val, opc := 1 }
  | .or a b c => some { fn := 3, c := c.val, b := b.val, a := a.val, opc := 1 }
  | .xor a b c => some { fn := 4, c := c.val, b := b.val, a := a.val, opc := 1 }
  | .sll a b c => some { fn := 5, c := c.val, b := b.val, a := a.val, opc := 1 }
  | .srl a b c => some { fn := 6, c := c.val, b := b.val, a := a.val, opc := 1 }
  | .sra a b c => some { fn := 7, c := c.val, b := b.val, a := a.val, opc := 1 }
  | .min a b c => some { fn := 8, c := c.val, b := b.val, a := a.val, opc := 1 }
  | .max a b c => some { fn := 9, c := c.val, b := b.val, a := a.val, opc := 1 }
  | .mins a b c => some { fn := 10, c := c.val, b := b.val, a := a.val, opc := 1 }
  | .maxs a b c => some { fn := 11, c := c.val, b := b.val, a := a.val, opc := 1 }
  | .slt a b c => some { fn := 12, c := c.val, b := b.val, a := a.val, opc := 1 }
  | .slts a b c => some { fn := 13, c := c.val, b := b.val, a := a.val, opc := 1 }
  | .sel a b c => some { fn := 14, c := c.val, b := b.val, a := a.val, opc := 1 }
  | .mul a b c => some { fn := 0, c := c.val, b := b.val, a := a.val, opc := 2 }
  | .mulh a b c => some { fn := 1, c := c.val, b := b.val, a := a.val, opc := 2 }
  | .mulhs a b c => some { fn := 2, c := c.val, b := b.val, a := a.val, opc := 2 }
  | .div a b c => some { fn := 3, c := c.val, b := b.val, a := a.val, opc := 2 }
  | .divs a b c => some { fn := 4, c := c.val, b := b.val, a := a.val, opc := 2 }
  | .rem a b c => some { fn := 5, c := c.val, b := b.val, a := a.val, opc := 2 }
  | .rems a b c => some { fn := 6, c := c.val, b := b.val, a := a.val, opc := 2 }
  | .clz a b => some { fn := 0, c := 0, b := b.val, a := a.val, opc := 3 }
  | .ctz a b => some { fn := 1, c := 0, b := b.val, a := a.val, opc := 3 }
  | .popc a b => some { fn := 2, c := 0, b := b.val, a := a.val, opc := 3 }
  | .brev a b => some { fn := 3, c := 0, b := b.val, a := a.val, opc := 3 }
  | .bswap a b => some { fn := 4, c := 0, b := b.val, a := a.val, opc := 3 }
  | .sext a b c => some { fn := 5, c := c.val, b := b.val, a := a.val, opc := 3 }
  | .zext a b c => some { fn := 6, c := c.val, b := b.val, a := a.val, opc := 3 }
  | .extr a b c => some { fn := 7, c := c.val, b := b.val, a := a.val, opc := 3 }
  | .ins a b c => some { fn := 8, c := c.val, b := b.val, a := a.val, opc := 3 }
  | .addi a b imm => some (rawI11 (imm.toNat) (b.val) (a.val) 4)
  | .andi a b imm => some (rawI11 (imm.toNat) (b.val) (a.val) 5)
  | .ori a b imm => some (rawI11 (imm.toNat) (b.val) (a.val) 6)
  | .xori a b imm => some (rawI11 (imm.toNat) (b.val) (a.val) 7)
  | .slti a b imm => some (rawI11 (imm.toNat) (b.val) (a.val) 8)
  | .sltis a b imm => some (rawI11 (imm.toNat) (b.val) (a.val) 9)
  | .slli a b sh => some (rawI11 (0 + sh.val) (b.val) (a.val) 10)
  | .srli a b sh => some (rawI11 (512 + sh.val) (b.val) (a.val) 10)
  | .srai a b sh => some (rawI11 (1024 + sh.val) (b.val) (a.val) 10)
  | .lui a imm => some (rawI18 (imm.toNat) (a.val) 11)
  | .lsh a imm => some (rawI18 (imm.toNat) (a.val) 12)
  | .ldB a b imm => some (rawI11 (imm.toNat) (b.val) (a.val) 13)
  | .ldBs a b imm => some (rawI11 (imm.toNat) (b.val) (a.val) 14)
  | .ldH a b imm => some (rawI11 (imm.toNat) (b.val) (a.val) 15)
  | .ldHs a b imm => some (rawI11 (imm.toNat) (b.val) (a.val) 16)
  | .ldW a b imm => some (rawI11 (imm.toNat) (b.val) (a.val) 17)
  | .ldWs a b imm => some (rawI11 (imm.toNat) (b.val) (a.val) 18)
  | .ldD a b imm => some (rawI11 (imm.toNat) (b.val) (a.val) 19)
  | .stB a b imm => some (rawI11 (imm.toNat) (b.val) (a.val) 20)
  | .stH a b imm => some (rawI11 (imm.toNat) (b.val) (a.val) 21)
  | .stW a b imm => some (rawI11 (imm.toNat) (b.val) (a.val) 22)
  | .stD a b imm => some (rawI11 (imm.toNat) (b.val) (a.val) 23)
  | .beq a b imm => some (rawI11 (imm.toNat) (b.val) (a.val) 24)
  | .bne a b imm => some (rawI11 (imm.toNat) (b.val) (a.val) 25)
  | .blt a b imm => some (rawI11 (imm.toNat) (b.val) (a.val) 26)
  | .bge a b imm => some (rawI11 (imm.toNat) (b.val) (a.val) 27)
  | .blts a b imm => some (rawI11 (imm.toNat) (b.val) (a.val) 28)
  | .bges a b imm => some (rawI11 (imm.toNat) (b.val) (a.val) 29)
  | .j imm => some (rawJ25 (imm.toNat) 30)
  | .jal imm => some (rawJ25 (imm.toNat) 31)
  | .jr b => some { fn := 0, c := 0, b := b.val, a := 0, opc := 32 }
  | .jalr a b => some { fn := 1, c := 0, b := b.val, a := a.val, opc := 32 }
  | .loop k b len => some (rawI11 (len.toNat) (b.val) (k.val) 33)
  | .lclr mask => some { fn := 0, c := 0, b := 0, a := mask.val, opc := 34 }
  | .wbase b => some { fn := 1, c := 0, b := b.val, a := 0, opc := 34 }
  | .flset f b => some { fn := 2, c := 0, b := b.val, a := f.val, opc := 34 }
  | .flget a f => some { fn := 3, c := 0, b := f.val, a := a.val, opc := 34 }
  | .dross b c => some { fn := 10, c := c.val, b := b.val, a := 0, opc := 34 }
  | .waitt b => some { fn := 11, c := 0, b := b.val, a := 0, opc := 34 }
  | .waitev b => some { fn := 12, c := 0, b := b.val, a := 0, opc := 34 }
  | .crr a n => some (rawI11 (n.val) (0) (a.val) 35)
  | .crw a n => some (rawI11 (n.val) (0) (a.val) 36)
  | .crs a n => some (rawI11 (n.val) (0) (a.val) 37)
  | .crc a n => some (rawI11 (n.val) (0) (a.val) 38)
  | .trap code => some (rawI18 (code.toNat) (0) 39)
  | .launch b n => some { fn := 0, c := n.val, b := b.val, a := 0, opc := 41 }
  | .padd a b c => some { fn := 0, c := c.val, b := b.val, a := a.val, opc := 42 }
  | .pmk a b c => some { fn := 1, c := c.val, b := b.val, a := a.val, opc := 42 }
  | .pseg a b => some { fn := 2, c := 0, b := b.val, a := a.val, opc := 42 }
  | .poff a b => some { fn := 3, c := 0, b := b.val, a := a.val, opc := 42 }
  | .paddi a b imm => some (rawI11 (imm.toNat) (b.val) (a.val) 43)
  | .convoyHeader t d3 d2 d1 d0 cnt => some
      { fn := d3.val / 16 + t.toNat * 2, c := d2.val / 4 + d3.val % 16 * 8, b := d1.val + d2.val % 4 * 32,
        a := cnt.val + d0.val * 4, opc := 127 }
  | .vadd m a b c => some { fn := 0 + m.toNat * 8, c := c.val, b := b.val, a := a.val, opc := 48 }
  | .vsub m a b c => some { fn := 1 + m.toNat * 8, c := c.val, b := b.val, a := a.val, opc := 48 }
  | .vand m a b c => some { fn := 2 + m.toNat * 8, c := c.val, b := b.val, a := a.val, opc := 48 }
  | .vor m a b c => some { fn := 3 + m.toNat * 8, c := c.val, b := b.val, a := a.val, opc := 48 }
  | .vxor m a b c => some { fn := 4 + m.toNat * 8, c := c.val, b := b.val, a := a.val, opc := 48 }
  | .vmin m a b c => some { fn := 5 + m.toNat * 8, c := c.val, b := b.val, a := a.val, opc := 48 }
  | .vmax m a b c => some { fn := 6 + m.toNat * 8, c := c.val, b := b.val, a := a.val, opc := 48 }
  | .vmul m a b c => some { fn := 7 + m.toNat * 8, c := c.val, b := b.val, a := a.val, opc := 48 }
  | .vsll m a b c => some { fn := 0 + m.toNat * 8, c := c.val, b := b.val, a := a.val, opc := 49 }
  | .vsrl m a b c => some { fn := 1 + m.toNat * 8, c := c.val, b := b.val, a := a.val, opc := 49 }
  | .vsra m a b c => some { fn := 2 + m.toNat * 8, c := c.val, b := b.val, a := a.val, opc := 49 }
  | .vadds m a b c => some { fn := 3 + m.toNat * 8, c := c.val, b := b.val, a := a.val, opc := 49 }
  | .vsubs m a b c => some { fn := 4 + m.toNat * 8, c := c.val, b := b.val, a := a.val, opc := 49 }
  | .vmulh m a b c => some { fn := 5 + m.toNat * 8, c := c.val, b := b.val, a := a.val, opc := 49 }
  | .vabs m a b => some { fn := 6 + m.toNat * 8, c := 0, b := b.val, a := a.val, opc := 49 }
  | .vneg m a b => some { fn := 7 + m.toNat * 8, c := 0, b := b.val, a := a.val, opc := 49 }
  | .vcmp m cc a b c => some { fn := m.toNat * 8 + cc.val, c := c.val, b := b.val, a := a.val, opc := 50 }
  | .vfadd m a b c => some { fn := 0 + m.toNat * 8, c := c.val, b := b.val, a := a.val, opc := 51 }
  | .vfsub m a b c => some { fn := 1 + m.toNat * 8, c := c.val, b := b.val, a := a.val, opc := 51 }
  | .vfmul m a b c => some { fn := 2 + m.toNat * 8, c := c.val, b := b.val, a := a.val, opc := 51 }
  | .vfmin m a b c => some { fn := 3 + m.toNat * 8, c := c.val, b := b.val, a := a.val, opc := 51 }
  | .vfmax m a b c => some { fn := 4 + m.toNat * 8, c := c.val, b := b.val, a := a.val, opc := 51 }
  | .vfdiv m a b c => some { fn := 5 + m.toNat * 8, c := c.val, b := b.val, a := a.val, opc := 51 }
  | .vfsqrt m a b => some { fn := 6 + m.toNat * 8, c := 0, b := b.val, a := a.val, opc := 51 }
  | .vfma m a b c => some { fn := 0 + m.toNat * 8, c := c.val, b := b.val, a := a.val, opc := 52 }
  | .vfms m a b c => some { fn := 1 + m.toNat * 8, c := c.val, b := b.val, a := a.val, opc := 52 }
  | .vfnma m a b c => some { fn := 2 + m.toNat * 8, c := c.val, b := b.val, a := a.val, opc := 52 }
  | .vfneg m a b => some { fn := 3 + m.toNat * 8, c := 0, b := b.val, a := a.val, opc := 52 }
  | .vfabs m a b => some { fn := 4 + m.toNat * 8, c := 0, b := b.val, a := a.val, opc := 52 }
  | .vfcmp m cc a b c => some { fn := m.toNat * 8 + cc.val, c := c.val, b := b.val, a := a.val, opc := 53 }
  | .vexp2 m a b => some { fn := 0 + m.toNat * 8, c := 0, b := b.val, a := a.val, opc := 54 }
  | .vlog2 m a b => some { fn := 1 + m.toNat * 8, c := 0, b := b.val, a := a.val, opc := 54 }
  | .vrcp m a b => some { fn := 2 + m.toNat * 8, c := 0, b := b.val, a := a.val, opc := 54 }
  | .vrsqrt m a b => some { fn := 3 + m.toNat * 8, c := 0, b := b.val, a := a.val, opc := 54 }
  | .vtanh m a b => some { fn := 4 + m.toNat * 8, c := 0, b := b.val, a := a.val, opc := 54 }
  | .vsigm m a b => some { fn := 5 + m.toNat * 8, c := 0, b := b.val, a := a.val, opc := 54 }
  | .vcvt m a b ty rc => some { fn := m.toNat * 8, c := ty.val + rc.val * 16, b := b.val, a := a.val, opc := 55 }
  | .vmv m a b => some { fn := 0 + m.toNat * 8, c := 0, b := b.val, a := a.val, opc := 56 }
  | .vbcast m a b => some { fn := 1 + m.toNat * 8, c := 0, b := b.val, a := a.val, opc := 56 }
  | .vext m a b c => some { fn := 2 + m.toNat * 8, c := c.val, b := b.val, a := a.val, opc := 56 }
  | .vins m a b c => some { fn := 3 + m.toNat * 8, c := c.val, b := b.val, a := a.val, opc := 56 }
  | .viota m a => some { fn := 4 + m.toNat * 8, c := 0, b := 0, a := a.val, opc := 56 }
  | .vslideup m a b c => some { fn := 5 + m.toNat * 8, c := c.val, b := b.val, a := a.val, opc := 56 }
  | .vslidedn m a b c => some { fn := 6 + m.toNat * 8, c := c.val, b := b.val, a := a.val, opc := 56 }
  | .vgatheri m a b c => some { fn := 7 + m.toNat * 8, c := c.val, b := b.val, a := a.val, opc := 56 }
  | .vredsum m a b => some { fn := 0 + m.toNat * 8, c := 0, b := b.val, a := a.val, opc := 57 }
  | .vredmin m a b => some { fn := 1 + m.toNat * 8, c := 0, b := b.val, a := a.val, opc := 57 }
  | .vredmax m a b => some { fn := 2 + m.toNat * 8, c := 0, b := b.val, a := a.val, opc := 57 }
  | .vredmins m a b => some { fn := 3 + m.toNat * 8, c := 0, b := b.val, a := a.val, opc := 57 }
  | .vredmaxs m a b => some { fn := 4 + m.toNat * 8, c := 0, b := b.val, a := a.val, opc := 57 }
  | .vfredsum m a b => some { fn := 5 + m.toNat * 8, c := 0, b := b.val, a := a.val, opc := 57 }
  | .vfredmin m a b => some { fn := 6 + m.toNat * 8, c := 0, b := b.val, a := a.val, opc := 57 }
  | .vfredmax m a b => some { fn := 7 + m.toNat * 8, c := 0, b := b.val, a := a.val, opc := 57 }
  | .vscanAdd m a b => some { fn := 0 + m.toNat * 8, c := 0, b := b.val, a := a.val, opc := 58 }
  | .vscanMin m a b => some { fn := 1 + m.toNat * 8, c := 0, b := b.val, a := a.val, opc := 58 }
  | .vscanMax m a b => some { fn := 2 + m.toNat * 8, c := 0, b := b.val, a := a.val, opc := 58 }
  | .vfscanAdd m a b => some { fn := 3 + m.toNat * 8, c := 0, b := b.val, a := a.val, opc := 58 }
  | .vfscanMax m a b => some { fn := 4 + m.toNat * 8, c := 0, b := b.val, a := a.val, opc := 58 }
  | .mand m a b c => some { fn := 0 + m.toNat * 8, c := c.val, b := b.val, a := a.val, opc := 59 }
  | .mor m a b c => some { fn := 1 + m.toNat * 8, c := c.val, b := b.val, a := a.val, opc := 59 }
  | .mxor m a b c => some { fn := 2 + m.toNat * 8, c := c.val, b := b.val, a := a.val, opc := 59 }
  | .mandn m a b c => some { fn := 3 + m.toNat * 8, c := c.val, b := b.val, a := a.val, opc := 59 }
  | .mnot m a b => some { fn := 4 + m.toNat * 8, c := 0, b := b.val, a := a.val, opc := 59 }
  | .mpopc m a b => some { fn := 5 + m.toNat * 8, c := 0, b := b.val, a := a.val, opc := 59 }
  | .mfirst m a b => some { fn := 6 + m.toNat * 8, c := 0, b := b.val, a := a.val, opc := 59 }
  | .vcompress m a b c => some { fn := 7 + m.toNat * 8, c := c.val, b := b.val, a := a.val, opc := 59 }
  | .vpack m f a b => some { fn := m.toNat * 8 + f.val, c := 0, b := b.val, a := a.val, opc := 60 }
  | .setvl a b ty => some (rawI11 (ty.val) (b.val) (a.val) 61)
  | .vmsel a => some { fn := 0, c := 0, b := 0, a := a.val, opc := 62 }
  | .vbind a b => some { fn := 1, c := 0, b := b.val, a := a.val, opc := 62 }
  | .vunbind a => some { fn := 2, c := 0, b := 0, a := a.val, opc := 62 }
  | .vappend a b c => some { fn := 3, c := c.val, b := b.val, a := a.val, opc := 62 }
  | .vspill a b => some { fn := 4, c := 0, b := b.val, a := a.val, opc := 62 }
  | .vfill a b => some { fn := 5, c := 0, b := b.val, a := a.val, opc := 62 }
  | .vmbox b c => some { fn := 7, c := c.val, b := b.val, a := 0, opc := 62 }
  | .vld m a b => some { fn := 0 + m.toNat * 8, c := 0, b := b.val, a := a.val, opc := 63 }
  | .vst m a b => some { fn := 1 + m.toNat * 8, c := 0, b := b.val, a := a.val, opc := 63 }
  | .vlds m a b c => some { fn := 2 + m.toNat * 8, c := c.val, b := b.val, a := a.val, opc := 63 }
  | .vsts m a b c => some { fn := 3 + m.toNat * 8, c := c.val, b := b.val, a := a.val, opc := 63 }
  | .vldx m a b c => some { fn := 4 + m.toNat * 8, c := c.val, b := b.val, a := a.val, opc := 63 }
  | .vstx m a b c => some { fn := 5 + m.toNat * 8, c := c.val, b := b.val, a := a.val, opc := 63 }
  | .vldt m a b c => some { fn := 6 + m.toNat * 8, c := c.val, b := b.val, a := a.val, opc := 63 }
  | .vpmul m f a b c => some { fn := m.toNat * 8 + f.val, c := c.val, b := b.val, a := a.val, opc := 64 }
  | .vpmula m f a b c => some { fn := m.toNat * 8 + f.val, c := c.val, b := b.val, a := a.val, opc := 65 }
  | .vpext m f a b => some { fn := m.toNat * 8 + f.val, c := 0, b := b.val, a := a.val, opc := 66 }
  | .mshape a b => some { fn := 0, c := 0, b := b.val, a := a.val, opc := 80 }
  | .tmvr a rc b c => some { fn := 0, c := c.val, b := b.val, a := a.val + rc.val * 16, opc := 81 }
  | .tmvc a b rc c => some { fn := 1, c := c.val, b := b.val + rc.val * 16, a := a.val, opc := 81 }
  | .tmvrr a b c => some { fn := 2, c := c.val, b := b.val, a := a.val, opc := 81 }
  | .tzero a => some { fn := 3, c := 0, b := 0, a := a.val, opc := 81 }
  | .tld a b c => some { fn := 4, c := c.val, b := b.val, a := a.val, opc := 81 }
  | .tst a b => some { fn := 5, c := 0, b := b.val, a := a.val, opc := 81 }
  | .mma a b c => some { fn := 0, c := c.val, b := b.val, a := a.val, opc := 82 }
  | .mmaA a n b c => some { fn := 1, c := c.val, b := b.val, a := a.val + n.val * 16, opc := 82 }
  | .mmas a b c => some { fn := 2, c := c.val, b := b.val, a := a.val, opc := 82 }
  | .mmasA a n b c => some { fn := 3, c := c.val, b := b.val, a := a.val + n.val * 16, opc := 82 }
  | .azero a => some { fn := 4, c := 0, b := 0, a := a.val, opc := 82 }
  | .amv a b ty rc => some { fn := 5, c := ty.val + rc.val * 16, b := b.val, a := a.val, opc := 82 }
  | .ald a b => some { fn := 6, c := 0, b := b.val, a := a.val, opc := 82 }
  | .ast a b => some { fn := 7, c := 0, b := b.val, a := a.val, opc := 82 }
  | .bld b c => some { fn := 8, c := c.val, b := b.val, a := 0, opc := 82 }
  | .vquant a b c => some { fn := 9, c := c.val, b := b.val, a := a.val, opc := 82 }
  | .mperm b => some { fn := 10, c := 0, b := b.val, a := 0, opc := 82 }
  | .mcode b => some { fn := 11, c := 0, b := b.val, a := 0, opc := 82 }
  | .amoAdd a b c => some { fn := 0, c := c.val, b := b.val, a := a.val, opc := 96 }
  | .amoMin a b c => some { fn := 1, c := c.val, b := b.val, a := a.val, opc := 96 }
  | .amoMax a b c => some { fn := 2, c := c.val, b := b.val, a := a.val, opc := 96 }
  | .amoMins a b c => some { fn := 3, c := c.val, b := b.val, a := a.val, opc := 96 }
  | .amoMaxs a b c => some { fn := 4, c := c.val, b := b.val, a := a.val, opc := 96 }
  | .amoAnd a b c => some { fn := 5, c := c.val, b := b.val, a := a.val, opc := 96 }
  | .amoOr a b c => some { fn := 6, c := c.val, b := b.val, a := a.val, opc := 96 }
  | .amoXor a b c => some { fn := 7, c := c.val, b := b.val, a := a.val, opc := 96 }
  | .amoSwap a b c => some { fn := 8, c := c.val, b := b.val, a := a.val, opc := 96 }
  | .amoCas a b c => some { fn := 9, c := c.val, b := b.val, a := a.val, opc := 96 }
  | .amoFaddF32 a b c => some { fn := 10, c := c.val, b := b.val, a := a.val, opc := 96 }
  | .amoFaddF64 a b c => some { fn := 11, c := c.val, b := b.val, a := a.val, opc := 96 }
  | .amoAddnr b c => some { fn := 12, c := c.val, b := b.val, a := 0, opc := 96 }
  | .acq a b => some { fn := 0, c := 0, b := b.val, a := a.val, opc := 97 }
  | .rel b c => some { fn := 1, c := c.val, b := b.val, a := 0, opc := 97 }
  | .segacq b => some { fn := 2, c := 0, b := b.val, a := 0, opc := 97 }
  | .segrel b c => some { fn := 3, c := c.val, b := b.val, a := 0, opc := 97 }
  | .segphase b => some { fn := 4, c := 0, b := b.val, a := 0, opc := 97 }
  | .fence sc => some { fn := 5, c := sc.val, b := 0, a := 0, opc := 97 }
  | .waiteq a b c => some { fn := 6, c := c.val, b := b.val, a := a.val, opc := 97 }
  | .waitge a b c => some { fn := 7, c := c.val, b := b.val, a := a.val, opc := 97 }
  | .lcpy a b tr cv rc n => some (rawI11 (tr.toNat * 1024 + cv.val * 64 + rc.val * 8 + n.val) (b.val) (a.val) 98)
  | .bcommit n => some { fn := 0, c := n.val, b := 0, a := 0, opc := 99 }
  | .bwait n => some { fn := 1, c := n.val, b := 0, a := 0, opc := 99 }
  | .btest a n => some { fn := 2, c := n.val, b := 0, a := a.val, opc := 99 }
  | .istream b n => some { fn := 0, c := n.val, b := b.val, a := 0, opc := 100 }
  | .txcfg a b => some { fn := 0, c := 0, b := b.val, a := a.val, opc := 101 }
  | .txsub a b n => some { fn := 1, c := n.val, b := b.val, a := a.val, opc := 101 }
  | .qpush a b => some { fn := 2, c := 0, b := b.val, a := a.val, opc := 101 }
  | .qpop a b => some { fn := 3, c := 0, b := b.val, a := a.val, opc := 101 }
  | .qstat a b => some { fn := 4, c := 0, b := b.val, a := a.val, opc := 101 }
  | .tfree b => some { fn := 0, c := 0, b := b.val, a := 0, opc := 102 }
  | .sptag b c => some { fn := 1, c := c.val, b := b.val, a := 0, opc := 102 }
  | .spsize a b => some { fn := 2, c := 0, b := b.val, a := a.val, opc := 102 }
  | .rmul m a b c => some { fn := 0 + m.toNat * 8, c := c.val, b := b.val, a := a.val, opc := 112 }
  | .rfma m a b c => some { fn := 1 + m.toNat * 8, c := c.val, b := b.val, a := a.val, opc := 112 }
  | .rshr m a b c => some { fn := 2 + m.toNat * 8, c := c.val, b := b.val, a := a.val, opc := 112 }
  | .rlrelu m a b c => some { fn := 3 + m.toNat * 8, c := c.val, b := b.val, a := a.val, opc := 112 }
  | .rscale m a b c => some { fn := 4 + m.toNat * 8, c := c.val, b := b.val, a := a.val, opc := 112 }
  | .rcvt m a b ty rc => some { fn := m.toNat * 8, c := ty.val + rc.val * 16, b := b.val, a := a.val, opc := 113 }
  | .umul m a b c => some { fn := 0 + m.toNat * 8, c := c.val, b := b.val, a := a.val, opc := 114 }
  | .ufma m a b c => some { fn := 1 + m.toNat * 8, c := c.val, b := b.val, a := a.val, opc := 114 }
  | .ushr m a b c => some { fn := 2 + m.toNat * 8, c := c.val, b := b.val, a := a.val, opc := 114 }
  | .ulrelu m a b c => some { fn := 3 + m.toNat * 8, c := c.val, b := b.val, a := a.val, opc := 114 }
  | .uscale m a b c => some { fn := 4 + m.toNat * 8, c := c.val, b := b.val, a := a.val, opc := 114 }
  | .ucvt m a b ty => some { fn := m.toNat * 8, c := ty.val, b := b.val, a := a.val, opc := 115 }
  | .rsdepth a => some { fn := 2, c := 0, b := 0, a := a.val, opc := 116 }
  | .yield => some { fn := 4, c := 0, b := 0, a := 0, opc := 34 }
  | .exit => some { fn := 5, c := 0, b := 0, a := 0, opc := 34 }
  | .rpoint => some { fn := 6, c := 0, b := 0, a := 0, opc := 34 }
  | .realign => some { fn := 7, c := 0, b := 0, a := 0, opc := 34 }
  | .fencei => some { fn := 8, c := 0, b := 0, a := 0, opc := 34 }
  | .brk => some { fn := 9, c := 0, b := 0, a := 0, opc := 34 }
  | .eret => some { fn := 0, c := 0, b := 0, a := 0, opc := 40 }
  | .vrelease => some { fn := 6, c := 0, b := 0, a := 0, opc := 62 }
  | .rsmark => some { fn := 0, c := 0, b := 0, a := 0, opc := 116 }
  | .rsdrop => some { fn := 1, c := 0, b := 0, a := 0, opc := 116 }
  | .rssync => some { fn := 3, c := 0, b := 0, a := 0, opc := 116 }
  | .vectorMemberIssue => none
  | .convoyRetire => none
  | .segphaseComplete => none
  | .waitConditionMet => none
  | .riserSpill => none
  | .riserFill => none
  | .stripCommit => none
  | .engineCommandFork => none
  | .ladleCopyComplete => none
  | .mailboxWriteLand => none
  | .matrixCommandComplete => none
  | .istreamComplete => none
  | .textStageMessage => none
  | .decoderMemberCommit => none
  | .txsubComplete => none
  | .launchCommandComplete => none
  | .trapEntry => none
  | .launchEndByTrap => none
  | .pageFault => none
  | .pageFaultReplyDoorbell => none
  | .pageFaultReply => none
  | .contextRestore => none
  | .preemption => none
  | .contextSave => none
  | .saveretry => none
  | .timedRollback => none
  | .timedResume => none
  | .domainTick => none
  | .hostQueueDoorbell => none
  | .adminDoorbell => none
  | .invalidationComplete => none
  | .launchSelection => none
  | .taskPlacement => none
  | .taskStart => none
  | .launchComplete => none
  | .rampSlot => none
  | .estimatePartial => none
  | .codeObjectLoad => none
  | .codeObjectUnload => none
  | .forcedUnload => none
  | .dusk => none
  | .duskdone => none
  | .dawn => none
  | .warmReset => none
  | .attestation => none
  | .reductionClear => none
  | .hostRegisterWrite => none
  | .ptmExchange => none
  | .ptpEventMessage => none
  | .linkFlitReceive => none
  | .linkHeartbeat => none
  | .heartbeatTimeout => none
  | .linkPortFailure => none
  | .routeTimeout => none
  | .memoryScrub => none
  | .freqheadWrite => none
  | .powerLoss => none
  | .preemptionDrainTimeout => none

/-- The word of an instruction (Tables 7-1 to 7-5); an event of the table has none. -/
def encode (i : Instr) : Option Nat := (encodeRaw i).map wordOf

end Sys2Proof
end

