-- ==== Sys2Proof/Config.lean ====
section
/-! DEFINITION. What the part fixes (sizes and limits of the spec) and the free values: what the spec leaves open
and gives no value for (notes/assumptions/11.md). A free value has no body, so no proof can rest on a particular value
of it. -/

namespace Sys2Proof.Config

/-- Cores of the package (R19). -/
def cores : Nat := 288
/-- Cores of one die (R19). -/
def coresPerDie : Nat := 36
/-- Compute dies (R19). -/
def dies : Nat := 8
/-- Cycles of a domain tick (R52). -/
def tickCycles : Nat := 4096
/-- Extents of one core's scratchpad pool (R117). -/
def poolExtents : Nat := 6144
/-- Shadow entries of the strip shadow pool (R47). -/
def shadowPool : Nat := 32
/-- Bytes of the strip store buffer (R46). -/
def storeBuffer : Nat := 65536
/-- Bytes of the riser buffer (R252). -/
def riserBuffer : Nat := 262144
/-- Entries of a hardware queue (R263). -/
def queueEntries : Nat := 8192
/-- Entries of a core's TLB, of a Ladle's TLB and of a base die's TLB (Table 17-5). -/
def coreTlb : Nat := 1024
def ladleTlb : Nat := 256
def dieTlb : Nat := 4096

/-- A byte the spec calls undefined (R8): free value number n. -/
opaque freeByte : Nat → Byte
/-- A doubleword the spec calls undefined (R8): free value number n. -/
opaque freeWord : Nat → Word
/-- The undefined bytes of a restored vector register (R366): free value number n. -/
opaque freeReg : Nat → BitVec 32768
/-- The code point a multi-byte legacy character set gives to a byte sequence where the published tables of the set differ,
none for no mapping (Table 15-4 names the sets and gives no table): set and bytes. -/
opaque charMap : Nat → List Byte → Option Nat
/-- Ezbiac's re-encoding of the code of an object that declares an older profile (R307): the translated code. -/
opaque ezbiac : List Byte → List Byte
/-- The offset in the translated code of the word at an offset of the virtual code (R307). -/
opaque ezbiacMap : List Byte → Nat → Nat
/-- The code ranges, first and last offset, that a timed-interval map section names (R319), whose layout the spec does
not give. -/
opaque timedRanges : List Byte → List (Nat × Nat)
/-- Whether an interval of a timed region of a code passes the loader's checks (R58), where the words alone do not decide it and
the spec gives no analysis: first offset and length, and the pass: in the first every REALIGN, WAITT and RPOINT is a restart
point (false), in the second only the first two (true). -/
opaque intervalsPass : List Byte → Nat × Nat → Bool → Bool

end Sys2Proof.Config
end

