-- ==== Sys2Proof/Machine/State.lean ====
section
/-! DEFINITION. The state of one Palyon 9 package, as plain data: every register, memory, queue and record the spec
gives it (INVENTORY.md lists each with its rule), and State.reset, the machine after power-up. The front whose turn it
is has its task in `t` and its core in `c`; the other fronts and cores stand in lists. -/

namespace Sys2Proof.Machine

/-! ## Segments and the task's registers -/

/-- The discipline of a segment (Table 3-3, Table 6-5). -/
inductive Disc where
  | unused | priv | read | sliced | owned | atomic | stream
  deriving DecidableEq, Repr

/-- A segment descriptor as bound at task start (R33, R75). -/
structure Desc where
  base : Nat := 0
  limit : Nat := 0
  disc : Disc := .unused
  /-- Scope code of Table 3-1. -/
  scope : Nat := 0
  /-- Slice log2 and slice level of a SLICED segment. -/
  slice : Nat := 0
  level : Nat := 0
  onChip : Bool := false
  pinned : Bool := false
  writable : Bool := false
  /-- Offset of the token word (OWNED) or phase word (SLICED). -/
  word : Nat := 0
  deriving DecidableEq, Repr

/-- A segment register: the descriptor and its state bits (R75). -/
structure Seg where
  desc : Desc := {}
  /-- HELD of an OWNED segment. -/
  held : Bool := false
  /-- The phase of a SLICED segment: true is the read phase. -/
  readPhase : Bool := false
  /-- The task's slice index of a SLICED segment. -/
  index : Nat := 0
  /-- Base of the task's own instance (R34, R122, R123), and the number of slices of an instance. -/
  inst : Nat := 0
  parts : Nat := 0
  deriving DecidableEq, Repr

/-- One hardware loop level: LBk, LEk (bit 0 is ARMk) and LCk (R76). -/
structure Loop where
  lb : Word := 0
  le : Word := 0
  lc : Word := 0
  deriving DecidableEq, Repr

/-- The mode registers a vector-class word captures at decode (R82). -/
structure Modes where
  vl : BitVec 13 := 0
  vtype : BitVec 4 := 0
  vmask : BitVec 4 := 0
  wb : BitVec 4 := 0
  mtype : Word := 0xBB
  shape : BitVec 48 := 0
  ttype : BitVec 4 := 0xB
  seed : Word := 0
  kpermEn : Bool := false
  deriving DecidableEq, Repr

/-- A decoded convoy member: the word and everything it captured (R40, R82). -/
structure Entry where
  instr : Instr
  /-- Address of the convoy's header. -/
  hdr : Nat
  modes : Modes
  /-- Its position in the task's vector-class instruction count (R82). -/
  count : Nat
  /-- The captured scalar operands of fields B and C. -/
  gb : Word
  gc : Word
  /-- The captured field-layout register (R160). -/
  plan : Word
  /-- Physical registers bound to a queue when it was decoded (R192, R344). -/
  bound : List Nat := []
  /-- The cycle and the delay from which its convoy's header lets it issue, and whether it is the first member, whose
  delay counts from the header (R42). -/
  decoded : Nat := 0
  delay : Nat := 0
  lead : Bool := true
  deriving DecidableEq, Repr

/-- What the front has decoded and the columns have not retired: a convoy, with its header's address and word, its
decoded members and how many of them have issued (R40, R136); or an engine command captured (R49), by its number, with
`entries` empty but for MMA.A and MMAS.A. `again` says that it has retired once, in a strip discarded since (R360). -/
structure Convoy where
  hdr : Nat
  word : Nat
  entries : List Entry
  issued : Nat := 0
  cmd : Option Nat := none
  again : Bool := false
  /-- In a timed domain, the cycle from which it runs (R42, R53). -/
  due : Nat := 0
  deriving DecidableEq, Repr

/-- Which lane register: vector, mask, tile (with side array), accumulator; physical number. -/
inductive LReg where
  | v (n : Nat) | m (n : Nat) | t (n : Nat) | a (n : Nat)
  deriving DecidableEq, Repr

/-- The columns of a core (R40). -/
inductive Column where
  | arith | wide | mem | xfer
  deriving DecidableEq, Repr

/-- A member in the columns of a timed domain (R42 to R44, R61): its issue cycle, its latency, the cycles it holds its
column, those between element groups, the cycle on which it has written its last element and the one on which its convoy
retires. -/
structure Flight where
  entry : Entry
  col : Option Column
  issue : Nat
  lat : Nat
  occ : Nat
  done : Nat
  retire : Nat := 0
  /-- Element groups of its vector operands, and the first row and the rows of its tiles, for what is read and written group
  by group. -/
  groups : Nat
  first : Nat := 0
  rows : Nat := 64
  /-- Of a word whose result spans registers, each register's first group among them and the number of its groups. -/
  parts : List (LReg × Nat × Nat) := []
  reads : List LReg
  writes : List LReg
  /-- Cycles for which its issue was held back, and the reason of Table 19-3. -/
  held : Nat := 0
  why : Nat := 0
  deriving DecidableEq, Repr

/-- A scalar register that a word may not use before a cycle (R44, R61); `vec` where a vector-class word writes it. -/
structure Late where
  reg : Nat
  ready : Nat
  vec : Bool
  deriving DecidableEq, Repr

/-- An engine command (R49): captured, then forked, then complete, then joined (and gone from the core). -/
structure Cmd where
  /-- A number of its own, in issue order on the core. -/
  id : Nat
  instr : Instr
  /-- Code address of the command word. -/
  addr : Nat
  batch : Nat
  /-- The issuer: launch, task number, frame, function, front. -/
  launch : Nat
  task : Nat
  frame : Nat
  fn : Nat
  front : Nat
  /-- The registers it captured (R233, R170, R241). -/
  regs : List Word
  modes : Modes
  count : Nat
  /-- The issuer's segment rights (R129), taken at the fork. -/
  segs : Vector Seg 16
  sealed : Bool := false
  /-- The strip before it has committed; it has left the held set. -/
  released : Bool := false
  forked : Bool := false
  done : Bool := false
  faulted : Bool := false
  /-- Issued in a timed domain (R230). -/
  timed : Bool := false
  /-- Start cycle (R54) and the issuer's timing origin (R168), and the cycle on which it completes (Table 3-4). -/
  start : Nat := 0
  origin : Nat := 0
  finish : Nat := 0
  /-- The cycle up to which the throttling that withholds its fork has been counted (R289). -/
  withheld : Nat := 0
  /-- Its descriptor has been read and checked (R376). -/
  begun : Bool := false
  /-- CODEBK and the permutation as they stand when its turn comes (R82), for a matrix command. -/
  codebk : Nat := 0
  perm : Nat := 0
  permLen : Nat := 0
  /-- Footprint: ranges of places read and written (R130). -/
  reads : List (Nat × Nat) := []
  writes : List (Nat × Nat) := []
  /-- Flags of a completed command, and FEXC of a matrix command (R207, R229). -/
  flags : BitVec 6 := 0
  fexc0 : Word := 0
  fexc1 : Word := 0
  /-- Segments it accesses (R129). -/
  uses : List Nat := []
  /-- Rows, elements or messages written so far (Table 25-2). -/
  progress : Nat := 0
  /-- Pages it has requested and waits for (R395). -/
  pages : List Nat := []
  refused : List Nat := []
  /-- The launch a LAUNCH placed, once known. -/
  child : Option Nat := none
  /-- The parameter block of an indirect stream, read at its fork (R239). -/
  block : Option Nat := none
  /-- The tasks whose mailboxes it writes and waits for, once it has come to them (R115): core, launch, task. -/
  mailFor : List (Nat × Nat × Nat) := []
  /-- Queue entries of the element it is writing that wait for room (R240). -/
  rest : List Nat := []
  deriving DecidableEq, Repr

/-- A store that waits for its strip's commit, or for a restart point: the place of its first byte, its length and
its bytes as a little-endian number; `hdr` is the header of its convoy (R46, R57). -/
structure Store where
  place : Nat
  len : Nat
  val : Nat
  hdr : Nat
  /-- Number of its instruction in the strip: the stores of one instruction are allocated as one (R381). -/
  seq : Nat := 0
  /-- Of a one-byte store of a 4-bit element, the bits written (R185); 0 where every bit of the store is written. -/
  mask : Nat := 0
  /-- The core that issued it and its issue cycle (R60); a write that an engine holds until it lands (R57). -/
  core : Nat := 0
  cycle : Nat := 0
  engine : Bool := false
  /-- Of a store into another core's mailbox, the task (launch, task) whose mailbox it was issued to (R115). -/
  target : Option (Nat × Nat) := none
  deriving DecidableEq, Repr

/-- A write of a timed task that cores of its domain may not see yet (R60): the domain's launch, the writing core, the
cycle, and what stood in its bytes before. -/
structure Past where
  launch : Nat
  core : Nat
  cycle : Nat
  place : Nat
  len : Nat
  old : Nat
  /-- An engine's write that was held until its restart point (R57). -/
  engine : Bool := false
  deriving DecidableEq, Repr

/-- A tag set in a timed domain (R118): the tile's core and number, the core that set it, the cycle, and the tag and the
checked bit before. -/
structure TagPast where
  launch : Nat
  core : Nat
  n : Nat
  setter : Nat
  cycle : Nat
  tag : BitVec 16
  checked : Bool
  deriving DecidableEq, Repr

/-- A VAPPEND that waits for its strip's commit (R194). -/
structure App where
  hdr : Nat
  seq : Nat
  seg : Nat
  dest : Nat
  vals : List Nat
  vl : Nat
  deriving DecidableEq, Repr

/-- Per-register bookkeeping: dirty bit and high-water mark (R84). -/
structure Mark where
  dirty : Bool := false
  high : Nat := 0
  deriving DecidableEq, Repr

/-- A shadow entry (R47): the register, its contents packed little-endian, its bookkeeping. -/
structure Shadow where
  reg : LReg
  bits : Nat
  side : Nat
  mark : Mark
  deriving DecidableEq, Repr

/-- What stood at a strip's start outside the shadow pool, for a discard (R257, R360): what the
pushes of the stack read, the tables that MPERM and MCODE write, bindings, the mailbox range, and what a bound read leaves. -/
structure Rest where
  pushes : List (Nat × List Nat) := []
  perm : Vector (BitVec 8) 256 := Vector.replicate 256 0
  codebk : Vector (BitVec 16) 16 := Vector.replicate 16 0
  kpermLen : Nat := 0
  bind : List (Nat × Nat) := []
  mbFirst : Nat := 0
  mbCount : Nat := 0
  vbcnt : BitVec 13 := 0
  vbmark : Word32 := 0
  deriving DecidableEq, Repr

/-- What a core counts of its activity in a slot (R282): matrix array cycles by format code of the left operand, busy
cycles of each column, bytes moved by the memory column and by the Ladle, and dross cycles. -/
structure Work where
  matrix : Vector Nat 16 := Vector.replicate 16 0
  arith : Nat := 0
  wide : Nat := 0
  mem : Nat := 0
  xfer : Nat := 0
  bytes : Nat := 0
  ladle : Nat := 0
  dross : Nat := 0
  deriving DecidableEq, Repr

/-- Activity that lies in cycles from `start` on, `len` of them, in proportion: a member in a column, a product of the matrix
array, a row in the Ladle. Of them `taken` have been counted in slots that ended (R282). -/
structure Load where
  col : Option Column
  start : Nat
  len : Nat
  work : Work
  taken : Nat := 0
  deriving DecidableEq, Repr

/-- The current strip (R45 to R48). -/
structure Strip where
  /-- Header of the opening SETVL, its request, its type. -/
  hdr : Nat
  req : Word
  ty : BitVec 4
  /-- Vector-class instructions in the strip (STRIPCTL.NINS). -/
  nins : Nat := 0
  read : List LReg := []
  written : List LReg := []
  shadow : List Shadow := []
  stores : List Store := []
  apps : List App := []
  /-- Groups taken by bound reads: die, queue, entries (R193). -/
  taken : List (Nat × Nat × List Nat) := []
  /-- Riser depth at the strip's start (R257), and whether an undo, UCVT or RSDROP stands in it. -/
  depth : Nat := 0
  undo : Bool := false
  /-- Where S stood before an RSDROP of the strip lowered it, 0 where none has (R256, R257). -/
  dropped : Nat := 0
  /-- Ranges of B-store offsets a product of the strip has read (R217). -/
  bread : List (Nat × Nat) := []
  /-- The rest of what a discard of the strip gives back. -/
  rest : Rest := {}
  /-- Flags and FEXC raised by the strip, applied at commit (R83). -/
  flags : BitVec 6 := 0
  fexc : Option (Word × Word) := none
  /-- Elements that raised SA (Table 19-2). -/
  sat : Nat := 0
  opened : Nat := 0
  arith : Nat := 0
  memBusy : Nat := 0
  /-- The convoys of the strip that have retired, oldest first. -/
  convoys : List Convoy := []
  /-- In a timed domain, the issue cycle of the member that ran last (R60). -/
  now : Nat := 0
  /-- Its members in the columns, those of the strip before that had not retired among them; cycles of issue held back,
  by the reason of Table 19-3; dross cycles (R332). -/
  flights : List Flight := []
  stalls : Vector Nat 8 := Vector.replicate 8 0
  dross : Nat := 0
  deriving DecidableEq, Repr

/-- What the front saves at a convoy's header, to undo a fault found at decode (R335). -/
structure Before where
  g : Vector Word 128
  modes : Modes
  count : Nat
  deriving DecidableEq, Repr

/-- The convoy whose members the front is decoding (R137). -/
structure Conv where
  cv : Convoy
  /-- Index of the member the front decodes next, and the header's CNT. -/
  next : Nat
  cnt : Nat
  before : Before
  /-- The cycle on which the header was decoded (R42). -/
  start : Nat := 0
  deriving DecidableEq, Repr

/-- A task on a front (R30, R63, R75, R78, R85). -/
structure Task where
  /-- The front holds a task, and the task runs (R36). -/
  live : Bool := false
  /-- Where it stands: launch, TASK number, frame, function, package-wide core, front (R278). -/
  launch : Nat := 0
  task : Nat := 0
  frame : Nat := 0
  fn : Nat := 0
  core : Nat := 0
  front : Nat := 0
  /-- V of the launch record. -/
  vmax : Nat := 128
  timed : Bool := false
  /-- Timing domain code of Table 3-2. -/
  domain : Nat := 0
  /-- g0 to g127 (R63). -/
  g : Vector Word 128 := Vector.replicate 128 0
  pc : Word := 0
  /-- f0 to f7 (R72). -/
  f : Vector Word 8 := Vector.replicate 8 0
  loops : Vector Loop 2 := Vector.replicate 2 {}
  segs : Vector Seg 16 := Vector.replicate 16 {}
  /-- VL, VTYPE, VMASK, WB, MTYPE, SHAPE, TTYPE, SEED, KPERM.EN. -/
  modes : Modes := {}
  kpermLen : Nat := 0
  fflags : BitVec 6 := 0
  fexc0 : Word := 0
  fexc1 : Word := 0
  codebk : Vector (BitVec 16) 16 := Vector.replicate 16 0
  tstart : Word := 0
  taskid : Word := 0
  idx : Vector Word 8 := Vector.replicate 8 0
  ext : Vector Word 8 := Vector.replicate 8 1
  tcause : BitVec 8 := 0
  tpc : Word := 0
  tvcp : Word := 0
  tinfo : Word := 0
  tloop : BitVec 2 := 0
  thvec : Word := 0
  dbgctl : Word := 0
  bpc : Vector Word 4 := Vector.replicate 4 0
  /-- STRIPCTL.SREC and SINGLE. -/
  srec : Bool := true
  single : Bool := false
  mbcnt : Word32 := 0
  vbcnt : BitVec 13 := 0
  vbmark : Word32 := 0
  /-- Riser depth D and spill boundary S, and the bytes of positions S to D - 1 (R252, R253). -/
  depth : Nat := 0
  spill : Nat := 0
  riser : List Host.Cell := []
  /-- What each push still on the stack read: the depth it left, its result, other operands and mask (R251). -/
  pushes : List (Nat × List Nat) := []
  /-- The highest depth a pop of this timed interval started from (R369). -/
  popTop : Nat := 0
  /-- Pages a spill or fill has requested, and a page refused (R395). -/
  riserPages : List Nat := []
  riserRefused : Option Nat := none
  /-- The mailbox range: first physical register and count (R115, R197). -/
  mbFirst : Nat := 0
  mbCount : Nat := 0
  /-- The handler state (R355), whether TPC was written since trap entry (R356), the frozen entries. -/
  inHandler : Bool := false
  tpcWritten : Bool := false
  frozen : List Convoy := []
  /-- The vector-class instruction count (R82). -/
  count : Nat := 0
  conv : Option Conv := none
  /-- Convoys decoded and not yet retired, oldest first (R41). -/
  queue : List Convoy := []
  strip : Option Strip := none
  /-- The word the front waits in (R225). -/
  wait : Option Instr := none
  /-- Its SEGPHASE (R123): 0 none issued, 1 it has arrived, 2 the switch has been made. -/
  arrived : Nat := 0
  /-- Cause 0x19 due at the next strip close (R358): TINFO. -/
  mbFault : Option Word := none
  /-- The cycle on which the front decodes its next word, and the timing origin (R168). -/
  cycle : Nat := 0
  origin : Nat := 0
  /-- Stores deferred to the next restart point (R57). -/
  deferred : List Store := []
  /-- Its start has read its segment words (R75): a task put back on a front starts without reading them again. -/
  ready : Bool := true
  /-- Device-memory writes of the task's completed engine commands, held until the restart point (R57). -/
  engineLate : List Store := []
  /-- The cycle on which the word it waits in issued. -/
  issued : Nat := 0
  /-- Why the columns have waited for it, by the reason of Table 19-3, and since which cycle (R332). -/
  stall : Option (Nat × Nat) := none
  /-- The cycle on which it was placed (R279). -/
  born : Nat := 0
  /-- Words the front has fetched beyond its pc: address and word (R165). -/
  fetched : List (Nat × Nat) := []
  /-- Pages refused, and pages collected, in the page fault the task was restored from (R363). -/
  refused : List Nat := []
  collected : Nat := 0
  /-- Scalar registers whose latency has not passed (R61). -/
  late : List Late := []
  /-- Groups that bound reads of a discarded strip consumed, which its reissue consumes again (R193): die, queue,
  entries. -/
  owed : List (Nat × Nat × List Nat) := []
  /-- In a timed domain, the registers read, written and shadowed since the restart point (R57). -/
  ivRead : List LReg := []
  ivWritten : List LReg := []
  ivShadow : List LReg := []
  deriving DecidableEq, Repr

/-! ## Cores -/

/-- The registers of the lanes (R63, R68, R71) and their bookkeeping (R84); `bind` gives the queue segment a physical
vector register is bound to (R192). -/
structure Lanes where
  v : Vector (BitVec 32768) 256 := Vector.replicate 256 0
  m : Vector (BitVec 4096) 16 := Vector.replicate 16 0
  tile : Vector (Vector (BitVec 2048) 64) 8 := Vector.replicate 8 (Vector.replicate 64 0)
  side : Vector (Vector (BitVec 128) 64) 8 := Vector.replicate 8 (Vector.replicate 64 0)
  acc : Vector (Vector (BitVec 2048) 32) 16 := Vector.replicate 16 (Vector.replicate 32 0)
  vMark : Vector Mark 256 := Vector.replicate 256 {}
  mMark : Vector Mark 16 := Vector.replicate 16 {}
  tMark : Vector Mark 8 := Vector.replicate 8 {}
  aMark : Vector Mark 16 := Vector.replicate 16 {}
  /-- Progress indexes (R43, R84): elements or rows that the register's last producer has written; v0 to v255, m0 to m15,
  t0 to t7, a0 to a15. -/
  progress : Vector Nat 296 := Vector.replicate 296 0
  bind : List (Nat × Nat) := []
  deriving DecidableEq, Repr

/-- A scratchpad tile that is not all zero or carries a tag (R116 to R118). -/
structure Tile where
  n : Nat
  bytes : BitVec 32768
  tag : BitVec 16
  checked : Bool
  deriving DecidableEq, Repr

/-- A translation a TLB holds (R296): its function, first virtual address, size in bytes (a page, a run of eight
pages, a block), and the frame, spacing, W and PIN. -/
structure TlbEntry where
  fn : Nat
  va : Nat
  size : Nat
  frame : Nat
  spacing : Int
  w : Bool
  pin : Bool
  deriving DecidableEq, Repr

/-- A batch object (R227): its owner (launch, task) and what a BTEST has still to read. Its commands stand in the
core's list. -/
structure BatchObj where
  owner : Option (Nat × Nat) := none
  lflags : BitVec 6 := 0
  fault : Bool := false
  deriving DecidableEq, Repr

/-- The counters of a core (Table 16-1, R297). -/
structure Counters where
  drosscyc : Nat := 0
  thrcyc : Nat := 0
  rampwait : Nat := 0
  starts : Nat := 0
  estsum : Nat := 0
  tlbsplit : Nat := 0
  deriving DecidableEq, Repr

/-- One core (R20). -/
structure Core where
  num : Nat := 0
  /-- The front that holds the lanes (R37). -/
  holder : Option Nat := none
  lanes : Lanes := {}
  /-- The members in its columns, oldest first, in a timed domain (R40, R53). -/
  pipe : List Flight := []
  /-- The permutation table (R219). -/
  perm : Vector (BitVec 8) 256 := Vector.replicate 256 0
  tiles : List Tile := []
  /-- Old extents that timed domains have not released (R57): launch and extents. -/
  heldExtents : List (Nat × Nat) := []
  /-- Tiles that a timed launch has changed since its restart point, as they were then (R368). -/
  heldTiles : List (Nat × Tile) := []
  bstore : List Host.Cell := []
  batches : Vector BatchObj 8 := Vector.replicate 8 {}
  /-- Engine commands captured, forked or complete and not joined, in issue order. -/
  cmds : List Cmd := []
  nextCmd : Nat := 0
  tlb : List TlbEntry := []
  ladleTlb : List TlbEntry := []
  counters : Counters := {}
  /-- Throttle level (R285); this slot's other counts, the weighted sum of all at the last partial, and the estimates of the last
  slot and the one before, in 1/16 W (R282). -/
  throttle : Nat := 0
  work : Work := {}
  /-- What its columns, its matrix array and its Ladle have to do, by the cycles in which they do it (R282). -/
  loads : List Load := []
  activity : Nat := 0
  estimate : Nat := 0
  estimate0 : Nat := 0
  /-- Dross level of the governor (R288), and whether the core has an admitted start step (R284). -/
  dross : Nat := 0
  admitted : Bool := false
  /-- Cycles of this slot that governor dross may fill, the matrix array and the vector unit idle, while a front waits or both
  are empty (R288), and the cycle up to which they are counted. -/
  waited : Nat := 0
  waitedTo : Nat := 0
  /-- Remote mailbox writes that wait for their target, one list for each store instruction (R115). -/
  mailbox : List (List Store) := []
  deriving DecidableEq, Repr

/-! ## Dies -/

/-- A hardware queue (R263, R264): entries oldest first; message mode and the stages it serves. -/
structure Queue where
  n : Nat
  entries : List Nat := []
  /-- The place of its oldest entry among the 8,192 of its SRAM, which entries fill in order and around. -/
  head : Nat := 0
  message : Bool := false
  /-- It is the output of a stage; it is the input of a later stage (R397). -/
  isOut : Bool := false
  isIn : Bool := false
  deriving DecidableEq, Repr

/-- A stage of a chain (R242, R267): engine kind, engine, queues, options, and the entries it has still to write. -/
structure Stage where
  kind : Nat
  engine : Nat
  inq : Nat
  outq : Nat
  opts : Nat
  /-- The vocabulary image's place, for a tokeniser: function, virtual address or on-chip place. -/
  vocab : Nat := 0
  pending : List Nat := []
  /-- A quarantine record it has still to write, before the last entry of `pending`. -/
  records : List Nat := []
  /-- `pending` ends a message of the chain. -/
  ending : Bool := false
  /-- Data entries of the message it is reading, so far. -/
  gathered : List Nat := []
  /-- The oldest entries of its input queue that stood there before the chain was built: no message of the chain. -/
  stray : Nat := 0
  deriving DecidableEq, Repr

/-- A message submitted to a chain (R242): the command that carries it, and what its descriptor says. -/
structure Msg where
  core : Nat
  cmd : Nat
  ptr : Word
  len : Nat
  id : Nat
  opts : Nat
  /-- Bytes +0x18 to +0x1F are not zero. -/
  rsvd : Bool
  /-- Its descriptor has been read: until then it only holds its place in the order of submission (R270). -/
  ready : Bool := false
  /-- The stages that have written its marker. -/
  passed : Nat := 0
  /-- The fault its command records, where its input could not be read (R394). -/
  fault : Option (Nat × Nat) := none
  deriving DecidableEq, Repr

/-- A chain of stages (R266). -/
structure Chain where
  handle : Nat
  launch : Nat
  fn : Nat
  quarantine : Nat
  stages : List Stage
  /-- Messages waiting for the first stage, and those inside the chain, oldest first. -/
  inbox : List Msg := []
  inside : List Msg := []
  deriving DecidableEq, Repr

/-- A reduction bin (Table 19-5). -/
structure Bin where
  n : Nat
  count : Nat := 0
  cycles : Nat := 0
  arith : Nat := 0
  memory : Nat := 0
  dross : Nat := 0
  throttled : Nat := 0
  sat : Nat := 0
  byReason : Vector Nat 8 := Vector.replicate 8 0
  deriving DecidableEq, Repr

/-- A black-box entry (Table 27-1). -/
structure BoxEntry where
  time : Nat
  seq : Nat
  kind : Nat
  port : Nat
  core : Nat
  detail : Nat
  ctx : Nat
  deriving DecidableEq, Repr

/-- One die (R16, R17, R327). -/
structure Die where
  queues : List Queue := []
  chains : List Chain := []
  tlb : List TlbEntry := []
  runmiss : Nat := 0
  split : Nat := 0
  bins : List Bin := []
  redBase : Nat := 0
  redShift : Nat := 0
  /-- The last 2,048 events, newest first, and the number ever written (R413). -/
  box : List BoxEntry := []
  bbseq : Nat := 0
  corrected : Nat := 0
  uncorrected : Nat := 0
  eccLoc : List Nat := []
  deriving DecidableEq, Repr

/-! ## Launches, functions, the loader -/

/-- A level descriptor (R28). -/
structure Level where
  extent : Nat
  binding : Nat
  scope : Nat
  deriving DecidableEq, Repr

/-- A launch record, read (R32). -/
structure Rec where
  regime : Nat := 0
  domain : Nat := 0
  prio : Nat := 0
  handle : Nat := 0
  entry : Nat := 0
  handler : Nat := 0
  savePtr : Nat := 0
  saveSize : Nat := 0
  vmax : Nat := 128
  start : Nat := 0
  wp : Nat := 0
  wr : Nat := 0
  slots : Nat := 0
  comp : Nat := 0
  waits : List Nat := []
  pool : Nat := 0
  stack : Nat := 0
  levels : List Level := []
  descs : Vector Desc 16 := Vector.replicate 16 {}
  /-- The argument block, of which the dispatcher keeps a copy for the life of the launch (R33). -/
  args : List Byte := []
  deriving DecidableEq, Repr

/-- A launch that has been placed (R276 to R278, R359, R391). -/
structure Launch where
  /-- Placement number N, in launch order. -/
  id : Nat
  fn : Nat
  record : Rec
  /-- Tasks in all, tasks ended. -/
  total : Nat
  ended : Nat := 0
  /-- Frames held: frame, task (R278). -/
  frames : List (Nat × Nat) := []
  /-- Where its tasks were placed: task, core (R29). -/
  placed : List (Nat × Nat) := []
  /-- Ended by a trap: no further task is placed (R359). -/
  stopped : Bool := false
  /-- Final status written. -/
  final : Bool := false
  /-- First engine fault recorded: cause and record pointer (R391). -/
  fault : Option (Nat × Nat) := none
  /-- First core of a timed launch's domain, and whether one rollback has been made since the restart point (R370). -/
  domCore : Nat := 0
  rolled : Bool := false
  /-- A timed launch waits for its start tick (R281). -/
  starting : Bool := false
  /-- The slot from which its envelope is reserved before it starts (R286). -/
  reserved : Option Nat := none
  /-- First slot of its envelope (R286), its draw of the last slot, the slot in which it ended. -/
  startSlot : Nat := 0
  draw : Nat := 0
  endSlot : Option Nat := none
  /-- The command of a LAUNCH that placed it: core and command number (R170). -/
  parent : Option (Nat × Nat) := none
  deriving DecidableEq, Repr

/-- A launch record taken from a queue and not yet placed (R273, R274). -/
structure Candidate where
  /-- Queue number of R276. -/
  queue : Nat
  fn : Nat
  /-- The 1,024 bytes of the record. -/
  bytes : List Byte
  /-- Cycle from which it has been ready (R276). -/
  readySince : Option Nat := none
  parent : Option (Nat × Nat) := none
  deriving DecidableEq, Repr

/-- A ready task not yet on a front (R277). -/
structure Ready where
  launch : Nat
  task : Nat
  since : Nat
  deriving DecidableEq, Repr

/-- A context in its frame (R86, R361, R363): the task, its lane registers if it held them. -/
structure Saved where
  /-- Context id (R278). -/
  ctx : Nat
  task : Task
  lanes : Option Lanes
  outstanding : Nat
  pages : List Nat
  refused : List Nat
  /-- The save met a fault (R367): the context stays frozen on its front. -/
  frozen : Bool := false
  /-- Saved at a trap that ended the launch (R359): the frame is not reused. -/
  ended : Bool := false
  /-- The cycle from which it has been ready (R277). -/
  since : Nat := 0
  /-- Saved at a REALIGN of a timed domain (R371). -/
  timed : Bool := false
  deriving DecidableEq, Repr

/-- A host work queue of a function (Table 19-1). -/
structure HostQ where
  q : Nat
  base : Nat := 0
  head : Nat := 0
  tail : Nat := 0
  deriving DecidableEq, Repr

/-- A function's registers (Table 19-1) and its device launch queue (R273). -/
structure Func where
  n : Nat
  ptroot : Nat := 0
  admBase : Nat := 0
  admTail : Nat := 0
  admHead : Nat := 0
  ptmDev : Nat := 0
  ptmHost : Nat := 0
  queues : List HostQ := []
  recread : Nat := 0
  deriving DecidableEq, Repr

/-- A symbol of a loaded object (R302, R304). -/
structure Sym where
  name : List Byte
  kind : Nat
  seg : Nat
  weak : Bool
  value : Nat
  size : Nat
  hash : List Byte
  /-- The object that defines it. -/
  obj : Nat
  deriving DecidableEq, Repr

/-- A loaded code object (R301 to R306). -/
structure Obj where
  handle : Nat
  fn : Nat
  codeBase : Nat
  codeSize : Nat
  constBase : Nat := 0
  constSize : Nat := 0
  /-- Objects its references were bound to (R404). -/
  refs : List Nat := []
  /-- Admitted for core domains only (R58). -/
  coreOnly : Bool := false
  timed : Bool := false
  /-- An unload has been requested (R306); it is forced (R404). -/
  unloading : Bool := false
  forced : Bool := false
  /-- The virtual code of an object that Ezbiac has re-encoded (R307); empty for the others. -/
  virt : List Byte := []
  deriving DecidableEq, Repr

/-- A timing domain that runs (R51): its launch, and the copies made at its last restart point (R368). -/
structure Domain where
  launch : Nat
  cores : List Nat
  tasks : List Task
  coreCopies : List Core
  /-- Cycle of the restart point. -/
  restart : Nat
  /-- Deferred stores of its tasks that have ended since (R57). -/
  held : List Store := []
  deriving DecidableEq, Repr

/-- A port of the Jorson Link (R328, R410). -/
structure Port where
  up : Bool := true
  /-- The package it leads to. -/
  peer : Nat := 0
  resent : Nat := 0
  failures : Nat := 0
  /-- Failed sends of the flit at the head of the replay buffer (R386). -/
  tries : Nat := 0
  /-- The cycle of the last heartbeat (R410). -/
  beat : Nat := 0
  /-- Flits in the replay buffer: physical address, bytes and value. -/
  replay : List (Nat × Nat × Nat) := []
  deriving DecidableEq, Repr

/-- A claim of a start step that waits for admission (R284). -/
structure Claim where
  launch : Nat
  core : Nat
  deriving DecidableEq, Repr

/-- The MGMT window (Table 19-4, Table 21-2). -/
structure Mgmt where
  attGo : Bool := false
  attStatus : Nat := 0
  attBuf : Nat := 0
  attNonce : List Byte := List.replicate 32 0
  dusk : Bool := false
  duskDone : Bool := false
  freqBase : Nat := 0
  freqTail : Nat := 0
  freqHead : Nat := 0
  frplBase : Nat := 0
  frplTail : Nat := 0
  frplHead : Nat := 0
  image : List Host.Cell := []
  rampViol : Nat := 0
  peakEst : Nat := 0
  /-- MSI-X vector 0 raised and not yet seen by the host (R411). -/
  msix : Bool := false
  deriving DecidableEq, Repr

/-- Firmware and identity (R416, R417). -/
structure Trust where
  verified : Bool := true
  fused : Nat := 0
  image : List Byte := []
  /-- The fused keys of Ed25519: the public key of firmware images, and the device identity key (R416, R417). -/
  publicKey : List Byte := List.replicate 32 0
  identityKey : List Byte := List.replicate 32 0
  rollback : Nat := 0
  microcode : Nat := 0
  translator : Nat := 0
  features : Nat := 0
  keyReadable : Bool := true
  deriving DecidableEq, Repr

/-- What the outside world supplies with an event: numbers and bytes, in the order the event's meaning names. -/
structure Input where
  n : List Nat := []
  bytes : List Byte := []
  deriving DecidableEq, Repr

/-- Which agent moves next (an input of the model): a front decodes a word at once or ahead of the vector columns, an
event happens, time passes, a translation is held or dropped. -/
inductive Pick where
  | front (k : Nat)
  | ahead (k : Nat)
  | event (i : Instr) (x : Input)
  | idle (n : Nat)
  | evict (n : Nat)
  deriving DecidableEq, Repr

/-- How the machine can stop. -/
inductive Fault where
  /-- Raised by step when the package has no power (R413, POWER_LOSS): nothing runs. Safe: the hardware does nothing. -/
  | noPower
  deriving DecidableEq, Repr

/-- Why an instruction has no meaning. -/
inductive Refusal where
  /-- Raised by an arm of exec whose instruction has no meaning yet. Safe. -/
  | notModelled (mnemonic : String)
  deriving DecidableEq, Repr

/-- The package. -/
structure State where
  power : Bool := true
  /-- The front whose turn it is: 2 × core + front. -/
  cur : Nat := 0
  /-- The current front decodes ahead of the vector columns (R40). -/
  ahead : Bool := false
  t : Task := {}
  c : Core := {}
  /-- The tasks of the other fronts, and the other cores (a core not listed is as it was after Dawn). -/
  tasks : List Task := []
  cores : List Core := []
  /-- Device memory by physical address (R291). -/
  mem : List Host.Cell := []
  /-- Units whose stored data are uncorrectable, by their first place: lines of device memory, 8 bytes on chip (R388). -/
  bad : List Nat := []
  dies : Vector Die 8 := Vector.replicate 8 {}
  package : Nat := 0
  funcs : List Func := []
  objs : List Obj := []
  syms : List Sym := []
  nextHandle : Nat := 1
  /-- Status of the latest load (R305). -/
  loadStatus : Nat := 0
  /-- Cached translated images: key and image (R308). -/
  images : List (List Byte × List Byte) := []
  candidates : List Candidate := []
  launches : List Launch := []
  readyTasks : List Ready := []
  nextLaunch : Nat := 1
  /-- The last queue the round-robin served (R276). -/
  lastQueue : Nat := 16895
  saved : List Saved := []
  domains : List Domain := []
  /-- Writes and tags of timed tasks that cores of their domains may not see yet, newest first (R60). -/
  pasts : List Past := []
  tagPasts : List TagPast := []
  /-- Token-word waiters in order: place of the word, launch, task (R124). -/
  waiters : List (Nat × Nat × Nat) := []
  /-- SEGPHASE arrivals: place of the phase word, launch, task (R123). -/
  arrivals : List (Nat × Nat × Nat) := []
  /-- The core whose REL or AMO last wrote an atomic word: place, core, the value it left (R128). -/
  releasers : List (Nat × Nat × Nat) := []
  ports : Vector Port 16 := Vector.replicate 16 {}
  failed : List Nat := []
  /-- Packages for which no route exists (R411), and the links on the way to a package where it is not one (R328). -/
  noRoute : List Nat := []
  hops : List (Nat × Nat) := []
  /-- Packages to which no route exists, each with the cycle from which none does (R411). -/
  unrouted : List (Nat × Nat) := []
  mgmt : Mgmt := {}
  trust : Trust := {}
  /-- Package cycle; TIME at cycle timeCycle, and its rate in millionths (R329); TSKEW (R330). -/
  cycle : Nat := 0
  timeBase : Nat := 0
  timeCycle : Nat := 0
  slew : Nat := 1000000
  /-- TIME at earlier cycles, newest first: its value at a cycle, the cycle, its rate (R329). -/
  timePast : List (Nat × Nat × Nat) := []
  tskew : Word32 := 0xFFFFFFFF
  /-- The governor (R282 to R287): slot, estimate of the last slot, claims, start step in 1/16 W. -/
  slot : Nat := 0
  pLast : Nat := 0
  /-- Partial estimates taken in this slot, one every 256 cycles (R282); firmware's figure for DRAM, I/O die and links in this
  slot and in the last; the weights that firmware loads at Dawn, in 2^-20 of 1/16 W. -/
  partials : Nat := 0
  otherNow : Nat := 0
  otherLast : Nat := 0
  weights : Work := {}
  claims : List Claim := []
  startStep : Nat := 192
  /-- Invalidation requests taken and not completed: function, first address, pages, completion word (R299). -/
  invalidations : List (Nat × Nat × Nat × Nat) := []
  /-- Completion objects that the device could not write: function, pointer (R392). -/
  lost : List (Nat × Nat) := []
  /-- Page-fault requests that wait for room in the ring: context, page, function, flags (R362). -/
  requests : List (Nat × Nat × Nat × Nat) := []
  /-- What came with the current event. -/
  input : Input := {}
  /-- The model's own fields: which agent moves next, steps that are due, the free-value counter. -/
  plan : List Pick := []
  agenda : List (Instr × Input) := []
  /-- With no plan, steps that are due and the front take turns: the front is next. -/
  turn : Bool := false
  free : Nat := 0
  deriving DecidableEq, Repr

/-- The package after Dawn (R334): nothing loaded, nothing launched, no task on any front, memory with nothing
listed. Registers the spec gives no reset value for hold zero (notes/assumptions/3.md). -/
def State.reset : State := {}

end Sys2Proof.Machine
end

