-- ==== Sys2Proof/Machine/Mem.lean ====
section
/-! DEFINITION. Byte memories as lists of cells in one canonical form (addresses strictly rising, no zero byte
listed; an unlisted byte reads as zero, notes/assumptions/1.md), and the bit-field helpers of wide values (R3, R4). -/

namespace Sys2Proof.Machine

/-- A byte memory. -/
abbrev Memory := List Host.Cell

/-- Bits pos to pos + len - 1 of x. -/
def field (x pos len : Nat) : Nat := x / 2 ^ pos % 2 ^ len

/-- x with bits pos to pos + len - 1 replaced by the low bits of v. -/
def splice (x pos len v : Nat) : Nat :=
  x % 2 ^ pos + (v % 2 ^ len) * 2 ^ pos + x / 2 ^ (pos + len) * 2 ^ (pos + len)

/-- The value of the low n bits of x, taken as signed (R11). -/
def signed (x n : Nat) : Int :=
  let y := x % 2 ^ n
  if n ≠ 0 ∧ 2 ^ (n - 1) ≤ y then (y : Int) - (2 ^ n : Nat) else (y : Int)

/-- The low n bits of an integer, as a natural number. -/
def wrap (x : Int) (n : Nat) : Nat := (x % ((2 ^ n : Nat) : Int)).toNat

/-- The least multiple of k not below n, divided by k. -/
def ceilDiv (n k : Nat) : Nat := (n + k - 1) / k

/-- The byte at address a. -/
def Memory.byte (m : Memory) (a : Nat) : Byte :=
  match m with
  | [] => 0
  | c :: r => if c.1 = a then c.2 else Memory.byte r a

/-- The n bytes from address a, least significant first (R4). -/
def Memory.read (m : Memory) (a n : Nat) : Nat :=
  (m.filter fun c => a ≤ c.1 && c.1 < a + n).foldl (fun acc c => acc + c.2.toNat * 2 ^ (8 * (c.1 - a))) 0

/-- The cells of the n low bytes of v from address a. -/
def cellsOf (a : Nat) : Nat → Nat → Memory
  | 0, _ => []
  | n + 1, v =>
    if v = 0 then []
    else if v % 256 = 0 then cellsOf (a + 1) n (v / 256)
    else (a, BitVec.ofNat 8 v) :: cellsOf (a + 1) n (v / 256)

/-- m with the n bytes from address a set to v, least significant first (R4). -/
def Memory.write (m : Memory) (a n v : Nat) : Memory :=
  (m.filter fun c => c.1 < a) ++ cellsOf a n v ++ (m.filter fun c => a + n ≤ c.1)

/-- The addresses of m rise strictly from above `lo`, and no listed byte is zero. -/
def Memory.wfFrom (lo : Nat) : Memory → Bool
  | [] => true
  | c :: r => lo ≤ c.1 && c.2 != 0 && Memory.wfFrom (c.1 + 1) r

/-- The canonical form. -/
def Memory.wf (m : Memory) : Bool := Memory.wfFrom 0 m

/-- A little-endian number of a byte list. -/
def leNat : List Byte → Nat
  | [] => 0
  | b :: r => b.toNat + 256 * leNat r

/-- The n low bytes of v, least significant first. -/
def bytesOf : Nat → Nat → List Byte
  | 0, _ => []
  | n + 1, v => BitVec.ofNat 8 v :: bytesOf n (v / 256)

/-- The pieces of n bytes from address a that stay within 64-byte lines: address, length. `fuel` bounds them. -/
def lines : Nat → Nat → Nat → List (Nat × Nat)
  | 0, _, _ => []
  | fuel + 1, a, n =>
    if n = 0 then []
    else
      let k := Nat.min n (64 - a % 64)
      (a, k) :: lines fuel (a + k) (n - k)

/-- The pieces of n bytes from a, one per 64-byte line. -/
def linesOf (a n : Nat) : List (Nat × Nat) := lines (n / 64 + 2) a n

/-- Two byte ranges share a byte. -/
def overlaps (a n b k : Nat) : Bool := a < b + k && b < a + n

/-- The numbers 0 to n - 1 whose bit is set in x. -/
def bitsSet (x n : Nat) : List Nat := (List.range n).filter fun i => x.testBit i

/-- Number of 1 bits among the low n bits of x. -/
def popCount (x : Nat) : Nat → Nat
  | 0 => 0
  | n + 1 => popCount x n + (x.testBit n).toNat

/-- The least i below n whose bit is set. -/
def firstSet (x n : Nat) : Option Nat := (List.range n).find? fun i => x.testBit i

end Sys2Proof.Machine
end

