-- ==== Sys2Proof/Machine/Num.lean ====
section
/-! DEFINITION. Numbers: the formats (R87 to R91), rounding (R92 to R94), the stochastic draw (R95), exact arithmetic
on values, and the special functions (R97). A finite value is ±m·2^e, exact; where a result is not dyadic its lowest
bit stands for everything below it, far beneath every format's precision. -/

namespace Sys2Proof.Machine

/-- A floating-point value. -/
inductive FVal where
  | nan (signalling : Bool)
  | inf (neg : Bool)
  | fin (neg : Bool) (m : Nat) (e : Int)
  deriving DecidableEq, Repr

/-- Result bits and raised flags (FFLAGS bit order: NV 32, DZ 16, OF 8, UF 4, NX 2, SA 1). -/
structure Res where
  bits : Nat
  flags : Nat
  deriving DecidableEq, Repr

def nv : Nat := 32
def dz : Nat := 16
def oF : Nat := 8
def uf : Nat := 4
def nx : Nat := 2
def sa : Nat := 1

/-! ## Types (Table 7-7) and formats (Table 5-1) -/

/-- Element bits of a type code. -/
def typeBits (ty : Nat) : Nat :=
  match ty with
  | 0 | 1 | 12 | 13 => 8
  | 2 | 3 | 10 | 11 => 16
  | 4 | 5 | 9 => 32
  | 6 | 7 | 8 => 64
  | _ => 4

/-- Element bytes of a type code; 4-bit elements are packed (R88). -/
def typeBytes (ty : Nat) : Nat := typeBits ty / 8

/-- The type is an integer type: i, n, s4. -/
def isInt (ty : Nat) : Bool := ty < 8 || ty == 15

/-- The type is a signed integer type. -/
def isSigned (ty : Nat) : Bool := (ty < 8 && ty % 2 == 0) || ty == 15

/-- The number of trailing significand bits, the number of exponent bits. -/
def fracBits (ty : Nat) : Nat :=
  match ty with
  | 8 => 52 | 9 => 23 | 10 => 10 | 11 => 7 | 12 => 3 | 13 => 2 | _ => 1
def expBits (ty : Nat) : Nat :=
  match ty with
  | 8 => 11 | 9 => 8 | 10 => 5 | 11 => 8 | 12 => 4 | 13 => 5 | _ => 2

/-- The exponent bias. -/
def bias (ty : Nat) : Nat := 2 ^ (expBits ty - 1) - 1

/-- The format has infinities. -/
def hasInf (ty : Nat) : Bool := ty != 12 && ty != 14

/-- The bits of the largest finite magnitude, and of the infinity. -/
def maxBits (ty : Nat) : Nat :=
  if ty = 12 then 0x7E else if ty = 14 then 7 else (2 ^ expBits ty - 1) * 2 ^ fracBits ty - 1
def infBits (ty : Nat) : Nat := (2 ^ expBits ty - 1) * 2 ^ fracBits ty

/-- The canonical NaN (Table 5-2). -/
def nanBits (ty : Nat) : Nat :=
  if ty = 12 then 0x7F else infBits ty + 2 ^ (fracBits ty - 1)

/-- The sign bit's value, when set. -/
def signBits (ty : Nat) (neg : Bool) : Nat := if neg then 2 ^ (typeBits ty - 1) else 0

/-- The value a bit pattern of a float type encodes (R89). -/
def decodeF (ty x : Nat) : FVal :=
  let f := fracBits ty
  let neg := x.testBit (typeBits ty - 1)
  let e := x / 2 ^ f % 2 ^ expBits ty
  let m := x % 2 ^ f
  if ty = 12 ∧ e = 15 ∧ m = 7 then .nan false
  else if hasInf ty ∧ e = 2 ^ expBits ty - 1 then
    if m = 0 then .inf neg else .nan (!m.testBit (f - 1))
  else if e = 0 then .fin neg m (1 - (bias ty : Int) - f)
  else .fin neg (2 ^ f + m) ((e : Int) - bias ty - f)

/-- The value of an element of any type (R87, R89). -/
def decodeVal (ty x : Nat) : FVal :=
  if isInt ty then
    if isSigned ty then
      let v := signed x (typeBits ty)
      .fin (v < 0) v.natAbs 0
    else .fin false (x % 2 ^ typeBits ty) 0
  else decodeF ty (x % 2 ^ typeBits ty)

/-- Number of significant bits. -/
def bitLen (m : Nat) : Nat := if m = 0 then 0 else Nat.log2 m + 1

/-! ## Rounding -/

/-- Whether a remainder rem of 2^d below an integer k rounds away from zero under code rc with draw r (R92, R94). -/
def roundsUp (rc r : Nat) (neg : Bool) (k rem d : Nat) : Bool :=
  match rc with
  | 0 | 1 => 2 * rem > 2 ^ d || (2 * rem == 2 ^ d && k % 2 == 1)
  | 3 => !neg && rem != 0
  | 4 => neg && rem != 0
  | 5 => decide (r < rem * 65536 / 2 ^ d)
  | _ => false

/-- m·2^e as a multiple of 2^q under rc: the integer, and whether it is inexact. -/
def quantise (rc r : Nat) (neg : Bool) (m : Nat) (e q : Int) : Nat × Bool :=
  if q ≤ e then (m * 2 ^ (e - q).toNat, false)
  else
    let d := (q - e).toNat
    let k := m / 2 ^ d
    let rem := m % 2 ^ d
    (if roundsUp rc r neg k rem d then k + 1 else k, rem != 0)

/-- a·2^p > b·2^q. -/
def dyadicGt (a : Nat) (p : Int) (b : Nat) (q : Int) : Bool :=
  if p ≤ q then decide (a > b * 2 ^ (q - p).toNat) else decide (a * 2 ^ (p - q).toNat > b)

/-- What Table 5-3 gives a finite value that overflows. -/
def overflowed (ty rc : Nat) (neg : Bool) : Res :=
  let big := if ty = 12 then nanBits ty else infBits ty + signBits ty neg
  let toInf := hasInf ty || ty == 12
  if toInf && (rc == 1 || (rc == 3 && !neg) || (rc == 4 && neg)) then ⟨big, oF + nx⟩
  else ⟨maxBits ty + signBits ty neg, oF + nx + sa⟩

/-- What Table 5-3 gives an infinite source. -/
def fromInf (ty rc : Nat) (neg : Bool) : Res :=
  if hasInf ty then ⟨infBits ty + signBits ty neg, 0⟩
  else if ty = 12 ∧ (rc = 1 ∨ rc = 3 ∧ neg = false ∨ rc = 4 ∧ neg = true) then ⟨nanBits ty, nv⟩
  else ⟨maxBits ty + signBits ty neg, sa + nx⟩

/-- round(±m·2^e, ty, rc) for a float type (R92 to R94), with the flags of R96. DESIGN CHOICE: a value between the largest
finite one and the point that rounds away from it overflows by its rounded result (Table 5-4), under RST by itself (R94);
R92 and R93 leave the other codes open there (notes/assumptions/34.md). -/
def roundFin (ty rc r : Nat) (neg : Bool) (m : Nat) (e : Int) : Res :=
  if m = 0 then ⟨signBits ty neg, 0⟩ else
  let f := fracBits ty
  let q0 : Int := 1 - (bias ty : Int) - f
  let top : Int := (bitLen m : Int) - 1 + e
  let q1 : Int := top - f
  let maxM := 2 ^ f + maxBits ty % 2 ^ f
  let maxE : Int := (maxBits ty / 2 ^ f : Nat) - (bias ty : Int) - f
  let free := quantise rc r neg m e q1
  let isBig := if rc = 5 then dyadicGt m e maxM maxE else dyadicGt free.1 q1 maxM maxE
  if isBig then overflowed ty rc neg
  else
    let q := if q1 < q0 then q0 else q1
    let k := quantise rc r neg m e q
    let biased : Nat := if k.1 < 2 ^ f then 0 else (q - q0).toNat + 1
    let bits := if biased = 0 then k.1 else biased * 2 ^ f + (k.1 - 2 ^ f)
    let tiny := dyadicGt 1 (1 - (bias ty : Int)) free.1 q1
    ⟨bits + signBits ty neg, if k.2 then nx + (if tiny then uf else 0) else 0⟩

/-- The least and greatest value of an integer type. -/
def intMin (ty : Nat) : Int := if isSigned ty then -(2 ^ (typeBits ty - 1) : Nat) else 0
def intMax (ty : Nat) : Int := if isSigned ty then (2 ^ (typeBits ty - 1) : Nat) - 1 else (2 ^ typeBits ty : Nat) - 1

/-- The largest magnitude that an integer type has on a side. -/
def intLimit (ty : Nat) (neg : Bool) : Nat := (if neg then intMin ty else intMax ty).natAbs

/-- round(value, ty, rc) for any destination type; `src` is the source type (R92 to R94). Under RST a magnitude above the
type's largest overflows whatever the draw. DESIGN CHOICE: a conversion between integer types that saturates raises SA
alone, as R93 says of it, and not NX, which Table 5-4 gives saturation (notes/assumptions/34.md). -/
def roundVal (src ty rc r : Nat) (v : FVal) : Res :=
  if isInt ty then
    match v with
    | .nan _ => ⟨0, nv⟩
    | .inf neg => ⟨wrap (if neg then intMin ty else intMax ty) (typeBits ty), sa + nx⟩
    | .fin neg m e =>
      let k := quantise rc r neg m e 0
      let x : Int := if neg then -(k.1 : Int) else k.1
      if x < intMin ty ∨ intMax ty < x ∨ (rc = 5 ∧ dyadicGt m e (intLimit ty neg) 0) then
        ⟨wrap (if neg then intMin ty else intMax ty) (typeBits ty), if isInt src then sa else oF + nx + sa⟩
      else ⟨wrap x (typeBits ty), if k.2 then nx else 0⟩
  else
    match v with
    | .nan sig => if ty = 14 then ⟨0, nv⟩ else ⟨nanBits ty, if sig then nv else 0⟩
    | .inf neg => fromInf ty rc neg
    | .fin neg m e => roundFin ty rc r neg m e

/-- The draw of R95. -/
def draw (key count idx : Nat) : Nat :=
  let w := 2 ^ 64
  let z := (Nat.xor (Nat.xor key (count % 2 ^ 32 * 2 ^ 32)) (idx % 2 ^ 32) + 0x9E3779B97F4A7C15) % w
  let z := Nat.xor z (z / 2 ^ 30) * 0xBF58476D1CE4E5B9 % w
  let z := Nat.xor z (z / 2 ^ 27) * 0x94D049BB133111EB % w
  Nat.xor z (z / 2 ^ 31) / 2 ^ 48

/-! ## Exact arithmetic -/

/-- -v. -/
def FVal.negate : FVal → FVal
  | .nan s => .nan s
  | .inf n => .inf (!n)
  | .fin n m e => .fin (!n) m e

/-- The signalling-NaN operand's flag (R96). -/
def FVal.sig : FVal → Nat
  | .nan true => nv
  | _ => 0

/-- A value and the flags its exact formation raises. -/
abbrev Exact := FVal × Nat

/-- v as a signed multiple of 2^e, for e not above its exponent. -/
def scaled (neg : Bool) (m : Nat) (p e : Int) : Int :=
  let x : Int := (m * 2 ^ (p - e).toNat : Nat)
  if neg then -x else x

/-- The exact sum (R92: an exact zero of opposite signs is +0). -/
def addV (a b : FVal) : Exact :=
  match a, b with
  | .nan s, .nan u => (.nan false, if s || u then nv else 0)
  | .nan s, _ => (.nan false, if s then nv else 0)
  | _, .nan s => (.nan false, if s then nv else 0)
  | .inf n, .inf k => if n = k then (.inf n, 0) else (.nan false, nv)
  | .inf n, _ => (.inf n, 0)
  | _, .inf n => (.inf n, 0)
  | .fin n m p, .fin k l q =>
    let e := if p ≤ q then p else q
    let x := scaled n m p e + scaled k l q e
    if x = 0 then (.fin (n && k) 0 0, 0) else (.fin (x < 0) x.natAbs e, 0)

/-- The exact product. -/
def mulV (a b : FVal) : Exact :=
  match a, b with
  | .nan s, .nan u => (.nan false, if s || u then nv else 0)
  | .nan s, _ => (.nan false, if s then nv else 0)
  | _, .nan s => (.nan false, if s then nv else 0)
  | .inf n, .inf k => (.inf (n != k), 0)
  | .inf n, .fin k m _ => if m = 0 then (.nan false, nv) else (.inf (n != k), 0)
  | .fin k m _, .inf n => if m = 0 then (.nan false, nv) else (.inf (n != k), 0)
  | .fin n m p, .fin k l q => (.fin (n != k) (m * l) (p + q), 0)

/-- The quotient, to far more bits than any format holds. -/
def divV (a b : FVal) : Exact :=
  match a, b with
  | .nan s, .nan u => (.nan false, if s || u then nv else 0)
  | .nan s, _ => (.nan false, if s then nv else 0)
  | _, .nan s => (.nan false, if s then nv else 0)
  | .inf _, .inf _ => (.nan false, nv)
  | .inf n, .fin k _ _ => (.inf (n != k), 0)
  | .fin n _ _, .inf k => (.fin (n != k) 0 0, 0)
  | .fin n m p, .fin k l q =>
    if l = 0 then (if m = 0 then (.nan false, nv) else (.inf (n != k), dz))
    else
      let sh := bitLen l + 160
      let x := m * 2 ^ sh
      (.fin (n != k) (2 * (x / l) + (if x % l = 0 then 0 else 1)) (p - q - sh - 1), 0)

/-- The integer square root, from bit `bits` - 1 down. -/
def isqrt (n : Nat) : Nat → Nat → Nat
  | 0, r => r
  | bits + 1, r =>
    let c := r + 2 ^ bits
    isqrt n bits (if c * c ≤ n then c else r)

/-- The square root (R96: of a value below -0, invalid). -/
def sqrtV (a : FVal) : Exact :=
  match a with
  | .nan s => (.nan false, if s then nv else 0)
  | .inf n => if n then (.nan false, nv) else (.inf false, 0)
  | .fin n m p =>
    if m = 0 then (.fin n 0 0, 0)
    else if n then (.nan false, nv)
    else
      let p' := if p % 2 = 0 then p else p - 1
      let x := (if p % 2 = 0 then m else 2 * m) * 2 ^ 280
      let r := isqrt x ((bitLen x + 1) / 2 + 1) 0
      (.fin false (2 * r + (if r * r = x then 0 else 1)) (p' / 2 - 140 - 1), 0)

/-- Round an exact result to nearest even (R97), its flags joined. -/
def finish (ty : Nat) (x : Exact) : Res :=
  let r := roundVal ty ty 1 0 x.1
  ⟨r.bits, Nat.lor r.flags x.2⟩

/-! ## Comparison, minimum and maximum (R97) -/

/-- a < b for values that are not NaNs; -0 and +0 compare equal. -/
def ltV (a b : FVal) : Bool :=
  match a, b with
  | .inf n, .inf k => n && !k
  | .inf n, .fin _ _ _ => n
  | .fin _ _ _, .inf k => !k
  | .fin n m p, .fin k l q =>
    let e := if p ≤ q then p else q
    decide (scaled n m p e < scaled k l q e)
  | _, _ => false

/-- Either operand is a NaN. -/
def anyNan (a b : FVal) : Bool :=
  match a, b with
  | .nan _, _ => true
  | _, .nan _ => true
  | _, _ => false

/-- Condition cc of VFCMP: EQ, NE, LT, LE, UNORD (R97), with its flags. -/
def cmpV (cc : Nat) (a b : FVal) : Bool × Nat :=
  let un := anyNan a b
  let sg := Nat.lor a.sig b.sig
  match cc with
  | 0 => (!un && !ltV a b && !ltV b a, sg)
  | 1 => (un || ltV a b || ltV b a, sg)
  | 2 => (!un && ltV a b, if un then nv else 0)
  | 3 => (!un && !ltV b a, if un then nv else 0)
  | _ => (un, sg)

/-- The sign of a value. -/
def FVal.isNeg : FVal → Bool
  | .nan _ => false
  | .inf n => n
  | .fin n _ _ => n

/-- minimumNumber (max = false) or maximumNumber (max = true) on bit patterns of a float type. -/
def minMaxF (ty : Nat) (max : Bool) (x y : Nat) : Res :=
  let a := decodeF ty x
  let b := decodeF ty y
  let fl := Nat.lor a.sig b.sig
  match a, b with
  | .nan _, .nan _ => ⟨nanBits ty, fl⟩
  | .nan _, _ => ⟨y, fl⟩
  | _, .nan _ => ⟨x, fl⟩
  | _, _ =>
    let less := ltV a b || (!ltV b a && a.isNeg && !b.isNeg)
    ⟨if less != max then x else y, fl⟩

/-! ## Special functions -/

/-- Working precision of the special functions, in bits. -/
def prec : Nat := 256

/-- ln 2 and log2 e, as multiples of 2^-256. -/
def ln2c : Nat := 0xb17217f7d1cf79abc9e3b39803f2f6af40f343267298b62d8a0d175b8baafa2b
def log2e : Nat := 0x171547652b82fe1777d0ffda0d23a7d11d6aef551bad2b4b1164a2cd9a342648f

/-- Σ z^i / i! from the term t of index n, all as multiples of 2^-256. -/
def expSeries (z : Nat) : Nat → Nat → Nat → Nat
  | 0, _, _ => 0
  | fuel + 1, n, t => t + expSeries z fuel (n + 1) (t * z / 2 ^ prec / (n + 1))

/-- 2^f for a fraction f, a multiple of 2^-256 below 1; the result is a multiple of 2^-256. -/
def exp2Frac (f : Nat) : Nat := expSeries (f * ln2c / 2 ^ prec) 60 0 (2 ^ prec)

/-- 2^x for x a multiple of 2^-256: a value with the sticky bit set. -/
def exp2Fixed (x : Int) : FVal :=
  let k := x / ((2 ^ prec : Nat) : Int)
  let f := (x % ((2 ^ prec : Nat) : Int)).toNat
  let k := if k < -5000 then -5000 else if 5000 < k then 5000 else k
  .fin false (2 * exp2Frac f + 1) (k - prec - 1)

/-- ±m·2^e as a multiple of 2^-256, held to ±2^270 of them. -/
def toFixed (neg : Bool) (m : Nat) (e : Int) : Int :=
  let lim : Nat := 2 ^ (prec + 14)
  let a := if 40 < (bitLen m : Int) + e then lim
    else Nat.min lim (if 0 ≤ e + prec then m * 2 ^ (e + prec).toNat else m / 2 ^ (-(e + prec)).toNat)
  if neg then -(a : Int) else a

/-- Fraction bits of log2 of y in [1, 2), y a multiple of 2^-600, by squaring. -/
def log2Bits : Nat → Nat → Nat → Nat
  | 0, _, acc => acc
  | fuel + 1, y, acc =>
    let s := y * y / 2 ^ 600
    if 2 ^ 601 ≤ s then log2Bits fuel (s / 2) (2 * acc + 1) else log2Bits fuel s (2 * acc)

/-- VEXP2. -/
def exp2V (v : FVal) : Exact :=
  match v with
  | .nan s => (.nan false, if s then nv else 0)
  | .inf n => if n then (.fin false 0 0, 0) else (.inf false, 0)
  | .fin n m e =>
    if m = 0 then (.fin false 1 0, 0)
    else
      let whole := if 0 ≤ e then true else m % 2 ^ (-e).toNat == 0
      if bitLen m + e < -120 then
        (.fin false (if n then 2 ^ 200 - 1 else 2 ^ 200 + 1) (-200), 0)
      else if whole ∧ (bitLen m : Int) + e ≤ 12 then
        let k : Int := toFixed n m e / ((2 ^ prec : Nat) : Int)
        (.fin false 1 k, 0)
      else (exp2Fixed (toFixed n m e), 0)

/-- VLOG2. -/
def log2V (v : FVal) : Exact :=
  match v with
  | .nan s => (.nan false, if s then nv else 0)
  | .inf n => if n then (.nan false, nv) else (.inf false, 0)
  | .fin n m e =>
    if m = 0 then (.inf true, dz)
    else if n then (.nan false, nv)
    else
      let l := bitLen m - 1
      let k : Int := l + e
      if m = 2 ^ l then (.fin (k < 0) k.natAbs 0, 0)
      else
        let frac := log2Bits 280 (m * 2 ^ (600 - l)) 0
        let x : Int := k * ((2 ^ 280 : Nat) : Int) + frac
        let y : Int := 2 * x + 1
        (.fin (y < 0) y.natAbs (-281), 0)

/-- VRCP. -/
def rcpV (v : FVal) : Exact := divV (.fin false 1 0) v

/-- VRSQRT. -/
def rsqrtV (v : FVal) : Exact :=
  match v with
  | .nan s => (.nan false, if s then nv else 0)
  | .inf n => if n then (.nan false, nv) else (.fin false 0 0, 0)
  | .fin n m e =>
    if m = 0 then (.inf n, dz)
    else if n then (.nan false, nv)
    else
      let m' := if e % 2 = 0 then m else 2 * m
      let e' := if e % 2 = 0 then e else e - 1
      let s := bitLen m' + 140
      let r := isqrt (2 ^ (2 * s) / m') (s + 1) 0
      (.fin false (2 * r + (if r * r * m' = 2 ^ (2 * s) then 0 else 1)) (-(e' / 2) - s - 1), 0)

/-- e^-|x|, k times over: 2^(-k·|x|·log2 e) as a multiple of 2^-256 with its exponent, m·2^e. -/
def expNeg (k m : Nat) (e : Int) : Nat × Int :=
  let x := (toFixed false m e).toNat * k * log2e / 2 ^ prec
  match exp2Fixed (-(x : Int)) with
  | .fin _ a q => (a, q)
  | _ => (0, 0)

/-- p·2^q as a multiple of 2^-600, with a bit left of what falls below. -/
def at600 (p : Nat) (q : Int) : Nat :=
  if 0 ≤ q + 600 then p * 2 ^ (q + 600).toNat else Nat.max 1 (p / 2 ^ (-(q + 600)).toNat)

/-- VTANH. -/
def tanhV (v : FVal) : Exact :=
  match v with
  | .nan s => (.nan false, if s then nv else 0)
  | .inf n => (.fin n 1 0, 0)
  | .fin n m e =>
    if m = 0 then (.fin n 0 0, 0)
    else if bitLen m + e < -60 then (.fin n (m * 2 ^ 100 - 1) (e - 100), 0)
    else
      let p := expNeg 2 m e
      let y := at600 p.1 p.2
      let a := (2 ^ 600 - y) * 2 ^ 300
      (.fin n (2 * (a / (2 ^ 600 + y)) + 1) (-301), 0)

/-- VSIGM, 1 ÷ (1 + e^-x). -/
def sigmV (v : FVal) : Exact :=
  match v with
  | .nan s => (.nan false, if s then nv else 0)
  | .inf n => if n then (.fin false 0 0, 0) else (.fin false 1 0, 0)
  | .fin n m e =>
    if m = 0 then (.fin false 1 (-1), 0)
    else if bitLen m + e < -120 then
      (.fin false (if n then 2 ^ 200 - 1 else 2 ^ 200 + 1) (-201), 0)
    else
      let p := expNeg 1 m e
      let y := at600 p.1 p.2
      if n then
        if p.2 + 600 < 0 then (.fin false p.1 p.2, 0)
        else (.fin false (2 * (y * 2 ^ 400 / (2 ^ 600 + y)) + 1) (-401), 0)
      else (.fin false (2 * (2 ^ 600 * 2 ^ 400 / (2 ^ 600 + y)) + 1) (-401), 0)

end Sys2Proof.Machine
end

