-- ==== Sys2Proof/Machine/Flags.lean ====
section
/-! DEFINITION. The flags: raising them in FFLAGS and FEXC (R80, R83, R96). -/

namespace Sys2Proof.Machine

/-- Raised flags of an instruction: element index and flags. -/
abbrev Raised := List (Nat × Nat)

/-- All flags raised. -/
def Raised.all (fs : Raised) : Nat := fs.foldl (fun a f => Nat.lor a f.2) 0

/-- The lowest index that raised the flag of bit b. -/
def Raised.lowest (fs : Raised) (b : Nat) : Option Nat :=
  fs.foldl (fun a f =>
    if f.2.testBit b then (match a with | none => some f.1 | some i => some (Nat.min i f.1)) else a) none

/-- The 16-bit FEXC field of one flag (R80). -/
def fexcField (fs : Raised) (b : Nat) : Nat :=
  match fs.lowest b with
  | none => 0
  | some i => 0x8000 + i % 4096

/-- FEXC word 0: NV, DZ, OF, UF (Table 4-5). -/
def fexcWord0 (fs : Raised) : Word :=
  BitVec.ofNat 64 (fexcField fs 5 * 2 ^ 48 + fexcField fs 4 * 2 ^ 32 + fexcField fs 3 * 2 ^ 16 + fexcField fs 2)

/-- FEXC word 1: NX, SA. -/
def fexcWord1 (fs : Raised) : Word := BitVec.ofNat 64 (fexcField fs 1 * 2 ^ 16 + fexcField fs 0)

/-- An instruction of the current strip raises its flags: they wait for the strip's commit (R83). -/
def Strip.raise (p : Strip) (fs : Raised) : Strip :=
  if fs.all = 0 then p
  else { p with flags := p.flags ||| BitVec.ofNat 6 fs.all, fexc := some (fexcWord0 fs, fexcWord1 fs),
                sat := p.sat + (fs.filter fun f => f.2.testBit 0).length }

/-- The flags of a committed strip take effect: ORed into FFLAGS, FEXC as the strip last wrote it. -/
def Task.takeFlags (t : Task) (flags : BitVec 6) (fexc : Option (Word × Word)) : Task :=
  match fexc with
  | none => { t with fflags := t.fflags ||| flags }
  | some w => { t with fflags := t.fflags ||| flags, fexc0 := w.1, fexc1 := w.2 }

/-- Flags raised without touching FEXC, as an AMO raises them (R221). -/
def Task.orFlags (t : Task) (flags : Nat) : Task := { t with fflags := t.fflags ||| BitVec.ofNat 6 flags }

end Sys2Proof.Machine
end

