-- ==== Sys2Proof/Machine/Place.lean ====
section
/-! DEFINITION. Places: where an address leads. A place is a physical address (R291), or 2^60 plus an on-chip map
address (R111). Reading and writing places, the scratchpad's compression (R116, R117), translation (R294 to R297) and
the checks of an access in the order of R337. -/

namespace Sys2Proof.Machine

/-- A trap about to be taken: its cause, TINFO, and for a page fault what the access was (Table 21-3). -/
structure Trap where
  cause : Nat
  info : Nat
  write : Bool := false
  fetch : Bool := false
  /-- Of a page fault in the columns, the number of its convoy among those from TVCP on (R361). -/
  at_ : Nat := 0
  deriving DecidableEq, Repr

/-- A result, or the trap that stands in its way. -/
abbrev R := Except Trap

/-! ## Cores, tasks and dies by number -/

/-- The core with package-wide number n. -/
def State.coreAt (s : State) (n : Nat) : Core :=
  if s.c.num = n then s.c else (s.cores.find? fun c => c.num == n).getD { num := n }

/-- The core of number c.num becomes c. -/
def State.setCore (s : State) (c : Core) : State :=
  if s.c.num = c.num then { s with c := c } else { s with cores := c :: s.cores.filter fun d => d.num != c.num }

/-- The task on a front, if the front holds one. -/
def State.taskAt (s : State) (core front : Nat) : Option Task :=
  if s.t.core = core ∧ s.t.front = front then (if s.t.live then some s.t else none)
  else s.tasks.find? fun t => t.core == core && t.front == front && t.live

/-- The task on t's front becomes t. -/
def State.setTask (s : State) (t : Task) : State :=
  if s.t.core = t.core ∧ s.t.front = t.front then { s with t := t }
  else { s with tasks := t :: s.tasks.filter fun u => !(u.core == t.core && u.front == t.front) }

/-- Every running task. -/
def State.allTasks (s : State) : List Task := (s.t :: s.tasks).filter fun t => t.live

/-- Every core that is not as after Dawn. -/
def State.allCores (s : State) : List Core := s.c :: s.cores

/-- The die beneath a core (R19). -/
def dieOf (core : Nat) : Fin 8 := Fin.ofNat 8 (core / 36)

/-- Die d becomes x. -/
def State.setDie (s : State) (d : Fin 8) (x : Die) : State := { s with dies := s.dies.set d.val x d.isLt }

/-- The registers of function n. -/
def State.func (s : State) (n : Nat) : Func := (s.funcs.find? fun f => f.n == n).getD { n := n }

/-- The registers of function f.n become f. -/
def State.setFunc (s : State) (f : Func) : State := { s with funcs := f :: s.funcs.filter fun g => g.n != f.n }

/-- The launch of placement number n. -/
def State.launch (s : State) (n : Nat) : Option Launch := s.launches.find? fun l => l.id == n

/-- The launch of number l.id becomes l. -/
def State.setLaunch (s : State) (l : Launch) : State :=
  { s with launches := s.launches.map fun m => if m.id = l.id then l else m }

/-! ## On-chip map (R111, R112) -/

/-- What tells an on-chip place from a physical address. -/
def chip : Nat := 2 ^ 60

/-- The first map address of a core (R19). -/
def coreMap (num : Nat) : Nat := num / 36 * 2 ^ 37 + num % 36 * 2 ^ 31

/-- The place of an offset in a space of a core. -/
def chipPlace (num space off : Nat) : Nat := chip + coreMap num + space * 2 ^ 27 + off

/-- The fields of a map address (Table 6-1). -/
def mapSpace (a : Nat) : Nat := a / 2 ^ 27 % 16
def mapOff (a : Nat) : Nat := a % 2 ^ 27
def mapDie (a : Nat) : Nat := a / 2 ^ 37 % 8
def mapCore (a : Nat) : Nat := a / 2 ^ 31 % 64
def mapNum (a : Nat) : Nat := mapDie a * 36 + mapCore a

/-- The place of the copy of a launch's argument block (R33), which no address of the on-chip map leads to. -/
def argPlace (launch : Nat) : Nat := chip + 2 ^ 50 + launch * 2 ^ 32 + 15 * 2 ^ 27

/-- Size of each space (Table 6-2). -/
def spaceSize : Nat → Nat
  | 0 => 0x800000
  | 1 => 0x100000
  | 2 => 0x22000
  | 3 => 0x20000
  | 4 => 0x800000
  | 5 => 0x40000
  | 6 => 0x200000
  | _ => 0

/-! ## Scratchpad tiles (R116 to R118) -/

/-- Tile n of a core. -/
def Core.tileAt (c : Core) (n : Nat) : Tile :=
  (c.tiles.find? fun t => t.n == n).getD { n := n, bytes := 0, tag := 0, checked := false }

/-- Tile t.n becomes t; an all-zero untagged tile is not listed. -/
def Core.setTile (c : Core) (t : Tile) : Core :=
  let r := c.tiles.filter fun u => u.n != t.n
  { c with tiles := if t.bytes = 0 ∧ t.tag = 0 ∧ t.checked = false then r else t :: r }

/-- The number of sectors of code 1 (R116). -/
def storedSectors (b : BitVec 32768) : Nat :=
  ((List.range 64).foldl (fun (p : Nat × Option Nat) i =>
    let x := field b.toNat (512 * i) 512
    if x = 0 then p else if p.2 = some x then p else (p.1 + 1, some x)) (0, none)).1

/-- Extents a tile costs (R117). -/
def Tile.cost (t : Tile) : Nat := ceilDiv (storedSectors t.bytes) 8

/-- Free extents of a core's pool (R117). -/
def Core.freeExtents (c : Core) : Nat :=
  Config.poolExtents - (c.tiles.map Tile.cost).sum - (c.heldExtents.map Prod.snd).sum

/-! ## Lane registers and their bookkeeping (R84) -/

/-- A write that reaches up to `high` sets the dirty bit and raises the mark. -/
def Mark.write (m : Mark) (high : Nat) : Mark := { dirty := true, high := Nat.max m.high high }

/-- Vector register p becomes x, the write reaching byte `top` - 1 (the mark rises to the end of its group). -/
def Lanes.setV (l : Lanes) (p : Fin 256) (x : BitVec 32768) (top : Nat) : Lanes :=
  { l with v := l.v.set p.val x p.isLt,
           vMark := l.vMark.set p.val (l.vMark[p].write (128 * ceilDiv top 128)) p.isLt }

/-- Mask register k becomes x; m0 always reads all-true (R64). -/
def Lanes.setM (l : Lanes) (k : Fin 16) (x : BitVec 4096) : Lanes :=
  if k = 0 then l
  else { l with m := l.m.set k.val x k.isLt, mMark := l.mMark.set k.val (l.mMark[k].write 0) k.isLt }

/-- Mask register k as read. -/
def Lanes.getM (l : Lanes) (k : Fin 16) : BitVec 4096 := if k = 0 then BitVec.allOnes 4096 else l.m[k]

/-- Row r of tile t becomes x. -/
def Lanes.setRow (l : Lanes) (t : Fin 8) (r : Fin 64) (x : BitVec 2048) : Lanes :=
  { l with tile := l.tile.set t.val (l.tile[t].set r.val x r.isLt) t.isLt,
           tMark := l.tMark.set t.val (l.tMark[t].write (r.val + 1)) t.isLt }

/-- Side-array row r of tile t becomes x. -/
def Lanes.setSide (l : Lanes) (t : Fin 8) (r : Fin 64) (x : BitVec 128) : Lanes :=
  { l with side := l.side.set t.val (l.side[t].set r.val x r.isLt) t.isLt,
           tMark := l.tMark.set t.val (l.tMark[t].write (r.val + 1)) t.isLt }

/-- Row r of accumulator a becomes x. -/
def Lanes.setAcc (l : Lanes) (a : Fin 16) (r : Fin 32) (x : BitVec 2048) : Lanes :=
  { l with acc := l.acc.set a.val (l.acc[a].set r.val x r.isLt) a.isLt,
           aMark := l.aMark.set a.val (l.aMark[a].write (r.val + 1)) a.isLt }

/-- Four side-array rows from row r, as one line. -/
def sideLine (d : Vector (BitVec 128) 64) (r : Nat) : Nat :=
  (List.range 4).foldl (fun acc i => acc + d[Fin.ofNat 64 (r + i)].toNat * 2 ^ (128 * i)) 0

/-- Four side-array rows of tile t from row r become a line, of which the write reaches byte top - 1 (R84). -/
def Lanes.setSides (l : Lanes) (t : Fin 8) (r x top : Nat) : Lanes :=
  { (List.range 4).foldl (fun l i => l.setSide t (Fin.ofNat 64 (r + i)) (BitVec.ofNat 128 (x / 2 ^ (128 * i)))) l with
    tMark := l.tMark.set t.val (l.tMark[t].write (r + ceilDiv top 16)) t.isLt }

/-- The place of a register's progress index (R43). -/
def LReg.slot : LReg → Fin 296
  | .v n => Fin.ofNat 296 (n % 256)
  | .m n => Fin.ofNat 296 (256 + n % 16)
  | .t n => Fin.ofNat 296 (272 + n % 8)
  | .a n => Fin.ofNat 296 (280 + n % 16)

/-- The progress index of a register becomes n: its producer has written that many elements or rows (R43). -/
def Lanes.advance (l : Lanes) (r : LReg) (n : Nat) : Lanes := { l with progress := l.progress.set r.slot.val n r.slot.isLt }

/-! ## Reading and writing places -/

/-- The stack position of a task that byte b of the riser buffer holds, if one does (R253). -/
def Task.riserPos (t : Task) (b : Nat) : Option Nat :=
  let p := t.spill + (b + 262144 - t.spill % 262144) % 262144
  if p < t.depth then some p else none

/-- Byte b of a core's riser buffer (R253): the byte of the stack position it holds, else undefined. DESIGN CHOICE: where
the stacks of both fronts place a position there, the byte is the lane holder's, else front 0's (notes/assumptions/17.md). -/
def riserByte (s : State) (num b : Nat) : Nat :=
  let first := ((s.coreAt num).holder).getD 0
  match [first, 1 - first].findSome? fun f =>
      (s.taskAt num f).bind fun t => (t.riserPos b).map fun p => (Memory.byte t.riser p).toNat with
  | some v => v
  | none => (Config.freeByte ((s.free * 288 + num) * 262144 + b)).toNat

/-- The 64 bytes of an on-chip line, a its map address, a multiple of 64 (Table 6-2). -/
def chipLine (s : State) (a : Nat) : Nat :=
  let c := s.coreAt (mapNum a)
  let o := mapOff a
  match mapSpace a with
  | 0 => field (c.tileAt (o / 4096)).bytes.toNat (o % 4096 * 8) 512
  | 1 => field c.lanes.v[Fin.ofNat 256 (o / 4096)].toNat (o % 4096 * 8) 512
  | 2 =>
    if o < 0x20000 then
      field (c.lanes.tile[Fin.ofNat 8 (o / 0x4000)])[Fin.ofNat 64 (o % 0x4000 / 256)].toNat (o % 256 * 8) 512
    else
      let d := c.lanes.side[Fin.ofNat 8 ((o - 0x20000) / 0x400)]
      let r := (o - 0x20000) % 0x400 / 16
      sideLine d r
  | 3 => field (c.lanes.acc[Fin.ofNat 16 (o / 0x2000)])[Fin.ofNat 32 (o % 0x2000 / 256)].toNat (o % 256 * 8) 512
  | 4 => Memory.read c.bstore o 64
  | 5 => (List.range 64).foldl (fun acc i => acc + riserByte s c.num (o + i) * 2 ^ (8 * i)) 0
  | 15 =>
    let l := (s.launches.find? fun l => argPlace l.id / 2 ^ 31 == (chip + a) / 2 ^ 31).map fun l => l.record.args
    leNat (((l.getD []).drop o).take 64)
  | _ => 0

/-- An on-chip line becomes x, the write reaching byte top - 1 of it. A lane register written takes its bookkeeping (R84). -/
def chipSetLine (s : State) (a x top : Nat) : State :=
  let c := s.coreAt (mapNum a)
  let o := mapOff a
  let put (l : Lanes) := s.setCore { c with lanes := l }
  match mapSpace a with
  | 0 =>
    let t := c.tileAt (o / 4096)
    s.setCore (c.setTile { t with bytes := BitVec.ofNat 32768 (splice t.bytes.toNat (o % 4096 * 8) 512 x) })
  | 1 =>
    let p := Fin.ofNat 256 (o / 4096)
    put (c.lanes.setV p (BitVec.ofNat 32768 (splice c.lanes.v[p].toNat (o % 4096 * 8) 512 x)) (o % 4096 + 64))
  | 2 =>
    if o < 0x20000 then
      let t := Fin.ofNat 8 (o / 0x4000)
      let r := Fin.ofNat 64 (o % 0x4000 / 256)
      put (c.lanes.setRow t r (BitVec.ofNat 2048 (splice (c.lanes.tile[t])[r].toNat (o % 256 * 8) 512 x)))
    else
      let t := Fin.ofNat 8 ((o - 0x20000) / 0x400)
      let r := (o - 0x20000) % 0x400 / 16
      put (c.lanes.setSides t r x top)
  | 3 =>
    let k := Fin.ofNat 16 (o / 0x2000)
    let r := Fin.ofNat 32 (o % 0x2000 / 256)
    put (c.lanes.setAcc k r (BitVec.ofNat 2048 (splice (c.lanes.acc[k])[r].toNat (o % 256 * 8) 512 x)))
  | 4 => s.setCore { c with bstore := Memory.write c.bstore o 64 x }
  | _ => s

/-- n bytes of one 64-byte line at a place. -/
def getIn (s : State) (p n : Nat) : Nat :=
  if p < chip then Memory.read s.mem p n
  else field (chipLine s ((p - chip) / 64 * 64)) (p % 64 * 8) (8 * n)

/-- n bytes of one 64-byte line at a place become v. -/
def putIn (s : State) (p n v : Nat) : State :=
  if p < chip then { s with mem := Memory.write s.mem p n v }
  else
    let a := (p - chip) / 64 * 64
    chipSetLine s a (splice (chipLine s a) (p % 64 * 8) (8 * n) v) (p % 64 + n)

/-- n bytes from a place, least significant first (R4). -/
def getPlace (s : State) (p n : Nat) : Nat :=
  (linesOf p n).foldl (fun acc q => acc + getIn s q.1 q.2 * 2 ^ (8 * (q.1 - p))) 0

/-- Bytes that one error code protects: a line of DRAM, 64 bits of anything on chip (Table 23-1). -/
def unitSize (p : Nat) : Nat := if p < chip then 64 else 8

/-- The protection unit of a place. -/
def errorUnit (p : Nat) : Nat := p / unitSize p * unitSize p

/-- Unit b lies whole in n bytes from p. -/
def unitWithin (p n b : Nat) : Bool := p ≤ b && b + unitSize b ≤ p + n

/-- n bytes from a place become v; a unit written whole is no longer bad (R388). -/
def putPlace (s : State) (p n v : Nat) : State :=
  let s := (linesOf p n).foldl (fun s q => putIn s q.1 q.2 (v / 2 ^ (8 * (q.1 - p)))) s
  if s.bad = [] then s else { s with bad := s.bad.filter fun b => !unitWithin p n b }

/-- A byte of memory or of a lane register as anyone sees it: what the statements about memory read. -/
def State.byteAt (s : State) (p : Nat) : Nat := getIn s p 1

/-- TINFO of cause 0x15 for a place (Table 20-1). -/
def errorInfo (p : Nat) : Nat := if p < chip then p % 2 ^ 53 else 2 ^ 63 + (p - chip) % 2 ^ 40

/-- The lowest of some units. -/
def lowestUnit (bs : List Nat) : Option Nat :=
  match bs with
  | [] => none
  | b :: r => some (r.foldl Nat.min b)

/-- The first bad unit that n bytes from a place touch (R388). -/
def firstBad (s : State) (p n : Nat) : Option Nat :=
  if s.bad = [] ∨ n = 0 then none else lowestUnit (s.bad.filter fun b => overlaps p n b (unitSize b))

/-- The first bad unit that a write of n bytes at a place would have to merge with (R388). -/
def mergesBad (s : State) (p n : Nat) : Option Nat :=
  if s.bad = [] ∨ n = 0 then none else lowestUnit (s.bad.filter fun b => overlaps p n b (unitSize b) && !unitWithin p n b)

/-- Read with the error check: cause 0x15 at the first bad unit (R388). -/
def readPlace (s : State) (p n : Nat) : R Nat :=
  match firstBad s p n with
  | some b => .error { cause := 0x15, info := errorInfo b }
  | none => .ok (getPlace s p n)

/-- The Ladle of core num moves n bytes, 128 in a cycle, behind what it has to move (R238, R282). -/
def State.ladleMoves (s : State) (num n : Nat) : State :=
  let c := s.coreAt num
  let from_ := (c.loads.filter fun l => l.work.ladle != 0).foldl (fun m l => Nat.max m (l.start + l.len)) s.cycle
  s.setCore { c with loads := c.loads ++ [{ col := none, start := from_, len := Nat.max 1 (ceilDiv n 128), work := { ladle := n } }] }

/-! ## Stores that land together (R381) -/

/-- old with the bits of mask taken from v. -/
def mergeBits (old mask v : Nat) : Nat := old - Nat.land old mask + Nat.land v mask

/-- Apply one store. -/
def landOne (s : State) (w : Store) : State :=
  if w.mask = 0 then putPlace s w.place w.len w.val
  else putPlace s w.place w.len (mergeBits (getPlace s w.place w.len) w.mask w.val)

/-- The scratchpad tiles a list of stores touches: core and tile, ascending. -/
def tilesOf (ws : List Store) : List (Nat × Nat) :=
  let ts := ws.flatMap fun w =>
    if w.place < chip ∨ mapSpace (w.place - chip) ≠ 0 then []
    else [(mapNum (w.place - chip), mapOff (w.place - chip) / 4096)]
  (ts.eraseDups.foldl (fun acc t => (acc.takeWhile fun u => u.1 < t.1 || (u.1 == t.1 && u.2 < t.2)) ++ t ::
    (acc.dropWhile fun u => u.1 < t.1 || (u.1 == t.1 && u.2 < t.2))) [])

/-- TINFO of cause 0x10 (Table 20-1). -/
def fullInfo (need core tile : Nat) : Nat := need + tile * 2 ^ 32 + core % 36 * 2 ^ 43 + core / 36 * 2 ^ 49

/-- The first tile whose need the free extents of its core cannot meet, the tiles below it counted. -/
def shortTile (s s' : State) : List (Nat × Nat) → (Nat × Nat) → Option Nat
  | [], _ => none
  | (core, tile) :: r, (cur, used) =>
    let used := if core = cur then used else 0
    let need := ((s'.coreAt core).tileAt tile).cost
    if (s.coreAt core).freeExtents < used + need then some (fullInfo need core tile)
    else shortTile s s' r (core, used + need)

/-- A tile as a timed launch found it is kept for its rollback (R368). -/
def Core.keepTile (c : Core) (launch : Nat) (t : Tile) : Core :=
  if c.heldTiles.any fun h => h.1 == launch && h.2.n == t.n then c else { c with heldTiles := (launch, t) :: c.heldTiles }

/-- A tile that a timed launch replaces is kept, and its extents stay held. -/
def Core.hold (c : Core) (launch : Nat) (t : Tile) : Core :=
  let c := c.keepTile launch t
  if t.cost = 0 then c else { c with heldExtents := (launch, t.cost) :: c.heldExtents }

/-- A launch's held extents are free again, on every core (R57). -/
def State.dropExtents (s : State) (launch : Nat) : State :=
  let f (c : Core) : Core :=
    { c with heldExtents := c.heldExtents.filter fun h => h.1 != launch, heldTiles := c.heldTiles.filter fun h => h.1 != launch }
  { s with c := f s.c, cores := s.cores.map f }

/-- In a timed domain the extents of replaced tiles stay held until its restart point (R57). -/
def holdExtents (s s' : State) (launch : Nat) (ts : List (Nat × Nat)) : State :=
  ts.foldl (fun x t => x.setCore ((x.coreAt t.1).hold launch ((s.coreAt t.1).tileAt t.2))) s'

/-- A store must merge with a bad unit: one that it does not write whole, or of whose bits it keeps some (R388). -/
def Store.mergesBad (w : Store) (s : State) : Option Nat :=
  if w.mask = 0 then Machine.mergesBad s w.place w.len else firstBad s w.place w.len

/-- A list of stores allocated and written as one: cause 0x10 when a pool cannot meet it, cause 0x15 when a partial
write meets a bad unit (R337, R381, R388); then nothing is written. `hold` is the timed launch, if they are a timed
launch's. -/
def landStores (s : State) (hold : Option Nat) (ws : List Store) : R State :=
  let s' := ws.foldl landOne s
  let ts := tilesOf ws
  match shortTile s s' ts (0, 0) with
  | some info => .error { cause := 0x10, info := info }
  | none =>
    match ws.findSome? fun w => w.mergesBad s with
    | some b => .error { cause := 0x15, info := errorInfo b }
    | none => .ok (hold.elim s' fun l => holdExtents s s' l ts)

/-- What n bytes from a place read as, given the stores that precede the read and have not landed (R46, R57). -/
def overlay (ws : List Store) (p n base : Nat) : Nat :=
  ws.foldl (fun acc w =>
    if overlaps p n w.place w.len then
      (List.range w.len).foldl (fun acc i =>
        let a := w.place + i
        if p ≤ a ∧ a < p + n then
          let b := w.val / 2 ^ (8 * i) % 256
          splice acc (8 * (a - p)) 8 (if w.mask = 0 then b else mergeBits (field acc (8 * (a - p)) 8) w.mask b)
        else acc) acc
    else acc) base

/-! ## What the cores of a timed domain see of one another (R60) -/

/-- A read on core c at cycle r sees what core b wrote on cycle w: its own writes of earlier cycles, those of its die from
cycle w + 64 on, others from w + 192. -/
def sees (c r b w : Nat) : Bool := if b = c then decide (w < r) else decide (w + (if b / 36 = c / 36 then 64 else 192) ≤ r)

/-- The same of a write that is kept; its own engine's stands from the cycle on which it lands (R57). -/
def Past.seen (p : Past) (c r : Nat) : Bool := sees c r p.core p.cycle || p.engine && p.core == c && decide (p.cycle ≤ r)

/-- Byte a as a read on core c at cycle r sees it: v stands there, and ps are the writes of its domain, newest first. -/
def pastByte (c r a : Nat) : List Past → Nat → Nat
  | [], v => v
  | p :: ps, v =>
    if p.place ≤ a ∧ a < p.place + p.len then
      if p.seen c r then v else pastByte c r a ps (field p.old (8 * (a - p.place)) 8)
    else pastByte c r a ps v

/-- n bytes at a place, which are v, as a read on core c of the domain of launch l sees them at cycle r. -/
def State.pastView (s : State) (l c r place n v : Nat) : Nat :=
  let ps := s.pasts.filter fun p => p.launch == l && overlaps place n p.place p.len
  if ps = [] then v
  else (List.range n).foldl (fun acc i => acc + pastByte c r (place + i) ps (field v (8 * i) 8) * 2 ^ (8 * i)) 0

/-- A store in its place among stores in the order of their cycles. -/
def insertStore (w : Store) : List Store → List Store
  | [] => [w]
  | x :: r => if x.cycle ≤ w.cycle then x :: insertStore w r else w :: x :: r

/-- Stores in the order of their cycles. -/
def byCycle (ws : List Store) : List Store := ws.foldl (fun acc w => insertStore w acc) []

/-- The stores of a domain's tasks, its ended ones among them, that wait for a restart point (R57). -/
def heldOf (s : State) (launch : Nat) : List Store :=
  (s.domains.filter fun d => d.launch == launch).flatMap Domain.held ++
  (s.allTasks.filter fun t => t.launch == launch).flatMap fun t => t.deferred ++ t.engineLate

/-- n bytes at a place, which are v, as a core of a domain sees them: its deferred stores over what has landed. -/
def State.domainView (s : State) (l c r place n v : Nat) : Nat :=
  overlay (byCycle ((heldOf s l).filter fun w => !w.engine && sees c r w.core w.cycle)) place n (s.pastView l c r place n v)

/-- n bytes at a place, which are v, as the current task sees them on cycle r. -/
def State.sight (s : State) (r place n v : Nat) : Nat :=
  if s.t.timed then s.domainView s.t.launch s.c.num r place n v else v

/-- The same on its present cycle. -/
def sightNow (s : State) (place n v : Nat) : Nat := s.sight s.t.cycle place n v

/-- A timing domain runs for a launch. -/
def State.inDomain (s : State) (launch : Nat) : Bool := s.domains.any fun d => d.launch == launch

/-- What stands where stores of a timed launch are about to land is kept for the reads of its domain that may not see them:
those of other cores, and its own of an earlier issue cycle that have not been made yet (R154). -/
def State.notePasts (s : State) (launch : Nat) (ws : List Store) : State :=
  if s.inDomain launch then
    { s with pasts := ws.foldl (fun acc w =>
        ({ launch := launch, core := w.core, cycle := w.cycle, place := w.place, len := w.len,
           old := getPlace s w.place w.len, engine := w.engine } : Past) :: acc) s.pasts }
  else s

/-- The tag of a tile that core `setter` is about to set, or to clear (R118). -/
def State.noteTag (s : State) (launch setter cycle core n : Nat) : State :=
  if s.inDomain launch then
    let t := (s.coreAt core).tileAt n
    { s with tagPasts := { launch := launch, core := core, n := n, setter := setter, cycle := cycle, tag := t.tag,
                           checked := t.checked } :: s.tagPasts }
  else s

/-- A tile's tag and checked bit as a read on core c at cycle r sees them. -/
def tagSeen (c r core n : Nat) : List TagPast → BitVec 16 × Bool → BitVec 16 × Bool
  | [], v => v
  | p :: ps, v =>
    if p.core = core ∧ p.n = n then
      if sees c r p.setter p.cycle then v else tagSeen c r core n ps (p.tag, p.checked)
    else tagSeen c r core n ps v

/-- Tile t of a core with the tag and checked bit that the current task sees on cycle r. -/
def State.tileSeen (s : State) (r core : Nat) (t : Tile) : Tile :=
  if s.t.timed then
    let v := tagSeen s.c.num r core t.n (s.tagPasts.filter fun p => p.launch == s.t.launch) (t.tag, t.checked)
    { t with tag := v.1, checked := v.2 }
  else t

/-- Writes and tags of a domain that every core sees by a cycle are forgotten. -/
def State.prunePasts (s : State) (launch cycle : Nat) : State :=
  { s with pasts := s.pasts.filter fun p => p.launch != launch || decide (cycle < p.cycle + 192),
           tagPasts := s.tagPasts.filter fun p => p.launch != launch || decide (cycle < p.cycle + 192) }

/-- A domain's writes and tags are forgotten. -/
def State.dropPasts (s : State) (launch : Nat) : State :=
  { s with pasts := s.pasts.filter fun p => p.launch != launch,
           tagPasts := s.tagPasts.filter fun p => p.launch != launch }

/-! ## Atomic words (R124, R125, R128) -/

/-- The launch for which the current task's writes hold extents: a timed one (R57). -/
def State.holdFor (s : State) : Option Nat := if s.t.timed then some s.t.launch else none

/-- The value that a note of a REL or AMO at a place is about: the doubleword, or its upper half alone. -/
def releasedValue (s : State) (place : Nat) : Nat := getPlace s place (if place % 8 = 0 then 8 else 4)

/-- The core of the REL or AMO that wrote the value of the doubleword at a place, or part of it, if one did: the last whose
value no other write has changed since (R128). -/
def releaserOf (s : State) (place : Nat) : Option Nat :=
  (s.releasers.find? fun r => place ≤ r.1 && r.1 < place + 8 && r.2.2 == releasedValue s r.1).map fun r => r.2.1

/-- The current core has written the atomic word at a place. -/
def noteReleaser (s : State) (place : Nat) : State :=
  { s with releasers := (place, s.t.core, releasedValue s place) :: s.releasers.filter fun r => r.1 != place }

/-- The value at a place was written by no REL and no AMO. -/
def dropReleaser (s : State) (place : Nat) : State :=
  { s with releasers := s.releasers.filter fun r => !(place ≤ r.1 && r.1 < place + 8) }

/-- Registers ps of core num stand written whole: their progress is the full element count of the holder's type (R115). -/
def State.fillMail (s : State) (num : Nat) (ps : List Nat) : State :=
  let c := s.coreAt num
  let ty := ((c.holder.bind (s.taskAt num)).map fun t => t.modes.vtype.toNat).getD 0
  s.setCore { c with lanes := ps.foldl (fun l p => l.advance (.v p) (32768 / typeBits ty)) c.lanes }

/-- A store goes into another core's space 1. -/
def remoteMail (num : Nat) (w : Store) : Bool :=
  chip ≤ w.place && mapSpace (w.place - chip) == 1 && mapNum (w.place - chip) != num

/-- An atomic or synchronising write of the current task, which acts at once; in a timed domain the other cores see it as
they see any write (R60, R131). A mailbox register that it writes on another core stands written (R115). -/
def putWord (s : State) (place n v : Nat) : R State :=
  let w : Store := { place := place, len := n, val := v, hdr := s.t.pc.toNat, core := s.c.num, cycle := s.t.cycle }
  (landStores (if s.t.timed then s.notePasts s.t.launch [w] else s) s.holdFor [w]).map fun u =>
    if remoteMail s.c.num w then u.fillMail (mapNum (place - chip)) [mapOff (place - chip) / 4096] else u

/-! ## Translation (R290 to R299) -/

/-- A frame number names local memory that exists (R26, R383), or another package. -/
def frameOk (s : State) (f : Nat) : Bool := f / 2 ^ 24 % 2 ^ 13 != s.package || f % 2 ^ 24 < 2 ^ 22

/-- The eight entries of a leaf line. -/
def lineEntry (ln e : Nat) : Nat := field ln (56 * e) 56

/-- One walk (R294): the entry to install and whether RUNMISS counts; none where an entry is not present or is
malformed (R383), or for an address past the 55 bits (R290). -/
def walk (s : State) (fn va : Nat) : Option (TlbEntry × Bool) :=
  let root := (s.func fn).ptroot
  let top := root / 2 ^ 16 % 2 ^ 37
  if 2 ^ 55 ≤ va ∨ root % 2 = 0 ∨ top / 2 ^ 24 ≠ s.package ∨ frameOk s top = false then none else
  let t2 := Memory.read s.mem (top * 2 ^ 16 + 8 * (va / 2 ^ 42 % 2 ^ 13)) 8
  let f2 := t2 / 2 ^ 16 % 2 ^ 37
  if t2 % 2 = 0 ∨ t2 / 2 ^ 53 ≠ 0 ∨ t2 / 16 % 2 ^ 12 ≠ 0 ∨ t2 / 2 % 2 ≠ 0 ∨ f2 / 2 ^ 24 ≠ s.package ∨ frameOk s f2 = false
  then none else
  let t1 := Memory.read s.mem (f2 * 2 ^ 16 + 8 * (va / 2 ^ 29 % 2 ^ 13)) 8
  let f1 := t1 / 2 ^ 16 % 2 ^ 37
  if t1 % 2 = 0 ∨ t1 / 2 ^ 53 ≠ 0 ∨ t1 / 16 % 2 ^ 12 ≠ 0 ∨ frameOk s f1 = false then none else
  if t1 / 2 % 2 = 1 then
    if f1 % 2 ^ 13 ≠ 0 then none
    else some ({ fn := fn, va := va / 2 ^ 29 * 2 ^ 29, size := 2 ^ 29, frame := f1, spacing := 1,
                 w := t1.testBit 2, pin := t1.testBit 3 }, false)
  else if f1 / 2 ^ 24 ≠ s.package then none
  else
    let ln := Memory.read s.mem (f1 * 2 ^ 16 + 64 * (va / 2 ^ 19 % 2 ^ 10)) 64
    let sum := ln / 2 ^ 448
    let x := lineEntry ln (va / 2 ^ 16 % 8)
    if x.testBit 37 = false ∨ x / 2 ^ 40 ≠ 0 ∨ frameOk s (x % 2 ^ 37) = false then none else
    let claims := sum / 2 ^ 62 = 0 ∧ field sum 53 8 = 0xFF ∧ sum.testBit 61
    let base : Nat := sum % 2 ^ 37
    let sp : Int := signed (field sum 37 16) 16
    let forms := (List.range 8).all fun e =>
      let y := lineEntry ln e
      y.testBit 37 && y / 2 ^ 40 == 0 && frameOk s (y % 2 ^ 37) && y % 2 ^ 37 == wrap ((base : Int) + (e : Int) * sp) 37 &&
        y.testBit 38 == (lineEntry ln 0).testBit 38 && y.testBit 39 == (lineEntry ln 0).testBit 39
    if claims ∧ forms then
      some ({ fn := fn, va := va / 2 ^ 19 * 2 ^ 19, size := 2 ^ 19, frame := base, spacing := sp,
              w := x.testBit 38, pin := x.testBit 39 }, false)
    else
      some ({ fn := fn, va := va / 2 ^ 16 * 2 ^ 16, size := 2 ^ 16, frame := x % 2 ^ 37, spacing := 1,
              w := x.testBit 38, pin := x.testBit 39 }, decide claims)

/-- The physical address a TLB entry gives. -/
def TlbEntry.pa (e : TlbEntry) (va : Nat) : Nat :=
  wrap ((e.frame : Int) + ((va - e.va) / 2 ^ 16 : Nat) * e.spacing) 37 * 2 ^ 16 + va % 2 ^ 16

/-- The entries of a TLB that match an address. -/
def tlbHits (tlb : List TlbEntry) (fn va : Nat) : List TlbEntry :=
  tlb.filter fun e => e.fn == fn && e.va ≤ va && va < e.va + e.size

/-- The smallest of the matching entries (R297). -/
def smallest : List TlbEntry → Option TlbEntry
  | [] => none
  | e :: r =>
    match smallest r with
    | none => some e
    | some d => if d.size < e.size then some d else some e

/-- The TLB that serves an access: 0 the core's, 1 its Ladle's, 2 the base die's (Table 17-5). -/
def tlbOf (s : State) (which core : Nat) : List TlbEntry :=
  match which with
  | 0 => (s.coreAt core).tlb
  | 1 => (s.coreAt core).ladleTlb
  | _ => s.dies[dieOf core].tlb

/-- That TLB's capacity. -/
def tlbRoom : Nat → Nat
  | 0 => Config.coreTlb
  | 1 => Config.ladleTlb
  | _ => Config.dieTlb

/-- That TLB becomes l, and its TLBSPLIT counter rises by n. -/
def setTlb (s : State) (which core : Nat) (l : List TlbEntry) (n : Nat) : State :=
  let c := s.coreAt core
  let cnt := { c.counters with tlbsplit := c.counters.tlbsplit + n }
  match which with
  | 0 => s.setCore { c with tlb := l, counters := cnt }
  | 1 => s.setCore { c with ladleTlb := l, counters := cnt }
  | _ =>
    let d := s.dies[dieOf core]
    s.setDie (dieOf core) { d with tlb := l, split := d.split + n }

/-- Translate through a TLB of a number of entries: a hit drops the larger matching entries (R297), a miss walks and installs
(R294). With PTROOT.EN clear no address translates (R290). -/
def translateIn (room : Nat) (s : State) (which core fn va : Nat) : Option (TlbEntry × State) :=
  if (s.func fn).ptroot % 2 = 0 then none else
  let tlb := tlbOf s which core
  match smallest (tlbHits tlb fn va) with
  | some e =>
    if (tlbHits tlb fn va).length ≤ 1 then some (e, s)
    else some (e, setTlb s which core (tlb.filter fun d => d == e || !(d.fn == fn && d.va ≤ va && va < d.va + d.size)) 1)
  | none =>
    match walk s fn va with
    | none => none
    | some (e, miss) =>
      let s := setTlb s which core ((tlb ++ [e]).drop (tlb.length + 1 - room)) 0
      let d := s.dies[dieOf core]
      some (e, if miss then s.setDie (dieOf core) { d with runmiss := d.runmiss + 1 } else s)

/-- Translate through a TLB, at whose capacity the oldest entry goes. -/
def translate (s : State) (which core fn va : Nat) : Option (TlbEntry × State) := translateIn (tlbRoom which) s which core fn va

/-- A TLB is back at its capacity. -/
def trimTlb (s : State) (which core : Nat) : State :=
  let tlb := tlbOf s which core
  if tlb.length ≤ tlbRoom which then s else setTlb s which core (tlb.drop (tlb.length - tlbRoom which)) 0

/-! ## An access, checked in the order of R337 -/

/-- Who makes an access: a task's own instruction, or one of its engine commands (R129). -/
structure Actor where
  segs : Vector Seg 16
  fn : Nat
  core : Nat
  front : Nat
  launch : Nat
  task : Nat
  timed : Bool
  /-- Timing origin, and the cycle of an engine's access, for the TINFO of a timing trap. -/
  since : Nat := 0
  now : Option Nat := none
  tlb : Nat := 0
  /-- Its translations stay until its instruction ends, so that one entry serves each page (R384). -/
  keep : Bool := false
  /-- The engine command that makes the access; none for the task itself. -/
  cmd : Option Nat := none
  deriving DecidableEq, Repr

/-- The kind of an access (Table 6-5): ordinary, atomic, the token word, the phase word, the B-store layout copy. -/
inductive Access where
  | rd | wr | atomicRd | atomicWr | token | phase | bstore
  deriving DecidableEq, Repr

/-- An access that writes. -/
def Access.writes : Access → Bool
  | .rd | .atomicRd => false
  | _ => true

/-- Segment number and offset of a pointer (R74). -/
def ptrSeg (p : Nat) : Fin 16 := Fin.ofNat 16 (p / 2 ^ 60)
def ptrOff (p : Nat) : Nat := p % 2 ^ 60

/-- TINFO in memory form, and in register form (R338). -/
def memForm (seg off : Nat) : Nat := seg * 2 ^ 60 + off % 2 ^ 59
def regForm (map : Nat) : Nat := 2 ^ 59 + map % 2 ^ 40

/-- The pointer of segment seg and offset off (R74). -/
def mkPtr (seg off : Nat) : Nat := seg % 16 * 2 ^ 60 + off % 2 ^ 60

/-- The address an offset forms (R110, R122, R123), before translation; an on-chip one as a place, its unit chosen
by the segment's scope (R113). Scope 5, which no descriptor has, marks the copy of an argument block (R33). -/
def formed (a : Actor) (g : Seg) (off : Nat) : Nat :=
  let x := g.inst + off
  if g.desc.onChip && g.desc.scope == 5 then chip + x
  else if g.desc.onChip then
    let rest := x % 2 ^ 31
    let die := match g.desc.scope with
      | 0 | 1 | 2 => a.core / 36
      | _ => x / 2 ^ 37 % 8
    let core := match g.desc.scope with
      | 0 => a.core % 36
      | 1 => 4 * (a.core % 36 / 4) + x / 2 ^ 31 % 4
      | _ => x / 2 ^ 31 % 64
    chip + die * 2 ^ 37 + core * 2 ^ 31 + rest
  else x

/-- The discipline's rule (Table 6-5): the offset of the first byte outside it, if any. -/
def breach (g : Seg) (off n : Nat) (k : Access) : Option Nat :=
  let w := k.writes && !g.desc.writable
  match g.desc.disc, k with
  | .priv, .rd => none
  | .priv, .wr | .priv, .bstore => if w then some off else none
  | .read, .rd => none
  | .sliced, .rd | .sliced, .wr | .sliced, .bstore =>
    if w then some off
    else if g.readPhase then
      if k.writes then some off
      else
        let e := g.parts * 2 ^ g.desc.slice
        if off + n ≤ e then none else some (Nat.max off e)
    else
      let lo := g.index * 2 ^ g.desc.slice
      let hi := lo + 2 ^ g.desc.slice
      if off < lo then some off else if off + n ≤ hi then none else some (Nat.max off hi)
  | .sliced, .phase => if w then some off else none
  | .owned, .rd | .owned, .wr | .owned, .bstore =>
    if w || !g.held then some off
    else if overlaps off n g.desc.word 8 then some (Nat.max off g.desc.word) else none
  | .owned, .token => if w then some off else none
  | .atomic, .atomicRd => none
  | .atomic, .atomicWr => if w then some off else none
  | _, _ => some off

/-- The task (launch, task) that holds the lanes of core num, where its mailbox range covers register p (R115). -/
def mailOwner (s : State) (num p : Nat) : Option (Nat × Nat) :=
  ((s.coreAt num).holder.bind (s.taskAt num)).bind fun t =>
    if t.mbFirst ≤ p ∧ p < t.mbFirst + t.mbCount then some (t.launch, t.task) else none

/-- The lane holder's mailbox range covers register p of core num, for a writer that is not the holder (R115). -/
def inMailbox (s : State) (num p : Nat) : Bool := (mailOwner s num p).isSome

/-- The task whose mailbox a place lies in; none where it lies in no lane holder's. -/
def mailAt (s : State) (place : Nat) : Option (Nat × Nat) :=
  if chip ≤ place ∧ mapSpace (place - chip) = 1 then mailOwner s (mapNum (place - chip)) (mapOff (place - chip) / 4096) else none

/-- The on-chip spaces' readers and writers (Table 6-3): may this access be made? An engine's write into space 1 is
checked when it lands (R382). -/
def spaceOk (s : State) (a : Actor) (p : Nat) (k : Access) : Bool :=
  let m := p - chip
  let own := mapNum m == a.core && (s.coreAt a.core).holder == some a.front
  if k.writes then
    match mapSpace m with
    | 0 => k != .bstore
    | 1 => k != .bstore && (own || a.cmd.isSome || inMailbox s (mapNum m) (mapOff m / 4096))
    | 2 | 3 => k != .bstore && own && a.cmd.isNone
    | 4 => k == .bstore
    | _ => false
  else mapSpace m < 6 || decide (2 ^ 50 ≤ m)

/-- A command of the same task, forked and not joined. -/
def Cmd.active (d : Cmd) (a : Actor) : Bool :=
  d.forked && d.launch == a.launch && d.task == a.task && !(d.timed && d.done)

/-- The ranges of a command's footprint that an access conflicts with (R130): a write with anything, a read with what the
command writes. -/
def Cmd.footprint (d : Cmd) (wr : Bool) : List (Nat × Nat) := d.writes ++ (if wr then d.reads else [])

/-- n bytes from x touch one of a list of ranges. -/
def meetsAny (x n : Nat) (rs : List (Nat × Nat)) : Bool := rs.any fun r => overlaps x n r.1 r.2

/-- The lowest of n bytes from x that lies in one of the ranges rs. -/
def lowestIn (x n : Nat) (rs : List (Nat × Nat)) : Nat :=
  ((rs.filter fun r => overlaps x n r.1 r.2).map fun r => Nat.max x r.1).foldl Nat.min (x + n)

/-- A command's writes are landing: its first byte has come, and it is not complete (R197, R382); a timed one's first byte
comes 24 cycles after its start at the soonest (Table 3-4). -/
def Cmd.landing (d : Cmd) (now : Nat) : Bool :=
  d.forked && !d.done && (if d.timed then decide (d.start + 24 ≤ now ∧ now < d.finish) else d.progress != 0)

/-- The whole vector registers of core num that a range of places touches. -/
def wholeRegisters (num : Nat) (r : Nat × Nat) : List (Nat × Nat) :=
  let m := r.1 - chip
  if r.1 < chip ∨ mapSpace m ≠ 1 ∨ mapNum m ≠ num ∨ r.2 = 0 then []
  else
    let first := mapOff m / 4096
    [(chipPlace num 1 (4096 * first), 4096 * ((mapOff m + r.2 - 1) / 4096 - first + 1))]

/-- The registers of the lanes that a task holds in which writes of other tasks are landing: those of engine commands, and in
a timed domain those of stores that it does not see yet (R60, R197, R382). -/
def landing (s : State) (a : Actor) : List (Nat × Nat) :=
  if (s.coreAt a.core).holder ≠ some a.front then []
  else
    (((s.allCores.flatMap Core.cmds).filter fun d =>
        d.landing s.t.cycle && !(d.launch == a.launch && d.task == a.task)).flatMap fun d =>
      d.writes.flatMap (wholeRegisters a.core)) ++
    (s.pasts.filter fun p => p.launch == a.launch && p.core != a.core && !p.seen a.core s.t.cycle).flatMap fun p =>
      wholeRegisters a.core (p.place, p.len)

/-- What an access of a task conflicts with: the ranges of an unjoined command of its own (R130), or those in which remote
writes are landing in its mailbox registers, told by the Bool (R197). -/
def conflict (s : State) (a : Actor) (x n : Nat) (wr : Bool) : Option (Bool × List (Nat × Nat)) :=
  match (s.coreAt a.core).cmds.find? fun d => d.active a && meetsAny x n (d.footprint wr) with
  | some d => some (false, d.footprint wr)
  | none =>
    if chip ≤ x ∧ mapSpace (x - chip) = 1 ∧ mapNum (x - chip) = a.core ∧ meetsAny x n (landing s a) then some (true, landing s a)
    else none

/-- Start and length of the lane register that holds a place, if one does. -/
def registerAt (p : Nat) : Option (Nat × Nat) :=
  let m := p - chip
  let o := mapOff m
  let at_ (start size : Nat) : Option (Nat × Nat) := some (p - (o - start) % size, size)
  if p < chip then none
  else
    match mapSpace m with
    | 1 => at_ 0 4096
    | 2 => if o < 0x20000 then at_ 0 0x4000 else at_ 0x20000 0x400
    | 3 => at_ 0 0x2000
    | _ => none

/-- TINFO of a conflict of n bytes at a formed address p with ranges rs: for a lane register, register form with its lowest
byte in them; else memory form (R375). -/
def conflictInfo (seg off p n : Nat) (rs : List (Nat × Nat)) : Nat :=
  match registerAt p with
  | some r => regForm (lowestIn r.1 r.2 rs - chip)
  | none => memForm seg (off + (lowestIn p n rs - p))

/-- A timing trap (R341): the cycle counted from the timing origin, and the reason. -/
def timingTrap (cycle since reason : Nat) : Trap :=
  { cause := 0x0A, info := (cycle - since) % 2 ^ 32 + reason * 2 ^ 32 }

/-- The frame of a physical address can be reached: its package is this one, or a route to it exists (R411). -/
def routed (s : State) (pa : Nat) : Bool :=
  pa / 2 ^ 40 == s.package || !(s.failed.contains (pa / 2 ^ 40) || s.noRoute.contains (pa / 2 ^ 40))

/-- TINFO of a page fault at an address (Table 20-1), one page collected. -/
def pageInfo (va : Nat) : Nat := va / 2 ^ 16 * 2 ^ 16 % 2 ^ 55

/-- The checks of an access that its segment fixes: alignment 0x11, bound 0x06, discipline, space and conflict 0x07
(R337, R375, R377, R379). The address it forms. A command's conflicts are found at its fork instead (R376). -/
def checkRights (s : State) (a : Actor) (ptr n align : Nat) (k : Access) : R Nat :=
  let seg := ptrSeg ptr
  let off := ptrOff ptr
  let g := a.segs[seg]
  let x := formed a g off
  if x % align ≠ 0 then .error { cause := 0x11, info := memForm seg off }
  else if g.desc.limit < off + n then .error { cause := 0x06, info := memForm seg (Nat.max off g.desc.limit) }
  else if seg.val = 14 then .error { cause := 0x07, info := memForm seg off }
  else
    match breach g off n k with
    | some o => .error { cause := 0x07, info := memForm seg o }
    | none =>
      if g.desc.onChip && !spaceOk s a x k then .error { cause := 0x07, info := memForm seg off }
      else if a.cmd.isSome then .ok x
      else
        match conflict s a x n k.writes with
        | some (mail, rs) =>
          .error (if a.timed && !mail then timingTrap s.t.cycle a.since 5
            else { cause := 0x07, info := conflictInfo seg off x n rs })
        | none => .ok x

/-- Cause 0x15 for a place in a package to which no route leads (R411). -/
def strayed (s : State) (p : Nat) : Option Trap :=
  if chip ≤ p ∨ routed s p = true then none else some { cause := 0x15, info := errorInfo p }

/-- The place an address reaches, translated where it is a device address (cause 0x09, R295, R385), and the state with
the TLB as the access leaves it. -/
def reach (s : State) (a : Actor) (x : Nat) (wr : Bool) : R (Nat × State) :=
  if chip ≤ x then .ok (x, s)
  else if a.cmd.isNone && s.t.refused.contains (pageInfo x) then .error { cause := 0x09, info := pageInfo x, write := wr }
  else
    match translateIn (if a.keep then 2 ^ 64 else tlbRoom a.tlb) s a.tlb a.core a.fn x with
    | none => .error { cause := 0x09, info := pageInfo x, write := wr }
    | some (e, s') =>
      if wr && !e.w || a.timed && !e.pin then .error { cause := 0x09, info := pageInfo x, write := wr }
      else
        let pa := e.pa x
        if a.timed ∧ pa / 2 ^ 40 ≠ s.package then .error (timingTrap (a.now.getD s.t.cycle) a.since 8)
        else .ok (pa, s')

/-- The issue checks of one element of an access, in the order of R337. -/
def checkIssue (s : State) (a : Actor) (ptr n align : Nat) (k : Access) : R (Nat × State) :=
  match checkRights s a ptr n align k with
  | .error t => .error t
  | .ok x => reach s a x k.writes

/-- What an access came to, where a route leads to its place (R411). -/
def byRoute (s : State) (r : R (Nat × State)) : R (Nat × State) :=
  match r with
  | .error t => .error t
  | .ok x =>
    match strayed s x.1 with
    | some t => .error t
    | none => .ok x

/-- An access of one element: its issue checks, then the route to its place (R337). -/
def checkAccess (s : State) (a : Actor) (ptr n align : Nat) (k : Access) : R (Nat × State) :=
  byRoute s (checkIssue s a ptr n align k)

/-- The current task as the one who makes an access. -/
def State.actor (s : State) : Actor :=
  { segs := s.t.segs, fn := s.t.fn, core := s.t.core, front := s.t.front, launch := s.t.launch, task := s.t.task,
    timed := s.t.timed, since := s.t.origin }

/-- An engine command as the one who makes an access, through TLB number `which`. -/
def Cmd.actor (d : Cmd) (core which : Nat) : Actor :=
  { segs := d.segs, fn := d.fn, core := core, front := d.front, launch := d.launch, task := d.task, timed := d.timed,
    since := d.origin, now := some d.start, tlb := which, cmd := some d.id }

/-! ## The device's own accesses to device memory (records, rings, frames) -/

/-- The physical address of a virtual one, by a walk, with W and PIN. -/
def vaToPa (s : State) (fn va : Nat) : Option (Nat × Bool × Bool) :=
  (walk s fn va).map fun e => (e.1.pa va, e.1.w, e.1.pin)

/-- n bytes at a virtual address of a function, within one page or line by line; none where a page is missing or a
unit is bad. -/
def devRead (s : State) (fn va n : Nat) : Option Nat :=
  (linesOf va n).foldl (fun acc q =>
    match acc, vaToPa s fn q.1 with
    | some x, some (pa, _, _) =>
      if firstBad s pa q.2 = none ∧ routed s pa then some (x + Memory.read s.mem pa q.2 * 2 ^ (8 * (q.1 - va))) else none
    | _, _ => none) (some 0)

/-- n bytes at a virtual address of a function become v; none where a page is missing or not writable, where no route leads
(R411), or where part of a bad unit is written (R388), with the offset of the first failing byte's line. -/
def devWrite (s : State) (fn va n v : Nat) : Except Nat State :=
  (linesOf va n).foldl (fun acc q =>
    match acc with
    | .error e => .error e
    | .ok s =>
      match vaToPa s fn q.1 with
      | some (pa, true, _) =>
        if mergesBad s pa q.2 ≠ none ∨ routed s pa = false then .error (q.1 - va) else .ok (putPlace s pa q.2 (v / 2 ^ (8 * (q.1 - va))))
      | _ => .error (q.1 - va)) (.ok s)

end Sys2Proof.Machine
end

