-- ==== Sys2Proof/Machine/Operands.lean ====
section
/-! DEFINITION. Every operand form: scalar registers, pointers and displacements, the operands an instruction names by
its fields, vector elements, masks and the register window. -/

namespace Sys2Proof.Machine

/-! ## Scalar registers (R63, R64) -/

/-- Register g r; g0 reads zero. -/
def State.g (s : State) (r : GReg) : Word := if r = 0 then 0 else s.t.g[r]

/-- A word that writes register n leaves no latency of an earlier scalar word to wait for. -/
def lateWithout (l : List Late) (n : Nat) : List Late := l.filter fun x => x.vec || x.reg != n

/-- The task with register g r set to v; a write to g0 is discarded. -/
def Task.setG (t : Task) (r : GReg) (v : Word) : Task :=
  if r = 0 then t else { t with g := t.g.set r.val v r.isLt, late := lateWithout t.late r.val }

/-- Register g r becomes v. -/
def State.setG (s : State) (r : GReg) (v : Word) : State := { s with t := s.t.setG r v }

/-- The result of a word of latency n that issues now stands in register r (R61). -/
def State.lateBy (s : State) (r : GReg) (n : Nat) : State :=
  if r = 0 ∨ n ≤ 1 then s else { s with t := { s.t with late := { reg := r.val, ready := s.t.cycle + n, vec := false } :: s.t.late } }

/-- The cycle from which a word that writes ds and reads rs may issue (R44, R61). -/
def readyCycle (t : Task) (ds rs : List GReg) : Nat :=
  t.late.foldl (fun n x =>
    if rs.any (fun r => r != 0 && r.val == x.reg) || x.vec && ds.any (fun r => r != 0 && r.val == x.reg) then Nat.max n x.ready
    else n) 0

/-- A scalar register given by number. -/
def State.gn (s : State) (n : Nat) : Word := s.g (Fin.ofNat 128 n)

/-- The captured register numbers of fields B and C of a vector-class word that are scalar registers (R140). -/
def scalarB : Instr → Option GReg
  | .vbcast _ _ b | .vins _ _ b _ | .setvl _ b _ | .vspill _ b | .vfill _ b | .vmbox b _ | .vld _ _ b | .vst _ _ b
  | .vlds _ _ b _ | .vsts _ _ b _ | .vldx _ _ b _ | .vstx _ _ b _ | .vldt _ _ b _ | .mshape _ b | .tld _ b _
  | .tst _ b | .amv _ b _ _ | .ald _ b | .ast _ b | .bld b _ => some b
  | _ => none

def scalarC : Instr → Option GReg
  | .vext _ _ _ c | .vins _ _ _ c | .vslideup _ _ _ c | .vslidedn _ _ _ c | .vappend _ _ c | .vmbox _ c
  | .vlds _ _ _ c | .vsts _ _ _ c | .vldt _ _ _ c | .tmvr _ _ _ c | .tmvc _ _ _ c | .tmvrr _ _ c | .tld _ _ c
  | .mma _ _ c | .mmaA _ _ _ c | .mmas _ _ c | .mmasA _ _ _ c | .bld _ c | .vquant _ _ c | .rshr _ _ _ c
  | .rlrelu _ _ _ c | .rscale _ _ _ c | .ushr _ _ _ c | .ulrelu _ _ _ c | .uscale _ _ _ c => some c
  | _ => none

/-- The scalar register a vector-class word writes when it completes (R172). -/
def scalarDest : Instr → Option GReg
  | .vext _ a _ _ | .vredsum _ a _ | .vredmin _ a _ | .vredmax _ a _ | .vredmins _ a _ | .vredmaxs _ a _
  | .vfredsum _ a _ | .vfredmin _ a _ | .vfredmax _ a _ | .mpopc _ a _ | .mfirst _ a _ | .vappend a _ _
  | .rsdepth a => some a
  | _ => none

/-- The field-layout register a packed word names (R160). -/
def planReg : Instr → Option FReg
  | .vpack _ f _ _ | .vpmul _ f _ _ _ | .vpmula _ f _ _ _ | .vpext _ f _ _ => some f
  | _ => none

/-! ## Pointers (R74, R152, R153) -/

/-- A pointer with its offset moved by d, modulo 2^60; no carry enters bits 63:60. -/
def ptrAdd (p : Word) (d : Int) : Word :=
  BitVec.ofNat 64 (p.toNat / 2 ^ 60 * 2 ^ 60 + wrap ((p.toNat % 2 ^ 60 : Nat) + d) 60)

/-- The effective pointer of a scalar access of size n: displacement imm11, scaled (R12, R153). -/
def effPtr (p : Word) (imm : BitVec 11) (n : Nat) : Word := ptrAdd p (imm.toInt * n)

/-- The sign-extended 11-bit immediate (R134). -/
def sext11 (imm : BitVec 11) : Word := imm.signExtend 64

/-! ## The register window, elements and masks (R65, R67, R88) -/

/-- The physical register of vn under a window base (R65). -/
def phys (m : Modes) (n : Nat) : Fin 256 := Fin.ofNat 256 (16 * m.wb.toNat + n)

/-- The contents of vn as captured. -/
def State.vr (s : State) (m : Modes) (n : Nat) : Nat := s.c.lanes.v[phys m n].toNat

/-- A group of k registers from vn as one number. -/
def State.vgroup (s : State) (m : Modes) (n k : Nat) : Nat :=
  (List.range k).foldl (fun acc i => acc + s.vr m (n + i) * 2 ^ (32768 * i)) 0

/-- Element i of width b bits. -/
def elem (x b i : Nat) : Nat := x / 2 ^ (b * i) % 2 ^ b

/-- Write v into vn, the write reaching byte top - 1. -/
def State.setVr (s : State) (m : Modes) (n v top : Nat) : State :=
  { s with c := { s.c with lanes := s.c.lanes.setV (phys m n) (BitVec.ofNat 32768 v) top } }

/-- Write a group of k registers from vn; bytes 0 to total - 1 of the group are covered. -/
def State.setGroup (s : State) (m : Modes) (n k v total : Nat) : State :=
  (List.range k).foldl (fun s i =>
    s.setVr m (n + i) (v / 2 ^ (32768 * i) % 2 ^ 32768) (Nat.min 4096 (total - 4096 * i))) s

/-- The active mask of a masked word; all-true otherwise (R67). -/
def State.activeMask (s : State) (m : Modes) (masked : Bool) : Nat :=
  if masked then (s.c.lanes.getM (Fin.ofNat 16 m.vmask.toNat)).toNat else 2 ^ 4096 - 1

/-- Elements 0 to n - 1 of width b of x, those whose mask bit is set replaced by f (R172). -/
def mapElems (b n mask x : Nat) (f : Nat → Nat) : Nat :=
  (List.range n).foldl (fun acc i => if mask.testBit i then splice acc (b * i) b (f i) else acc) x

/-- The flags an element-wise result raises. -/
def mapFlags (n mask : Nat) (f : Nat → Nat) : Raised :=
  ((List.range n).filter fun i => mask.testBit i).map fun i => (i, f i)

end Sys2Proof.Machine
end

