-- ==== Sys2Proof/Machine/Strip.lean ====
section
/-! DEFINITION. The current strip while a convoy runs: what a word reads and writes, the shadow pool (R47), the store
buffer (R46), and the operations through which the vector-class words write (R45, R172). -/

namespace Sys2Proof.Machine

/-! ## The captured state of an entry (R82) -/

def Entry.vl (e : Entry) : Nat := e.modes.vl.toNat
def Entry.ty (e : Entry) : Nat := e.modes.vtype.toNat
def Entry.bits (e : Entry) : Nat := typeBits e.ty
/-- Bytes of the VL elements. -/
def Entry.bytes (e : Entry) : Nat := ceilDiv (e.vl * e.bits) 8

/-! ## The strip -/

/-- What a strip that opens now would give back. -/
def State.restNow (s : State) : Rest :=
  { pushes := s.t.pushes, perm := s.c.perm, codebk := s.t.codebk,
    kpermLen := s.t.kpermLen, bind := s.c.lanes.bind, mbFirst := s.t.mbFirst, mbCount := s.t.mbCount,
    vbcnt := s.t.vbcnt, vbmark := s.t.vbmark }

/-- The strip that is open, or the one that a convoy opens when none is: with no request where no SETVL has run. -/
def State.stripNow (s : State) : Strip :=
  s.t.strip.getD { hdr := 0, req := 0, ty := 0, depth := s.t.depth,
                       opened := s.t.cycle, rest := s.restNow }

/-- The current strip becomes p. -/
def State.setStrip (s : State) (p : Strip) : State := { s with t := { s.t with strip := some p } }

/-- An instruction raises flags (R80, R96). -/
def State.raise (s : State) (fs : Raised) : State :=
  if fs.all = 0 then s else s.setStrip (s.stripNow.raise fs)

/-- A store enters the strip store buffer (R46). -/
def State.bufferStore (s : State) (hdr place len val mask : Nat) : State :=
  let p := s.stripNow
  s.setStrip { p with stores := p.stores ++ [{ place := place, len := len, val := val, hdr := hdr, seq := p.nins, mask := mask,
                                               core := s.c.num, cycle := p.now, target := mailAt s place }] }

/-- What the task's reads on cycle r see at a place: the strip's own stores (R187) over what its domain sees (R57, R60). -/
def State.seenBy (s : State) (r place n base : Nat) : Nat :=
  overlay s.stripNow.stores place n (s.sight r place n base)

/-! ## Registers read and written -/

/-- What a word reads and writes among the lane registers; a write is partial when it is masked or covers fewer than
the granted elements (R47). -/
structure Use where
  reads : List LReg := []
  writes : List (LReg × Bool) := []
  deriving DecidableEq, Repr

/-- Shadow entries a register costs (R47). -/
def LReg.cost : LReg → Nat
  | .v _ | .m _ => 1
  | .a _ => 2
  | .t _ => 5

/-- A copy of a register for the shadow pool. -/
def Lanes.shadow (l : Lanes) (r : LReg) : Shadow :=
  match r with
  | .v n => { reg := r, bits := l.v[Fin.ofNat 256 n].toNat, side := 0, mark := l.vMark[Fin.ofNat 256 n] }
  | .m n => { reg := r, bits := l.m[Fin.ofNat 16 n].toNat, side := 0, mark := l.mMark[Fin.ofNat 16 n] }
  | .a n =>
    { reg := r, side := 0, mark := l.aMark[Fin.ofNat 16 n],
      bits := (l.acc[Fin.ofNat 16 n]).toList.zipIdx.foldl (fun acc x => acc + x.1.toNat * 2 ^ (2048 * x.2)) 0 }
  | .t n =>
    { reg := r, mark := l.tMark[Fin.ofNat 8 n],
      bits := (l.tile[Fin.ofNat 8 n]).toList.zipIdx.foldl (fun acc x => acc + x.1.toNat * 2 ^ (2048 * x.2)) 0,
      side := (l.side[Fin.ofNat 8 n]).toList.zipIdx.foldl (fun acc x => acc + x.1.toNat * 2 ^ (128 * x.2)) 0 }

/-- A shadowed register restored (R84, R360). -/
def Lanes.restore (l : Lanes) (h : Shadow) : Lanes :=
  match h.reg with
  | .v n =>
    let k := Fin.ofNat 256 n
    { l with v := l.v.set k.val (BitVec.ofNat _ h.bits) k.isLt, vMark := l.vMark.set k.val h.mark k.isLt }
  | .m n =>
    let k := Fin.ofNat 16 n
    { l with m := l.m.set k.val (BitVec.ofNat _ h.bits) k.isLt, mMark := l.mMark.set k.val h.mark k.isLt }
  | .a n =>
    let k := Fin.ofNat 16 n
    { l with acc := l.acc.set k.val (Vector.ofFn fun i => BitVec.ofNat _ (h.bits / 2 ^ (2048 * i.val))) k.isLt,
             aMark := l.aMark.set k.val h.mark k.isLt }
  | .t n =>
    let k := Fin.ofNat 8 n
    { l with tile := l.tile.set k.val (Vector.ofFn fun i => BitVec.ofNat _ (h.bits / 2 ^ (2048 * i.val))) k.isLt,
             side := l.side.set k.val (Vector.ofFn fun i => BitVec.ofNat _ (h.side / 2 ^ (128 * i.val))) k.isLt,
             tMark := l.tMark.set k.val h.mark k.isLt }

/-- One write of a word is noted: the register is shadowed if its first write falls at or after its first read, or
the write is partial; at most once (R47). -/
def Strip.noteWrite (p : Strip) (l : Lanes) (w : LReg × Bool) : Strip :=
  let p' := { p with written := if p.written.contains w.1 then p.written else w.1 :: p.written }
  if (p.shadow.any fun h => h.reg == w.1) then p'
  else if w.2 || (p.read.contains w.1 && !p.written.contains w.1) then { p' with shadow := l.shadow w.1 :: p'.shadow }
  else p'

/-- In a timed domain, a word's reads and writes are noted from the restart point on (R57). -/
def Task.noteInterval (t : Task) (u : Use) : Task :=
  let reads := u.reads.foldl (fun acc r => if acc.contains r then acc else r :: acc) t.ivRead
  u.writes.foldl (fun t w =>
    let shadowed := w.2 || t.ivRead.contains w.1 && !t.ivWritten.contains w.1
    { t with ivShadow := if shadowed && !t.ivShadow.contains w.1 then w.1 :: t.ivShadow else t.ivShadow,
             ivWritten := if t.ivWritten.contains w.1 then t.ivWritten else w.1 :: t.ivWritten }) { t with ivRead := reads }

/-- A word's reads and writes are noted before it acts. -/
def State.noteUse (s : State) (u : Use) : State :=
  let p := s.stripNow
  let p := { p with read := u.reads.foldl (fun acc r => if acc.contains r then acc else r :: acc) p.read, nins := p.nins + 1 }
  s.setStrip (u.writes.foldl (fun p w => p.noteWrite s.c.lanes w) p)

/-- Shadow entries used (STRIPCTL.SHUSE). -/
def Strip.shuse (p : Strip) : Nat := (p.shadow.map fun h => h.reg.cost).sum

/-- Bytes in the store buffer. -/
def Strip.bufferBytes (p : Strip) : Nat := (p.stores.map fun w => w.len).sum

/-- LReg of a window register. -/
def Entry.lv (e : Entry) (n : Nat) : LReg := .v (phys e.modes n).val

/-- The active mask register, read by a masked word. -/
def Entry.lmask (e : Entry) (m : Bool) : List LReg := if m then [.m e.modes.vmask.toNat] else []

/-! ## Results -/

/-- The VL elements of vA become f i where active (R172). -/
def Entry.setElems (e : Entry) (m : Bool) (a : VReg) (f : Nat → Nat) (s : State) : State :=
  if e.vl = 0 then s
  else s.setVr e.modes a.val (mapElems e.bits e.vl (s.activeMask e.modes m) (s.vr e.modes a.val) f) e.bytes

/-- The VL elements of vA become the results f i where active, whose flags are raised. -/
def Entry.setRes (e : Entry) (m : Bool) (a : VReg) (f : Nat → Res) (s : State) : R State :=
  .ok ((e.setElems m a (fun i => (f i).bits) s).raise (mapFlags e.vl (s.activeMask e.modes m) fun i => (f i).flags))

/-- Bits 0 to VL - 1 of mask register a become f i where active. -/
def Entry.setMask (e : Entry) (m : Bool) (a : MReg) (f : Nat → Bool) (s : State) : State :=
  if e.vl = 0 then s
  else
    let x := mapElems 1 e.vl (s.activeMask e.modes m) (s.c.lanes.getM a).toNat fun i => (f i).toNat
    { s with c := { s.c with lanes := s.c.lanes.setM a (BitVec.ofNat 4096 x) } }

/-- Element i of vn at the entry's element width, as an unsigned number. -/
def Entry.u (e : Entry) (s : State) (n : VReg) (i : Nat) : Nat := elem (s.vr e.modes n.val) e.bits i

/-- The same by the type's signedness (R176). -/
def Entry.i (e : Entry) (s : State) (n : VReg) (i : Nat) : Int :=
  if isSigned e.ty then signed (e.u s n i) e.bits else (e.u s n i : Int)

/-- The value of element i of vn. -/
def Entry.x (e : Entry) (s : State) (n : VReg) (i : Nat) : FVal := decodeVal e.ty (e.u s n i)

/-- The active elements below VL, ascending. -/
def Entry.actives (e : Entry) (s : State) (m : Bool) : List Nat :=
  (List.range e.vl).filter fun i => (s.activeMask e.modes m).testBit i

end Sys2Proof.Machine
end

