-- ==== Sys2Proof/Machine/VecArith.lean ====
section
/-! DEFINITION. The effects of the arithmetic, conversion, move, reduction, scan and mask words (R176 to R184), each on
the state its convoy has reached; what a word captured stands in its entry. -/

namespace Sys2Proof.Machine

/-! ## Integer arithmetic (R176, Table 9-3) -/

/-- An integer element-wise word without flags. -/
def intOp (m : Bool) (a : VReg) (f : Entry → State → Nat → Int) (e : Entry) (s : State) : R State :=
  .ok (e.setElems m a (fun i => wrap (f e s i) e.bits) s)

/-- A saturating integer word: clamped to the type's range, SA when clamped. -/
def satOp (m : Bool) (a : VReg) (f : Entry → State → Nat → Int) (e : Entry) (s : State) : R State :=
  e.setRes m a (fun i =>
    let x := f e s i
    let y := if x < intMin e.ty then intMin e.ty else if intMax e.ty < x then intMax e.ty else x
    ⟨wrap y e.bits, if x = y then 0 else sa⟩) s

/-- The shift amount: the low log2(8s) bits of vC.e[i]. -/
def Entry.shamt (e : Entry) (s : State) (c : VReg) (i : Nat) : Nat := e.u s c i % e.bits

def effVadd (m : Bool) (a b c : VReg) : Entry → State → R State := intOp m a fun e s i => e.i s b i + e.i s c i
def effVsub (m : Bool) (a b c : VReg) : Entry → State → R State := intOp m a fun e s i => e.i s b i - e.i s c i
def effVmul (m : Bool) (a b c : VReg) : Entry → State → R State := intOp m a fun e s i => e.i s b i * e.i s c i
def effVand (m : Bool) (a b c : VReg) : Entry → State → R State :=
  intOp m a fun e s i => (Nat.land (e.u s b i) (e.u s c i) : Nat)
def effVor (m : Bool) (a b c : VReg) : Entry → State → R State :=
  intOp m a fun e s i => (Nat.lor (e.u s b i) (e.u s c i) : Nat)
def effVxor (m : Bool) (a b c : VReg) : Entry → State → R State :=
  intOp m a fun e s i => (Nat.xor (e.u s b i) (e.u s c i) : Nat)
def effVmin (m : Bool) (a b c : VReg) : Entry → State → R State :=
  intOp m a fun e s i => if e.i s c i < e.i s b i then e.i s c i else e.i s b i
def effVmax (m : Bool) (a b c : VReg) : Entry → State → R State :=
  intOp m a fun e s i => if e.i s b i < e.i s c i then e.i s c i else e.i s b i
def effVsll (m : Bool) (a b c : VReg) : Entry → State → R State :=
  intOp m a fun e s i => (e.u s b i * 2 ^ e.shamt s c i : Nat)
def effVsrl (m : Bool) (a b c : VReg) : Entry → State → R State :=
  intOp m a fun e s i => (e.u s b i / 2 ^ e.shamt s c i : Nat)
def effVsra (m : Bool) (a b c : VReg) : Entry → State → R State :=
  intOp m a fun e s i => signed (e.u s b i) e.bits / ((2 ^ e.shamt s c i : Nat) : Int)
def effVadds (m : Bool) (a b c : VReg) : Entry → State → R State := satOp m a fun e s i => e.i s b i + e.i s c i
def effVsubs (m : Bool) (a b c : VReg) : Entry → State → R State := satOp m a fun e s i => e.i s b i - e.i s c i
def effVmulh (m : Bool) (a b c : VReg) : Entry → State → R State :=
  intOp m a fun e s i => e.i s b i * e.i s c i / ((2 ^ e.bits : Nat) : Int)
def effVabs (m : Bool) (a b : VReg) : Entry → State → R State := satOp m a fun e s i => ((e.i s b i).natAbs : Int)
def effVneg (m : Bool) (a b : VReg) : Entry → State → R State := intOp m a fun e s i => -(e.i s b i)

/-- VCMP (R177): EQ, NE, LT, LE, GT, GE. -/
def effVcmp (m : Bool) (cc : Fin 8) (a : MReg) (b c : VReg) (e : Entry) (s : State) : R State :=
  .ok (e.setMask m a (fun i =>
    let x := e.i s b i
    let y := e.i s c i
    match cc.val with
    | 0 => decide (x = y)
    | 1 => decide (x ≠ y)
    | 2 => decide (x < y)
    | 3 => decide (x ≤ y)
    | 4 => decide (y < x)
    | _ => decide (y ≤ x)) s)

/-! ## Floating point (R97, R178, R179) -/

/-- A float word of two operands, rounded once to nearest even. -/
def fltOp2 (m : Bool) (a b c : VReg) (f : FVal → FVal → Exact) (e : Entry) (s : State) : R State :=
  e.setRes m a (fun i => finish e.ty (f (e.x s b i) (e.x s c i))) s

/-- A float word of one operand. -/
def fltOp1 (m : Bool) (a b : VReg) (f : FVal → Exact) (e : Entry) (s : State) : R State :=
  e.setRes m a (fun i => finish e.ty (f (e.x s b i))) s

/-- vA ± vB·vC, rounded once (R97); `neg` subtracts the product. -/
def fmaRes (e : Entry) (s : State) (a b c : VReg) (neg : Bool) (i : Nat) : Res :=
  let p := mulV (e.x s b i) (e.x s c i)
  let q := addV (e.x s a i) (if neg then p.1.negate else p.1)
  finish e.ty (q.1, Nat.lor (Nat.lor p.2 q.2) (e.x s a i).sig)

def effVfadd (m : Bool) (a b c : VReg) : Entry → State → R State := fltOp2 m a b c addV
def effVfsub (m : Bool) (a b c : VReg) : Entry → State → R State := fltOp2 m a b c fun x y => addV x y.negate
def effVfmul (m : Bool) (a b c : VReg) : Entry → State → R State := fltOp2 m a b c mulV
def effVfdiv (m : Bool) (a b c : VReg) : Entry → State → R State := fltOp2 m a b c divV
def effVfsqrt (m : Bool) (a b : VReg) : Entry → State → R State := fltOp1 m a b sqrtV
def effVfmin (m : Bool) (a b c : VReg) (e : Entry) (s : State) : R State :=
  e.setRes m a (fun i => minMaxF e.ty false (e.u s b i) (e.u s c i)) s
def effVfmax (m : Bool) (a b c : VReg) (e : Entry) (s : State) : R State :=
  e.setRes m a (fun i => minMaxF e.ty true (e.u s b i) (e.u s c i)) s
def effVfma (m : Bool) (a b c : VReg) (e : Entry) (s : State) : R State := e.setRes m a (fmaRes e s a b c false) s
def effVfms (m : Bool) (a b c : VReg) (e : Entry) (s : State) : R State := e.setRes m a (fmaRes e s a b c true) s
/-- VFNMA: the sign inverted after rounding; a NaN stays canonical (R178). -/
def effVfnma (m : Bool) (a b c : VReg) (e : Entry) (s : State) : R State :=
  e.setRes m a (fun i =>
    let r := fmaRes e s a b c false i
    if r.bits = nanBits e.ty then r else ⟨Nat.xor r.bits (2 ^ (e.bits - 1)), r.flags⟩) s
def effVfneg (m : Bool) (a b : VReg) (e : Entry) (s : State) : R State :=
  .ok (e.setElems m a (fun i => Nat.xor (e.u s b i) (2 ^ (e.bits - 1))) s)
def effVfabs (m : Bool) (a b : VReg) (e : Entry) (s : State) : R State :=
  .ok (e.setElems m a (fun i => e.u s b i % 2 ^ (e.bits - 1)) s)

/-- VFCMP: EQ, NE, LT, LE, UNORD (R97). -/
def effVfcmp (m : Bool) (cc : Fin 8) (a : MReg) (b c : VReg) (e : Entry) (s : State) : R State :=
  .ok ((e.setMask m a (fun i => (cmpV cc.val (e.x s b i) (e.x s c i)).1) s).raise
    (mapFlags e.vl (s.activeMask e.modes m) fun i => (cmpV cc.val (e.x s b i) (e.x s c i)).2))

def effVexp2 (m : Bool) (a b : VReg) : Entry → State → R State := fltOp1 m a b exp2V
def effVlog2 (m : Bool) (a b : VReg) : Entry → State → R State := fltOp1 m a b log2V
def effVrcp (m : Bool) (a b : VReg) : Entry → State → R State := fltOp1 m a b rcpV
def effVrsqrt (m : Bool) (a b : VReg) : Entry → State → R State := fltOp1 m a b rsqrtV
def effVtanh (m : Bool) (a b : VReg) : Entry → State → R State := fltOp1 m a b tanhV
def effVsigm (m : Bool) (a b : VReg) : Entry → State → R State := fltOp1 m a b sigmV

/-! ## Conversion (R180) -/

/-- Registers of the group that holds n elements of width b. -/
def groupRegs (n b : Nat) : Nat := ceilDiv (n * b) 32768

/-- A conversion of the VL elements of vB into the group at vA. -/
def convertInto (m : Bool) (a b : VReg) (ty rc : Nat) (e : Entry) (s : State) : State :=
  if e.vl = 0 then s
  else
    let db := typeBits ty
    let k := groupRegs e.vl db
    let mask := s.activeMask e.modes m
    let f := fun i => roundVal e.ty ty rc (draw e.modes.seed.toNat e.count i) (e.x s b i)
    (s.setGroup e.modes a.val k (mapElems db e.vl mask (s.vgroup e.modes a.val k) fun i => (f i).bits)
      (ceilDiv (e.vl * db) 8)).raise (mapFlags e.vl mask fun i => (f i).flags)

def effVcvt (m : Bool) (a b : VReg) (ty : Fin 16) (rc : Fin 8) (e : Entry) (s : State) : R State :=
  .ok (convertInto m a b ty.val rc.val e s)

/-! ## Moves and permutes (R181) -/

def effVmv (m : Bool) (a b : VReg) (e : Entry) (s : State) : R State := .ok (e.setElems m a (fun i => e.u s b i) s)
def effVbcast (m : Bool) (a : VReg) (_b : GReg) (e : Entry) (s : State) : R State :=
  .ok (e.setElems m a (fun _ => e.gb.toNat % 2 ^ e.bits) s)
def effVext (_m : Bool) (a : GReg) (b : VReg) (_c : GReg) (e : Entry) (s : State) : R State :=
  .ok (s.setG a (if e.gc.toNat < e.vl then BitVec.ofInt 64 (e.i s b e.gc.toNat) else 0))
def effVins (m : Bool) (a : VReg) (_b _c : GReg) (e : Entry) (s : State) : R State :=
  let k := e.gc.toNat
  if k < e.vl ∧ (s.activeMask e.modes m).testBit k then
    .ok (s.setVr e.modes a.val (splice (s.vr e.modes a.val) (e.bits * k) e.bits e.gb.toNat) (ceilDiv ((k + 1) * e.bits) 8))
  else .ok s
def effViota (m : Bool) (a : VReg) (e : Entry) (s : State) : R State :=
  let mask := s.activeMask e.modes m
  .ok (e.setElems m a (fun i => popCount mask i % 2 ^ e.bits) s)
def effVslideup (m : Bool) (a b : VReg) (_c : GReg) (e : Entry) (s : State) : R State :=
  let k := e.gc.toNat
  .ok (if e.vl ≤ k then s else e.setElems m a (fun i => if i < k then e.u s a i else e.u s b (i - k)) s)
def effVslidedn (m : Bool) (a b : VReg) (_c : GReg) (e : Entry) (s : State) : R State :=
  .ok (e.setElems m a (fun i => if i + e.gc.toNat < e.vl then e.u s b (i + e.gc.toNat) else 0) s)
def effVgatheri (m : Bool) (a b c : VReg) (e : Entry) (s : State) : R State :=
  .ok (e.setElems m a (fun i => if e.u s c i < e.vl then e.u s b (e.u s c i) else 0) s)

/-! ## Reductions (R182, R98) -/

/-- The least of a list, or d. -/
def leastOf (d : Int) : List Int → Int
  | [] => d
  | [x] => x
  | x :: r => let y := leastOf d r; if y < x then y else x

/-- The greatest of a list, or d. -/
def greatestOf (d : Int) : List Int → Int
  | [] => d
  | [x] => x
  | x :: r => let y := greatestOf d r; if x < y then y else x

/-- A reduction to a scalar register. -/
def redOp (m : Bool) (a : GReg) (f : Entry → State → List Nat → Int) (e : Entry) (s : State) : R State :=
  .ok (s.setG a (BitVec.ofInt 64 (f e s (e.actives s m))))

/-- Elements taken as signed, whatever the type. -/
def Entry.si (e : Entry) (s : State) (b : VReg) (i : Nat) : Int := signed (e.u s b i) e.bits

def effVredsum (m : Bool) (a : GReg) (b : VReg) : Entry → State → R State :=
  redOp m a fun e s is => (is.map fun i => e.i s b i).sum
def effVredmin (m : Bool) (a : GReg) (b : VReg) : Entry → State → R State :=
  redOp m a fun e s is => leastOf (2 ^ 64 - 1) (is.map fun i => (e.u s b i : Int))
def effVredmax (m : Bool) (a : GReg) (b : VReg) : Entry → State → R State :=
  redOp m a fun e s is => greatestOf 0 (is.map fun i => (e.u s b i : Int))
def effVredmins (m : Bool) (a : GReg) (b : VReg) : Entry → State → R State :=
  redOp m a fun e s is => leastOf ((2 ^ (e.bits - 1) : Nat) - 1) (is.map fun i => e.si s b i)
def effVredmaxs (m : Bool) (a : GReg) (b : VReg) : Entry → State → R State :=
  redOp m a fun e s is => greatestOf (-(2 ^ (e.bits - 1) : Nat)) (is.map fun i => e.si s b i)

/-- A node of the reduction tree: bits and the lowest element index that entered it; absent is none. -/
abbrev Node := Option (Nat × Nat)

/-- One level of the tree (R98): each pair combined, flags at the lowest index of either side. -/
def treeLevel (op : Nat → Nat → Res) : List Node → List Node × Raised
  | [] => ([], [])
  | [x] => ([x], [])
  | x :: y :: r =>
    let t := treeLevel op r
    match x, y with
    | some p, some q =>
      let z := op p.1 q.1
      let i := Nat.min p.2 q.2
      (some (z.bits, i) :: t.1, (i, z.flags) :: t.2)
    | some p, none => (some p :: t.1, t.2)
    | none, q => (q :: t.1, t.2)

/-- The levels of the tree, at most `fuel`. -/
def treeRun (op : Nat → Nat → Res) : Nat → List Node → Node × Raised
  | 0, l => (l.headD none, [])
  | fuel + 1, l =>
    if l.length ≤ 1 then (l.headD none, [])
    else
      let a := treeLevel op l
      let b := treeRun op fuel a.1
      (b.1, a.2 ++ b.2)

/-- A NaN result is the canonical one (R91). -/
def canonical (ty x : Nat) : Nat :=
  match decodeF ty x with
  | .nan _ => nanBits ty
  | _ => x

/-- A float reduction by the tree of R98, with its empty result. -/
def fredOp (m : Bool) (a : GReg) (b : VReg) (op : Nat → Nat → Nat → Res) (empty : Nat → Nat) (e : Entry) (s : State) :
    R State :=
  let mask := s.activeMask e.modes m
  let leaves : List Node := (List.range e.vl).map fun i => if mask.testBit i then some (e.u s b i, i) else none
  let r := treeRun (op e.ty) 13 leaves
  let bits := match r.1 with
    | none => empty e.ty
    | some x => canonical e.ty x.1
  .ok ((s.setG a (BitVec.ofNat 64 bits)).raise r.2)

/-- One rounded addition of bit patterns. -/
def addBits (ty x y : Nat) : Res := finish ty (addV (decodeF ty x) (decodeF ty y))

def effVfredsum (m : Bool) (a : GReg) (b : VReg) : Entry → State → R State := fredOp m a b addBits fun _ => 0
def effVfredmin (m : Bool) (a : GReg) (b : VReg) : Entry → State → R State :=
  fredOp m a b (fun ty => minMaxF ty false) infBits
def effVfredmax (m : Bool) (a : GReg) (b : VReg) : Entry → State → R State :=
  fredOp m a b (fun ty => minMaxF ty true) fun ty => infBits ty + signBits ty true

/-! ## Scans (R183) -/

/-- The inclusive running value over a list of elements: element index, running value and flags after each. -/
def scanRun (op : Nat → Nat → Res) (x : Nat → Nat) : List Nat → Nat → List (Nat × Res)
  | [], _ => []
  | i :: r, run =>
    let z := op run (x i)
    (i, z) :: scanRun op x r z.bits

/-- The running value at element i. -/
def scanAt (l : List (Nat × Res)) (i : Nat) : Nat := ((l.find? fun p => p.1 == i).map fun p => p.2.bits).getD 0

/-- A scan of the active elements of vB into vA. -/
def scanOp (m : Bool) (a b : VReg) (op : Nat → Nat → Nat → Res) (start : Nat → Nat) (e : Entry) (s : State) : R State :=
  let l := scanRun (op e.ty) (fun i => e.u s b i) (e.actives s m) (start e.ty)
  .ok ((e.setElems m a (scanAt l) s).raise (l.map fun p => (p.1, p.2.flags)))

/-- Element value by the type's signedness. -/
def intOf (ty x : Nat) : Int := if isSigned ty then signed x (typeBits ty) else (x % 2 ^ typeBits ty : Nat)

def effVscanAdd (m : Bool) (a b : VReg) : Entry → State → R State :=
  scanOp m a b (fun ty x y => ⟨(x + y) % 2 ^ typeBits ty, 0⟩) fun _ => 0
def effVscanMin (m : Bool) (a b : VReg) : Entry → State → R State :=
  scanOp m a b (fun ty x y => ⟨if intOf ty y < intOf ty x then y else x, 0⟩) fun ty => wrap (intMax ty) (typeBits ty)
def effVscanMax (m : Bool) (a b : VReg) : Entry → State → R State :=
  scanOp m a b (fun ty x y => ⟨if intOf ty x < intOf ty y then y else x, 0⟩) fun ty => wrap (intMin ty) (typeBits ty)
def effVfscanAdd (m : Bool) (a b : VReg) : Entry → State → R State := scanOp m a b addBits fun _ => 0
def effVfscanMax (m : Bool) (a b : VReg) : Entry → State → R State :=
  scanOp m a b (fun ty => minMaxF ty true) fun ty => infBits ty + signBits ty true

/-! ## Masks and compression (R184) -/

/-- Bit i of mask register n. -/
def State.mbit (s : State) (n : MReg) (i : Nat) : Bool := (s.c.lanes.getM n).toNat.testBit i

def effMand (m : Bool) (a b c : MReg) (e : Entry) (s : State) : R State :=
  .ok (e.setMask m a (fun i => s.mbit b i && s.mbit c i) s)
def effMor (m : Bool) (a b c : MReg) (e : Entry) (s : State) : R State :=
  .ok (e.setMask m a (fun i => s.mbit b i || s.mbit c i) s)
def effMxor (m : Bool) (a b c : MReg) (e : Entry) (s : State) : R State :=
  .ok (e.setMask m a (fun i => s.mbit b i != s.mbit c i) s)
def effMandn (m : Bool) (a b c : MReg) (e : Entry) (s : State) : R State :=
  .ok (e.setMask m a (fun i => s.mbit b i && !s.mbit c i) s)
def effMnot (m : Bool) (a b : MReg) (e : Entry) (s : State) : R State :=
  .ok (e.setMask m a (fun i => !s.mbit b i) s)
def effMpopc (m : Bool) (a : GReg) (b : MReg) (e : Entry) (s : State) : R State :=
  .ok (s.setG a (BitVec.ofNat 64 ((e.actives s m).filter fun i => s.mbit b i).length))
def effMfirst (m : Bool) (a : GReg) (b : MReg) (e : Entry) (s : State) : R State :=
  .ok (s.setG a (match (e.actives s m).find? fun i => s.mbit b i with
    | some i => BitVec.ofNat 64 i
    | none => BitVec.allOnes 64))

/-- The elements VCOMPRESS selects, ascending. -/
def compressed (m : Bool) (c : MReg) (e : Entry) (s : State) : List Nat := (e.actives s m).filter fun i => s.mbit c i

def effVcompress (m : Bool) (a b : VReg) (c : MReg) (e : Entry) (s : State) : R State :=
  let l := compressed m c e s
  let x := l.zipIdx.foldl (fun acc p => splice acc (e.bits * p.2) e.bits (e.u s b p.1)) (s.vr e.modes a.val)
  .ok (if l = [] then s else s.setVr e.modes a.val x (ceilDiv (l.length * e.bits) 8))

end Sys2Proof.Machine
end

