-- ==== Sys2Proof/Machine/VecMem.lean ====
section
/-! DEFINITION. The effects of the vector memory words (R185 to R187), of the system group (R191 to R197), and the
reads of bound registers (R192). -/

namespace Sys2Proof.Machine

/-! ## Traps that name the word -/

/-- The word of an instruction, for TINFO. -/
def wordNat (i : Instr) : Nat := (encode i).getD 0

/-- Cause 0x01 with its kind and detail (R339). -/
def illegal (i : Instr) (kind detail : Nat) : Trap :=
  { cause := 0x01, info := wordNat i + kind * 2 ^ 32 + detail * 2 ^ 40 }

/-- Cause 0x02 with SRC = 1: a reserved field of a register value (Table 20-1). -/
def reservedReg (i : Instr) (g bit : Nat) : Trap :=
  { cause := 0x02, info := wordNat i + 2 ^ 32 + g * 2 ^ 33 + bit * 2 ^ 40 }

/-- Cause 0x05 (Table 20-1). -/
def windowTrap (fld highest vmax : Nat) : Trap :=
  { cause := 0x05, info := fld % 128 + highest % 256 * 2 ^ 8 + vmax % 512 * 2 ^ 16 }

/-- Not a trap: the word waits where it stands (a full or empty queue). -/
def waits : Trap := { cause := 0, info := 0 }

/-! ## Queues (R263 to R265) -/

/-- Queue q of a die. -/
def Die.queue (d : Die) (q : Nat) : Queue := (d.queues.find? fun x => x.n == q).getD { n := q }

/-- Queue x.n becomes x. -/
def Die.setQueue (d : Die) (x : Queue) : Die := { d with queues := x :: d.queues.filter fun y => y.n != x.n }

/-- The die and number of the queue a STREAM segment names (R263). -/
def queueOf (a : Actor) (g : Seg) : Fin 8 × Nat :=
  let p := formed a g 0 - chip
  (Fin.ofNat 8 (mapDie p), mapOff p / 0x8000 % 64)

/-- Queue q of die d of the package. -/
def State.queue (s : State) (d : Fin 8) (q : Nat) : Queue := s.dies[d].queue q

/-- The SRAM bytes of n entries of queue q of die d behind its first k: places and lengths (R263, notes/assumptions/36.md). -/
def queuePlaces (s : State) (d : Fin 8) (q k n : Nat) : List (Nat × Nat) :=
  let at_ := ((s.queue d q).head + k) % 8192
  let first := Nat.min n (8192 - at_)
  let base := chip + d.val * 2 ^ 37 + 6 * 2 ^ 27 + 0x8000 * q
  [(base + 4 * at_, 4 * first), (base, 4 * (n - first))]

/-- The first n entries of a queue cannot be read: cause 0x15 (R388). -/
def queueBad (s : State) (d : Fin 8) (q n : Nat) : Option Trap :=
  ((queuePlaces s d q 0 n).findSome? fun p => firstBad s p.1 p.2).map fun b => { cause := 0x15, info := errorInfo b }

/-- n entries more would have to merge with a bad unit: cause 0x15 (R388). -/
def queueMerge (s : State) (d : Fin 8) (q n : Nat) : Option Trap :=
  ((queuePlaces s d q (s.queue d q).entries.length n).findSome? fun p => mergesBad s p.1 p.2).map fun b =>
    { cause := 0x15, info := errorInfo b }

/-- A queue without its n oldest entries. -/
def Queue.drop (x : Queue) (n : Nat) : Queue := { x with entries := x.entries.drop n, head := (x.head + n) % 8192 }

/-- Queue x.n of die d becomes x. -/
def State.setQueue (s : State) (d : Fin 8) (x : Queue) : State := s.setDie d (s.dies[d].setQueue x)

/-- Groups that bound reads of a task have taken in strips not yet committed, those of a discarded strip included. -/
def Task.groupsTaken (t : Task) : List (Nat × Nat × List Nat) := t.owed ++ t.strip.elim [] Strip.taken

/-- Entries of a queue that bound reads have taken in strips not yet committed (R193). -/
def State.takenOf (s : State) (d : Fin 8) (q : Nat) : Nat :=
  (((s.allTasks ++ s.saved.map Saved.task).flatMap Task.groupsTaken).map fun g =>
    if g.1 = d.val ∧ g.2.1 = q then g.2.2.length else 0).sum

/-- The first of a task's owed groups that came from queue q of die d, and the others. -/
def takeOwed (d q : Nat) : List (Nat × Nat × List Nat) → Option (List Nat × List (Nat × Nat × List Nat))
  | [] => none
  | g :: r =>
    if g.1 = d ∧ g.2.1 = q then some (g.2.2, r) else (takeOwed d q r).map fun x => (x.1, g :: x.2)

/-- Groups go back to the heads of their queues: the strips that consumed them will never commit. -/
def State.giveBack (s : State) (gs : List (Nat × Nat × List Nat)) : State :=
  gs.foldr (fun g s =>
    let x := s.queue (Fin.ofNat 8 g.1) g.2.1
    s.setQueue (Fin.ofNat 8 g.1)
      { x with entries := g.2.2 ++ x.entries, head := (x.head + 8192 - g.2.2.length % 8192) % 8192 }) s

/-- Entries a queue has room for (R193, R263). -/
def State.queueRoom (s : State) (d : Fin 8) (q : Nat) : Nat :=
  Config.queueEntries - (s.queue d q).entries.length - s.takenOf d q

/-- The stages of a die that read queue q: chain handle and stage. -/
def Die.readers (d : Die) (q : Nat) : List (Nat × Nat) :=
  d.chains.flatMap fun c => (c.stages.zipIdx.filter fun x => x.2 != 0 && x.1.inq == q).map fun x => (c.handle, x.2)

/-- Entries enter a queue; a stage that reads it is due a step (R270). -/
def State.pushQueue (s : State) (d : Fin 8) (q : Nat) (vs : List Nat) : State :=
  let x := s.queue d q
  let due := if vs = [] then [] else (s.dies[d].readers q).map fun r => (Instr.textStageMessage, { n := [d.val, r.1, r.2] })
  let ps := queuePlaces s d q x.entries.length vs.length
  let s := if s.bad = [] then s else { s with bad := s.bad.filter fun b => !(ps.any fun p => unitWithin p.1 p.2 b) }
  { s.setQueue d { x with entries := x.entries ++ vs } with agenda := s.agenda ++ due }

/-- An entry is a marker of a message-mode queue (R264). -/
def Queue.isMarker (x : Queue) (v : Nat) : Bool := x.message && v.testBit 31

/-- TINFO of a queue fault (Table 20-1). -/
def queueFault (d : Fin 8) (q kind : Nat) : Trap :=
  { cause := 0x18, info := q + d.val * 2 ^ 8 + kind * 2 ^ 16 }

/-- The entries before the first marker, at most n, and the marker met. -/
def takeGroup (x : Queue) : Nat → List Nat → List Nat × Option Nat
  | 0, _ => ([], none)
  | _ + 1, [] => ([], none)
  | n + 1, v :: r =>
    if x.isMarker v then ([], some v)
    else
      let t := takeGroup x n r
      (v :: t.1, t.2)

/-- The group a bound read consumes: entries and marker, those of its discarded strip first (R193), and the state with
the group gone; none while fewer than n entries and no marker stand. -/
def consumeGroup (s : State) (d : Fin 8) (q n : Nat) : Option ((List Nat × Option Nat) × State) :=
  let x := s.queue d q
  match takeOwed d.val q s.t.owed with
  | some (used, rest) => some (takeGroup x n used, { s with t := { s.t with owed := rest } })
  | none =>
    let grp := takeGroup x n x.entries
    if grp.1.length < n ∧ grp.2 = none then none
    else some (grp, s.setQueue d (x.drop (grp.1.length + grp.2.toList.length)))

/-- A read of bound register vn: one group leaves its queue and becomes the register's contents (R192). -/
def readBound (e : Entry) (n : Nat) (s : State) : R State :=
  let p := phys e.modes n
  match s.c.lanes.bind.find? fun b => b.1 == p.val with
  | none => .ok s
  | some b =>
    let dq := queueOf s.actor s.t.segs[Fin.ofNat 16 b.2]
    if (s.queue dq.1 dq.2).isIn then .error (queueFault dq.1 dq.2 5)
    else
      match consumeGroup s dq.1 dq.2 e.vl with
      | none => .error waits
      | some (grp, s') =>
        match queueBad s dq.1 dq.2 ((s.queue dq.1 dq.2).entries.length - (s'.queue dq.1 dq.2).entries.length) with
        | some t => .error t
        | none =>
        let s := s'
        let v := grp.1.zipIdx.foldl (fun acc y => acc + y.1 % 2 ^ 32 * 2 ^ (32 * y.2)) 0
        let s := s.setVr e.modes n v 4096
        let q := s.stripNow
        let s := s.setStrip { q with taken := q.taken ++ [(dq.1.val, dq.2, grp.1 ++ grp.2.toList)] }
        .ok { s with t := { s.t with vbcnt := BitVec.ofNat 13 grp.1.length, vbmark := BitVec.ofNat 32 (grp.2.getD 0) } }

/-! ## Element accesses (R185) -/

/-- The issue checks of one access after another, ascending; the places they reach. -/
def checkEach (a : Actor) (k : Access) (s : State) : List (Nat × Nat × Nat) → R (State × List (Nat × Nat))
  | [] => .ok (s, [])
  | (ptr, n, align) :: r => do
    let x ← checkIssue s a ptr n align k
    let y ← checkEach a k x.2 r
    .ok (y.1, (x.1, n) :: y.2)

/-- The accesses of one instruction: every element's issue checks, each page through one entry (R384), then the routes to
their places (R337). -/
def checkAll (a : Actor) (k : Access) (s : State) (l : List (Nat × Nat × Nat)) : R (State × List (Nat × Nat)) := do
  let x ← checkEach { a with keep := true } k s l
  match x.2.findSome? fun p => strayed s p.1 with
  | some t => .error t
  | none => .ok (trimTlb x.1 a.tlb a.core, x.2)

/-- Read places one after another, as the strip sees them; cause 0x15 at the first bad unit. -/
def readAll (s : State) : List (Nat × Nat) → R (List Nat)
  | [] => .ok []
  | (p, n) :: r => do
    let v ← readPlace s p n
    let t ← readAll s r
    .ok (s.seenBy s.stripNow.now p n v :: t)

/-- Bytes of an element's access, and its alignment; a 4-bit element lies in one byte. -/
def Entry.accBytes (e : Entry) : Nat := if e.bits = 4 then 1 else e.bits / 8

/-- The accesses of the elements is at pointers f i. -/
def Entry.accesses (e : Entry) (is : List Nat) (f : Nat → Word) : List (Nat × Nat × Nat) :=
  is.map fun i => ((f i).toNat, e.accBytes, e.accBytes)

/-- Address of element i of a contiguous form. -/
def Entry.contig (e : Entry) (i : Nat) : Word := ptrAdd e.gb ((i * e.bits / 8 : Nat) : Int)

/-- The value of element i within the access that holds it. -/
def Entry.pick (e : Entry) (i v : Nat) : Nat := if e.bits = 4 then field v (4 * (i % 2)) 4 else v

/-- A vector load: each active element from pointer f i (R185). -/
def loadElems (m : Bool) (a : VReg) (f : Entry → State → Nat → Word) (e : Entry) (s : State) : R State := do
  let is := e.actives s m
  let c ← checkAll s.actor .rd s (e.accesses is (f e s))
  let vs ← readAll c.1 c.2
  .ok (e.setElems m a (fun i => e.pick i (vs.getD (is.idxOf i) 0)) c.1)

/-- A vector store: each active element to pointer f i, into the strip store buffer, ascending (R185, R187). -/
def storeElems (m : Bool) (a : VReg) (f : Entry → State → Nat → Word) (e : Entry) (s : State) : R State := do
  let is := e.actives s m
  let c ← checkAll s.actor .wr s (e.accesses is (f e s))
  .ok ((is.zip c.2).foldl (fun s x =>
    let v := e.u s a x.1
    if e.bits = 4 then
      s.bufferStore e.hdr x.2.1 1 (v * 2 ^ (4 * (x.1 % 2))) (15 * 2 ^ (4 * (x.1 % 2)))
    else s.bufferStore e.hdr x.2.1 x.2.2 v 0) c.1)

def effVld (m : Bool) (a : VReg) (_b : GReg) : Entry → State → R State := loadElems m a fun e _ => e.contig
def effVst (m : Bool) (a : VReg) (_b : GReg) : Entry → State → R State := storeElems m a fun e _ => e.contig
def effVlds (m : Bool) (a : VReg) (_b _c : GReg) : Entry → State → R State :=
  loadElems m a fun e _ i => ptrAdd e.gb (i * e.gc.toInt)
def effVsts (m : Bool) (a : VReg) (_b _c : GReg) : Entry → State → R State :=
  storeElems m a fun e _ i => ptrAdd e.gb (i * e.gc.toInt)
def effVldx (m : Bool) (a : VReg) (_b : GReg) (c : VReg) : Entry → State → R State :=
  loadElems m a fun e s i => ptrAdd e.gb ((e.u s c i * e.accBytes : Nat) : Int)
def effVstx (m : Bool) (a : VReg) (_b : GReg) (c : VReg) : Entry → State → R State :=
  storeElems m a fun e s i => ptrAdd e.gb ((e.u s c i * e.accBytes : Nat) : Int)

/-- TINFO of a tag mismatch (Table 20-1). -/
def tagTrap (want found core tile : Nat) : Trap :=
  { cause := 0x0B, info := want + found * 2 ^ 16 + tile * 2 ^ 32 + core % 36 * 2 ^ 43 + core / 36 * 2 ^ 49 }

/-- The places of a tagged read: all in space 0, every tile carrying the tag (R186, R212); else the first failure. -/
def tagCheck (i : Instr) (g want : Nat) (s : State) : List (Nat × Nat) → Option Trap
  | [] => none
  | (p, _) :: r =>
    if p < chip ∨ mapSpace (p - chip) ≠ 0 then some (illegal i 5 g)
    else
      let t := s.tileSeen s.stripNow.now (mapNum (p - chip)) ((s.coreAt (mapNum (p - chip))).tileAt (mapOff (p - chip) / 4096))
      if t.tag.toNat ≠ want then some (tagTrap want t.tag.toNat (mapNum (p - chip)) t.n)
      else tagCheck i g want s r

/-- The checked bit of every tile covered is set (R118). -/
def setChecked (s : State) (ps : List (Nat × Nat)) : State :=
  ps.foldl (fun s q =>
    let c := s.coreAt (mapNum (q.1 - chip))
    let t := c.tileAt (mapOff (q.1 - chip) / 4096)
    if t.checked then s
    else
      let c' := c.setTile { t with checked := true }
      s.setCore (s.holdFor.elim c' fun l => c'.keepTile l t)) s

/-- A read that names a tag: checked against the tiles it covers, whose checked bits are set; tag 0 makes no check. -/
def taggedRead (i : Instr) (g : Nat) (tag : Nat) (s : State) (ps : List (Nat × Nat)) : R State :=
  if tag = 0 then .ok s
  else
    match tagCheck i g tag s ps with
    | some t => .error t
    | none => .ok (setChecked s ps)

/-- The fault of a tagged read whose accesses fail with t (R337, R379): the lowest element that fails decides, its alignment
checked first, then that it lies in space 0 (cause 0x01 kind 5), its tag last. -/
def taggedFault (i : Instr) (g want : Nat) (t : Trap) : State → List (Nat × Nat × Nat) → Trap
  | _, [] => t
  | s, (ptr, n, align) :: r =>
    let seg := s.t.segs[ptrSeg ptr]
    let x := formed s.actor seg (ptrOff ptr)
    if x % align ≠ 0 then { cause := 0x11, info := memForm (ptrSeg ptr).val (ptrOff ptr) }
    else if seg.desc.onChip = false ∨ mapSpace (formed s.actor seg 0 - chip) ≠ 0 then illegal i 5 g
    else
      match checkIssue s s.actor ptr n align .rd with
      | .error u => u
      | .ok x =>
        match tagCheck i g want x.2 [(x.1, n)] with
        | some u => u
        | none => taggedFault i g want t x.2 r

/-- The accesses of a read that names a tag, checked element by element; a tag of 0 makes no check. -/
def checkTagged (i : Instr) (g want : Nat) (s : State) (l : List (Nat × Nat × Nat)) : R (State × List (Nat × Nat)) :=
  match checkAll s.actor .rd s l with
  | .ok x => .ok x
  | .error t => .error (if want = 0 then t else taggedFault i g want t s l)

def effVldt (m : Bool) (a : VReg) (b c : GReg) (e : Entry) (s : State) : R State := do
  let is := e.actives s m
  let x ← checkTagged (.vldt m a b c) b.val (e.gc.toNat % 65536) s (e.accesses is e.contig)
  let s' ← taggedRead (.vldt m a b c) b.val (e.gc.toNat % 65536) x.1 x.2
  let vs ← readAll s' x.2
  .ok (e.setElems m a (fun i => e.pick i (vs.getD (is.idxOf i) 0)) s')

/-- The 64-byte pieces of n bytes from a pointer, as accesses. -/
def pieces (ptr : Word) (n : Nat) : List (Nat × Nat × Nat) :=
  (List.range (ceilDiv n 64)).map fun (k : Nat) =>
    ((ptrAdd ptr ((64 * k : Nat) : Int)).toNat, Nat.min 64 (n - 64 * k), 64)

/-- n bytes from a 64-byte aligned pointer, read as the strip sees them. -/
def loadBlock (ptr : Word) (n : Nat) (s : State) : R (State × List (Nat × Nat) × Nat) := do
  let c ← checkAll s.actor .rd s (pieces ptr n)
  let vs ← readAll c.1 c.2
  .ok (c.1, c.2, vs.zipIdx.foldl (fun acc x => acc + x.1 * 2 ^ (512 * x.2)) 0)

/-- n bytes stored from a 64-byte aligned pointer through the strip store buffer. -/
def storeBlock (hdr : Nat) (ptr : Word) (n v : Nat) (s : State) : R State := do
  let c ← checkAll s.actor .wr s (pieces ptr n)
  .ok (c.2.zipIdx.foldl (fun s x =>
    s.bufferStore hdr x.1.1 x.1.2 (v / 2 ^ (512 * x.2) % 2 ^ (8 * x.1.2)) 0) c.1)

def effVspill (a : VReg) (_b : GReg) (e : Entry) (s : State) : R State :=
  storeBlock e.hdr e.gb 4096 (s.vr e.modes a.val) s
def effVfill (a : VReg) (_b : GReg) (e : Entry) (s : State) : R State := do
  let x ← loadBlock e.gb 4096 s
  .ok (x.1.setVr e.modes a.val x.2.2 4096)

/-! ## System group (R191 to R197) -/

/-- VMSEL acts at decode (R191). -/
def effVmsel (_a : MReg) (_e : Entry) (s : State) : R State := .ok s

/-- The discipline trap of a word that names a segment, not an address (Table 20-5). -/
def segTrap (b : SReg) : Trap := { cause := 0x07, info := memForm b.val 0 }

def effVbind (a : VReg) (b : SReg) (e : Entry) (s : State) : R State :=
  if s.t.segs[b].desc.disc ≠ .stream then .error (segTrap b)
  else
    let l := s.c.lanes
    let p := (phys e.modes a.val).val
    .ok { s with c := { s.c with lanes := { l with bind := (p, b.val) :: l.bind.filter fun x => x.1 != p } } }

def effVunbind (a : VReg) (e : Entry) (s : State) : R State :=
  let l := s.c.lanes
  let p := (phys e.modes a.val).val
  .ok { s with c := { s.c with lanes := { l with bind := l.bind.filter fun x => x.1 != p } } }

/-- VAPPEND is checked at issue; its entries wait for the commit (R121, R194, R397). -/
def effVappend (m : Bool) (a : GReg) (b : SReg) (e : Entry) (s : State) : R State :=
  let vals := (e.actives s m).map fun i => (e.gc.toNat + i) % 2 ^ 32
  let p := s.stripNow
  let app : App := { hdr := e.hdr, seq := p.nins, seg := b.val, dest := a.val, vals := vals, vl := e.vl }
  let done (s : State) : State := s.setStrip { p with apps := p.apps ++ [app] }
  match s.t.segs[b].desc.disc with
  | .stream =>
    let dq := queueOf s.actor s.t.segs[b]
    if s.t.segs[b].desc.writable = false then .error (segTrap b)
    else if (s.queue dq.1 dq.2).isOut then .error (queueFault dq.1 dq.2 4) else .ok (done s)
  | .atomic =>
    if e.vl = 0 then .ok (done s)
    else do
      let c ← checkAccess s s.actor (mkPtr b.val 0) 8 8 .atomicWr
      let n ← readPlace c.2 c.1 8
      let w ← checkAll s.actor .atomicWr c.2 ((List.range vals.length).map fun k => (mkPtr b.val (8 + 4 * (n + k)), 4, 4))
      .ok (done w.1)
  | _ => .error (segTrap b)

def effVmbox (_b _c : GReg) (e : Entry) (s : State) : R State :=
  .ok { s with t := { s.t with mbFirst := if e.gc = 0 then 0 else e.gb.toNat, mbCount := e.gc.toNat } }

end Sys2Proof.Machine
end

