-- ==== Sys2Proof/Machine/VecPack.lean ====
section
/-! DEFINITION. Packed wide products (R72, R73, R107 to R109, R188 to R190). -/

namespace Sys2Proof.Machine

/-- The fields of a packing plan (Table 4-2). -/
def planP (x : Nat) : Nat := field x 0 6
def planNf (x : Nat) : Nat := field x 6 4
def planWid (x : Nat) : Nat := field x 10 6
def planS (x : Nat) : Bool := x.testBit 16
def planRv (x : Nat) : Bool := x.testBit 17
def planWpos (x : Nat) : Nat := field x 18 6
def planW (x : Nat) : Nat := field x 24 6
def planWcnt (x : Nat) : Nat := field x 30 4
def planSc (x : Nat) : Bool := x.testBit 34
def planChk (x : Nat) : Bool := x.testBit 35

/-- A well-formed plan (R73). -/
def planOk (x : Nat) : Bool :=
  planP x != 0 && planNf x != 0 && planWid x != 0 && planW x != 0 && planWcnt x != 0 && planWid x ≤ planP x &&
    planNf x * planP x ≤ 64 && planP x * (planWpos x + planWcnt x - 1) + planW x ≤ 128

/-- Lanes of a packed word: ceil(VL ÷ NF). -/
def Entry.lanes (e : Entry) : Nat := ceilDiv e.vl (planNf e.plan.toNat)

/-- Lane j is written when element NF·j is active. -/
def Entry.laneMask (e : Entry) (s : State) (m : Bool) (j : Nat) : Bool :=
  (s.activeMask e.modes m).testBit (planNf e.plan.toNat * j)

/-- The lanes a packed word writes. -/
def Entry.activeLanes (e : Entry) (s : State) (m : Bool) : List Nat := (List.range e.lanes).filter (e.laneMask s m)

/-- The sum of the base-2^P digits of a value, n digits, the top digit taking all that remains (R108). -/
def digitSum (signedFields : Bool) (p : Nat) : Nat → Int → Int
  | 0, _ => 0
  | 1, x => x
  | n + 1, x =>
    let d : Int := if signedFields then signed (wrap x p) p else (wrap x p : Nat)
    d + digitSum signedFields p n ((x - d) / ((2 ^ p : Nat) : Int))

/-- A 64-bit lane by the plan's signedness. -/
def laneVal (x w : Nat) : Int := if planS x then signed w 64 else (w : Int)

/-- The check of R108: the digits of the product sum to the product of the digit sums. -/
def guardOk (x : Nat) (a b : Int) : Bool :=
  digitSum (planS x) (planP x) (2 * planNf x - 1) (a * b) ==
    digitSum (planS x) (planP x) (planNf x) a * digitSum (planS x) (planP x) (planNf x) b

/-- Lane j of vn. -/
def Entry.lane (e : Entry) (s : State) (n j : Nat) : Nat := elem (s.vr e.modes n) 64 j

def effVpack (m : Bool) (_f : FReg) (a b : VReg) (e : Entry) (s : State) : R State :=
  let x := e.plan.toNat
  let nf := planNf x
  let pack (j : Nat) : Int := ((List.range nf).map fun i =>
    let v := if nf * j + i < e.vl then e.u s b (nf * j + i) % 2 ^ planWid x else 0
    let y : Int := if planS x then signed v (planWid x) else (v : Int)
    y * ((2 ^ (planP x * (if planRv x then nf - 1 - i else i)) : Nat) : Int)).sum
  .ok (if e.vl = 0 then s
    else s.setVr e.modes a.val ((e.activeLanes s m).foldl (fun acc j => splice acc (64 * j) 64 (wrap (pack j) 64))
      (s.vr e.modes a.val)) (8 * e.lanes))

/-- The product words: lane products, checked where the plan says so, written to the pair (vA + 1, vA). -/
def packedProduct (m : Bool) (f : FReg) (a b c : VReg) (acc : Bool) (e : Entry) (s : State) : R State :=
  let x := e.plan.toNat
  let js := e.activeLanes s m
  let lb := fun j => laneVal x (e.lane s b.val j)
  let lc := fun j => laneVal x (e.lane s c.val j)
  let bad := if planChk x then js.filter fun j => !guardOk x (lb j) (lc j) else []
  match bad with
  | j :: _ => .error { cause := 0x0C, info := j + f.val * 2 ^ 16 + bad.length * 2 ^ 32 }
  | [] =>
    let val (j : Nat) : Nat :=
      let old : Int := if acc then (e.lane s a.val j + e.lane s (a.val + 1) j * 2 ^ 64 : Nat) else 0
      wrap (old + lb j * lc j) 128
    let put (sh : Nat) (old : Nat) : Nat := js.foldl (fun r j => splice r (64 * j) 64 (val j / 2 ^ sh)) old
    .ok (if e.vl = 0 then s
      else (s.setVr e.modes a.val (put 0 (s.vr e.modes a.val)) (8 * e.lanes)).setVr e.modes (a.val + 1)
        (put 64 (s.vr e.modes (a.val + 1))) (8 * e.lanes))

def effVpmul (m : Bool) (f : FReg) (a b c : VReg) : Entry → State → R State := packedProduct m f a b c false
def effVpmula (m : Bool) (f : FReg) (a b c : VReg) : Entry → State → R State := packedProduct m f a b c true

/-- The windows of a 128-bit product, borrow-corrected (R109), from window k on. -/
def windowsSc (x : Nat) : Nat → Nat → Int → List Nat
  | 0, _, _ => []
  | n + 1, k, t =>
    let pos := planP x * (planWpos x + k)
    let v := signed (wrap (t / ((2 ^ pos : Nat) : Int)) (planW x)) (planW x)
    wrap v 64 :: windowsSc x n (k + 1) (t - v * ((2 ^ pos : Nat) : Int))

/-- The windows of a product under a plan (R109, R190). -/
def windows (x : Nat) (prod : Nat) : List Nat :=
  if planSc x then windowsSc x (planWcnt x) 0 (signed prod 128)
  else (List.range (planWcnt x)).map fun k =>
    let v := field prod (planP x * (planWpos x + k)) (planW x)
    if planS x then wrap (signed v (planW x)) 64 else v

def effVpext (m : Bool) (_f : FReg) (a b : VReg) (e : Entry) (s : State) : R State :=
  let x := e.plan.toNat
  let wc := planWcnt x
  .ok (if e.vl = 0 then s
    else s.setVr e.modes a.val ((e.activeLanes s m).foldl (fun acc j =>
      (windows x (e.lane s b.val j + e.lane s (b.val + 1) j * 2 ^ 64)).zipIdx.foldl (fun acc w =>
        splice acc (64 * (j * wc + w.2)) 64 w.1) acc) (s.vr e.modes a.val)) (8 * e.lanes * wc))

end Sys2Proof.Machine
end

