-- ==== Sys2Proof/Machine/MatrixEff.lean ====
section
/-! DEFINITION. The effects of the tile and matrix words (R198 to R220) and the sums of a matrix product (R99 to R105). -/

namespace Sys2Proof.Machine

/-! ## MTYPE and SHAPE (Table 4-4, R200) -/

def mtA (x : Nat) : Nat := field x 0 4
def mtB (x : Nat) : Nat := field x 4 4
def mtAcc (x : Nat) : Bool := x.testBit 8
def mtSlices (x : Nat) : Nat := field x 10 4
def mtSpn (x : Nat) : Nat := field x 14 2
def mtScale (x : Nat) : Nat := field x 16 2
def mtCben (x : Nat) : Bool := x.testBit 18
def mtPerm (x : Nat) : Bool := x.testBit 19

/-- n of the sparsity N:12 that SPN names. -/
def spnN (spn : Nat) : Nat := match spn with | 1 => 3 | 2 => 4 | 3 => 6 | _ => 12

def shM (x : Nat) : Nat := field x 0 16
def shN (x : Nat) : Nat := field x 16 16
def shK (x : Nat) : Nat := field x 32 16

/-- Elements of a tile row of type ty. -/
def rowCap (ty : Nat) : Nat := 2048 / typeBits ty

/-- What MSHAPE grants for a request under an MTYPE (R200). -/
def grantShape (mt req : Nat) : Nat :=
  let ca := rowCap (mtA mt)
  let m := Nat.min (shM req) 64
  let n := Nat.min (shN req) 128
  let k := Nat.min (Nat.min (shK req) 256) ca
  let k := if mtSpn mt = 0 then k else Nat.min k (ca * 12 / spnN (mtSpn mt)) / 12 * 12
  k * 2 ^ 32 + n * 2 ^ 16 + m

/-- The combinations of Table 10-3. -/
def mtypeOk (x : Nat) : Bool :=
  let a := mtA x
  let b := mtB x
  let plain := mtSlices x == 0 && !mtCben x
  let permOk := !mtPerm x || mtSpn x == 0
  let fp8 (t : Nat) : Bool := t == 12 || t == 13
  let i8 (t : Nat) : Bool := t == 0 || t == 1
  x / 2 ^ 20 == 0 && !x.testBit 9 &&
  ((a == 11 && b == 11 && !mtAcc x && plain && mtScale x == 0 && permOk) ||
   (a == 10 && b == 10 && !mtAcc x && plain && mtScale x == 0 && permOk) ||
   (fp8 a && fp8 b && !mtAcc x && plain && mtScale x < 3 && (mtSpn x == 0 || mtScale x == 0) && permOk) ||
   (i8 a && i8 b && mtAcc x && plain && mtScale x == 0 && permOk) ||
   (a == 14 && b == 14 && !mtAcc x && plain && mtSpn x == 0 && mtScale x < 2) ||
   (a == 15 && b == 15 && mtAcc x && plain && mtSpn x == 0 && mtScale x == 0) ||
   ((a == 15 || a == 11) && (b == 15 || b == 11) && (a == 15 || b == 15) && !mtAcc x && mtSlices x == 0 && mtCben x &&
     mtSpn x == 0 && mtScale x == 0) ||
   (a == 8 && b == 8 && !mtAcc x && 3 ≤ mtSlices x && mtSlices x ≤ 8 && !mtCben x && mtSpn x == 0 && mtScale x == 0 &&
     !mtPerm x))

/-- The depth per cycle d of Table 10-3. -/
def depthOf (x : Nat) : Nat :=
  if mtCben x then 8
  else match mtA x with
    | 10 | 11 => 8
    | 14 | 15 => 32
    | _ => 16

/-! ## B-store layout (R119) -/

def bHead (mt : Nat) : Nat := if mtScale mt = 2 then 64 else 0
def bScale (mt : Nat) : Nat := if mtScale mt = 1 then 64 else 0
/-- L: bytes of a column's data region. -/
def bData (mt k : Nat) : Nat := ceilDiv (ceilDiv (k * typeBits (mtB mt)) 8) 64 * 64
/-- Bytes of one slice's whole region, and of the part an N uses. -/
def bRegion (mt k : Nat) : Nat := bHead mt + 2 * bScale mt + 2 * bData mt k
def bUsed (mt n k : Nat) : Nat := if 64 < n then bRegion mt k else bHead mt + bScale mt + bData mt k

/-- Offset, within a slice's region, of column j's MX scales and of its data. -/
def bScaleAt (mt k j : Nat) : Nat := bHead mt + (if j < 64 then 0 else bScale mt + bData mt k)
def bDataAt (mt k j : Nat) : Nat := bScaleAt mt k j + bScale mt

/-- The data region of column j as one number. -/
def bColumn (b : Memory) (mt k o j : Nat) : Nat :=
  Memory.read b (j % 64 * 0x20000 + o + bDataAt mt k j) (bData mt k)

/-! ## Sums (R99 to R105) -/

/-- The value of an operand element; with CBEN an s4 code is an entry of the codebook (R103). -/
def operandVal (cben : Bool) (codebk ty x : Nat) : FVal :=
  if cben && ty == 15 then decodeF 11 (elem codebk 16 (x % 16)) else decodeVal ty x

/-- The exact sum of a group of products, as R99 takes zeros, infinities and NaNs. DESIGN CHOICE: a group without a stored
product, which R99 gives no sign, sums to +0 (notes/assumptions/34.md). -/
def groupSum (ps : List (FVal × FVal)) : Exact :=
  let prods := ps.map fun p => mulV p.1 p.2
  let fl := prods.foldl (fun acc p => Nat.lor acc p.2) 0
  let posInf := prods.any fun p => p.1 == .inf false
  let negInf := prods.any fun p => p.1 == .inf true
  let isNan := prods.any fun p => match p.1 with | .nan _ => true | _ => false
  if isNan then (.nan false, if posInf && negInf then Nat.lor fl nv else fl)
  else if posInf && negInf then (.nan false, Nat.lor fl nv)
  else if posInf then (.inf false, fl)
  else if negInf then (.inf true, fl)
  else
    let s := prods.foldl (fun acc p => (addV acc p.1).1) (.fin true 0 0)
    match s with
    | .fin n 0 e => (.fin (n && ps != []) 0 e, fl)
    | _ => (s, fl)

/-- round(v, f32, RNE) joined with flags already raised. -/
def roundF32 (x : Exact) : Res := finish 9 x

/-- c + p, rounded (f32). -/
def addF32 (c p : Res) : Res :=
  let r := finish 9 (addV (decodeF 9 c.bits) (decodeF 9 p.bits))
  ⟨r.bits, Nat.lor (Nat.lor c.flags p.flags) r.flags⟩

/-- a × b, rounded (f32). -/
def mulF32 (c p : Res) : Res :=
  let r := finish 9 (mulV (decodeF 9 c.bits) (decodeF 9 p.bits))
  ⟨r.bits, Nat.lor (Nat.lor c.flags p.flags) r.flags⟩

/-- One operand pair: its logical k, A's value, B's value. -/
abbrev Term := Nat × FVal × FVal

/-- The terms of the group g of `span` logical positions. -/
def groupOf (span g : Nat) (ts : List Term) : List (FVal × FVal) :=
  (ts.filter fun t => t.1 / span == g).map fun t => t.2

/-- FP32 accumulation (R99). -/
def accF32 (span n : Nat) (ts : List Term) (c : Nat) : Res :=
  (List.range n).foldl (fun c g => addF32 c (roundF32 (groupSum (groupOf span g ts)))) ⟨c, 0⟩

/-- FP32 accumulation under per-128 scales (R101): `sa` and `sb` give the scale words of a chunk. -/
def accScaled (span n : Nat) (ts : List Term) (sa sb : Nat → Nat) (c : Nat) : Res :=
  (List.range (ceilDiv (n * span) 128)).foldl (fun c q =>
    let t := ((List.range n).filter fun g => g * span / 128 == q).foldl
      (fun t g => addF32 t (roundF32 (groupSum (groupOf span g ts)))) ⟨0, 0⟩
    addF32 c (mulF32 t (mulF32 ⟨sa q, 0⟩ ⟨sb q, 0⟩))) ⟨c, 0⟩

/-- FP32 accumulation under MX block scales (R102): `ea` and `eb` give the E8M0 bytes of a block of 32. -/
def accMx (span n : Nat) (ts : List Term) (ea eb : Nat → Nat) (c : Nat) : Res :=
  (List.range n).foldl (fun c g =>
    let b := g * span / 32
    let p :=
      if ea b = 255 ∨ eb b = 255 then ⟨nanBits 9, nv⟩
      else
        let x := groupSum (groupOf span g ts)
        match x.1 with
        | .fin neg m e => roundF32 (.fin neg m (e + (ea b : Int) - 127 + (eb b : Int) - 127), x.2)
        | _ => roundF32 x
    addF32 c p) ⟨c, 0⟩

/-- Integer accumulation modulo 2^32 (R100). -/
def accInt (ts : List Term) (c : Nat) : Res :=
  let val (v : FVal) : Int := match v with | .fin n m _ => if n then -(m : Int) else m | _ => 0
  ⟨wrap (ts.foldl (fun acc t => acc + val t.2.1 * val t.2.2) (c : Int)) 32, 0⟩

/-- The kept sum of a split-precision product of significands (R105). -/
def slicedProduct (s a b : Nat) : Nat :=
  let cut (m i : Nat) : Nat := m / 2 ^ (8 * (s - 1 - i)) % 256
  (List.range s).foldl (fun acc i =>
    (List.range (s - i)).foldl (fun acc j => acc + cut a i * cut b j * 2 ^ (8 * (2 * s - 2 - i - j))) acc) 0

/-- One split-precision product, exact as kept (R105). DESIGN CHOICE: the bits that slicing drops raise no flag, since R105
rounds the kept sum; Table 5-4 could be read otherwise (notes/assumptions/34.md). -/
def splitMul (s : Nat) (a b : FVal) : Exact :=
  match a, b with
  | .fin n m p, .fin k l q =>
    if m = 0 ∨ l = 0 then mulV a b
    else
      let sh (x : Nat) : Nat := if 7 ≤ s then x * 2 ^ (8 * s - 53) else x / 2 ^ (53 - 8 * s)
      (.fin (n != k) (slicedProduct s (sh m) (sh l)) (p + q + 2 * (53 - 8 * (s : Int))), 0)
  | _, _ => mulV a b

/-- FP64 accumulation in ascending K (R105). -/
def accF64 (s : Nat) (ts : List Term) (c : Nat) : Res :=
  ts.foldl (fun c t =>
    let p := finish 8 (splitMul s t.2.1 t.2.2)
    let r := finish 8 (addV (decodeF 8 c.bits) (decodeF 8 p.bits))
    ⟨r.bits, Nat.lor (Nat.lor c.flags p.flags) r.flags⟩) ⟨c, 0⟩

/-! ## A product (R202 to R205) -/

/-- What a product reads besides registers: MTYPE, SHAPE, the codebook, the permutation. -/
structure MatEnv where
  mt : Nat
  shape : Nat
  codebk : Nat
  perm : Nat
  permLen : Nat
  deriving DecidableEq, Repr

/-- Columns of an accumulator (R203). -/
def accCols (mt : Nat) : Nat := if mtSlices mt = 0 then 64 else 32

/-- Members of the accumulator group of a shape. -/
def groupCount (mt shape : Nat) : Nat := ceilDiv (shM shape) 32 * ceilDiv (shN shape) (accCols mt)

/-- The element a permutation selects for k (R202). -/
def MatEnv.pk (v : MatEnv) (k : Nat) : Nat :=
  if mtPerm v.mt && k < v.permLen then elem v.perm 8 k else k

/-- The position of entry t of group q in row i's metadata (R205). -/
def metaAt (l : Lanes) (tb n i q t : Nat) : Nat :=
  elem (l.tile[Fin.ofNat 8 (tb + 1)])[Fin.ofNat 64 i].toNat 4 (n * q + t)

/-- The first metadata fault of a group: t and kind (R347). -/
def metaFault (ps : List Nat) : Option (Nat × Nat) :=
  (List.range ps.length).findSome? fun t =>
    let p := ps.getD t 0
    let before := ps.take t
    if 12 ≤ p then some (t, 2)
    else if before.contains p then some (t, 0)
    else if before.any fun q => p < q then some (t, 1)
    else none

/-- The first metadata fault of an MMAS: TINFO of cause 0x0D (R347). -/
def metaCheck (l : Lanes) (tb : Nat) (v : MatEnv) : Option Nat :=
  let n := spnN (mtSpn v.mt)
  if shN v.shape = 0 then none
  else (List.range (shM v.shape)).findSome? fun i =>
    (List.range (shK v.shape / 12)).findSome? fun q =>
      (metaFault ((List.range n).map (metaAt l tb n i q))).map fun f => i + q * 2 ^ 8 + f.2 * 2 ^ 16 + f.1 * 2 ^ 24

/-- Row i of A: logical k and value, ascending k. -/
def rowTerms (l : Lanes) (tb : Nat) (sparse : Bool) (v : MatEnv) (i : Nat) : List (Nat × FVal) :=
  let ty := mtA v.mt
  let row := (l.tile[Fin.ofNat 8 tb])[Fin.ofNat 64 i].toNat
  let val (e : Nat) : FVal :=
    if e < rowCap ty then operandVal (mtCben v.mt) v.codebk ty (elem row (typeBits ty) e) else .fin false 0 0
  if sparse then
    let n := spnN (mtSpn v.mt)
    (List.range (shK v.shape / 12)).flatMap fun q =>
      (List.range n).map fun t => (12 * q + metaAt l tb n i q t, val (n * q + t))
  else (List.range (shK v.shape)).map fun k => (k, val (v.pk k))

/-- Element k of a B column's data region. -/
def colVal (v : MatEnv) (col k : Nat) : FVal :=
  let ty := mtB v.mt
  let e := v.pk k
  if e < bData v.mt (shK v.shape) * 8 / typeBits ty then operandVal (mtCben v.mt) v.codebk ty (elem col (typeBits ty) e)
  else .fin false 0 0

/-- Accumulator element (i, j) after the product, from its bits before. -/
def productElem (c : Core) (tb o : Nat) (sparse : Bool) (v : MatEnv) (i j : Nat) (row : List (Nat × FVal)) (old : Nat) :
    Res :=
  let k := shK v.shape
  let col := bColumn c.bstore v.mt k o j
  let ts : List Term := row.map fun t => (t.1, t.2, colVal v col t.1)
  let d := depthOf v.mt
  let span := if sparse then d * 12 / spnN (mtSpn v.mt) else d
  let n := ceilDiv k span
  let side := (c.lanes.side[Fin.ofNat 8 tb])[Fin.ofNat 64 i].toNat
  let base := j % 64 * 0x20000 + o
  if mtSlices v.mt ≠ 0 then accF64 (mtSlices v.mt) ts old
  else if mtAcc v.mt then accInt ts old
  else if mtScale v.mt = 2 then accScaled span n ts (elem side 32) (fun q => Memory.read c.bstore (base + 4 * q) 4) old
  else if mtScale v.mt = 1 then
    accMx span n ts (elem side 8) (fun b => Memory.read c.bstore (base + bScaleAt v.mt k j + b) 1) old
  else accF32 span n ts old

/-- Where product element (i, j) lies: group member, row, column (R203). -/
def accPlace (v : MatEnv) (i j : Nat) : Nat × Nat × Nat :=
  let cw := accCols v.mt
  (i / 32 * ceilDiv (shN v.shape) cw + j / cw, i % 32, j % cw)

/-- The product C = C + A·B over the granted shape (R204, R205): the accumulators, and the flags with the index of
R80. -/
def matProduct (c : Core) (base tb o : Nat) (sparse : Bool) (v : MatEnv) : Lanes × Raised :=
  let w := if mtSlices v.mt = 0 then 32 else 64
  if shK v.shape = 0 then (c.lanes, []) else
  (List.range (shM v.shape)).foldl (fun acc i =>
    let row := rowTerms c.lanes tb sparse v i
    (List.range (shN v.shape)).foldl (fun (acc : Lanes × Raised) j =>
      let p := accPlace v i j
      let a := Fin.ofNat 16 (base + p.1)
      let r := Fin.ofNat 32 p.2.1
      let bits := (acc.1.acc[a])[r].toNat
      let x := productElem c tb o sparse v i j row (elem bits w p.2.2)
      (acc.1.setAcc a r (BitVec.ofNat 2048 (splice bits (w * p.2.2) w x.bits)),
        if x.flags = 0 then acc.2 else (p.1 * 4096 + p.2.1 * 64 + p.2.2, x.flags) :: acc.2)) acc) (c.lanes, [])

/-- The codebook and the permutation table as numbers. -/
def codebkNat (t : Task) : Nat := t.codebk.toList.zipIdx.foldl (fun acc x => acc + x.1.toNat * 2 ^ (16 * x.2)) 0
def permNat (c : Core) : Nat := c.perm.toList.zipIdx.foldl (fun acc x => acc + x.1.toNat * 2 ^ (8 * x.2)) 0

/-- The environment of an entry's product. -/
def Entry.matEnv (e : Entry) (s : State) : MatEnv :=
  { mt := e.modes.mtype.toNat, shape := e.modes.shape.toNat, codebk := codebkNat s.t, perm := permNat s.c,
    permLen := if e.modes.kpermEn then s.t.kpermLen else 0 }

/-- The B-store offset of a product (R204). -/
def Entry.offset (e : Entry) : Nat := e.gc.toNat % 2 ^ 17

def effMma (a : AReg) (b : TReg) (_c : GReg) (e : Entry) (s : State) : R State :=
  let p := matProduct s.c a.val b.val e.offset false (e.matEnv s)
  .ok ({ s with c := { s.c with lanes := p.1 } }.raise p.2)

def effMmas (a : AReg) (b : TReg) (_c : GReg) (e : Entry) (s : State) : R State :=
  match metaCheck s.c.lanes b.val (e.matEnv s) with
  | some info => .error { cause := 0x0D, info := info }
  | none =>
    let p := matProduct s.c a.val b.val e.offset true (e.matEnv s)
    .ok ({ s with c := { s.c with lanes := p.1 } }.raise p.2)

/-! ## Tile moves (R208 to R211) -/

/-- The lanes become l. -/
def State.setLanes (s : State) (l : Lanes) : State := { s with c := { s.c with lanes := l } }

/-- Row r of tile t. -/
def Lanes.row (l : Lanes) (t : TReg) (r : Nat) : Nat := (l.tile[t])[Fin.ofNat 64 r].toNat
def Lanes.sideRow (l : Lanes) (t : TReg) (r : Nat) : Nat := (l.side[t])[Fin.ofNat 64 r].toNat

def effTmvr (a : TReg) (rc : Fin 8) (b : VReg) (_c : GReg) (e : Entry) (s : State) : R State :=
  let ty := e.modes.ttype.toNat
  let w := typeBits ty
  let first := e.gc.toNat % 64
  let res (k : Nat) : Res :=
    roundVal e.ty ty rc.val (draw e.modes.seed.toNat e.count (512 * (first + k / rowCap ty) + k % rowCap ty)) (e.x s b k)
  let l := (List.range (ceilDiv (e.vl * w) 2048)).foldl (fun (l : Lanes) r =>
    let n := Nat.min (rowCap ty) (e.vl - rowCap ty * r)
    let x := (List.range n).foldl (fun acc c => splice acc (w * c) w (res (rowCap ty * r + c)).bits) (l.row a (first + r))
    l.setRow a (Fin.ofNat 64 (first + r)) (BitVec.ofNat 2048 x)) s.c.lanes
  .ok ((s.setLanes l).raise ((List.range e.vl).map fun k => (k, (res k).flags)))

def effTmvc (a : VReg) (b : TReg) (rc : Fin 8) (_c : GReg) (e : Entry) (s : State) : R State :=
  let ty := e.modes.ttype.toNat
  e.setRes false a (fun i =>
    roundVal ty e.ty rc.val (draw e.modes.seed.toNat e.count i)
      (decodeVal ty (elem (s.c.lanes.row b (i % 64)) (typeBits ty) (e.gc.toNat % 512 + i / 64)))) s

/-- The operand of TMVRR: source first row, destination first row, count (R210). -/
def tmvrrRows (g : Nat) : Nat × Nat × Nat :=
  (field g 0 6, field g 8 6, if field g 16 6 = 0 then 64 else field g 16 6)

def effTmvrr (a b : TReg) (_c : GReg) (e : Entry) (s : State) : R State :=
  let q := tmvrrRows e.gc.toNat
  .ok (s.setLanes ((List.range q.2.2).foldl (fun l i =>
    (l.setRow a (Fin.ofNat 64 (q.2.1 + i)) (BitVec.ofNat 2048 (s.c.lanes.row b (q.1 + i)))).setSide a
      (Fin.ofNat 64 (q.2.1 + i)) (BitVec.ofNat 128 (s.c.lanes.sideRow b (q.1 + i)))) s.c.lanes))

def effTzero (a : TReg) (_e : Entry) (s : State) : R State :=
  .ok (s.setLanes ((List.range 64).foldl (fun l i => (l.setRow a (Fin.ofNat 64 i) 0).setSide a (Fin.ofNat 64 i) 0)
    s.c.lanes))

/-! ## Tiles and accumulators in memory (R212 to R216) -/

/-- R_b, the bytes of a tile row in memory (R212). -/
def rowBytes (mt shape ty : Nat) : Nat :=
  if mtSpn mt = 0 then ceilDiv (shK shape * typeBits ty) 8
  else ceilDiv (shK shape * spnN (mtSpn mt) * typeBits ty) 96

/-- Bytes of a metadata row, 0 when dense. -/
def metaBytes (mt shape : Nat) : Nat := if mtSpn mt = 0 then 0 else ceilDiv (shK shape * spnN (mtSpn mt)) 24

/-- Bytes of a side-array row in memory, 0 without scaling. -/
def sideBytes (mt : Nat) : Nat := if mtScale mt = 0 then 0 else 16

/-- The layout TLD loads and TST stores: R_b, metadata bytes, side bytes, M, and bytes in all; a zero grant is empty. -/
def Entry.tileLayout (e : Entry) : Nat × Nat × Nat × Nat × Nat :=
  let mt := e.modes.mtype.toNat
  let sh := e.modes.shape.toNat
  let m := if shK sh = 0 ∨ shN sh = 0 then 0 else shM sh
  let rb := rowBytes mt sh e.modes.ttype.toNat
  (rb, metaBytes mt sh, sideBytes mt, m, m * (rb + metaBytes mt sh + sideBytes mt))

def effTld (a : TReg) (b c : GReg) (e : Entry) (s : State) : R State := do
  let (rb, mb, sb, m, total) := e.tileLayout
  if total = 0 then .ok s
  else do
    let pl ← checkTagged (.tld a b c) b.val (e.gc.toNat % 65536) s (pieces e.gb total)
    let s' ← taggedRead (.tld a b c) b.val (e.gc.toNat % 65536) pl.1 pl.2
    let vs ← readAll s' pl.2
    let x := vs.zipIdx.foldl (fun acc y => acc + y.1 * 2 ^ (512 * y.2)) 0
    let l := (List.range m).foldl (fun (l : Lanes) r =>
      let l := l.setRow a (Fin.ofNat 64 r) (BitVec.ofNat 2048 (field x (8 * (rb * r)) (8 * rb)))
      let l := if mb = 0 then l
        else l.setRow (Fin.ofNat 8 (a.val + 1)) (Fin.ofNat 64 r) (BitVec.ofNat 2048 (field x (8 * (m * rb + mb * r)) (8 * mb)))
      if sb = 0 then l
      else l.setSide a (Fin.ofNat 64 r) (BitVec.ofNat 128 (field x (8 * (m * (rb + mb) + 16 * r)) 128))) s'.c.lanes
    .ok (s'.setLanes l)

def effTst (a : TReg) (_b : GReg) (e : Entry) (s : State) : R State :=
  let (rb, mb, sb, m, total) := e.tileLayout
  let l := s.c.lanes
  let x := (List.range m).foldl (fun acc r =>
    acc + field (l.row a r) 0 (8 * rb) * 2 ^ (8 * (rb * r))
      + field (l.row (Fin.ofNat 8 (a.val + 1)) r) 0 (8 * mb) * 2 ^ (8 * (m * rb + mb * r))
      + field (l.sideRow a r) 0 (8 * sb) * 2 ^ (8 * (m * (rb + mb) + 16 * r))) 0
  if total = 0 then .ok s else storeBlock e.hdr e.gb total x s

/-- The accumulators of the entry's group, in order. -/
def Entry.accGroup (e : Entry) (a : AReg) : List (Fin 16) :=
  (List.range (groupCount e.modes.mtype.toNat e.modes.shape.toNat)).map fun i => Fin.ofNat 16 (a.val + i)

def effAzero (a : AReg) (e : Entry) (s : State) : R State :=
  .ok (s.setLanes ((e.accGroup a).foldl (fun l k =>
    (List.range 32).foldl (fun l r => l.setAcc k (Fin.ofNat 32 r) 0) l) s.c.lanes))

def effAld (a : AReg) (_b : GReg) (e : Entry) (s : State) : R State := do
  let g := e.accGroup a
  if g = [] then .ok s
  else do
    let x ← loadBlock e.gb (8192 * g.length) s
    .ok (x.1.setLanes (g.zipIdx.foldl (fun l k =>
      (List.range 32).foldl (fun l r =>
        l.setAcc k.1 (Fin.ofNat 32 r) (BitVec.ofNat 2048 (field x.2.2 (65536 * k.2 + 2048 * r) 2048))) l) x.1.c.lanes))

def effAst (a : AReg) (_b : GReg) (e : Entry) (s : State) : R State :=
  let g := e.accGroup a
  let x := g.zipIdx.foldl (fun acc k =>
    (List.range 32).foldl (fun acc r => acc + (s.c.lanes.acc[k.1])[Fin.ofNat 32 r].toNat * 2 ^ (65536 * k.2 + 2048 * r)) acc) 0
  if g = [] then .ok s else storeBlock e.hdr e.gb (8192 * g.length) x s

/-- AMV: a row of accumulator elements, converted (R216). DESIGN CHOICE: with MTYPE.ACC = 1 and SLICES not 0 the accumulator holds
f64 (notes/assumptions/36.md). -/
def effAmv (a : VReg) (_b : GReg) (ty : Fin 16) (rc : Fin 8) (e : Entry) (s : State) : R State :=
  let mt := e.modes.mtype.toNat
  let row := (s.c.lanes.acc[Fin.ofNat 16 e.gb.toNat])[Fin.ofNat 32 (e.gb.toNat / 256)].toNat
  let n := accCols mt
  let src := if mtSlices mt ≠ 0 then 8 else if mtAcc mt then 4 else 9
  let db := typeBits ty.val
  let f (j : Nat) : Res :=
    roundVal src ty.val rc.val (draw e.modes.seed.toNat e.count j) (decodeVal src (elem row (typeBits src) j))
  .ok ((s.setVr e.modes a.val (mapElems db n (2 ^ n - 1) (s.vr e.modes a.val) fun j => (f j).bits) (n * db / 8)).raise
    ((List.range n).map fun j => (j, (f j).flags)))

/-! ## The B-store, quantisation and tables (R217 to R220) -/

def effBld (_b _c : GReg) (e : Entry) (s : State) : R State := do
  let mt := e.modes.mtype.toNat
  let k := shK e.modes.shape.toNat
  let r := bRegion mt k
  let x ← loadBlock e.gb (64 * r) s
  let bs := (List.range 64).foldl (fun bs j =>
    Memory.write bs (j * 0x20000 + e.offset) r (field x.2.2 (8 * (r * j)) (8 * r))) x.1.c.bstore
  .ok { x.1 with c := { x.1.c with bstore := bs } }

/-- F of R104: the largest magnitude of a quantised format, as a value m·2^e. -/
def quantMax (ty : Nat) : Nat := match ty with | 12 => 448 | 13 => 57344 | 14 => 6 | _ => 127

/-- ceil(log2(m·2^e ÷ f)) held to lo..hi, for m > 0. -/
def ceilLog (m : Nat) (e : Int) (f : Nat) (lo hi : Int) : Int :=
  let start : Int := (bitLen m : Int) + e - bitLen f - 1
  let fits (x : Int) : Bool := !dyadicGt m e f x
  let r := if fits start then start else if fits (start + 1) then start + 1 else if fits (start + 2) then start + 2
    else start + 3
  if r < lo then lo else if hi < r then hi else r

/-- The largest finite magnitude of a list of values. -/
def amax (xs : List FVal) : Nat × Int :=
  xs.foldl (fun acc x => match x with
    | .fin _ m e => if dyadicGt m e acc.1 acc.2 then (m, e) else acc
    | _ => acc) (0, 0)

/-- One element quantised by a scale (R104). An element beyond F is replaced by Max of R93, with OF, NX and SA, although
it may round back to F. -/
def quantElem (ty : Nat) (scale x : FVal) : Res :=
  match x with
  | .nan _ => if isInt ty ∨ ty = 14 then ⟨0, nv⟩ else ⟨nanBits ty, nv⟩
  | .inf n => ⟨if ty = 0 then wrap (if n then -127 else 127) 8 else maxBits ty + signBits ty n, sa + nx⟩
  | _ =>
    let q := divV x scale
    let r := match q.1 with
      | .fin n m p =>
        if dyadicGt m p (quantMax ty) 0 then
          (if isInt ty then (⟨wrap (if n then intMin ty else intMax ty) (typeBits ty), oF + nx + sa⟩ : Res)
          else overflowed ty 0 n)
        else roundVal 9 ty 0 0 q.1
      | _ => roundVal 9 ty 0 0 q.1
    ⟨r.bits, Nat.lor r.flags q.2⟩

/-- A unit of a row quantised: the scale's FP32 bits, and the elements. -/
def quantUnit (ty : Nat) (cal : Option Nat) (xs : List FVal) : Nat × List Res :=
  match cal with
  | some c => (c, xs.map (quantElem ty (decodeF 9 c)))
  | none =>
    let a := amax xs
    let k : Int := if a.1 = 0 then 0 else ceilLog a.1 a.2 (quantMax ty) (-126) 127
    ((k + 127).toNat * 2 ^ 23, xs.map (quantElem ty (.fin false 1 k)))

/-- VQUANT (R218). DESIGN CHOICE: under the reserved SCALE = 3 a whole row is one unit, with an FP32 scale in word 0 of its side row
(notes/assumptions/36.md). -/
def effVquant (a : TReg) (b : VReg) (_c : GReg) (e : Entry) (s : State) : R State :=
  let mt := e.modes.mtype.toNat
  let k := shK e.modes.shape.toNat
  let ty := e.modes.ttype.toNat
  let w := typeBits ty
  let g := e.gc.toNat
  let first := g % 64
  let cal := if g.testBit 7 then some (g / 2 ^ 32) else none
  if e.vl = 0 then .ok s
  else
    let unit := match mtScale mt with | 2 => 128 | 1 => 32 | _ => k
    let step (acc : Lanes × Raised) (r : Nat) : Lanes × Raised :=
      let xs := (List.range k).map fun c => if k * r + c < e.vl then e.x s b (k * r + c) else .fin false 0 0
      let us := (List.range (ceilDiv k unit)).map fun u => quantUnit ty cal ((xs.drop (unit * u)).take unit)
      let row := us.zipIdx.foldl (fun x u =>
        u.1.2.zipIdx.foldl (fun x q => splice x (w * (unit * u.2 + q.2)) w q.1.bits) x) 0
      let rr := Fin.ofNat 64 (first + r)
      let side := us.zipIdx.foldl (fun x u =>
        if mtScale mt = 1 then splice x (8 * u.2) 8 (u.1.1 / 2 ^ 23) else splice x (32 * u.2) 32 u.1.1)
        (acc.1.sideRow a (first + r))
      ((acc.1.setRow a rr (BitVec.ofNat 2048 row)).setSide a rr (BitVec.ofNat 128 side),
        acc.2 ++ us.zipIdx.flatMap fun u => u.1.2.zipIdx.map fun q => (k * r + unit * u.2 + q.2, q.1.flags))
    let z := (List.range (ceilDiv e.vl k)).foldl step (s.c.lanes, [])
    .ok ((s.setLanes z.1).raise z.2)

/-- MPERM (R219). DESIGN CHOICE: a repeated entry is kind 5 with detail 0x7FF, since neither a register nor a field of the word is
at fault (notes/assumptions/36.md). -/
def effMperm (b : VReg) (e : Entry) (s : State) : R State :=
  let xs := (List.range e.vl).map fun i => e.u s b i % 256
  if xs.eraseDups.length ≠ xs.length then .error (illegal (.mperm b) 5 0x7FF)
  else
    .ok { s with c := { s.c with perm := xs.zipIdx.foldl (fun p x => p.set! x.2 (BitVec.ofNat 8 x.1)) s.c.perm },
                 t := { s.t with kpermLen := e.vl } }

def effMcode (b : VReg) (e : Entry) (s : State) : R State :=
  .ok { s with t := { s.t with codebk := (List.range (Nat.min e.vl 16)).foldl (fun p i =>
    p.set! i (BitVec.ofNat 16 (e.u s b i))) s.t.codebk } }

end Sys2Proof.Machine
end

