-- ==== Sys2Proof/Machine/RiserEff.lean ====
section
/-! DEFINITION. The reversible words and the riser stack (R246 to R259): the record, pushing, undoing, the RS group,
spill and fill. The stack's bytes stand in the task by position; positions below the spill boundary stand in sg14. -/

namespace Sys2Proof.Machine

/-! ## The bytes of the stack (R253, R254) -/

/-- A spill or fill waits for the page at va (R395): not a trap. -/
def pageWait (va : Nat) (wr : Bool) : Trap := { cause := 0, info := 2 + 4 * (va / 2 ^ 16), write := wr }

/-- The place of n bytes of sg14 from offset off, through the core's Ladle (R254, R255); a write needs the segment's
writable attribute as well as W (R295). -/
def riserPlace (s : State) (off n : Nat) (wr : Bool) : R (Nat × State) :=
  let g := s.t.segs[(14 : Fin 16)]
  let x := formed s.actor g off
  if g.desc.limit < off + n then .error { cause := 0x06, info := memForm 14 (Nat.max off g.desc.limit) }
  else if wr && !g.desc.writable then .error { cause := 0x07, info := memForm 14 off }
  else if g.desc.onChip then .ok (x, s)
  else
    match translate s 1 s.t.core s.t.fn x with
    | none =>
      match s.t.riserRefused with
      | some page => .error { cause := 0x09, info := page, write := wr }
      | none => .error (pageWait x wr)
    | some (e, s') =>
      if wr && !e.w then .error { cause := 0x09, info := pageInfo x, write := true }
      else if routed s (e.pa x) = false then .error { cause := 0x15, info := errorInfo (e.pa x) }
      else .ok (e.pa x, s')

/-- The places of n bytes of sg14, line by line. -/
def riserPlaces (wr : Bool) (base : Nat) : State → List (Nat × Nat) → R (State × List (Nat × Nat × Nat))
  | s, [] => .ok (s, [])
  | s, (off, n) :: r => do
    let p ← riserPlace s off n wr
    let t ← riserPlaces wr base p.2 r
    .ok (t.1, (p.1, n, off - base) :: t.2)

/-- n bytes of sg14 from offset off. -/
def sg14Read (s : State) (off n : Nat) : R (State × Nat) := do
  let ps ← riserPlaces false off s (linesOf off n)
  let v ← ps.2.foldlM (fun acc q => do .ok (acc + (← readPlace ps.1 q.1 q.2.1) * 2 ^ (8 * q.2.2))) 0
  .ok (ps.1.ladleMoves s.t.core n, v)

/-- n bytes of sg14 from offset off become v. -/
def sg14Write (s : State) (off n v : Nat) : R State := do
  let ps ← riserPlaces true off s (linesOf off n)
  let u ← landStores ps.1 none (ps.2.map fun q =>
    { place := q.1, len := q.2.1, val := v / 2 ^ (8 * q.2.2) % 2 ^ (8 * q.2.1), hdr := 0 })
  .ok (u.ladleMoves s.t.core n)

/-- The bytes of the riser buffer that hold n bytes of the stack from position p: places and lengths (R253). -/
def bufferPlaces (s : State) (p n : Nat) : List (Nat × Nat) :=
  let first := Nat.min n (262144 - p % 262144)
  [(chipPlace s.t.core 5 (p % 262144), first), (chipPlace s.t.core 5 0, n - first)]

/-- n bytes of the stack from position p, in the buffer; cause 0x15 at a bad unit (R388). -/
def bufferRead (s : State) (p n : Nat) : R Nat :=
  match (bufferPlaces s p n).findSome? fun q => firstBad s q.1 q.2 with
  | some b => .error { cause := 0x15, info := errorInfo b }
  | none => .ok (Memory.read s.t.riser p n)

/-- n bytes of the stack from position p become v, in the buffer; its units are written whole. -/
def bufferWrite (s : State) (p n v : Nat) : State :=
  { s with t := { s.t with riser := Memory.write s.t.riser p n v },
           bad := if s.bad = [] then s.bad else s.bad.filter fun b => !((bufferPlaces s p n).any fun q => unitWithin q.1 q.2 b) }

/-- n bytes of the stack from position p, wherever they stand. -/
def riserRead (s : State) (p n : Nat) : R (State × Nat) :=
  if s.t.spill ≤ p then (bufferRead s p n).map fun v => (s, v) else sg14Read s p n

/-- The headers' LEN, from the header that ends at position d (Table 12-5). -/
def recLen (h : Nat) : Nat := field h 64 32

/-- The spill boundary moves up record by record to position top or beyond it; `lens` counts what remains. Whole
records only, oldest first: `ends` are their end positions, ascending. -/
def spillTo (s : State) (top : Nat) : R State :=
  if top ≤ s.t.spill then .ok s
  else do
    let v ← bufferRead s s.t.spill (top - s.t.spill)
    let s' ← sg14Write s s.t.spill (top - s.t.spill) v
    .ok { s' with t := { s'.t with spill := top, riser := s'.t.riser.filter fun c => top ≤ c.1 } }

/-- The ends of the records above position S, ascending, from depth d down. -/
def recEnds (t : Task) : Nat → Nat → List Nat → List Nat
  | 0, _, acc => acc
  | fuel + 1, d, acc =>
    if d ≤ t.spill then acc
    else
      let n := recLen (Memory.read t.riser (d - 16) 16)
      if n = 0 ∨ d < n then acc else recEnds t fuel (d - n) (d :: acc)

/-- The spill that a strip commit has made due: whole committed records, oldest first, until D - S is at most 131,072, whatever
has been pushed or popped since (R254). -/
def spillOver (s : State) : R State :=
  if s.t.depth - s.t.spill ≤ 131072 then .ok s
  else
    let ends := (recEnds s.t 16384 s.t.depth []).filter fun p => p ≤ s.stripNow.depth
    match (ends.find? fun p => s.t.depth - p ≤ 131072).or ends.getLast? with
    | none => .ok s
    | some p => spillTo s p

/-- Fill: whole records come back until D - S reaches 98,304 or S is 0 (R254). -/
def fillUp : Nat → State → R State
  | 0, s => .ok s
  | fuel + 1, s =>
    if s.t.spill = 0 ∨ 98304 ≤ s.t.depth - s.t.spill then .ok s
    else do
      let h ← sg14Read s (s.t.spill - 16) 16
      let n := recLen h.2
      if n = 0 ∨ s.t.spill < n then .ok s
      else do
        let b ← sg14Read h.1 (s.t.spill - n) n
        let u := bufferWrite b.1 (s.t.spill - n) n b.2
        fillUp fuel { u with t := { u.t with spill := s.t.spill - n } }

/-- A pop that leaves less than 32,768 bytes above S starts a fill (R254). A fill that must wait for a page is no
concern of the word that popped. -/
def afterPop (s : State) : State :=
  if s.t.timed ∨ 32768 ≤ s.t.depth - s.t.spill ∨ s.t.spill = 0 then s
  else { s with agenda := s.agenda ++ [(.riserFill, { n := [s.t.core, s.t.front] })] }

/-! ## Pushing (R250, R252, R255) -/

/-- Size of a record's two bit maps, each. -/
def mapBytes (vl : Nat) : Nat := 8 * ceilDiv vl 64

/-- LEN of a record (Table 12-5). -/
def recBytes (vl entryBytes : Nat) : Nat := 16 * ceilDiv (2 * mapBytes vl + entryBytes + 16) 16

/-- A record's bytes, as a little-endian number, and its length. -/
def recordOf (tag type aux vl : Nat) (m : Bool) (present escape entries entryBytes : Nat) : Nat × Nat :=
  let n := recBytes vl entryBytes
  let b := mapBytes vl
  (present + escape * 2 ^ (8 * b) + entries * 2 ^ (16 * b) + tag * 2 ^ (8 * (n - 16)) + type * 2 ^ (8 * (n - 15)) +
    aux * 2 ^ (8 * (n - 14)) + vl * 2 ^ (8 * (n - 12)) + m.toNat * 2 ^ (8 * (n - 10)) + n * 2 ^ (8 * (n - 8)), n)

/-- The marker record. -/
def marker : Nat × Nat := (0x80 + 16 * 2 ^ 64, 16)

/-- A record of n bytes v enters the stack: cause 0x0F past sg14's limit (R255); a timing trap past 192 KiB or over
popped positions (R259, R369); a spill at once where the buffer has no room (R254). -/
def pushRecord (v n : Nat) (what : List Nat) (s : State) : R State :=
  let d := s.t.depth + n
  if s.t.segs[(14 : Fin 16)].desc.limit < d then .error { cause := 0x0F, info := d }
  else if s.t.timed ∧ (196608 < d - s.t.spill ∨ s.t.depth < s.t.popTop) then
    .error (timingTrap s.t.cycle s.t.origin 6)
  else do
    let s ← if 262144 < d - s.t.spill then spillTo s (Nat.min s.stripNow.depth s.t.depth) else .ok s
    let u := bufferWrite s s.t.depth n v
    .ok { u with t := { u.t with depth := d, pushes := (d, what) :: s.t.pushes.filter fun p => p.1 ≤ s.t.depth } }

/-- The elements i of a pushing word that are recorded: element, r's bits or the raw operand, escape or not. -/
structure Loss where
  i : Nat
  bits : Nat
  escape : Bool
  deriving DecidableEq, Repr

/-- A pushing word pushes its record (R250). -/
def pushLosses (tag type aux : Nat) (m : Bool) (ls : List Loss) (what : List Nat) (e : Entry) (s : State) : R State :=
  let present := ls.foldl (fun acc l => acc + 2 ^ l.i) 0
  let escape := ls.foldl (fun acc l => if l.escape then acc + 2 ^ l.i else acc) 0
  let entries := ls.zipIdx.foldl (fun acc l => acc + l.1.bits * 2 ^ (e.bits * l.2)) 0
  let r := recordOf tag type aux e.vl m present escape entries (ls.length * (e.bits / 8))
  pushRecord r.1 r.2 what s

/-- r is finite and exactly representable in float type ty: its bits. -/
def exactBits (ty : Nat) (r : FVal) : Option Nat :=
  match r with
  | .fin n _ _ =>
    let b := (roundVal ty ty 1 0 r).bits
    let v := decodeF ty b
    if (match v with | .fin k _ _ => k == n | _ => false) && !ltV v r && !ltV r v then some b else none
  | _ => none

/-- What a pushing form of a float type does with one element: result and flags, and the loss if it is recorded.
`recon` rounds to type t the rebuilt operand from a remainder. -/
def lossOf (t i x : Nat) (r : FVal) (recon : FVal → Nat) : Option Loss :=
  if recon (.fin false 0 0) = x then none
  else
    match exactBits t r with
    | some b => if recon r = x then some ⟨i, b, false⟩ else some ⟨i, x, true⟩
    | none => some ⟨i, x, true⟩

/-- What a push or undo read, for the comparison of R251: its active elements' values, and its mask. -/
def operandsOf (e : Entry) (s : State) (m : Bool) (f : List (Nat → Nat)) : List Nat :=
  s.activeMask e.modes m % 2 ^ e.vl :: (e.actives s m).flatMap fun i => f.map fun g => g i

/-- A value scaled by 2^k, exactly. -/
def FVal.scale (k : Int) : FVal → FVal
  | .fin n m e => .fin n m (e + k)
  | v => v

/-- A value of the first operation with the flags of the second joined to the first's. -/
def Exact.and (x : Exact) (f : FVal → Exact) : Exact :=
  let y := f x.1
  (y.1, Nat.lor x.2 y.2)

/-- x·2^k as an exact operation. -/
def scaleV (k : Int) (x : Exact) : Exact := (x.1.scale k, Nat.lor x.2 x.1.sig)

/-- The rebuild formulas of Table 12-4, y and r given, before rounding. -/
def reconMul (y r c : FVal) : Exact := (addV y r).and fun z => divV z c
def reconFma (y r b c : FVal) : Exact :=
  let p := mulV b c
  ((addV y r).and fun z => addV z p.1.negate).and fun z => (z, p.2)
def reconScale (n : Int) (y r : FVal) : Exact := scaleV (-n) (addV y r)
def reconCvt (y r : FVal) : Exact := addV y r

/-- A pushing word whose results are y i, whose losses are l i. -/
def pushWord (tag type aux : Nat) (m : Bool) (a : VReg) (y : Nat → Res) (l : Nat → Option Loss)
    (others : List (Nat → Nat)) (e : Entry) (s : State) : R State := do
  let what := operandsOf e s m ((fun i => (y i).bits) :: others)
  let ls := (e.actives s m).filterMap l
  let s' ← e.setRes m a y s
  pushLosses tag type aux m ls what e s'

def effRmul (m : Bool) (a b c : VReg) (e : Entry) (s : State) : R State :=
  let y (i : Nat) : Res := finish e.ty (mulV (e.x s b i) (e.x s c i))
  let l (i : Nat) : Option Loss :=
    let yv := decodeF e.ty (y i).bits
    lossOf e.ty i (e.u s b i) (addV (mulV (e.x s b i) (e.x s c i)).1 yv.negate).1
      fun r => (finish e.ty (reconMul yv r (e.x s c i))).bits
  pushWord 1 e.ty 0 m a y l [e.u s c] e s

def effRfma (m : Bool) (a b c : VReg) (e : Entry) (s : State) : R State :=
  let y := fmaRes e s a b c false
  let l (i : Nat) : Option Loss :=
    let yv := decodeF e.ty (y i).bits
    lossOf e.ty i (e.u s a i) (addV (addV (e.x s a i) (mulV (e.x s b i) (e.x s c i)).1).1 yv.negate).1
      fun r => (finish e.ty (reconFma yv r (e.x s b i) (e.x s c i))).bits
  pushWord 2 e.ty 0 m a y l [e.u s b, e.u s c] e s

/-- sh, k: gC[5:0]; n: gC[15:0] signed (Table 12-2). -/
def Entry.amt (e : Entry) : Nat := e.gc.toNat % 64
def Entry.scaleN (e : Entry) : Int := signed e.gc.toNat 16

/-- An integer element's loss: the bits shifted out, where they are not zero. -/
def intLoss (i low : Nat) : Option Loss := if low = 0 then none else some ⟨i, low, false⟩

def effRshr (m : Bool) (a b : VReg) (_c : GReg) (e : Entry) (s : State) : R State :=
  pushWord 3 e.ty e.amt m a (fun i => ⟨wrap (e.i s b i / (2 ^ e.amt : Nat)) e.bits, 0⟩)
    (fun i => intLoss i (e.u s b i % 2 ^ e.amt)) [] e s

/-- x ≥ 0 as R249 reads it. DESIGN CHOICE: a NaN with sign bit 0 counts as ≥ 0, so RLRELU and ULRELU copy its bits and raise
no NV; R91 gives a NaN result no payload and Table 12-4 gives x (notes/assumptions/34.md). -/
def Entry.nonNeg (e : Entry) (x : Nat) : Bool :=
  if isInt e.ty then !isSigned e.ty || !x.testBit (e.bits - 1) else !x.testBit (e.bits - 1)

def effRlrelu (m : Bool) (a b : VReg) (_c : GReg) (e : Entry) (s : State) : R State :=
  let k := e.amt
  let y (i : Nat) : Res :=
    let x := e.u s b i
    if e.nonNeg x then ⟨x, 0⟩
    else if isInt e.ty then ⟨wrap (e.i s b i / (2 ^ k : Nat)) e.bits, 0⟩
    else finish e.ty (scaleV (-(k : Int)) (e.x s b i, 0))
  let l (i : Nat) : Option Loss :=
    let x := e.u s b i
    if e.nonNeg x then none
    else if isInt e.ty then intLoss i (x % 2 ^ k)
    else
      let yv := decodeF e.ty (y i).bits
      lossOf e.ty i x (addV ((e.x s b i).scale (-(k : Int))) yv.negate).1
        fun r => if e.nonNeg (y i).bits then (y i).bits else (finish e.ty (reconScale (-(k : Int)) yv r)).bits
  pushWord 4 e.ty k m a y l [] e s

def effRscale (m : Bool) (a b : VReg) (_c : GReg) (e : Entry) (s : State) : R State :=
  let n := e.scaleN
  let y (i : Nat) : Res := finish e.ty (scaleV n (e.x s b i, 0))
  let l (i : Nat) : Option Loss :=
    let yv := decodeF e.ty (y i).bits
    lossOf e.ty i (e.u s b i) (addV ((e.x s b i).scale n) yv.negate).1
      fun r => (finish e.ty (reconScale n yv r)).bits
  pushWord 5 e.ty (wrap n 16) m a y l [] e s

def effRcvt (m : Bool) (a b : VReg) (ty : Fin 16) (rc : Fin 8) (e : Entry) (s : State) : R State := do
  let mask := s.activeMask e.modes m
  let y (i : Nat) : Res := roundVal e.ty ty.val rc.val (draw e.modes.seed.toNat e.count i) (e.x s b i)
  let l (i : Nat) : Option Loss :=
    let yv := decodeF ty.val (y i).bits
    lossOf e.ty i (e.u s b i) (addV (e.x s b i) yv.negate).1 fun r => (finish e.ty (reconCvt yv r)).bits
  let what := operandsOf e s m [fun i => (y i).bits]
  let ls := (e.actives s m).filterMap l
  let db := typeBits ty.val
  let s' := if e.vl = 0 then s
    else (s.setVr e.modes a.val (mapElems db e.vl mask (s.vr e.modes a.val) fun i => (y i).bits)
      (ceilDiv (e.vl * db) 8)).raise (mapFlags e.vl mask fun i => (y i).flags)
  pushLosses 6 (e.ty + 16 * ty.val) 0 m ls what e s'

/-! ## Undoing (R251) -/

/-- Cause 0x0E (Table 20-1). -/
def orderTrap (want found kind : Nat) : Trap := { cause := 0x0E, info := want + found * 2 ^ 8 + kind * 2 ^ 16 }

/-- The stack with the top record brought in, where it lies below S (R254); in a timed domain a timing trap (R259). -/
def bringIn (s : State) : R State :=
  if s.t.depth = 0 ∨ s.t.spill < s.t.depth then .ok s
  else if s.t.timed then .error (timingTrap s.t.cycle s.t.origin 6)
  else fillUp 16384 s

/-- The top record checked against an undo (R251, R351): its bytes. -/
def topRecord (want type aux vl : Nat) (s : State) : R Nat :=
  if s.t.depth = 0 then .error (orderTrap want 0 0)
  else do
    let h ← bufferRead s (s.t.depth - 16) 16
    let tag := field h 0 8
    if tag ≠ want then .error (orderTrap want tag 1)
    else if field h 8 8 ≠ type then .error (orderTrap want tag 2)
    else if field h 32 16 ≠ vl then .error (orderTrap want tag 3)
    else if field h 16 16 ≠ aux then .error (orderTrap want tag 4)
    else bufferRead s (s.t.depth - recLen h) (recLen h)

/-- The stack lowered to position d. -/
def popTo (d : Nat) (s : State) : State :=
  let s := s.setStrip { s.stripNow with undo := true }
  afterPop { s with t := { s.t with depth := d, popTop := Nat.max s.t.popTop s.t.depth } }

/-- An undo: `tb` is the width of the rebuilt operand, `recon i ent` rebuilds element i from its entry, `what` is what
it read. -/
def undoWord (tag type aux : Nat) (m : Bool) (a : VReg) (tb : Nat) (recon : Nat → Nat → Res)
    (what : State → List Nat) (e : Entry) (s : State) : R State := do
  let s ← bringIn s
  let r ← topRecord tag type aux e.vl s
  let b := mapBytes e.vl
  let present (i : Nat) : Bool := r.testBit i
  let escape (i : Nat) : Bool := r.testBit (8 * b + i)
  let entry (i : Nat) : Nat := field r (16 * b * 8 / 8 + tb * popCount (r % 2 ^ i) i) tb
  let f (i : Nat) : Res :=
    if present i then (if escape i then ⟨entry i, 0⟩ else recon i (entry i)) else recon i 0
  let mask := s.activeMask e.modes m
  let h := Memory.read s.t.riser (s.t.depth - 16) 16
  let same := s.t.pushes.any fun p => p.1 == s.t.depth && p.2 == what s
  let s' := if e.vl = 0 then s
    else s.setVr e.modes a.val (mapElems tb e.vl mask (s.vr e.modes a.val) fun i => (f i).bits) (ceilDiv (e.vl * tb) 8)
  let s' := if same then s' else s'.raise (mapFlags e.vl mask fun i => (f i).flags)
  .ok (popTo (s.t.depth - recLen h) s')

/-- The remainder an entry's bits stand for. -/
def remVal (ty ent : Nat) : FVal := if ent = 0 then .fin false 0 0 else decodeF ty ent

def effUmul (m : Bool) (a b c : VReg) (e : Entry) (s : State) : R State :=
  undoWord 1 e.ty 0 m a e.bits (fun i ent => finish e.ty (reconMul (e.x s b i) (remVal e.ty ent) (e.x s c i)))
    (fun s => operandsOf e s m [e.u s b, e.u s c]) e s

def effUfma (m : Bool) (a b c : VReg) (e : Entry) (s : State) : R State :=
  undoWord 2 e.ty 0 m a e.bits
    (fun i ent => finish e.ty (reconFma (e.x s a i) (remVal e.ty ent) (e.x s b i) (e.x s c i)))
    (fun s => operandsOf e s m [e.u s a, e.u s b, e.u s c]) e s

def effUshr (m : Bool) (a b : VReg) (_c : GReg) (e : Entry) (s : State) : R State :=
  undoWord 3 e.ty e.amt m a e.bits
    (fun i ent => ⟨Nat.lor (e.u s b i * 2 ^ e.amt) ent % 2 ^ e.bits, 0⟩)
    (fun s => operandsOf e s m [e.u s b]) e s

def effUlrelu (m : Bool) (a b : VReg) (_c : GReg) (e : Entry) (s : State) : R State :=
  let k := e.amt
  undoWord 4 e.ty k m a e.bits
    (fun i ent =>
      let y := e.u s b i
      if e.nonNeg y then ⟨y, 0⟩
      else if isInt e.ty then ⟨Nat.lor (y * 2 ^ k) ent % 2 ^ e.bits, 0⟩
      else finish e.ty (reconScale (-(k : Int)) (e.x s b i) (remVal e.ty ent)))
    (fun s => operandsOf e s m [e.u s b]) e s

def effUscale (m : Bool) (a b : VReg) (_c : GReg) (e : Entry) (s : State) : R State :=
  undoWord 5 e.ty (wrap e.scaleN 16) m a e.bits
    (fun i ent => finish e.ty (reconScale e.scaleN (e.x s b i) (remVal e.ty ent)))
    (fun s => operandsOf e s m [e.u s b]) e s

/-- UCVT: the type converted to is VTYPE, the type restored is ty. -/
def effUcvt (m : Bool) (a b : VReg) (ty : Fin 16) (e : Entry) (s : State) : R State :=
  undoWord 6 (ty.val + 16 * e.ty) 0 m a (typeBits ty.val)
    (fun i ent => finish ty.val (reconCvt (e.x s b i) (remVal ty.val ent)))
    (fun s => operandsOf e s m [e.u s b]) e s

/-! ## The RS group (R256) -/

def effRsmark (_e : Entry) (s : State) : R State := pushRecord marker.1 marker.2 [] s

/-- The depth below the topmost marker, by the headers from depth d down; none where there is no marker. -/
def belowMarker : Nat → Nat → State → R (State × Option Nat)
  | 0, _, s => .ok (s, none)
  | fuel + 1, d, s =>
    if d = 0 then .ok (s, none)
    else do
      let h ← riserRead s (d - 16) 16
      let n := recLen h.2
      if n = 0 ∨ d < n then .ok (h.1, none)
      else if field h.2 0 8 = 0x80 then .ok (h.1, some (d - n))
      else belowMarker fuel (d - n) h.1

def effRsdrop (_e : Entry) (s : State) : R State := do
  if s.t.depth = 0 then .error (orderTrap 0x80 0 0)
  else do
    let h ← riserRead s (s.t.depth - 16) 16
    let x ← belowMarker (s.t.depth / 16 + 1) s.t.depth h.1
    match x.2 with
    | none => .error (orderTrap 0x80 (field h.2 0 8) 5)
    | some d =>
      let s := x.1
      let p := s.stripNow
      let s := s.setStrip { p with dropped := if d < s.t.spill then Nat.max p.dropped s.t.spill else p.dropped }
      .ok (popTo d { s with t := { s.t with spill := Nat.min s.t.spill d } })

/-- RSDEPTH's value; the scalar register is written with the others that words write (R172). -/
def riserDepth (s : State) : Word := BitVec.ofNat 64 s.t.depth

/-- A spill or fill of a front is in flight: it is due, or it waits for a page (R254, R395). -/
def riserBusy (s : State) (t : Task) : Bool :=
  t.riserPages != [] || s.agenda.any fun x =>
    (match x.1 with | .riserSpill | .riserFill => true | _ => false) && x.2.n == [t.core, t.front]

/-- RSSYNC completes when no spill or fill is in flight (R256): the one that is due runs, which a pop of its own convoy may
have made due; one that waits for a page keeps it waiting. -/
def effRssync (_e : Entry) (s : State) : R State :=
  let due (x : Instr × Input) (i : Instr) : Bool := x.1 == i && x.2.n == [s.t.core, s.t.front]
  if s.t.riserPages ≠ [] then .error waits
  else if riserBusy s s.t = false then .ok s
  else do
    let u := { s with agenda := s.agenda.filter fun x => !(due x .riserSpill || due x .riserFill) }
    let u ← if s.agenda.any fun x => due x .riserSpill then spillOver u else .ok u
    if s.agenda.any fun x => due x .riserFill then fillUp 16384 u else .ok u

/-- The worst case of a pushing word's record, at VL entries (R254). -/
def worstPush (i : Instr) (e : Entry) : Nat :=
  match i with
  | .rmul .. | .rfma .. | .rshr .. | .rlrelu .. | .rscale .. | .rcvt .. => recBytes e.vl (e.vl * (e.bits / 8))
  | .rsmark => 16
  | _ => 0

/-- A word that pops. -/
def popsRiser : Instr → Bool
  | .umul .. | .ufma .. | .ushr .. | .ulrelu .. | .uscale .. | .ucvt .. | .rsdrop => true
  | _ => false

end Sys2Proof.Machine
end

