-- ==== Sys2Proof/Machine/VecCheck.lean ====
section
/-! DEFINITION. The checks of a vector-class word made at decode, in the order of R337: first its own fields with the
captured modes (Tables 9-1, 10-3, 12-2, 20-5, 20-6, 20-8), then the captured scalar values. -/

namespace Sys2Proof.Machine

/-- A check that fails with trap t where p holds. -/
def failIf (p : Bool) (t : Trap) : Option Trap := if p then some t else none

/-- The first failing check. -/
def firstTrap (l : List (Option Trap)) : Option Trap := l.findSome? id

/-- The vector registers a word reads, by number (R172, Table 9-2). -/
def vecReads (i : Instr) : List Nat :=
  match i with
  | .vadd _ _ b c | .vsub _ _ b c | .vand _ _ b c | .vor _ _ b c | .vxor _ _ b c | .vmin _ _ b c | .vmax _ _ b c
  | .vmul _ _ b c | .vsll _ _ b c | .vsrl _ _ b c | .vsra _ _ b c | .vadds _ _ b c | .vsubs _ _ b c
  | .vmulh _ _ b c | .vcmp _ _ _ b c | .vfadd _ _ b c | .vfsub _ _ b c | .vfmul _ _ b c | .vfmin _ _ b c
  | .vfmax _ _ b c | .vfdiv _ _ b c | .vfcmp _ _ _ b c | .vgatheri _ _ b c | .vpmul _ _ _ b c | .rmul _ _ b c
  | .umul _ _ b c => [b.val, c.val]
  | .vfma _ a b c | .vfms _ a b c | .vfnma _ a b c | .rfma _ a b c | .ufma _ a b c => [a.val, b.val, c.val]
  | .vabs _ _ b | .vneg _ _ b | .vfsqrt _ _ b | .vfneg _ _ b | .vfabs _ _ b | .vexp2 _ _ b | .vlog2 _ _ b
  | .vrcp _ _ b | .vrsqrt _ _ b | .vtanh _ _ b | .vsigm _ _ b | .vcvt _ _ b _ _ | .vmv _ _ b | .vext _ _ b _
  | .vslideup _ _ b _ | .vslidedn _ _ b _ | .vredsum _ _ b | .vredmin _ _ b | .vredmax _ _ b | .vredmins _ _ b
  | .vredmaxs _ _ b | .vfredsum _ _ b | .vfredmin _ _ b | .vfredmax _ _ b | .vscanAdd _ _ b | .vscanMin _ _ b
  | .vscanMax _ _ b | .vfscanAdd _ _ b | .vfscanMax _ _ b | .vcompress _ _ b _ | .vpack _ _ _ b | .tmvr _ _ b _
  | .vquant _ b _ | .mperm b | .mcode b | .rshr _ _ b _ | .rlrelu _ _ b _ | .rscale _ _ b _ | .rcvt _ _ b _ _
  | .ushr _ _ b _ | .ulrelu _ _ b _ | .uscale _ _ b _ | .ucvt _ _ b _ => [b.val]
  | .vpmula _ _ a b c => [a.val, a.val + 1, b.val, c.val]
  | .vpext _ _ _ b => [b.val, b.val + 1]
  | .vst _ a _ | .vsts _ a _ _ | .vspill a _ => [a.val]
  | .vldx _ _ _ c => [c.val]
  | .vstx _ a _ c => [a.val, c.val]
  | _ => []

/-- The VTYPE codes a word accepts (Tables 9-1, 12-2, 10-6). -/
def acceptsType (i : Instr) (t : Nat) : Bool :=
  match i with
  | .vadd .. | .vsub .. | .vand .. | .vor .. | .vxor .. | .vmin .. | .vmax .. | .vmul .. | .vsll .. | .vsrl ..
  | .vsra .. | .vadds .. | .vsubs .. | .vmulh .. | .vabs .. | .vneg .. | .vcmp .. | .vredsum .. | .vredmin ..
  | .vredmax .. | .vredmins .. | .vredmaxs .. | .vscanAdd .. | .vscanMin .. | .vscanMax .. | .viota ..
  | .rshr .. | .ushr .. => t < 8
  | .vfadd .. | .vfsub .. | .vfmul .. | .vfmin .. | .vfmax .. | .vfdiv .. | .vfsqrt .. | .vfma .. | .vfms ..
  | .vfnma .. | .vfneg .. | .vfabs .. | .vfcmp .. | .vfredsum .. | .vfredmin .. | .vfredmax .. | .vfscanAdd ..
  | .vfscanMax .. | .rmul .. | .rfma .. | .rscale .. | .umul .. | .ufma .. | .uscale .. => 8 ≤ t && t < 12
  | .vexp2 .. | .vlog2 .. | .vrcp .. | .vrsqrt .. | .vtanh .. | .vsigm .. => 9 ≤ t && t < 12
  | .vbcast .. | .vext .. | .vins .. | .vslideup .. | .vslidedn .. | .vgatheri .. | .vcompress .. | .vlds ..
  | .vsts .. | .vldx .. | .vstx .. => t < 14
  | .vpack .. => t < 8 || t == 15
  | .rlrelu .. | .ulrelu .. => t < 12
  | .rcvt _ _ _ ty _ =>
    8 ≤ t && t < 12 && 9 ≤ ty.val && ty.val < 14 &&
      (typeBits ty.val < typeBits t || (typeBits ty.val == typeBits t && ty.val != t))
  | .ucvt _ _ _ ty => 9 ≤ t && t < 14 && 8 ≤ ty.val && ty.val < 12
  | .vquant .. => 9 ≤ t && t < 12
  | .mperm .. => t == 1
  | .mcode .. => t == 11
  | _ => true

/-- Kind 3: the captured mode state the word does not accept, by control-register number. -/
def modeTrap (i : Instr) (e : Entry) : Option Trap :=
  let mt := e.modes.mtype.toNat
  let bound := (vecReads i).any fun n => e.bound.contains (phys e.modes n).val
  let vt := failIf (!acceptsType i e.ty || bound && !([4, 5, 9] : List Nat).contains e.ty) (illegal i 3 0x001)
  match i with
  | .mma .. | .mmaA .. => failIf (!mtypeOk mt || mtSpn mt != 0) (illegal i 3 0x004)
  | .mmas .. | .mmasA .. => failIf (!mtypeOk mt || mtSpn mt == 0) (illegal i 3 0x004)
  | .vquant .. =>
    firstTrap [failIf (!([12, 13, 14, 0] : List Nat).contains e.modes.ttype.toNat) (illegal i 3 0x006), vt]
  | .tld .. | .tst .. =>
    failIf (256 < rowBytes mt e.modes.shape.toNat e.modes.ttype.toNat) (illegal i 3 0x006)
  | _ => vt

/-- A group of k registers from vn that passes v127 (Table 20-5). -/
def groupTrap (e : Entry) (vmax n k : Nat) : Option Trap :=
  failIf (127 < n + k - 1) (windowTrap n (16 * e.modes.wb.toNat + n + k - 1) vmax)

/-- Cause 0x05 from the word's own fields. -/
def windowCheck (i : Instr) (e : Entry) (vmax : Nat) : Option Trap :=
  match i with
  | .vcvt _ a _ ty _ => groupTrap e vmax a.val (groupRegs e.vl (typeBits ty.val))
  | .vpmul _ _ a _ _ | .vpmula _ _ a _ _ => groupTrap e vmax a.val 2
  | .vpext _ _ _ b => groupTrap e vmax b.val 2
  | _ => none

/-- Kind 4: a plan that is not well formed (R73); kind 5 with detail 0x7FF and kind 6: fields of the word. DESIGN CHOICE: an MPERM
with VL above 256, where neither a register nor a field of the word is at fault, has the detail 0x7FF as well
(notes/assumptions/36.md). -/
def fieldTrap (i : Instr) (e : Entry) : Option Trap :=
  let plan (f : FReg) : Option Trap := failIf (!planOk e.plan.toNat) (illegal i 4 f.val)
  let lanes (n : Nat) : Option Trap := failIf (512 < n) (illegal i 5 0x7FF)
  let t7 (b : TReg) (p : Bool) : Option Trap := failIf (b.val == 7 && p) (illegal i 5 0x7FF)
  let m0 (a : MReg) : Option Trap := failIf (a.val == 0) (illegal i 6 0)
  match i with
  | .vpack _ f _ _ | .vpmul _ f _ _ _ | .vpmula _ f _ _ _ => firstTrap [plan f, lanes e.lanes]
  | .vpext _ f _ _ => firstTrap [plan f, lanes e.lanes, lanes (e.lanes * planWcnt e.plan.toNat)]
  | .mmas _ b _ | .mmasA _ _ b _ => t7 b true
  | .tld a _ _ | .tst a _ => t7 a (mtSpn e.modes.mtype.toNat != 0)
  | .mperm _ => failIf (256 < e.vl) (illegal i 5 0x7FF)
  | .vcmp _ _ a _ _ | .vfcmp _ _ a _ _ | .mand _ a _ _ | .mor _ a _ _ | .mxor _ a _ _ | .mandn _ a _ _
  | .mnot _ a _ => m0 a
  | _ => none

/-- Kind 5 naming register g. -/
def limitIf (i : Instr) (g : GReg) (p : Bool) : Option Trap := failIf p (illegal i 5 g.val)

/-- The lowest bit of v among bits lo to hi - 1 that must be zero: cause 0x02 of register g. -/
def zeroIf (i : Instr) (g : GReg) (v lo hi : Nat) : Option Trap :=
  ((List.range hi).find? fun b => lo ≤ b && v.testBit b).map (reservedReg i g.val)

/-- The checks of the captured scalar values: cause 0x02 with SRC = 1, then 0x05, then kind 5. DESIGN CHOICE: VMBOX is cause 0x05
where gB + gC is above the launch's maximum, as Table 20-5 has it, also with a count of 0 (notes/assumptions/36.md). -/
def operandTrap (i : Instr) (e : Entry) (vmax : Nat) : Option Trap :=
  let gc := e.gc.toNat
  let mt := e.modes.mtype.toNat
  let sh := e.modes.shape.toNat
  let product (c : GReg) : Option Trap :=
    firstTrap [zeroIf i c gc 17 32,
      limitIf i c (e.offset % 64 != 0 || (shM sh != 0 && shN sh != 0 && shK sh != 0 &&
        0x20000 < e.offset + bUsed mt (shN sh) (shK sh)))]
  match i with
  | .mma _ _ c | .mmaA _ _ _ c | .mmas _ _ c | .mmasA _ _ _ c => product c
  | .bld _ c =>
    firstTrap [zeroIf i c gc 17 32, limitIf i c (e.offset % 64 != 0 || 0x20000 < e.offset + bRegion mt (shK sh))]
  | .vquant _ _ c =>
    let k := shK sh
    firstTrap [if gc.testBit 7 then firstTrap [zeroIf i c gc 6 7, zeroIf i c gc 8 32] else none,
      limitIf i c (k != 0 && 64 < gc % 64 + ceilDiv e.vl k)]
  | .tmvr _ _ _ c =>
    limitIf i c (64 < gc % 64 + ceilDiv (e.vl * typeBits e.modes.ttype.toNat) 2048)
  | .tmvc _ _ _ c =>
    limitIf i c (e.vl != 0 && 2048 / typeBits e.modes.ttype.toNat ≤ gc % 512 + (e.vl - 1) / 64)
  | .tmvrr _ _ c =>
    let n := if gc / 65536 % 64 = 0 then 64 else gc / 65536 % 64
    limitIf i c (64 < gc % 64 + n || 64 < gc / 256 % 64 + n)
  | .rshr _ _ _ c | .ushr _ _ _ c => limitIf i c (e.bits ≤ gc % 64)
  | .rlrelu _ _ _ c | .ulrelu _ _ _ c => limitIf i c (isInt e.ty && e.bits ≤ gc % 64)
  | .vmbox b _ => failIf (vmax < e.gb.toNat + gc) (windowTrap b.val (e.gb.toNat + gc - 1) vmax)
  | _ => none

/-- Cause 0x03 for member k of a convoy of n: its class, and its place (R340); `hdr` is the header word. -/
def placeTrap (i : Instr) (hdr k n : Nat) : Option Trap :=
  let form (kind : Nat) : Trap := { cause := 0x03, info := hdr + kind * 2 ^ 32 + k * 2 ^ 36 }
  match i with
  | .setvl .. => failIf (k != 0) (form 1)
  | .mmaA .. | .mmasA .. | .vrelease => failIf (n != 1) (form 2)
  | _ => none

/-- The checks at decode of a vector-class word's own fields, from its class and position on: they come before any check of a
register value that it captures (R337). -/
def wordTrap (i : Instr) (e : Entry) (hdr k n vmax : Nat) (inHandler : Bool) : Option Trap :=
  firstTrap [placeTrap i hdr k n, failIf inHandler { cause := 0x04, info := wordNat i }, windowCheck i e vmax,
    modeTrap i e, fieldTrap i e]

/-- Every check at decode of a vector-class word (R337). -/
def memberTrap (i : Instr) (e : Entry) (hdr k n vmax : Nat) (inHandler : Bool) : Option Trap :=
  firstTrap [wordTrap i e hdr k n vmax inHandler, operandTrap i e vmax]

end Sys2Proof.Machine
end

