-- ==== Sys2Proof/Machine/Figures.lean ====
section
/-! DEFINITION. The published figures (R61, R199, R418; Tables 3-4, 9-4, 10-2, 11-2, 12-3): the column of each
vector-class word, its latency and occupancy, and the latencies of scalar accesses. -/

namespace Sys2Proof.Machine

/-- The column a word issues on; none for a word that acts in the front. -/
def columnOf (i : Instr) : Option Column :=
  match i with
  | .setvl .. | .vmsel .. | .mshape .. | .vrelease | .mmaA .. | .mmasA .. => none
  | .vpmul .. | .vpmula .. | .mma .. | .mmas .. => some .wide
  | .vld .. | .vst .. | .vldt .. | .vlds .. | .vsts .. | .vldx .. | .vstx .. | .vspill .. | .vfill .. | .vappend ..
  | .tld .. | .tst .. | .ald .. | .ast .. | .bld .. => some .mem
  | .vcvt .. | .vmv .. | .vbcast .. | .viota .. | .vext .. | .vins .. | .vslideup .. | .vslidedn .. | .vcompress ..
  | .vgatheri .. | .vpack .. | .vpext .. | .vbind .. | .vunbind .. | .vmbox .. | .tmvr .. | .tmvc .. | .tmvrr ..
  | .amv .. | .azero .. | .vquant .. | .tzero .. | .mperm .. | .mcode .. => some .xfer
  | _ => some .arith

/-- Cycles of a product: G of R61; a split-precision product makes one pass for each pair of slices it forms. -/
def productCycles (e : Entry) : Nat :=
  let mt := e.modes.mtype.toNat
  let sh := e.modes.shape.toNat
  let d := depthOf mt * 12 / (if mtSpn mt = 0 then 12 else spnN (mtSpn mt))
  let p := mtSlices mt * (mtSlices mt + 1) / 2
  ceilDiv (shM sh) 32 * ceilDiv (shN sh) 64 * ceilDiv (shK sh) d * (if p = 0 then 1 else p)

/-- Latency and q of a word; `far` where it loads from device memory, with the number of links on the way (R328). -/
def latencyOf (i : Instr) (far : Option Nat) : Nat × Nat :=
  let dev (own : Nat) : Nat := far.elim own fun n => 1024 + 1536 * n
  match i with
  | .vmul .. | .vmulh .. | .vadds .. | .vsubs .. | .vabs .. | .vneg .. | .vfadd .. | .vfsub .. | .vfmul .. | .vfmin ..
  | .vfmax .. | .vfma .. | .vfms .. | .vfnma .. | .vfneg .. | .vfabs .. | .vfcmp .. | .vscanAdd .. | .vscanMin ..
  | .vscanMax .. | .vfscanAdd .. | .vfscanMax .. => (4, 1)
  | .vfdiv .. | .vfsqrt .. => (12, 4)
  | .vexp2 .. | .vlog2 .. | .vrcp .. | .vrsqrt .. | .vtanh .. | .vsigm .. | .vquant .. => (8, 2)
  | .vcvt .. | .vpack .. | .vpext .. => (3, 1)
  | .vpmul .. | .vpmula .. => (5, 1)
  | .vext .. | .vins .. | .vslideup .. | .vslidedn .. | .vcompress .. => (6, 1)
  | .vgatheri .. => (6, 2)
  | .vld .. | .vldt .. => (dev 8, 1)
  | .vst .. | .vspill .. | .vfill .. | .vappend .. => (8, 1)
  | .vlds .. | .vldx .. => (dev 12, if far.isSome then 1 else 4)
  | .vsts .. | .vstx .. => (12, 4)
  | .tld .. => (dev 10, if far.isSome then 1 else 2)
  | .tst .. => (10, 2)
  | .tmvr .. | .tmvc .. | .tmvrr .. => (4, 2)
  | .bld .. => (10, 1)
  | .azero .. | .amv .. | .ald .. | .ast .. | .tzero .. | .mperm .. | .mcode .. => (4, 1)
  | .rshr .. | .rlrelu .. => (2, 2)
  | .rcvt .. => (3, 2)
  | .rmul .. | .rfma .. | .rscale .. => (4, 2)
  | .umul .. | .ufma .. | .ushr .. | .ulrelu .. | .uscale .. | .ucvt .. => (6, 2)
  | _ => (2, 1)

/-- Cycles for which an entry holds its column (R61). DESIGN CHOICE: a word on masks only, whose element size R61 does not
give, counts one bit an element (notes/assumptions/35.md), and the rows of TLD and TST are the M data rows, without metadata and side
rows (notes/assumptions/36.md). -/
def occupancy (e : Entry) (q : Nat) : Nat :=
  let groups (bits : Nat) : Nat := q * ceilDiv (e.vl * bits) 1024
  let tt := typeBits e.modes.ttype.toNat
  match e.instr with
  | .setvl .. | .vmsel .. | .mshape .. | .vrelease | .mmaA .. | .mmasA .. => 0
  | .vcvt _ _ _ ty _ | .rcvt _ _ _ ty _ | .ucvt _ _ _ ty => groups (Nat.max e.bits (typeBits ty.val))
  | .mand .. | .mor .. | .mxor .. | .mandn .. | .mnot .. | .mpopc .. | .mfirst .. => groups 1
  | .vpack .. => q * ceilDiv (Nat.max e.bytes (8 * e.lanes)) 128
  | .vpmul .. | .vpmula .. => q * ceilDiv (8 * e.lanes) 128
  | .vpext .. => q * ceilDiv (8 * e.lanes * planWcnt e.plan.toNat) 128
  | .vspill .. | .vfill .. => 32
  | .vappend .. => q * ceilDiv (4 * e.vl) 128
  | .vbind .. | .vunbind .. | .vmbox .. | .mperm .. | .mcode .. | .amv .. | .rsmark | .rsdrop | .rsdepth .. | .rssync => q
  | .mma .. | .mmas .. => productCycles e
  | .tmvr .. => q * ceilDiv (e.vl * tt) 2048
  | .tmvc .. => q * ceilDiv e.vl 64
  | .tmvrr .. => q * (if e.gc.toNat / 65536 % 64 = 0 then 64 else e.gc.toNat / 65536 % 64)
  | .tzero .. => 8
  | .tld .. | .tst .. => q * shM e.modes.shape.toNat
  | .azero a | .ald a _ | .ast a _ => 32 * (e.accGroup a).length
  | .bld .. => 64 * bRegion e.modes.mtype.toNat (shK e.modes.shape.toNat) / 128
  | _ => groups e.bits

/-- A word whose element i reads other elements of a vector operand (R43). -/
def readsWhole (i : Instr) : Bool :=
  match i with
  | .vslideup .. | .vslidedn .. | .vext .. | .vins .. | .vgatheri .. | .vcompress .. | .vpack .. | .vpext .. | .vredsum ..
  | .vredmin .. | .vredmax .. | .vredmins .. | .vredmaxs .. | .vfredsum .. | .vfredmin .. | .vfredmax .. | .vscanAdd ..
  | .vscanMin .. | .vscanMax .. | .vfscanAdd .. | .vfscanMax .. | .tmvr .. | .tmvc .. | .tmvrr .. | .amv .. | .vquant ..
  | .mperm .. | .mcode .. => true
  | _ => false

/-- Latency, occupancy, and the cycle after issue on which the last element has been written. The scalar result of a
reduction and a product are published whole; of the other words the latency is the first element group's, and the last
follows by their occupancy (notes/assumptions/6.md). -/
def figures (e : Entry) (far : Option Nat) : Nat × Nat × Nat :=
  let (lat, q) := latencyOf e.instr far
  let occ := occupancy e q
  match e.instr with
  | .vredsum .. | .vredmin .. | .vredmax .. | .vredmins .. | .vredmaxs .. | .vfredsum .. | .vfredmin .. | .vfredmax .. =>
    (occ + 10, occ, occ + 10)
  | .mma .. | .mmas .. => (occ + 16, occ, occ + 16)
  | _ => (lat, occ, lat + (occ - q))

/-! ## Members in the columns (R42 to R44, R154, R187) -/

/-- Rows of a tile that a word reads or writes, the first of them and their number. -/
def Entry.tileRows (e : Entry) : Nat × Nat :=
  let gc := e.gc.toNat
  let n := if gc / 65536 % 64 = 0 then 64 else gc / 65536 % 64
  match e.instr with
  | .tld .. | .tst .. | .mma .. | .mmas .. => (0, shM e.modes.shape.toNat)
  | .tmvr .. => (gc % 64, ceilDiv (e.vl * typeBits e.modes.ttype.toNat) 2048)
  | .vquant .. => (gc % 64, ceilDiv e.vl (shK e.modes.shape.toNat))
  | .tmvrr .. => (gc % 64, n)
  | _ => (0, 64)

/-- The first group and the number of groups in which a member reads or writes a lane register: element groups, rows, or a
mask whole. -/
def Flight.span (f : Flight) (r : LReg) : Nat × Nat :=
  match r with
  | .v _ => (0, ((f.parts.find? fun p => p.1 == r).map fun p => p.2.2).getD f.groups)
  | .m _ => (0, 1)
  | .t _ => (f.first, f.rows)
  | .a _ => (0, 32)

/-- Groups that a member comes to before the first of r, and all that it comes to with r's. -/
def Flight.before (f : Flight) (r : LReg) : Nat := ((f.parts.find? fun p => p.1 == r).map fun p => p.2.1).getD 0
def Flight.total (f : Flight) (r : LReg) : Nat := match r with | .v _ => f.groups | _ => (f.span r).2

/-- Cycles after issue at which a member comes to group k of r, its groups sharing its occupancy evenly. -/
def Flight.reach (f : Flight) (r : LReg) (k : Nat) : Nat :=
  (f.before r + (k - (f.span r).1)) * f.occ / Nat.max (f.total r) 1

/-- A member comes to group k of r. -/
def Flight.comes (f : Flight) (r : LReg) (k : Nat) : Bool := (f.span r).1 ≤ k && k < (f.span r).1 + (f.span r).2

/-- The groups of r that x comes to. -/
def Flight.groupsIn (f : Flight) (r : LReg) : List Nat := (List.range (f.span r).2).map fun k => (f.span r).1 + k

/-- The cycle on which a member has written group k of r; a group it does not come to, when it has completed (R43). -/
def Flight.wrote (f : Flight) (r : LReg) (k : Nat) : Nat :=
  if f.comes r k then Nat.min f.done (f.issue + f.lat + f.reach r k) else f.done

/-- The earliest issue of x at which it comes to no group of r before p has written it (R43). -/
def afterWritten (x p : Flight) (r : LReg) : Nat :=
  (x.groupsIn r).foldl (fun n k => Nat.max n (p.wrote r k - x.reach r k)) 0

/-- The earliest issue of x at which, for every group that both come to, x's time exceeds p's. -/
def afterEach (x p : Flight) (r : LReg) (xt pt : Nat → Nat) : Nat :=
  ((x.groupsIn r).filter (p.comes r)).foldl (fun n k => Nat.max n (p.issue + pt k + 1 - xt k)) 0

/-- The earliest issue of x that the earlier member p allows (R43, R44). DESIGN CHOICE: a reader of a whole register, as a
slide, a gather or a reduction, has read its group k when it has come to it: k shares of its occupancy after its issue
(notes/assumptions/36.md). -/
def Flight.allows (p x : Flight) : Nat :=
  let raw := x.reads.foldl (fun n r =>
    if !p.writes.contains r then n
    else Nat.max n (if readsWhole x.entry.instr || (r matches .m _) then p.done else afterWritten x p r)) 0
  let waw := x.writes.foldl (fun n r =>
    if p.writes.contains r then Nat.max n (afterEach x p r (fun k => x.lat + x.reach r k) fun k => p.lat + p.reach r k) else n) 0
  let war := x.writes.foldl (fun n r =>
    if p.reads.contains r then Nat.max n (afterEach x p r (fun k => x.lat + x.reach r k) (p.reach r)) else n) 0
  Nat.max raw (Nat.max waw war)

/-- A pointer leads on chip, not to the argument block; the formed address. -/
def pointsOnChip (s : State) (p : Word) : Bool :=
  let g := s.t.segs[ptrSeg p.toNat]
  g.desc.onChip && g.desc.scope != 5

/-- Links on the way to a package (R328): one, where firmware's routes say no other number. -/
def State.hopsTo (s : State) (package : Nat) : Nat :=
  if package = s.package then 0 else ((s.hops.find? fun h => h.1 == package).map Prod.snd).getD 1

/-- The package whose device memory a pointer of the current task leads to, where its page is mapped. -/
def packageOf (s : State) (p : Word) : Nat :=
  ((walk s s.t.fn (formed s.actor s.t.segs[ptrSeg p.toNat] (ptrOff p.toNat))).map fun e =>
    e.1.pa (formed s.actor s.t.segs[ptrSeg p.toNat] (ptrOff p.toNat)) / 2 ^ 40).getD s.package

/-- The links on the way to the device memory from which an entry loads; none where it loads from none. DESIGN CHOICE: the pointer's
own address gives them, for every element (notes/assumptions/36.md). -/
def farHops (s : State) (e : Entry) : Option Nat :=
  match e.instr with
  | .vld .. | .vldt .. | .vlds .. | .vldx .. | .tld .. =>
    if pointsOnChip s e.gb then none
    else if (s.t.segs[ptrSeg e.gb.toNat]).desc.onChip then some 0 else some (s.hopsTo (packageOf s e.gb))
  | _ => none

/-- An entry accesses spaces 1 to 3 of its own core, which waits for everything before it (R187). -/
def ownLaneAccess (s : State) (e : Entry) : Bool :=
  let x := formed s.actor s.t.segs[ptrSeg e.gb.toNat] (ptrOff e.gb.toNat) - chip
  columnOf e.instr == some .mem && pointsOnChip s e.gb && 1 ≤ mapSpace x && mapSpace x ≤ 3 && mapNum x == s.t.core

/-- An entry reads memory. -/
def Entry.loads (e : Entry) : Bool :=
  match e.instr with
  | .vld .. | .vldt .. | .vlds .. | .vldx .. | .vfill .. | .tld .. | .ald .. | .bld .. => true
  | _ => false

/-- Element groups of its vector operands: VSPILL and VFILL come to the whole register (R195). -/
def Entry.groups (e : Entry) : Nat :=
  match e.instr with
  | .vspill .. | .vfill .. => ceilDiv (32768 / e.bits) 16
  | _ => Nat.max 1 (ceilDiv e.vl 16)

/-- The registers over which a result spreads, each with its first element group and the number of its groups (R43). -/
def Entry.parts (e : Entry) (writes : List LReg) : List (LReg × Nat × Nat) :=
  match e.instr with
  | .vcvt _ _ _ ty _ =>
    let per := 32768 / typeBits ty.val / 16
    if per = 0 then []
    else (writes.filter fun r => r matches .v _).zipIdx.map fun x => (x.1, per * x.2, Nat.min per (e.groups - per * x.2))
  | _ => []

/-- A member as it would issue on cycle 0. -/
def flightOf (s : State) (e : Entry) (reads writes : List LReg) : Flight :=
  let f := figures e (farHops s e)
  { entry := e, col := columnOf e.instr, issue := 0, lat := f.1, occ := f.2.1, done := f.2.2, groups := e.groups,
    first := e.tileRows.1, rows := e.tileRows.2, parts := e.parts writes, reads := reads, writes := writes }

/-- The earliest issue of x behind the members of pipe: what R43, R44 and R187 allow, and its column free. -/
def lockOf (s : State) (pipe : List Flight) (x : Flight) : Nat :=
  pipe.foldl (fun n p => Nat.max n (p.allows x)) (if ownLaneAccess s x.entry then (pipe.map Flight.retire).foldl Nat.max 0 else 0)
def columnFree (pipe : List Flight) (x : Flight) : Nat :=
  (pipe.filter fun p => p.col == x.col && x.col.isSome).foldl (fun n p => Nat.max n (p.issue + Nat.max p.occ 1)) 0

/-- The cycle from which x's column of a core is free of what it has to do. -/
def loadFree (ls : List Load) (x : Flight) : Nat :=
  (ls.filter fun l => l.col == x.col && x.col.isSome).foldl (fun n l => Nat.max n (l.start + Nat.max l.len 1)) 0

/-- The first cycle from n on whose number a throttle level lets issue (R285). -/
def throttled (level n : Nat) : Nat := if n % 8 < 8 - level then n else (n / 8 + 1) * 8

/-- x on cycle n. -/
def Flight.at_ (x : Flight) (n : Nat) : Flight :=
  { x with issue := n, done := n + x.done, retire := Nat.max (n + x.done) (n + x.occ) }

/-- A member of a free task issues as soon as the columns let it from a cycle on, the figures being minima (R61): held by the
longest wait of a progress index or of a device-memory load (Table 19-3), then by its core's throttle level (R285). -/
def placeFree (s : State) (pipe : List Flight) (earliest : Nat) (x : Flight) : Flight × List (Nat × Nat) :=
  let lock := lockOf s pipe x
  let n := Nat.max earliest (Nat.max lock (Nat.max (columnFree pipe x) (loadFree s.c.loads x)))
  let m := if x.col.isSome then throttled s.c.throttle n else n
  let far := pipe.any fun p => p.allows x == lock && 1024 ≤ p.lat
  (x.at_ m, [(if far then 2 else 1, lock - earliest), (6, m - n)])

/-- Bytes that a member of the memory column moves (R282). -/
def Entry.moved (e : Entry) : Nat :=
  let sh := e.modes.shape.toNat
  let mt := e.modes.mtype.toNat
  match e.instr with
  | .vspill .. | .vfill .. => 4096
  | .vappend .. => 4 * e.vl
  | .tld .. | .tst .. => shM sh * (rowBytes mt sh e.modes.ttype.toNat + metaBytes mt sh + sideBytes mt)
  | .ald a _ | .ast a _ => 8192 * (e.accGroup a).length
  | .bld .. => 64 * bRegion mt (shK sh)
  | i => if columnOf i = some .mem then e.bytes else 0

/-- Counts of activity, added (R282). -/
def Work.add (w : Work) (m k : Nat) : Work := { w with matrix := w.matrix.set! m (w.matrix[m]?.getD 0 + k) }
def Work.plus (w u : Work) : Work :=
  { matrix := w.matrix.zipWith (· + ·) u.matrix, arith := w.arith + u.arith, wide := w.wide + u.wide, mem := w.mem + u.mem,
    xfer := w.xfer + u.xfer, bytes := w.bytes + u.bytes, ladle := w.ladle + u.ladle, dross := w.dross + u.dross }

/-- The counts by the first k of n cycles, and the difference of two counts. -/
def Work.part (w : Work) (k n : Nat) : Work :=
  let f (x : Nat) : Nat := x * k / Nat.max 1 n
  { matrix := w.matrix.map f, arith := f w.arith, wide := f w.wide, mem := f w.mem, xfer := f w.xfer, bytes := f w.bytes,
    ladle := f w.ladle, dross := f w.dross }
def Work.minus (w u : Work) : Work :=
  { matrix := w.matrix.zipWith (· - ·) u.matrix, arith := w.arith - u.arith, wide := w.wide - u.wide, mem := w.mem - u.mem,
    xfer := w.xfer - u.xfer, bytes := w.bytes - u.bytes, ladle := w.ladle - u.ladle, dross := w.dross - u.dross }

/-- Cycles of a load that lie before cycle b, and what those not yet counted add (R282). -/
def Load.upTo (l : Load) (b : Nat) : Nat := Nat.min l.len (b - l.start)
def Load.counts (l : Load) (b : Nat) : Work := (l.work.part (l.upTo b) l.len).minus (l.work.part l.taken l.len)

/-- What a member adds to its core's counts: its column's cycles, the matrix array's by the format of the left operand, and
the bytes it moves. -/
def Flight.work (x : Flight) : Work :=
  let mt := x.entry.modes.mtype.toNat
  let w : Work := { bytes := x.entry.moved }
  match x.col with
  | some .arith => { w with arith := x.occ }
  | some .mem => { w with mem := x.occ }
  | some .xfer => { w with xfer := x.occ }
  | some .wide =>
    match x.entry.instr with
    | .mma .. | .mmas .. => ({ w with wide := x.occ } : Work).add (mtA mt) x.occ
    | _ => { w with wide := x.occ }
  | none => w

/-- The same by the cycles in which it holds its column. -/
def Flight.load (x : Flight) : Load := { col := x.col, start := x.issue, len := Nat.max x.occ 1, work := x.work }

/-- The delays of a convoy and its T bit (R136). -/
def delaysOf (word : Nat) : Bool × List Nat :=
  match decode word with
  | .ok (.convoyHeader t d3 d2 d1 d0 _) => (t, [d0.val, d1.val, d2.val, d3.val])
  | _ => (false, [])

/-- Whether the matrix array or a column of a core is busy on a cycle: with the members placed in its columns, those of strips
that have closed and of either front among them, or with a product of the matrix array. -/
def Core.busyAt (c : Core) (n : Nat) : Bool :=
  (c.pipe.any fun p => decide (p.issue ≤ n ∧ n < p.issue + p.occ)) ||
  c.loads.any fun l => l.col.isSome && decide (l.start ≤ n ∧ n < l.start + l.len)

/-- Of n cycles from cycle a, those in which the matrix array and the vector unit of a core are idle (R167). -/
def Core.idleIn (c : Core) (a n : Nat) : Nat := ((List.range n).filter fun k => !c.busyAt (a + k)).length
def State.idleIn (s : State) (a n : Nat) : Nat := s.c.idleIn a n

/-! ## Scalar accesses -/

/-- The latency of an access by core num to a place: own core's space 0, its other spaces or the queue SRAM of its die,
another core of the die, another die, device memory. The argument block lies in device memory; each link on the way to
another package adds 1,536 cycles (R328). -/
def accessLatency (s : State) (num place : Nat) (own0 own near far dev : Nat) : Nat :=
  if place < chip then dev + 1536 * s.hopsTo (place / 2 ^ 40)
  else
    let a := place - chip
    if mapSpace a = 15 then dev
    else if mapSpace a = 6 then (if mapDie a = (dieOf num).val then own else far)
    else if mapNum a = num then (if mapSpace a = 0 then own0 else own)
    else if mapDie a = (dieOf num).val then near
    else far

/-- A scalar load (Table 3-4), and an atomic or synchronising word (Table 11-2). -/
def loadLatency (s : State) (place : Nat) : Nat := accessLatency s s.t.core place 6 8 96 256 1024
def wordLatency (s : State) (place : Nat) : Nat := accessLatency s s.t.core place 16 16 104 264 1088

/-- SPSIZE and TFREE of a tile: 8 cycles on the own core, elsewhere as an atomic word (R245). -/
def tileLatency (s : State) (place : Nat) : Nat := accessLatency s s.t.core place 8 8 104 264 1088

/-- The front stalls until n cycles after the word's issue (R222). -/
def State.stall (s : State) (n : Nat) : State := { s with t := { s.t with cycle := s.t.cycle + (n - 1) } }

end Sys2Proof.Machine
end

