-- ==== Sys2Proof/Machine/EngineAddr.lean ====
section
/-! DEFINITION. What an engine command's captured registers say: the LCPY descriptor (R233 to R237) and the rows it
reads and writes. -/

namespace Sys2Proof.Machine

/-- Register k that a command captured. -/
def Cmd.reg (d : Cmd) (k : Nat) : Nat := (d.regs[k]?.getD 0).toNat

/-- A Ladle copy, from its descriptor (Table 11-6) and its transform code (R234). -/
structure Copy where
  src : Word
  dst : Word
  rows : Nat
  cols : Nat
  esz : Nat
  sstr : Nat
  dstr : Nat
  vrows : Nat
  vcols : Nat
  scale : Nat
  tag : Nat
  seed : Nat
  tr : Bool
  cv : Nat
  rc : Nat
  deriving DecidableEq, Repr

/-- The copy of an LCPY whose captured registers are gA to gA + 7. -/
def copyOf (regs : List Word) (tr : Bool) (cv rc : Nat) : Copy :=
  let r (k : Nat) : Nat := (regs[k]?.getD 0).toNat
  { src := regs[0]?.getD 0, dst := regs[1]?.getD 0, rows := field (r 2) 0 16, cols := field (r 2) 16 16,
    esz := field (r 2) 32 2, sstr := field (r 3) 0 32, dstr := field (r 3) 32 32, vrows := field (r 4) 0 16,
    vcols := field (r 4) 16 16, scale := field (r 5) 0 32, tag := field (r 5) 32 16, seed := r 6, tr := tr, cv := cv,
    rc := rc }

/-- The copy of a command. -/
def Cmd.copy (d : Cmd) : Option Copy :=
  match d.instr with
  | .lcpy _ _ tr cv rc _ => some (copyOf d.regs tr cv.val rc.val)
  | _ => none

/-- Source and destination type codes of a conversion (Table 11-7); raw elements have none. -/
def cvTypes : Nat → Option (Nat × Nat)
  | 1 => some (11, 12)
  | 2 => some (11, 13)
  | 3 => some (9, 11)
  | 4 => some (9, 12)
  | 5 => some (10, 12)
  | 6 => some (12, 11)
  | 7 => some (11, 14)
  | _ => none

/-- Source element bytes. -/
def Copy.se (c : Copy) : Nat :=
  match c.cv with
  | 0 => match c.esz with | 0 => 2 | 1 => 1 | 2 => 4 | _ => 8
  | 8 => 1
  | _ => (cvTypes c.cv).elim 1 fun t => typeBytes t.1

/-- Destination element bits. -/
def Copy.deBits (c : Copy) : Nat := (cvTypes c.cv).elim (8 * c.se) fun t => typeBits t.2

/-- Destination rows and columns (R235). -/
def Copy.drows (c : Copy) : Nat := if c.tr then c.cols else c.rows
def Copy.dcols (c : Copy) : Nat := if c.tr then c.rows else c.cols

/-- Columns of a source row that are read. -/
def Copy.readCols (c : Copy) : Nat := Nat.min c.cols c.vcols

/-- The source rows read: pointer and bytes (R235, R238). -/
def Copy.srcRows (c : Copy) : List (Word × Nat) :=
  if c.readCols = 0 then []
  else (List.range (Nat.min c.rows c.vrows)).map fun r => (ptrAdd c.src (r * c.sstr : Nat), c.readCols * c.se)

/-- Pointer of destination row dr: under conversion 8 the slice layout places it (R237). -/
def Copy.dstPtr (c : Copy) (dr : Nat) : Word :=
  ptrAdd c.dst (if c.cv = 8 then 0x20000 * dr else dr * c.dstr : Nat)

/-- Bytes of a destination row. -/
def Copy.rowBytes (c : Copy) : Nat := ceilDiv (c.dcols * c.deBits) 8

/-- Pointer of a row's 16 scale bytes under conversion 7 (R236). -/
def Copy.scalePtr (c : Copy) (dr : Nat) : Word := ptrAdd c.dst (c.drows * c.dstr + 16 * dr : Nat)

/-- The destination rows written: pointer and bytes. -/
def Copy.dstRows (c : Copy) : List (Word × Nat) :=
  if c.rows = 0 ∨ c.cols = 0 then []
  else (List.range c.drows).flatMap fun dr =>
    (c.dstPtr dr, c.rowBytes) :: (if c.cv = 7 then [(c.scalePtr dr, 16)] else [])

/-! ## What an engine takes (R231, R270, R273) -/

/-- The engine of a command (Table 25-2): 0 Ladle, 1 matrix array, 2 indirect stream, 3 text chain, 4 launch. -/
def engineOf : Instr → Nat
  | .mmaA .. | .mmasA .. => 1
  | .istream .. => 2
  | .txsub .. => 3
  | .launch .. => 4
  | _ => 0

/-- The device launch queue of function f (R273). -/
def deviceQueue (f : Nat) : Nat := 16383 + f

/-- Places that records take on a queue: those that wait on it, and forked LAUNCH commands whose record has not been read. -/
def queuedOn (s : State) (q : Nat) : Nat :=
  (s.candidates.filter fun c => c.queue == q).length +
  ((s.allCores.flatMap Core.cmds).filter fun d =>
    engineOf d.instr == 4 && d.forked && !d.begun && !d.done && deviceQueue d.fn == q).length

/-- Forked commands an engine takes on one core (R231). -/
def engineCap (i : Instr) : Option Nat :=
  match engineOf i with
  | 0 | 1 => some 16
  | 2 => some 4
  | _ => none

/-- A message of a chain of a die is forked and its descriptor not yet read: later messages of the chain come behind it
(R270). -/
def messageOpen (s : State) (die : Fin 8) (handle : Nat) : Bool :=
  s.allCores.any fun c => dieOf c.num == die && c.cmds.any fun d =>
    engineOf d.instr == 3 && d.forked && !d.begun && !d.done && (d.regs[0]?.getD 0).toNat % 16 == handle

/-- The engine does not accept the command yet: its cap is reached, an earlier command of it on the core has not been
forked, the device launch queue is full, or a message before it has still to join its chain. -/
def engineFull (s : State) (num : Nat) (d : Cmd) : Bool :=
  let same := (s.coreAt num).cmds.filter fun e => engineOf e.instr == engineOf d.instr && e.id != d.id && !e.done
  (match engineCap d.instr with
   | none => false
   | some k => k ≤ (same.filter Cmd.forked).length) ||
  (same.any fun e => e.released && !e.forked && e.id < d.id) ||
  (engineOf d.instr == 4 && 256 ≤ queuedOn s (deviceQueue d.fn)) ||
  (engineOf d.instr == 3 && messageOpen s (dieOf num) ((d.regs[0]?.getD 0).toNat % 16))

/-! ## The accesses that captured registers fix (R361, R363) -/

/-- The accesses that a command's captured registers fix: pointer, bytes, a write. -/
def Cmd.touches (d : Cmd) : List (Word × Nat × Bool) :=
  match d.instr with
  | .istream .. => [(d.regs[0]?.getD 0, 64, false)]
  | .txsub .. => [(d.regs[1]?.getD 0, 32, false)]
  | .launch .. => [(d.regs[0]?.getD 0, 1024, false)]
  | _ =>
    match d.copy with
    | some c => (c.srcRows.map fun r => (r.1, r.2, false)) ++ c.dstRows.map fun r => (r.1, r.2, true)
    | none => []

/-- The 64 KiB pages of device memory that n bytes at a pointer of the current task lie in; none where its segment does not
lead there. -/
def pagesOf (s : State) (p : Word) (n : Nat) : List Nat :=
  let g := s.t.segs[ptrSeg p.toNat]
  if n = 0 ∨ g.desc.onChip ∨ g.desc.disc = .unused ∨ g.desc.limit < ptrOff p.toNat + n then []
  else
    let x := formed s.actor g (ptrOff p.toNat)
    (List.range ((x + n - 1) / 2 ^ 16 - x / 2 ^ 16 + 1)).map fun k => (x / 2 ^ 16 + k) * 2 ^ 16

/-- The first page that a command of the current task touches and that was refused it (R363). -/
def Cmd.refusedPage (d : Cmd) (s : State) : Option (Nat × Bool) :=
  d.touches.findSome? fun x => ((pagesOf s x.1 x.2.1).find? fun p => s.t.refused.contains p).map fun p => (p, x.2.2)

end Sys2Proof.Machine
end

