-- ==== Sys2Proof/Machine/Convoy.lean ====
section
/-! DEFINITION. Convoys and strips as the vector columns run them, in program order: what a word reads and writes,
running one convoy as one unit (R40, R335), closing, committing, discarding and reissuing a strip (R45 to R48, R360). -/

namespace Sys2Proof.Machine

/-! ## What a word reads and writes among the lane registers -/

/-- The vector registers a word writes, by number, and how many elements it writes. -/
def vecWrites (i : Instr) (e : Entry) (s : State) : List Nat × Nat :=
  match i with
  | .vadd _ a _ _ | .vsub _ a _ _ | .vand _ a _ _ | .vor _ a _ _ | .vxor _ a _ _ | .vmin _ a _ _ | .vmax _ a _ _
  | .vmul _ a _ _ | .vsll _ a _ _ | .vsrl _ a _ _ | .vsra _ a _ _ | .vadds _ a _ _ | .vsubs _ a _ _
  | .vmulh _ a _ _ | .vfadd _ a _ _ | .vfsub _ a _ _ | .vfmul _ a _ _ | .vfmin _ a _ _ | .vfmax _ a _ _
  | .vfdiv _ a _ _ | .vgatheri _ a _ _ | .vfma _ a _ _ | .vfms _ a _ _ | .vfnma _ a _ _ | .vabs _ a _ | .vneg _ a _
  | .vfsqrt _ a _ | .vfneg _ a _ | .vfabs _ a _ | .vexp2 _ a _ | .vlog2 _ a _ | .vrcp _ a _ | .vrsqrt _ a _
  | .vtanh _ a _ | .vsigm _ a _ | .vmv _ a _ | .vbcast _ a _ | .viota _ a | .vslidedn _ a _ _ | .vscanAdd _ a _
  | .vscanMin _ a _ | .vscanMax _ a _ | .vfscanAdd _ a _ | .vfscanMax _ a _ | .vld _ a _ | .vlds _ a _ _
  | .vldx _ a _ _ | .vldt _ a _ _ | .rmul _ a _ _ | .rfma _ a _ _ | .rshr _ a _ _ | .rlrelu _ a _ _
  | .rscale _ a _ _ | .rcvt _ a _ _ _ | .umul _ a _ _ | .ufma _ a _ _ | .ushr _ a _ _ | .ulrelu _ a _ _
  | .uscale _ a _ _ | .ucvt _ a _ _ | .tmvc a _ _ _ => (if e.vl = 0 then [] else [a.val], e.vl)
  | .vins _ a _ _ => (if e.gc.toNat < e.vl then [a.val] else [], 1)
  | .vslideup _ a _ _ => (if e.gc.toNat < e.vl then [a.val] else [], e.vl - e.gc.toNat)
  | .vcompress m a _ c =>
    let n := ((e.actives s m).filter fun i => (s.c.lanes.getM c).getLsbD i).length
    (if n = 0 then [] else [a.val], n)
  | .vcvt _ a _ ty _ => ((List.range (groupRegs e.vl (typeBits ty.val))).map fun k => a.val + k, e.vl)
  | .vpack _ _ a _ => (if e.lanes = 0 then [] else [a.val], e.lanes)
  | .vpmul _ _ a _ _ | .vpmula _ _ a _ _ => (if e.lanes = 0 then [] else [a.val, a.val + 1], e.lanes)
  | .vpext _ _ a _ => (if e.lanes = 0 then [] else [a.val], e.lanes * planWcnt e.plan.toNat)
  | .vfill a _ => ([a.val], 4096)
  | .amv a _ _ _ => ([a.val], accCols e.modes.mtype.toNat)
  | _ => ([], 0)

/-- The M bit of a word. -/
def maskedWord (i : Instr) : Bool := (encode i).elim false fun w => (w / 2 ^ 31 % 2 == 1) &&
  (let o := w % 128; (0x30 ≤ o && o ≤ 0x42 && o != 0x3D && o != 0x3E) || (0x70 ≤ o && o ≤ 0x73))

/-- The mask registers a word reads. -/
def maskReads (i : Instr) (e : Entry) : List Nat :=
  (if maskedWord i then [e.modes.vmask.toNat] else []) ++
  match i with
  | .mand _ _ b c | .mor _ _ b c | .mxor _ _ b c | .mandn _ _ b c => [b.val, c.val]
  | .mnot _ _ b | .mpopc _ _ b | .mfirst _ _ b => [b.val]
  | .vcompress _ _ _ c => [c.val]
  | _ => []

/-- The mask register a word writes. -/
def maskWrites (i : Instr) (e : Entry) : List Nat :=
  if e.vl = 0 then []
  else
    match i with
    | .vcmp _ _ a _ _ | .vfcmp _ _ a _ _ | .mand _ a _ _ | .mor _ a _ _ | .mxor _ a _ _ | .mandn _ a _ _
    | .mnot _ a _ => [a.val]
    | _ => []

/-- SHAPE grants a product of some size. -/
def Entry.shaped (e : Entry) : Bool :=
  let x := e.modes.shape.toNat
  shM x != 0 && shN x != 0 && shK x != 0

/-- The tile registers a word reads. -/
def tileReads (i : Instr) (e : Entry) : List Nat :=
  let sp := mtSpn e.modes.mtype.toNat != 0
  match i with
  | .tmvc _ b _ _ => if e.vl = 0 then [] else [b.val]
  | .tmvrr _ b _ => [b.val]
  | .tst a _ => if e.shaped then (if sp then [a.val, a.val + 1] else [a.val]) else []
  | .mma _ b _ | .mmaA _ _ b _ => if e.shaped then [b.val] else []
  | .mmas _ b _ | .mmasA _ _ b _ => if e.shaped then [b.val, b.val + 1] else []
  | _ => []

/-- The tile registers a word writes. -/
def tileWrites (i : Instr) (e : Entry) : List Nat :=
  match i with
  | .tmvr a _ _ _ => if e.vl = 0 then [] else [a.val]
  | .vquant a _ _ => if e.vl = 0 ∨ !e.shaped then [] else [a.val]
  | .tmvrr a _ _ | .tzero a => [a.val]
  | .tld a _ _ => if e.shaped then (if mtSpn e.modes.mtype.toNat != 0 then [a.val, a.val + 1] else [a.val]) else []
  | _ => []

/-- The accumulators a word reads, and those it writes. -/
def accReads (i : Instr) (e : Entry) : List Nat :=
  match i with
  | .mma a _ _ | .mmaA a _ _ _ | .mmas a _ _ | .mmasA a _ _ _ | .ast a _ =>
    if e.shaped then (e.accGroup a).map Fin.val else []
  | .amv _ _ _ _ => [e.gb.toNat % 16]
  | _ => []
def accWrites (i : Instr) (e : Entry) : List Nat :=
  match i with
  | .mma a _ _ | .mmaA a _ _ _ | .mmas a _ _ | .mmasA a _ _ _ | .azero a | .ald a _ =>
    if e.shaped then (e.accGroup a).map Fin.val else []
  | _ => []

/-- Everything an entry reads and writes among the lane registers (R47). -/
def useOf (e : Entry) (s : State) : Use :=
  let i := e.instr
  let w := vecWrites i e s
  let partialV := maskedWord i || w.2 < e.vl
  { reads := ((vecReads i).map fun n => if e.vl = 0 ∧ !(i matches .vspill ..) then [] else [e.lv n]).flatten ++
      (maskReads i e).map LReg.m ++ (tileReads i e).map LReg.t ++ (accReads i e).map LReg.a,
    writes := w.1.map (fun n => (e.lv n, partialV)) ++ (maskWrites i e).map (fun k => (.m k, maskedWord i)) ++
      (tileWrites i e).map (fun t => (.t t, false)) ++ (accWrites i e).map fun a => (.a a, false) }

/-! ## Conflicts with the task's own engine commands (R130) -/

/-- The places of a lane register on core num: start and length. -/
def LReg.places (r : LReg) (num : Nat) : List (Nat × Nat) :=
  match r with
  | .v n => [(chipPlace num 1 (4096 * n), 4096)]
  | .m _ => []
  | .t n => [(chipPlace num 2 (0x4000 * n), 0x4000), (chipPlace num 2 (0x20000 + 0x400 * n), 0x400)]
  | .a n => [(chipPlace num 3 (0x2000 * n), 0x2000)]

/-- The B-store ranges of a product or BLD, in every column slice it uses (R119). -/
def bRanges (num o len slices : Nat) : List (Nat × Nat) :=
  if len = 0 then [] else (List.range slices).map fun j => (chipPlace num 4 (0x20000 * j + o), len)

/-- The B-store ranges an entry reads, and those it writes. -/
def bReads (e : Entry) (num : Nat) : List (Nat × Nat) :=
  let mt := e.modes.mtype.toNat
  let sh := e.modes.shape.toNat
  match e.instr with
  | .mma .. | .mmaA .. | .mmas .. | .mmasA .. =>
    if e.shaped then bRanges num e.offset (bUsed mt (shN sh) (shK sh)) (Nat.min (shN sh) 64) else []
  | _ => []
def bWrites (e : Entry) (num : Nat) : List (Nat × Nat) :=
  match e.instr with
  | .bld .. =>
    if e.shaped then bRanges num e.offset (bRegion e.modes.mtype.toNat (shK e.modes.shape.toNat)) 64 else []
  | _ => []

/-- The pointers and lengths of a memory word's accesses, from its captured operands, and whether it writes; of a word
indexed by a register, and of VAPPEND, those that stand now. -/
def Entry.touches (e : Entry) (s : State) : List (Word × Nat) × Bool :=
  let one (f : Nat → Word) : List (Word × Nat) := (List.range e.vl).map fun i => (f i, e.accBytes)
  let indexed (c : VReg) (i : Nat) : Word := ptrAdd e.gb ((e.u s c i * e.accBytes : Nat) : Int)
  match e.instr with
  | .vld .. | .vldt .. => ([(e.gb, e.bytes)], false)
  | .vst .. => ([(e.gb, e.bytes)], true)
  | .vlds .. => (one fun i => ptrAdd e.gb (i * e.gc.toInt), false)
  | .vsts .. => (one fun i => ptrAdd e.gb (i * e.gc.toInt), true)
  | .vldx _ _ _ c => (one (indexed c), false)
  | .vstx _ _ _ c => (one (indexed c), true)
  | .vspill .. => ([(e.gb, 4096)], true)
  | .vfill .. => ([(e.gb, 4096)], false)
  | .tld .. => ([(e.gb, e.tileLayout.2.2.2.2)], false)
  | .tst .. => ([(e.gb, e.tileLayout.2.2.2.2)], true)
  | .ald a _ => (if e.shaped then [(e.gb, 8192 * (e.accGroup a).length)] else [], false)
  | .ast a _ => (if e.shaped then [(e.gb, 8192 * (e.accGroup a).length)] else [], true)
  | .bld .. => (if e.shaped then [(e.gb, 64 * bRegion e.modes.mtype.toNat (shK e.modes.shape.toNat))] else [], false)
  | .vappend _ b _ =>
    if e.vl = 0 ∨ s.t.segs[b].desc.disc ≠ .atomic then ([], true)
    else ([(BitVec.ofNat 64 (mkPtr b.val 0), 8), (BitVec.ofNat 64 (mkPtr b.val 8), 4 * e.vl)], true)
  | _ => ([], false)

/-- The accesses of a memory word in the order of its elements, rows or 64-byte pieces, each with its number: pointer, bytes,
alignment. -/
def Entry.ordered (e : Entry) (s : State) : List (Nat × Nat × Nat × Nat) × Access :=
  let els (m : Bool) (f : Nat → Word) : List (Nat × Nat × Nat × Nat) :=
    (e.actives s m).map fun i => (i, (f i).toNat, e.accBytes, e.accBytes)
  let block (n per : Nat) : List (Nat × Nat × Nat × Nat) := (pieces e.gb n).zipIdx.map fun x => (64 * x.2 / per, x.1)
  let indexed (c : VReg) (i : Nat) : Word := ptrAdd e.gb ((e.u s c i * e.accBytes : Nat) : Int)
  match e.instr with
  | .vld m .. | .vldt m .. => (els m e.contig, .rd)
  | .vst m .. => (els m e.contig, .wr)
  | .vlds m .. => (els m fun i => ptrAdd e.gb (i * e.gc.toInt), .rd)
  | .vsts m .. => (els m fun i => ptrAdd e.gb (i * e.gc.toInt), .wr)
  | .vldx m _ _ c => (els m (indexed c), .rd)
  | .vstx m _ _ c => (els m (indexed c), .wr)
  | .vspill .. => (block 4096 64, .wr)
  | .vfill .. => (block 4096 64, .rd)
  | .tld .. => (block e.tileLayout.2.2.2.2 (Nat.max 1 e.tileLayout.1), .rd)
  | .tst .. => (block e.tileLayout.2.2.2.2 (Nat.max 1 e.tileLayout.1), .wr)
  | .ald a _ => (if e.shaped then block (8192 * (e.accGroup a).length) 256 else [], .rd)
  | .ast a _ => (if e.shaped then block (8192 * (e.accGroup a).length) 256 else [], .wr)
  | .bld .. =>
    let r := bRegion e.modes.mtype.toNat (shK e.modes.shape.toNat)
    (if e.shaped then block (64 * r) (Nat.max 1 r) else [], .rd)
  | _ => ([], .rd)

/-- The number, among a word's elements, rows or pieces, of the one that a place of a lane register belongs to. -/
def Entry.numberOf (e : Entry) (p : Nat) : Nat :=
  let o := mapOff (p - chip)
  match mapSpace (p - chip) with
  | 1 => (match e.instr with | .vspill .. | .vfill .. => o % 4096 / 64 | _ => o % 4096 * 8 / e.bits)
  | 2 => if o < 0x20000 then o % 0x4000 / 256 else (o - 0x20000) % 0x400 / 16
  | 3 => (match e.instr with | .ald a _ | .ast a _ => o / 256 - 32 * a.val | _ => o / 256)
  | _ => o / 0x20000

/-- The conflicts of a word's lane registers and B-store ranges, each with the number of its element: cause 0x07, register
form, or timing reason 5 in a timed domain (R130, R197, R375). -/
def registerConflicts (s : State) (e : Entry) (u : Use) : List (Nat × Trap) :=
  let num := s.c.num
  let hit (wr : Bool) (r : Nat × Nat) : Option (Nat × Trap) :=
    (conflict s s.actor r.1 r.2 wr).map fun c =>
      let p := lowestIn r.1 r.2 c.2
      (e.numberOf p, if s.t.timed && !c.1 then timingTrap s.t.cycle s.t.origin 5 else { cause := 0x07, info := regForm (p - chip) })
  (u.reads.flatMap (LReg.places · num) ++ bReads e num).filterMap (hit false) ++
  ((u.writes.map (·.1)).flatMap (LReg.places · num) ++ bWrites e num).filterMap (hit true)

/-- The one of the lowest number. -/
def lowestFault : List (Nat × Trap) → Option (Nat × Trap)
  | [] => none
  | x :: r =>
    match lowestFault r with
    | some y => if y.1 < x.1 then some y else some x
    | none => some x

/-- The issue checks of some of a word's accesses, its tag among them: the fault of the lowest that fails. -/
def Entry.issueFault (e : Entry) (s : State) (k : Access) (l : List (Nat × Nat × Nat)) : Option Trap :=
  let tagged (g : GReg) : Option Trap :=
    match checkTagged e.instr g.val (e.gc.toNat % 65536) s l with
    | .error t => some t
    | .ok x => if e.gc.toNat % 65536 = 0 then none else tagCheck e.instr g.val (e.gc.toNat % 65536) x.1 x.2
  match e.instr with
  | .vldt _ _ b _ | .tld _ b _ => tagged b
  | _ =>
    match checkAll s.actor k s l with
    | .error t => some t
    | .ok _ => none

/-- The conflict of a word's registers that is reported, or the fault of an access that stands before it (R337): of a lower
element, or the alignment or bound of the same one. -/
def registerConflict (s : State) (e : Entry) (u : Use) : Option Trap :=
  match lowestFault (registerConflicts s e u) with
  | none => none
  | some (n, t) =>
    let l := e.ordered s
    match e.issueFault s l.2 ((l.1.filter fun x => decide (x.1 < n)).map Prod.snd) with
    | some t' => some t'
    | none =>
      some (((l.1.filter fun x => x.1 == n).findSome? fun x =>
        match checkRights s s.actor x.2.1 x.2.2.1 x.2.2.2 l.2 with
        | .error t' => if t'.cause = 0x11 ∨ t'.cause = 0x06 then some t' else none
        | .ok _ => none).getD t)

/-! ## Effects -/

/-- A word that uses SHAPE writes nothing and reads nothing where a granted size is 0 (R200). -/
def whenShaped (f : Entry → State → R State) (e : Entry) (s : State) : R State := if e.shaped then f e s else .ok s

/-- The effect of a vector-class word when it executes. SETVL, VMSEL and MSHAPE act at decode; VRELEASE, MMA.A and
MMAS.A act when their convoy's turn comes. -/
def effectOf (i : Instr) : Entry → State → R State :=
  match i with
  | .vadd m a b c => effVadd m a b c
  | .vsub m a b c => effVsub m a b c
  | .vand m a b c => effVand m a b c
  | .vor m a b c => effVor m a b c
  | .vxor m a b c => effVxor m a b c
  | .vmin m a b c => effVmin m a b c
  | .vmax m a b c => effVmax m a b c
  | .vmul m a b c => effVmul m a b c
  | .vsll m a b c => effVsll m a b c
  | .vsrl m a b c => effVsrl m a b c
  | .vsra m a b c => effVsra m a b c
  | .vadds m a b c => effVadds m a b c
  | .vsubs m a b c => effVsubs m a b c
  | .vmulh m a b c => effVmulh m a b c
  | .vabs m a b => effVabs m a b
  | .vneg m a b => effVneg m a b
  | .vcmp m cc a b c => effVcmp m cc a b c
  | .vfadd m a b c => effVfadd m a b c
  | .vfsub m a b c => effVfsub m a b c
  | .vfmul m a b c => effVfmul m a b c
  | .vfmin m a b c => effVfmin m a b c
  | .vfmax m a b c => effVfmax m a b c
  | .vfdiv m a b c => effVfdiv m a b c
  | .vfsqrt m a b => effVfsqrt m a b
  | .vfma m a b c => effVfma m a b c
  | .vfms m a b c => effVfms m a b c
  | .vfnma m a b c => effVfnma m a b c
  | .vfneg m a b => effVfneg m a b
  | .vfabs m a b => effVfabs m a b
  | .vfcmp m cc a b c => effVfcmp m cc a b c
  | .vexp2 m a b => effVexp2 m a b
  | .vlog2 m a b => effVlog2 m a b
  | .vrcp m a b => effVrcp m a b
  | .vrsqrt m a b => effVrsqrt m a b
  | .vtanh m a b => effVtanh m a b
  | .vsigm m a b => effVsigm m a b
  | .vcvt m a b ty rc => effVcvt m a b ty rc
  | .vmv m a b => effVmv m a b
  | .vbcast m a b => effVbcast m a b
  | .vext m a b c => effVext m a b c
  | .vins m a b c => effVins m a b c
  | .viota m a => effViota m a
  | .vslideup m a b c => effVslideup m a b c
  | .vslidedn m a b c => effVslidedn m a b c
  | .vgatheri m a b c => effVgatheri m a b c
  | .vredsum m a b => effVredsum m a b
  | .vredmin m a b => effVredmin m a b
  | .vredmax m a b => effVredmax m a b
  | .vredmins m a b => effVredmins m a b
  | .vredmaxs m a b => effVredmaxs m a b
  | .vfredsum m a b => effVfredsum m a b
  | .vfredmin m a b => effVfredmin m a b
  | .vfredmax m a b => effVfredmax m a b
  | .vscanAdd m a b => effVscanAdd m a b
  | .vscanMin m a b => effVscanMin m a b
  | .vscanMax m a b => effVscanMax m a b
  | .vfscanAdd m a b => effVfscanAdd m a b
  | .vfscanMax m a b => effVfscanMax m a b
  | .mand m a b c => effMand m a b c
  | .mor m a b c => effMor m a b c
  | .mxor m a b c => effMxor m a b c
  | .mandn m a b c => effMandn m a b c
  | .mnot m a b => effMnot m a b
  | .mpopc m a b => effMpopc m a b
  | .mfirst m a b => effMfirst m a b
  | .vcompress m a b c => effVcompress m a b c
  | .vpack m f a b => effVpack m f a b
  | .vmsel a => effVmsel a
  | .vbind a b => effVbind a b
  | .vunbind a => effVunbind a
  | .vappend a b _ => effVappend false a b
  | .vspill a b => effVspill a b
  | .vfill a b => effVfill a b
  | .vmbox b c => effVmbox b c
  | .vld m a b => effVld m a b
  | .vst m a b => effVst m a b
  | .vlds m a b c => effVlds m a b c
  | .vsts m a b c => effVsts m a b c
  | .vldx m a b c => effVldx m a b c
  | .vstx m a b c => effVstx m a b c
  | .vldt m a b c => effVldt m a b c
  | .vpmul m f a b c => effVpmul m f a b c
  | .vpmula m f a b c => effVpmula m f a b c
  | .vpext m f a b => effVpext m f a b
  | .tmvr a rc b c => effTmvr a rc b c
  | .tmvc a b rc c => effTmvc a b rc c
  | .tmvrr a b c => effTmvrr a b c
  | .tzero a => effTzero a
  | .tld a b c => whenShaped (effTld a b c)
  | .tst a b => whenShaped (effTst a b)
  | .mma a b c => whenShaped (effMma a b c)
  | .mmas a b c => whenShaped (effMmas a b c)
  | .azero a => whenShaped (effAzero a)
  | .amv a b ty rc => effAmv a b ty rc
  | .ald a b => whenShaped (effAld a b)
  | .ast a b => whenShaped (effAst a b)
  | .bld b c => whenShaped (effBld b c)
  | .vquant a b c => whenShaped (effVquant a b c)
  | .mperm b => effMperm b
  | .mcode b => effMcode b
  | .rmul m a b c => effRmul m a b c
  | .rfma m a b c => effRfma m a b c
  | .rshr m a b c => effRshr m a b c
  | .rlrelu m a b c => effRlrelu m a b c
  | .rscale m a b c => effRscale m a b c
  | .rcvt m a b ty rc => effRcvt m a b ty rc
  | .umul m a b c => effUmul m a b c
  | .ufma m a b c => effUfma m a b c
  | .ushr m a b c => effUshr m a b c
  | .ulrelu m a b c => effUlrelu m a b c
  | .uscale m a b c => effUscale m a b c
  | .ucvt m a b ty => effUcvt m a b ty
  | .rsmark => effRsmark
  | .rsdrop => effRsdrop
  | .rsdepth a => fun _ s => .ok (s.setG a (riserDepth s))
  | .rssync => effRssync
  | _ => fun _ s => .ok s

/-- A register or B-store range that a word reads holds an uncorrectable unit (R388). -/
def badRegister (s : State) (u : Use) (br : List (Nat × Nat)) : Option Trap :=
  if s.bad = [] then none
  else
    ((u.reads.flatMap (LReg.places · s.c.num) ++ br).findSome? fun r => firstBad s r.1 r.2).map fun b =>
      { cause := 0x15, info := errorInfo b }

/-- The bytes of the lane registers and of the B-store that a word writes: start and length. -/
def wroteBytes (i : Instr) (e : Entry) (s : State) : List (Nat × Nat) :=
  let num := s.c.num
  let w := vecWrites i e s
  let per (bytes : Nat) : List (Nat × Nat) := w.1.zipIdx.map fun x =>
    (chipPlace num 1 (4096 * (phys e.modes x.1).val), Nat.min 4096 (bytes - 4096 * x.2))
  let each (bytes : Nat) : List (Nat × Nat) := w.1.map fun n => (chipPlace num 1 (4096 * (phys e.modes n).val), bytes)
  let els (is : List Nat) (bits : Nat) : List (Nat × Nat) := (each 0).flatMap fun r => is.map fun k => (r.1 + k * bits / 8, ceilDiv bits 8)
  let rows (t : TReg) (size first n : Nat) : List (Nat × Nat) := (List.range n).map fun r =>
    (chipPlace num 2 (0x4000 * t.val + 256 * ((first + r) % 64)), Nat.min 256 (size - 256 * r))
  let sides (t : TReg) (first n : Nat) : List (Nat × Nat) := (List.range n).map fun r =>
    (chipPlace num 2 (0x20000 + 0x400 * t.val + 16 * ((first + r) % 64)), 16)
  let at_ := e.tileRows.1
  let n := e.tileRows.2
  match i with
  | .vins .. => els [e.gc.toNat] e.bits
  | .vslideup m _ _ _ => els ((e.actives s m).filter fun k => decide (e.gc.toNat ≤ k)) e.bits
  | .vcvt m _ _ ty _ => if m then [] else per (e.vl * typeBits ty.val / 8)
  | .vcompress .. => els (List.range w.2) e.bits
  | .vpack m _ _ _ | .vpmul m _ _ _ _ | .vpmula m _ _ _ _ => els (e.activeLanes s m) 64
  | .vpext m _ _ _ => els ((e.activeLanes s m).flatMap fun j => (List.range (planWcnt e.plan.toNat)).map fun k => j * planWcnt e.plan.toNat + k) 64
  | .vfill .. => each 4096
  | .amv _ _ ty _ => each (w.2 * typeBits ty.val / 8)
  | .tzero a | .tmvrr a _ _ => rows a 0x4000 at_ n ++ sides a at_ n
  | .tld a _ _ =>
    let l := e.tileLayout
    rows a 0x4000 0 l.2.2.2.1 ++ (if l.2.1 = 0 then [] else rows (Fin.ofNat 8 (a.val + 1)) 0x4000 0 l.2.2.2.1) ++
      (if l.2.2.1 = 0 then [] else sides a 0 l.2.2.2.1)
  | .vquant a _ _ => if e.vl = 0 then [] else rows a 0x4000 at_ n
  | .tmvr a _ _ _ => rows a (e.vl * typeBits e.modes.ttype.toNat / 8) at_ n
  | .bld .. => bWrites e num
  | _ => els ((List.range w.2).filter fun k => !maskedWord i || (s.activeMask e.modes true).testBit k) e.bits ++
      (accWrites i e).map fun a => (chipPlace num 3 (0x2000 * a), 0x2000)

/-- Byte ranges touch unit b; they cover it whole. -/
def touchUnit (rs : List (Nat × Nat)) (b : Nat) : Bool := rs.any fun r => overlaps b (unitSize b) r.1 r.2
def coverUnit (rs : List (Nat × Nat)) (b : Nat) : Bool :=
  (List.range (unitSize b)).all fun k => rs.any fun r => r.1 ≤ b + k && b + k < r.1 + r.2

/-- A word writes part of an uncorrectable unit of a register: it would have to merge with it (R388). -/
def mergedUnit (i : Instr) (e : Entry) (s : State) : Option Trap :=
  if s.bad = [] then none
  else
    let rs := wroteBytes i e s
    (lowestUnit (s.bad.filter fun b => touchUnit rs b && !coverUnit rs b)).map fun b => { cause := 0x15, info := errorInfo b }

/-- Units of registers that a word has written whole are no longer bad (R388). -/
def wholeWrites (y : State) (i : Instr) (e : Entry) (s : State) : State :=
  if y.bad = [] then y
  else
    let rs := wroteBytes i e s
    { y with bad := y.bad.filter fun b => !coverUnit rs b }

/-- The cycle on which a member of a timed task issued. -/
def State.issuedOn (s : State) (e : Entry) : Nat :=
  if s.t.timed then ((s.c.pipe.find? fun x => x.entry.count == e.count).map Flight.issue).getD s.t.cycle else 0

/-- Where a member stands in the columns, and the cycles for which it was held (R332): in a timed domain where it was placed at
decode; of a free task, when it issues. -/
def placed (p : Strip) (s : State) (e : Entry) (u : Use) : Option (Flight × List (Nat × Nat)) :=
  if s.t.timed then (s.c.pipe.find? fun x => x.entry.count == e.count).map fun x => (x, [])
  else
    let first := if e.lead then Nat.max s.t.cycle (e.decoded + e.delay)
      else (p.flights.getLast?.map Flight.issue).getD s.t.cycle + e.delay
    some (placeFree s p.flights first (flightOf s e u.reads (u.writes.map (·.1))))

/-- Cycles held by a reason of Table 19-3 join a strip's. -/
def Strip.held (p : Strip) (h : Nat × Nat) : Strip := { p with stalls := p.stalls.set! h.1 (p.stalls[h.1]?.getD 0 + h.2) }

/-- A member takes its place in the columns, for the timing that the strip's record counts (R332). -/
def Strip.join (p : Strip) (x : Flight × List (Nat × Nat)) : Strip :=
  x.2.foldl Strip.held { p with flights := p.flights ++ [x.1], arith := p.arith + x.1.work.arith + x.1.work.wide,
                                memBusy := p.memBusy + x.1.work.mem }

/-- The wait of the current task's columns has ended: its open strip counts the cycles (R332). -/
def State.unstall (s : State) : State :=
  match s.t.stall with
  | none => s
  | some (reason, since) =>
    let s := { s with t := { s.t with stall := none } }
    s.setStrip (s.stripNow.held (reason, s.t.cycle - since))

/-- What the strip notes of a member before it acts; its core has its work to do in the cycles of its place (R282). -/
def State.noted (s : State) (e : Entry) (u : Use) : State :=
  let s := s.unstall.noteUse u
  let x : Option (Flight × List (Nat × Nat)) := placed s.stripNow s e u
  let p : Strip := x.elim s.stripNow s.stripNow.join
  let ls : List Load := x.toList.map fun y => y.1.load
  let s : State := { s with c := { s.c with loads := s.c.loads ++ ls } }
  s.setStrip { p with now := s.issuedOn e, bread := ((bReads e s.c.num).take 1).map (fun r => (e.offset, r.2)) ++ p.bread }

/-- The elements or rows that a word leaves written in each register it writes (R43, R195). -/
def progressOf (e : Entry) (s : State) : List (LReg × Nat) :=
  let w := vecWrites e.instr e s
  let per (n : Nat) : List (LReg × Nat) := w.1.zipIdx.map fun x => (e.lv x.1, Nat.min n (w.2 - n * x.2))
  let vs :=
    match e.instr with
    | .vcvt _ _ _ ty _ => per (32768 / typeBits ty.val)
    | .vfill .. => w.1.map fun n => (e.lv n, 32768 / e.bits)
    | _ => w.1.map fun n => (e.lv n, w.2)
  vs ++ (maskWrites e.instr e).map (fun k => (.m k, e.vl)) ++
    (tileWrites e.instr e).map (fun t => (.t t, e.tileRows.1 + e.tileRows.2)) ++ (accWrites e.instr e).map fun a => (.a a, 32)

/-- The lane registers that a word has written stand written: their progress, and in a timed domain the interval's notes. -/
def State.written (s : State) (u : Use) (ps : List (LReg × Nat)) : State :=
  { s with c := { s.c with lanes := ps.foldl (fun l x => l.advance x.1 x.2) s.c.lanes },
           t := if s.t.timed then s.t.noteInterval u else s.t }

/-- What a member's effect leads to: a bad unit that its registers hold ranks with the execution checks, behind every check at
issue (R337, R388). -/
def ended (bad : Option Trap) (x : R State) : R State :=
  match x, bad with
  | .error t, some b => .error (if t.cause = 0x15 then b else t)
  | .error t, none => .error t
  | .ok _, some b => .error b
  | .ok s, none => .ok s

/-- One member executes: conflicts, bound reads, the notes of the strip, the effect. -/
def runEntry (e : Entry) (s : State) : R State :=
  let u := useOf e s
  match registerConflict s e u with
  | some t => .error t
  | none => do
    let ns := if e.vl = 0 ∧ !(e.instr matches .vspill ..) then [] else (vecReads e.instr).eraseDups
    let s' ← ns.foldlM (fun s n => readBound e n s) s
    let y ← ended ((badRegister s u (bReads e s.c.num)).or (mergedUnit e.instr e s)) (effectOf e.instr e (s'.noted e u))
    .ok ((wholeWrites y e.instr e s).written u (progressOf e s))

/-- A convoy has retired into the current strip. -/
def State.retired (s : State) (cv : Convoy) : State :=
  s.setStrip { s.stripNow with
    convoys := s.stripNow.convoys ++ [{ cv with again := true, issued := cv.entries.length }] }

/-- A convoy's members, as one unit; its scalar results are written once (R360). -/
def runMembers (s : State) (cv : Convoy) : R State := do
  let s' ← cv.entries.foldlM (fun s e => runEntry e s) s
  .ok ((if cv.again then { s' with t := { s'.t with g := s.t.g } } else s').retired cv)

/-! ## Requests for pages (R361, R395) -/

/-- The context id of a task (R278). -/
def Task.ctx (t : Task) : Nat := t.frame * 2 ^ 48 + t.launch

/-- One request joins those to be sent: context, page address, function, flags. -/
def State.askPage (s : State) (ctx va fn : Nat) (wr fetch : Bool) : State :=
  { s with requests := s.requests ++ [(ctx, va / 2 ^ 16 * 2 ^ 16, fn, wr.toNat + 2 * fetch.toNat)] }

/-- Requests go to the ring while it has room (R362, Table 21-3). -/
def sendRequests : Nat → State → State
  | 0, s => s
  | fuel + 1, s =>
    match s.requests with
    | [] => s
    | (ctx, page, fn, flags) :: r =>
      let size := 2 ^ (s.mgmt.freqBase % 16)
      if size ≤ (s.mgmt.freqTail + 2 ^ 32 - s.mgmt.freqHead % 2 ^ 32) % 2 ^ 32 then s
      else
        let at_ := s.mgmt.freqBase / 64 * 64 % 2 ^ 55 + 32 * (s.mgmt.freqTail % size)
        match devWrite s 0 at_ 32 (ctx + page * 2 ^ 64 + fn * 2 ^ 128 + flags * 2 ^ 144) with
        | .error _ => s
        | .ok s' => sendRequests fuel { s' with mgmt := { s'.mgmt with freqTail := (s'.mgmt.freqTail + 1) % 2 ^ 32 }, requests := r }

/-- Every request that the ring has room for is sent. -/
def State.send (s : State) : State := sendRequests s.requests.length s

/-! ## Committing a strip (R45, R381, R83) -/

/-- A store finds its mailbox: a task that holds the lanes covers its register, the one it was issued to where that is
noted (R115). -/
def Store.finds (w : Store) (s : State) : Bool :=
  match mailAt s w.place with
  | none => false
  | some o => w.target.all fun t => t == o

/-- One write into the mailbox of core num's lane holder has landed (R115). -/
def State.countMailbox (s : State) (num : Nat) : State :=
  match (s.coreAt num).holder.bind (s.taskAt num) with
  | none => s
  | some t => s.setTask { t with mbcnt := t.mbcnt + 1 }

/-- Stores of one instruction into another core's space 1: they land in its mailbox, counted once, or wait (R115). In a timed
domain what they replace is kept for the reads that may not see them (R60). -/
def mailTo (s : State) (num : Nat) (ws : List Store) : State :=
  if ws.all fun w => w.finds s then
    let s := if s.t.timed then s.notePasts s.t.launch ws else s
    ((ws.foldl landOne s).fillMail num (ws.map fun w => mapOff (w.place - chip) / 4096).eraseDups).countMailbox num
  else
    let c := s.coreAt num
    let s := if c.mailbox = [] then { s with agenda := s.agenda ++ [(.mailboxWriteLand, { n := [num] })] } else s
    s.setCore { c with mailbox := c.mailbox ++ [ws] }

/-- One instruction's stores land together (R381); in a timed domain those to device memory wait for the restart
point (R57). -/
def landGroup (s : State) (ws : List Store) : R State := do
  let mail := ws.filter (remoteMail s.c.num)
  let rest := ws.filter fun w => !remoteMail s.c.num w
  let late := if s.t.timed then rest.filter fun w => decide (w.place < chip) else []
  let now := if s.t.timed then rest.filter fun w => decide (chip ≤ w.place) else rest
  let s ← landStores (if s.t.timed then s.notePasts s.t.launch now else s) s.holdFor now
  let s := { s with t := { s.t with deferred := s.t.deferred ++ late } }
  match mail.findSome? fun w => w.mergesBad s with
  | some b => .error { cause := 0x15, info := errorInfo b }
  | none =>
  .ok ((mail.map fun w => mapNum (w.place - chip)).eraseDups.foldl (fun s num =>
    mailTo s num (mail.filter fun w => mapNum (w.place - chip) == num)) s)

/-- Words written as AMO.SWAP writes them, one after another (R194). -/
def putWords (s : State) : List (Nat × Nat × Nat) → R State
  | [] => .ok s
  | (place, n, v) :: r => do
    let s ← putWord s place n v
    putWords (noteReleaser s place) r

/-- One VAPPEND takes effect (R194, R397). -/
def landApp (s : State) (a : App) : R State :=
  let g := s.t.segs[Fin.ofNat 16 a.seg]
  let full (n : Nat) : Word := if a.vl ≤ n then 1 else 0
  let dest : GReg := Fin.ofNat 128 a.dest
  if g.desc.disc = .stream then
    let dq := queueOf s.actor g
    if (s.queue dq.1 dq.2).isOut then .error (queueFault dq.1 dq.2 4)
    else if s.queueRoom dq.1 dq.2 < a.vals.length then .error waits
    else
      match queueMerge s dq.1 dq.2 a.vals.length with
      | some t => .error t
      | none =>
      let s := s.pushQueue dq.1 dq.2 a.vals
      .ok (s.setG dest (full (s.queue dq.1 dq.2).entries.length))
  else if a.vl = 0 then .ok (s.setG dest 1)
  else do
    let c ← checkAccess s s.actor (mkPtr a.seg 0) 8 8 .atomicWr
    let m ← readPlace c.2 c.1 8
    let n := c.2.sight s.t.cycle c.1 8 m
    let w ← checkAll s.actor .atomicWr c.2 ((List.range a.vals.length).map fun k => (mkPtr a.seg (8 + 4 * (n + k)), 4, 4))
    let s ← putWords w.1 ((c.1, 8, n + a.vals.length) :: (w.2.zip a.vals).map fun x => (x.1.1, 4, x.2))
    .ok (s.setG dest (full (n + a.vals.length)))

/-- The stores and appends of the instructions numbered n, n + 1, …; the number of the one that fails. -/
def landFrom (p : Strip) : Nat → Nat → State → Except (Nat × Trap) State
  | 0, _, s => .ok s
  | fuel + 1, n, s =>
    match (do let s ← landGroup s (p.stores.filter fun w => w.seq == n)
              (p.apps.filter fun (a : App) => a.seq == n).foldlM landApp s) with
    | .error t => .error (n, t)
    | .ok s => landFrom p fuel (n + 1) s

/-- A bin of a reduction engine with one record added (R333). -/
def Bin.add (b : Bin) (cycles arith mem sat dross throttled reason : Nat) : Bin :=
  { b with count := b.count + 1, cycles := b.cycles + cycles, arith := b.arith + arith, memory := b.memory + mem,
           sat := b.sat + sat, dross := b.dross + dross, throttled := b.throttled + throttled,
           byReason := b.byReason.set! reason (b.byReason[reason]?.getD 0 + cycles) }

/-- The stall reason that held the most cycles, the lower code on a tie (Table 19-3). -/
def dominant (stalls : Vector Nat 8) : Nat :=
  (List.range 7).foldl (fun k n => if stalls[k]?.getD 0 < stalls[n]?.getD 0 then n else k) 0

/-- The cycle on which the last member of a strip that closes now has retired. -/
def Strip.retires (p : Strip) (now : Nat) : Nat := (p.flights.map Flight.retire).foldl Nat.max now

/-- The record of a strip that closes goes to its die's reduction engine (R332, R333): its cycles run to the retirement of
its last member, and a field of 4 bytes holds a count modulo 2^32. Its throttled cycles join its core's
counts (R289). -/
def sendRecord (s : State) (p : Strip) (discarded : Bool) : State :=
  let s := { s with c := { s.c with counters := { s.c.counters with thrcyc := s.c.counters.thrcyc + p.stalls[6] } } }
  if !s.t.srec then s
  else
    let d := s.dies[dieOf s.c.num]
    let n := if d.redBase ≤ p.hdr ∧ p.hdr < d.redBase + 4095 * 2 ^ d.redShift then (p.hdr - d.redBase) / 2 ^ d.redShift
      else 4095
    let b := (d.bins.find? fun b => b.n == n).getD { n := n }
    let b := b.add (p.retires s.t.cycle - p.opened) (p.arith % 2 ^ 32) (p.memBusy % 2 ^ 32) (p.sat % 2 ^ 32) (p.dross % 2 ^ 32)
      (p.stalls[6] % 2 ^ 32) (if discarded then 7 else dominant p.stalls)
    s.setDie (dieOf s.c.num) { d with bins := b :: d.bins.filter fun x => x.n != n }

/-- Members of a strip that have not retired, which the columns hold beside those of the next (R44). -/
def Strip.flying (p : Strip) (now : Nat) : List Flight := p.flights.filter fun x => now < x.retire

/-- The strip that follows, with the same request and type (R48). -/
def reopened (s : State) (p : Strip) : State :=
  { s with t := { s.t with strip := some { hdr := p.hdr, req := p.req, ty := p.ty, depth := s.t.depth,
                                           opened := s.t.cycle, rest := s.restNow, flights := p.flying s.t.cycle } } }

/-- Where a convoy of the strip stands to which its n-th instruction belongs. -/
def convoyOf : List Convoy → Nat → Nat
  | [], _ => 0
  | cv :: r, n => if n ≤ cv.entries.length then 0 else convoyOf r (n - cv.entries.length) + 1

/-- A strip discarded (R360): the groups it consumed are owed to its reissue (R193). DEDUCED: S stays where spills and fills
have put it, but for what the strip's RSDROP words lowered it (notes/assumptions/36.md). -/
def discardStrip (s : State) (p : Strip) : State :=
  let l := p.shadow.foldl Lanes.restore s.c.lanes
  let r := p.rest
  let s := sendRecord s p true
  let spill := Nat.max s.t.spill p.dropped
  let s := { s with
    c := { s.c with lanes := { l with bind := r.bind }, perm := r.perm },
    t := { s.t with owed := p.taken ++ s.t.owed, depth := p.depth, spill := spill,
                    riser := s.t.riser.filter fun c => spill ≤ c.1 && c.1 < p.depth, pushes := r.pushes, codebk := r.codebk,
                    kpermLen := r.kpermLen, mbFirst := r.mbFirst, mbCount := r.mbCount, vbcnt := r.vbcnt,
                    vbmark := r.vbmark } }
  reopened s p

/-- The open strip of a free task has stalled n cycles for a reason of Table 19-3. -/
def State.stalled (s : State) (reason n : Nat) : State :=
  match s.t.strip with
  | none => s
  | some p => if s.t.timed then s else s.setStrip (p.held (reason, n))

/-- The columns of a free task wait from this cycle on for a reason of Table 19-3, where they do not wait already. -/
def State.stalls (s : State) (reason : Nat) : State :=
  if s.t.timed ∨ s.t.stall ≠ none then s else { s with t := { s.t with stall := some (reason, s.t.cycle) } }

/-- The current strip's stores, appends and flags take effect; the strip is gone and another stands open. -/
def landStrip (s : State) : Except (Nat × Trap) State :=
  match s.t.strip with
  | none => .ok s
  | some p0 =>
    let p := (s.setStrip p0).unstall.stripNow
    match landFrom p (p.nins + 1) 0 { s with t := { s.t with stall := none } } with
    | .error e => .error e
    | .ok s =>
      let s := sendRecord { s with t := s.t.takeFlags p.flags p.fexc } p false
      let s := reopened s p
      if !s.t.timed && 196608 < s.t.depth - s.t.spill then
        .ok { s with agenda := s.agenda ++ [(.riserSpill, { n := [s.t.core, s.t.front] })] }
      else .ok s

/-- How the columns stop: a trap (or a wait) and the convoys that have not retired, oldest first. -/
abbrev Run := State × Option (Trap × List Convoy)

/-- Convoys reissue one after another; the first that faults. -/
def runPrefix : Nat → State → List Convoy → Except (Nat × Trap) State
  | _, s, [] => .ok s
  | k, s, cv :: r =>
    match runMembers s cv with
    | .error t => .error (k, t)
    | .ok s => runPrefix (k + 1) s r

/-- A strip whose convoy number k faults with t: it is discarded, the convoys before k reissue and commit, the rest
stand frozen; a fault of the reissue is taken instead (R354). -/
def redo : Nat → State → Strip → Nat → Trap → Run
  | fuel, s, p, k, t =>
    let s0 := discardStrip s p
    let frozen (s : State) (j : Nat) (t : Trap) : Run := (s, some (t, p.convoys.drop j))
    match fuel with
    | 0 => frozen s0 0 t
    | fuel + 1 =>
      match runPrefix 0 s0 (p.convoys.take k) with
      | .error (j, t') => if j < k then redo fuel s0 { s0.stripNow with convoys := p.convoys } j t' else frozen s0 k t
      | .ok s1 =>
        match landStrip s1 with
        | .ok s2 => frozen s2 k t
        | .error (n, t') =>
          let j := convoyOf p.convoys n
          if j < k then redo fuel s1 { s1.stripNow with convoys := p.convoys } j t' else frozen s0 0 t'

/-- A page fault that is handled by the scheduler (R361): not of a timed task, not of a refused page. -/
def Trap.pages (t : Trap) (u : Task) : Bool :=
  t.cause == 0x09 && !u.timed && !u.inHandler && !(u.refused.contains (t.info % 2 ^ 55))

/-- The current strip, if one is open, closes and commits (R45, R48). A commit that must wait leaves the state as it was; a
fault of a store or append is taken at its convoy (R381); cause 0x19 is due at a strip close (R358). -/
def closeStrip (s : State) : Run :=
  if s.t.strip.isNone then (s, none)
  else match landStrip s with
  | .error (n, t) =>
    if t.cause = 0 then (s.stalls 3, some (t, []))
    else
      let p := s.stripNow
      if t.pages s.t then (discardStrip s p, some ({ t with at_ := convoyOf p.convoys n }, p.convoys))
      else redo (p.convoys.length + 1) s p (convoyOf p.convoys n) t
  | .ok s =>
    match s.t.mbFault with
    | none => (s, none)
    | some info => ({ s with t := { s.t with mbFault := none } }, some ({ cause := 0x19, info := info.toNat }, []))

/-! ## The lanes (R37 to R39) -/

/-- The current front takes the lanes: every lane register is dead (R38). -/
def takeLanes (s : State) : State :=
  { s with c := { s.c with holder := some s.t.front, lanes := {}, pipe := [] } }

/-- A switched-out task of a core waits for its lanes, to resume (R366): it may be placed once they are free. -/
def State.offerLanes (s : State) (num : Nat) : State :=
  if s.saved.any fun v => v.lanes.isSome && v.task.core == num then { s with agenda := s.agenda ++ [(.taskPlacement, {})] } else s

/-- The front gives the lanes up. -/
def giveLanes (s : State) : State :=
  if s.c.holder = some s.t.front then
    { s with c := { s.c with holder := none, lanes := {}, pipe := [] } }.offerLanes s.c.num
  else s

/-- MMA.A and MMAS.A, which the engine runs (R207). -/
def asyncProduct (i : Instr) : Bool := match i with | .mmaA .. | .mmasA .. => true | _ => false

/-- A product of the task has left its strip and is not complete: forked, or with its fork due (R39). -/
def matrixBusy (s : State) : Bool :=
  s.c.cmds.any fun d => asyncProduct d.instr && d.launch == s.t.launch && d.task == s.t.task && (d.released || d.forked) && !d.done

/-- A command of the task has left its strip and is not forked: it forks before the strip that follows opens (R49), also where it
has to wait for its engine (R231, R323). DEDUCED: the convoys behind it wait for its fork (notes/assumptions/36.md). -/
def forkDue (s : State) : Bool :=
  s.c.cmds.any fun d => d.launch == s.t.launch && d.task == s.t.task && d.released && !d.forked && !d.done

/-- Steps 2 to 4 of VRELEASE (R39). -/
def releaseLanes (s : State) : Run :=
  if s.c.holder ≠ some s.t.front then (s, none)
  else if matrixBusy s then (s, some (waits, []))
  else (giveLanes s, none)

/-! ## Running convoys -/

/-- The worst case of a convoy's records cannot enter the buffer because the records above S belong to the current
strip (R48, R254). -/
def riserTight (s : State) (cv : Convoy) : Bool :=
  let p := s.stripNow
  let w := (cv.entries.map fun e => worstPush e.instr e).sum
  w != 0 && p.depth < s.t.depth && 262144 < s.t.depth - Nat.max s.t.spill (Nat.min p.depth s.t.depth) + w

/-- The strip closes before the convoy (R45, R48, R81, R217, R257). DESIGN CHOICE: a product and a BLD behind it in the same convoy,
over the bytes it reads, close nothing between them, since R48 closes before a convoy (notes/assumptions/36.md). -/
def closesBefore (s : State) (cv : Convoy) : Bool :=
  let p := s.stripNow
  s.t.single || 64 < p.nins + cv.entries.length ||
  (p.undo && cv.entries.any fun e => worstPush e.instr e != 0) || riserTight s cv ||
  cv.entries.any fun e => (bWrites e 0).any fun w => p.bread.any fun r => overlaps e.offset w.2 r.1 r.2

/-- A strip past its limits (R46, R47). -/
def overLimits (s : State) : Bool :=
  let p := s.stripNow
  Config.shadowPool < p.shuse || Config.storeBuffer < p.bufferBytes

/-- A wait for a page: its request is sent once (R395). -/
def askRiser (s : State) (t : Trap) : State :=
  let va := t.info / 4 * 2 ^ 16
  if s.t.riserPages.contains va then s
  else (({ s with t := { s.t with riserPages := va :: s.t.riserPages } }).askPage s.t.ctx va s.t.fn t.write false).send

/-- The members of one convoy, in a strip that has room for them. -/
def issueConvoy (s : State) (cv : Convoy) : Run :=
  let fail (s : State) (t : Trap) : Run :=
    if t.cause = 0 then
      if t.info % 4 = 2 then (askRiser s t, some (waits, [cv]))
      else if s.t.timed then
        let p := s.stripNow
        let r := redo (p.convoys.length + 1) s p p.convoys.length (timingTrap s.t.cycle s.t.origin 0)
        (r.1, r.2.map fun h => (h.1, h.2 ++ [cv]))
      else (s.stalls 3, some (waits, [cv]))
    else
      let p := s.stripNow
      if t.pages s.t then (discardStrip s p, some ({ t with at_ := p.convoys.length }, p.convoys ++ [cv]))
      else
        let r := redo (p.convoys.length + 1) s p p.convoys.length t
        (r.1, r.2.map fun h => (h.1, h.2 ++ [cv]))
  match runMembers s cv with
  | .error t => fail s t
  | .ok s' =>
    if overLimits s' && s.stripNow.convoys != [] then
      let held := s.stripNow.retires s.t.cycle - s.t.cycle
      let r := closeStrip s
      match r.2 with
      | some h => (r.1, some (h.1, h.2 ++ [cv]))
      | none =>
        let s := r.1.stalled 4 held
        match runMembers s cv with
        | .error t => fail s t
        | .ok s'' => (s'', none)
    else (s', none)

/-- Then, unless the columns have stopped; the convoy joins what has not retired. -/
def Run.then (r : Run) (cv : Convoy) (f : State → Run) : Run :=
  match r.2 with
  | some h => (r.1, some (h.1, h.2 ++ [cv]))
  | none => f r.1

/-- The strip that a SETVL opens (R174). -/
def openStrip (s : State) (cv : Convoy) (e : Entry) : State :=
  { s with t := { s.t with strip := some { hdr := cv.hdr, req := e.gb, ty := e.modes.vtype, depth := s.t.depth,
                                           opened := s.t.cycle, rest := s.restNow,
                                           flights := s.stripNow.flying s.t.cycle } } }

/-- The lowest breakpoint that matches an address on one of the two pointers: 0 the scalar front's program counter, 1
the vector commit pointer (R331). None is taken in a handler or in a timed domain (R355, R373). -/
def breakpoint (t : Task) (vector : Bool) (a : Nat) : Option Nat :=
  if t.inHandler || t.timed then none
  else (List.range 4).find? fun k =>
    t.dbgctl.getLsbD (4 + k) && t.dbgctl.getLsbD (8 + k) == vector && t.bpc[Fin.ofNat 4 k].toNat / 4 * 4 == a

/-- The breakpoint trap: TINFO bit 3, BPVk in bit 2, k (R331). -/
def breakTrap (vector : Bool) (k : Nat) : Trap := { cause := 0x12, info := 8 + 4 * vector.toNat + k }

/-- A convoy has become the oldest that has not retired: a breakpoint on it fires before any member issues, with
everything before it in effect (R331). -/
def vectorBreak (s : State) (cv : Convoy) : Option Run :=
  if cv.entries = [] then none
  else
    (breakpoint s.t true cv.hdr).map fun k =>
      (closeStrip s).then cv fun s => (s, some (breakTrap true k, [cv]))

/-- SETVL and VRELEASE, which close the strip before them. -/
def opensStrip (i : Instr) : Bool := match i with | .setvl .. => true | _ => false
def givesLanes (i : Instr) : Bool := match i with | .vrelease => true | _ => false

/-- One convoy's turn in the columns, or an engine command's (R49). A convoy of a free task waits for the forks of commands
before it. -/
def convoyTurn (s : State) (cv : Convoy) : Run :=
  let lead := cv.entries.head?
  match cv.cmd with
  | some id =>
    if lead.isSome ∧ s.c.holder ≠ none ∧ s.c.holder ≠ some s.t.front then (s.stalls 5, some (waits, [cv]))
    else
      (closeStrip s).then cv fun s =>
        match (s.c.cmds.find? fun d => d.id == id).bind fun d => d.refusedPage s with
        | some p => (s, some ({ cause := 0x09, info := p.1, write := p.2 }, [cv]))
        | none =>
        let s := if lead.isSome ∧ s.c.holder = none then takeLanes s else s
        let turn (d : Cmd) : Cmd :=
          if d.id = id then
            { d with released := true, codebk := codebkNat s.t, perm := permNat s.c,
                     permLen := if d.modes.kpermEn then s.t.kpermLen else 0 }
          else d
        ({ s with c := { s.c with cmds := s.c.cmds.map turn },
                  agenda := s.agenda ++ [(.engineCommandFork, { n := [s.c.num, id] })] }, none)
  | none =>
    if lead.any fun e => givesLanes e.instr then
      (closeStrip s).then cv fun s => (releaseLanes s).then cv fun s => (s, none)
    else if s.c.holder ≠ none ∧ s.c.holder ≠ some s.t.front then (s.stalls 5, some (waits, [cv]))
    else if !s.t.timed && forkDue s then (s, some (waits, [cv]))
    else
      let s := if s.c.holder = none then takeLanes s else s
      match lead with
      | none => (s, none)
      | some e =>
        if opensStrip e.instr then (closeStrip s).then cv fun s => issueConvoy (openStrip s cv e) cv
        else if closesBefore s cv then (closeStrip s).then cv fun s => issueConvoy s cv
        else issueConvoy s cv

/-- The cycle on which everything decoded of the current timed task has retired. -/
def retireCycle (s : State) : Nat :=
  if s.t.timed then (s.t.queue.map Convoy.due).foldl Nat.max ((s.c.pipe.map Flight.retire).foldl Nat.max 0) else 0

/-- The front waits until everything decoded can run: in a timed domain, until it has retired. -/
def waitRetired (s : State) : State :=
  if s.t.timed then { s with t := { s.t with cycle := Nat.max s.t.cycle (retireCycle s) } } else s

/-- One convoy's turn, unless a breakpoint on it fires. -/
def runConvoy (s : State) (cv : Convoy) : Run := (vectorBreak s cv).getD (convoyTurn s cv)

/-- The current front with q decoded and not retired. -/
def State.withQueue (s : State) (q : List Convoy) : State := { s with t := { s.t with queue := q } }

/-- In a timed domain the next convoy's cycle has not come. -/
def notDue (s : State) (cv : Convoy) : Bool := s.t.timed && s.t.cycle < cv.due

/-- The queue drains in order until it is empty, the columns stop, or the next convoy is to stay, as `stay` says.
What has not retired stays in the queue when they wait, and is given back when they trap. -/
def drainLoop (stay : State → Convoy → Bool) : Nat → State → Run
  | 0, s => (s, none)
  | fuel + 1, s =>
    match s.t.queue with
    | [] => (s, none)
    | cv :: rest =>
      if stay s cv then (s, none) else
      let r := runConvoy (s.withQueue rest) cv
      match r.2 with
      | none => drainLoop stay fuel r.1
      | some (t, l) =>
        if t.cause = 0 then (r.1.withQueue (l ++ rest), some (t, [])) else (r.1.withQueue [], some (t, l ++ rest))

/-- Everything decoded runs; in a timed domain what is due by its cycle. -/
def drain (s : State) : Run := drainLoop notDue (s.t.queue.length + 1) s

/-- The queue runs, whatever its cycles, until p no longer holds of what is left of it. -/
def drainWhile (p : State → Bool) (s : State) : Run := drainLoop (fun s _ => !p s) (s.t.queue.length + 1) s

/-- A convoy of the queue opens a strip of its own, or closes the one before it for good (R48). -/
def newerStrip (q : List Convoy) : Bool := q.any fun cv => (cv.entries.head?).any fun e => opensStrip e.instr || givesLanes e.instr

/-- Every strip older than the newest that the front has decoded retires and commits (R360). -/
def commitOlder (s : State) : Run := drainLoop (fun s _ => !newerStrip s.t.queue) (s.t.queue.length + 1) s

/-- Everything decoded runs and the strip commits. -/
def drainClose (s : State) : Run :=
  let r := drain (waitRetired s)
  match r.2 with
  | some _ => r
  | none => closeStrip r.1

end Sys2Proof.Machine
end

