-- ==== Sys2Proof/Machine/CtlRegs.lean ====
section
/-! DEFINITION. The control registers by number (R78 to R81, Tables 4-3 to 4-7): reading one, and writing its RW
fields (R10, R161). -/

namespace Sys2Proof.Machine

/-- Device TIME on a cycle (R329): 16 units a nanosecond at 1.7 GHz; on a cycle before the last change of its rate, as it
was counted then. -/
def timeAt (s : State) (cycle : Nat) : Nat :=
  match ((s.timeBase, s.timeCycle, s.slew) :: s.timePast).find? fun p => decide (p.2.1 ≤ cycle) with
  | some p => p.1 + (cycle - p.2.1) * 160 * p.2.2 / 17000000
  | none => s.timeBase

/-- DTICK on a cycle (R52). -/
def tickAt (cycle : Nat) : Nat := cycle / Config.tickCycles

/-- The armed bit of a loop level (R76). -/
def Loop.armed (l : Loop) : Bool := l.le.getLsbD 0

/-- A loop level armed or disarmed. -/
def Loop.arm (l : Loop) (p : Bool) : Loop :=
  { l with le := BitVec.ofNat 64 (l.le.toNat / 2 * 2 + p.toNat) }

/-- STRIPCTL as read (Table 4-7); in a timed domain shadows are counted from the restart point (R57). -/
def stripCtl (t : Task) : Nat :=
  let p := t.strip.map fun p => (if t.timed then (t.ivShadow.map LReg.cost).sum else p.shuse) * 2 ^ 24 + p.nins * 2 ^ 16
  p.getD 0 + t.single.toNat * 2 + t.srec.toNat

/-- KPERM as read: EN and LEN. -/
def kperm (t : Task) : Nat := t.modes.kpermEn.toNat + t.kpermLen * 2 ^ 8

/-- Control register n (Table 4-3); none where the number is not in the table. -/
def crValue (s : State) (n : Nat) : Option Nat :=
  let t := s.t
  let m := t.modes
  match n with
  | 0x000 => some m.vl.toNat
  | 0x001 => some m.vtype.toNat
  | 0x002 => some m.vmask.toNat
  | 0x003 => some m.wb.toNat
  | 0x004 => some m.mtype.toNat
  | 0x005 => some m.shape.toNat
  | 0x006 => some m.ttype.toNat
  | 0x008 => some t.fflags.toNat
  | 0x009 => some t.fexc0.toNat
  | 0x00A => some t.fexc1.toNat
  | 0x010 => some (timeAt s t.cycle % 2 ^ 64)
  | 0x011 => some s.tskew.toNat
  | 0x012 => some (tickAt t.cycle % 2 ^ 64)
  | 0x013 => some t.tstart.toNat
  | 0x014 => some m.seed.toNat
  | 0x015 => some (kperm t)
  | 0x018 => some (codebkNat t % 2 ^ 64)
  | 0x019 => some (codebkNat t / 2 ^ 64 % 2 ^ 64)
  | 0x01A => some (codebkNat t / 2 ^ 128 % 2 ^ 64)
  | 0x01B => some (codebkNat t / 2 ^ 192 % 2 ^ 64)
  | 0x01C => some (t.depth % 2 ^ 48)
  | 0x01D => some t.taskid.toNat
  | 0x040 => some t.tcause.toNat
  | 0x041 => some t.tpc.toNat
  | 0x042 => some t.tvcp.toNat
  | 0x043 => some t.tinfo.toNat
  | 0x044 => some t.tloop.toNat
  | 0x045 => some t.thvec.toNat
  | 0x050 => some t.dbgctl.toNat
  | 0x058 => some (stripCtl t)
  | 0x060 => some t.mbcnt.toNat
  | 0x061 => some t.vbcnt.toNat
  | 0x062 => some t.vbmark.toNat
  | 0x070 => some (t.loops[(0 : Fin 2)]).lb.toNat
  | 0x071 => some (t.loops[(0 : Fin 2)]).le.toNat
  | 0x072 => some (t.loops[(0 : Fin 2)]).lc.toNat
  | 0x073 => some (t.loops[(1 : Fin 2)]).lb.toNat
  | 0x074 => some (t.loops[(1 : Fin 2)]).le.toNat
  | 0x075 => some (t.loops[(1 : Fin 2)]).lc.toNat
  | _ =>
    if 0x020 ≤ n ∧ n ≤ 0x027 then some t.idx[Fin.ofNat 8 (n - 0x020)].toNat
    else if 0x028 ≤ n ∧ n ≤ 0x02F then some t.ext[Fin.ofNat 8 (n - 0x028)].toNat
    else if 0x051 ≤ n ∧ n ≤ 0x054 then some t.bpc[Fin.ofNat 4 (n - 0x051)].toNat
    else none

/-- The writable bits of control register n: its RW fields (R10). -/
def crMask (n : Nat) : Nat :=
  match n with
  | 0x004 => 0xFFDFF
  | 0x006 => 0xF
  | 0x008 => 0x3F
  | 0x014 | 0x018 | 0x019 | 0x01A | 0x01B | 0x072 | 0x075 => 2 ^ 64 - 1
  | 0x015 => 1
  | 0x041 | 0x051 | 0x052 | 0x053 | 0x054 | 0x070 | 0x073 => 2 ^ 64 - 4
  | 0x044 => 3
  | 0x045 | 0x071 | 0x074 => 2 ^ 64 - 3
  | 0x050 => 0xFF3
  | 0x058 => 3
  | 0x060 => 2 ^ 32 - 1
  | _ => 0

/-- Level k's loop registers become l. -/
def Task.setLoop (t : Task) (k : Fin 2) (l : Loop) : Task := { t with loops := t.loops.set k.val l k.isLt }

/-- Word j of CODEBK becomes v. -/
def Task.setCodebk (t : Task) (j : Nat) (v : Nat) : Task :=
  { t with codebk := (List.range 4).foldl (fun p i => p.set! (4 * j + i) (BitVec.ofNat 16 (v / 2 ^ (16 * i)))) t.codebk }

/-- Control register n holds v, of which the RW fields are taken. -/
def crStore (t : Task) (n v : Nat) : Task :=
  let m := t.modes
  let w : Word := BitVec.ofNat 64 v
  match n with
  | 0x004 => { t with modes := { m with mtype := w } }
  | 0x006 => { t with modes := { m with ttype := BitVec.ofNat 4 v } }
  | 0x008 => { t with fflags := BitVec.ofNat 6 v }
  | 0x014 => { t with modes := { m with seed := w } }
  | 0x015 => { t with modes := { m with kpermEn := v % 2 == 1 } }
  | 0x018 => t.setCodebk 0 v
  | 0x019 => t.setCodebk 1 v
  | 0x01A => t.setCodebk 2 v
  | 0x01B => t.setCodebk 3 v
  | 0x041 => { t with tpc := w }
  | 0x044 => { t with tloop := BitVec.ofNat 2 v }
  | 0x045 => { t with thvec := w }
  | 0x050 => { t with dbgctl := w }
  | 0x058 => { t with srec := v % 2 == 1, single := v / 2 % 2 == 1 }
  | 0x060 => { t with mbcnt := BitVec.ofNat 32 v }
  | 0x070 => t.setLoop 0 { t.loops[(0 : Fin 2)] with lb := w }
  | 0x071 => t.setLoop 0 { t.loops[(0 : Fin 2)] with le := w }
  | 0x072 => t.setLoop 0 { t.loops[(0 : Fin 2)] with lc := w }
  | 0x073 => t.setLoop 1 { t.loops[(1 : Fin 2)] with lb := w }
  | 0x074 => t.setLoop 1 { t.loops[(1 : Fin 2)] with le := w }
  | 0x075 => t.setLoop 1 { t.loops[(1 : Fin 2)] with lc := w }
  | _ =>
    if 0x051 ≤ n ∧ n ≤ 0x054 then
      let k := Fin.ofNat 4 (n - 0x051)
      { t with bpc := t.bpc.set k.val w k.isLt }
    else t

/-- Control register n is written with v: its RW fields take v, its other bits keep their values. -/
def crWrite (s : State) (n v : Nat) : State :=
  if crMask n = 0 then s
  else { s with t := crStore s.t n (mergeBits ((crValue s n).getD 0) (crMask n) v) }

end Sys2Proof.Machine
end

