-- ==== Sys2Proof/Machine/Context.lean ====
section
/-! DEFINITION. Contexts and their frames (R85, R86, R365 to R367), completion objects and black-box events (R35,
R391, R413), the end of a launch by a trap (R359), and the page-fault path (R361 to R363). -/

namespace Sys2Proof.Machine

/-! ## Black-box events (Table 27-1) -/

/-- An event of a kind on a die's ring: the newest first, 2,048 kept. -/
def blackBox (s : State) (die : Fin 8) (kind port core detail ctx : Nat) : State :=
  let d := s.dies[die]
  let e : BoxEntry := { time := timeAt s s.cycle, seq := d.bbseq, kind := kind, port := port, core := core,
                        detail := detail, ctx := ctx }
  s.setDie die { d with box := (e :: d.box).take 2048, bbseq := d.bbseq + 1 }

/-- Detail of a trap's event: its cause, and TINFO's low word above it (notes/assumptions/7.md). -/
def trapDetail (cause info : Nat) : Nat := cause + info % 2 ^ 32 * 2 ^ 32

/-! ## Completion objects (R35, R391) -/

/-- The completion object of a function at a pointer could not be written (R392). -/
def State.lose (s : State) (fn comp : Nat) : State :=
  if s.lost.contains (fn, comp) then s else { s with lost := (fn, comp) :: s.lost }

/-- n bytes of a launch's completion object become v; where they cannot, an event of kind 2, and the object reads as failed
until a status is written to it (R392). -/
def writeComp (s : State) (fn comp off n v : Nat) : State :=
  match devWrite s fn (comp + off) n v with
  | .ok s => if off = 8 then { s with lost := s.lost.filter fun x => x != (fn, comp) } else s
  | .error _ => blackBox (s.lose fn comp) 0 2 0 0xFFFF comp 0

/-- Status of a completion object; none where it cannot be read, or could not be written (R392, R402). -/
def compStatus (s : State) (fn comp : Nat) : Option Nat :=
  if s.lost.contains (fn, comp) then none else devRead s fn (comp + 8) 4

/-- Cause and record pointer, then a status (R391). -/
def writeFinal (s : State) (fn comp status cause ptr : Nat) : State :=
  let s := writeComp s fn comp 0x0C 4 cause
  let s := writeComp s fn comp 0x10 8 ptr
  writeComp s fn comp 8 4 status

/-! ## Frames (R34, R86, R278) -/

/-- Bytes of a context frame. -/
def frameSize (vmax : Nat) : Nat := 0x86000 + 0x1000 * vmax

/-- The address of frame f of a launch. -/
def Launch.frameAt (l : Launch) (f : Nat) : Nat := l.record.savePtr + f * frameSize l.record.vmax

/-- The address of a task's frame. -/
def frameOf (s : State) (t : Task) : Nat := match s.launch t.launch with | none => 0 | some l => l.frameAt t.frame

/-- A command of a task that has not completed. -/
def Cmd.ofTask (d : Cmd) (launch task : Nat) : Bool := d.launch == launch && d.task == task

/-- Commands of a launch, on every core. -/
def cmdsOf (s : State) (launch : Nat) : List Cmd := (s.allCores.flatMap Core.cmds).filter fun d => d.launch == launch

/-- A frame is held while its task runs, is switched out, has a command not complete, or while it holds the record
that the completion object points to (R278, R359, R392). -/
def frameHeld (s : State) (l : Launch) (f : Nat × Nat) : Bool :=
  (s.allTasks.any fun t => t.launch == l.id && t.task == f.2) ||
  (s.saved.any fun v => v.task.launch == l.id && v.task.task == f.2) ||
  ((cmdsOf s l.id).any fun d => d.task == f.2 && !d.done) ||
  (s.readyTasks.any fun r => r.launch == l.id && r.task == f.2) ||
  (match l.fault with
   | some (_, p) => l.frameAt f.1 ≤ p && p < l.frameAt f.1 + frameSize l.record.vmax
   | none => false)

/-- Frames no longer held are free again. -/
def freeFrames (s : State) (launch : Nat) : State :=
  match s.launch launch with
  | none => s
  | some l => s.setLaunch { l with frames := l.frames.filter (frameHeld s l) }

/-! ## Saving a context (R86, R361, R365) -/

/-- One bookkeeping halfword (R86). -/
def Mark.word (m : Mark) : Nat := m.high % 2 ^ 13 + m.dirty.toNat * 2 ^ 15

/-- The bookkeeping area of lanes: v, m, t, a in that order. -/
def Lanes.bookkeeping (l : Lanes) : Nat :=
  (l.vMark.toList ++ l.mMark.toList ++ l.tMark.toList ++ l.aMark.toList).zipIdx.foldl
    (fun acc x => acc + x.1.word * 2 ^ (16 * x.2)) 0

/-- A list of wide values as one number, least significant first. -/
def packWide (w : Nat) (xs : List Nat) : Nat := xs.zipIdx.foldl (fun acc x => acc + x.1 * 2 ^ (w * x.2)) 0

/-- The dirty lane registers up to their marks, as pieces of a frame: offset, length, value. -/
def Lanes.pieces (l : Lanes) (vmax : Nat) : List (Nat × Nat × Nat) :=
  ((List.range 16).filterMap fun k =>
    if l.mMark[Fin.ofNat 16 k].dirty then some (0x2000 + 512 * k, 512, l.m[Fin.ofNat 16 k].toNat) else none) ++
  ((List.range 16).filterMap fun k =>
    let h := l.aMark[Fin.ofNat 16 k]
    if h.dirty then
      some (0x4000 + 0x2000 * k, 256 * h.high, packWide 2048 (((l.acc[Fin.ofNat 16 k]).toList.take h.high).map BitVec.toNat))
    else none) ++
  ((List.range 8).flatMap fun k =>
    let h := l.tMark[Fin.ofNat 8 k]
    if h.dirty then
      [(0x24000 + 0x4000 * k, 256 * h.high, packWide 2048 (((l.tile[Fin.ofNat 8 k]).toList.take h.high).map BitVec.toNat)),
       (0x44000 + 0x400 * k, 16 * h.high, packWide 128 (((l.side[Fin.ofNat 8 k]).toList.take h.high).map BitVec.toNat))]
    else []) ++
  ((List.range vmax).filterMap fun k =>
    let h := l.vMark[Fin.ofNat 256 k]
    if h.dirty then some (0x86000 + 0x1000 * k, h.high, l.v[Fin.ofNat 256 k].toNat % 2 ^ (8 * h.high)) else none)

/-- A queued entry: word, header word, captured state, operands; 64 bytes (R86; the layout past the header is the
model's, notes/assumptions/8.md). -/
def Entry.frameBytes (e : Entry) (hdrWord : Nat) : Nat :=
  let m := e.modes
  wordNat e.instr + hdrWord * 2 ^ 32 +
    (m.vl.toNat + m.vtype.toNat * 2 ^ 16 + m.vmask.toNat * 2 ^ 20 + m.wb.toNat * 2 ^ 24 + m.ttype.toNat * 2 ^ 28) * 2 ^ 64 +
    m.mtype.toNat % 2 ^ 32 * 2 ^ 96 + m.shape.toNat * 2 ^ 128 + m.seed.toNat * 2 ^ 192 + (e.count % 2 ^ 32) * 2 ^ 256 +
    m.kpermEn.toNat * 2 ^ 288 + e.gb.toNat * 2 ^ 320 + e.gc.toNat * 2 ^ 384 + e.plan.toNat * 2 ^ 448

/-- A held command takes two entries: its word and what it captured. -/
def Cmd.frameBytes (d : Cmd) : Nat :=
  (wordNat d.instr + packWide 64 ((d.regs.take 9).map BitVec.toNat) * 2 ^ 64) % 2 ^ 1024

/-- The entries of a frame: value, and how many of the 64 they take. -/
def entriesOf (c : Core) (cvs : List Convoy) : List (Nat × Nat) :=
  cvs.flatMap fun cv =>
    match cv.cmd with
    | some id => (c.cmds.filter fun d => d.id == id).map fun d => (d.frameBytes, 2)
    | none => cv.entries.map fun e => (e.frameBytes cv.word, 1)

/-- The frame's pieces for the current task, VALID last. DESIGN CHOICE: in the bytes that Table 4-8 gives the mailbox range
the first register stands in the low 32 bits and the count in the next 32 (notes/assumptions/35.md). -/
def framePieces (s : State) (lanes : Option Lanes) (cvs : List Convoy) (outstanding : Nat) (timed : Bool) :
    List (Nat × Nat × Nat) :=
  let t := s.t
  let es := entriesOf s.c cvs
  let n := (es.map Prod.snd).sum
  let packed := (es.foldl (fun (acc : Nat × Nat) x => (acc.1 + x.1 * 2 ^ (512 * acc.2), acc.2 + x.2)) (0, 0)).1
  let flags := lanes.isSome.toNat * 2 + timed.toNat * 4
  let start := t.spill % 262144
  let len := t.depth - t.spill
  let first := Nat.min len (262144 - start)
  [(0, 4, 1), (4, 4, flags), (8, 8, t.ctx), (0x10, 4, outstanding), (0x14, 4, n), (0x18, 8, t.tpc.toNat),
   (0x20, 8, t.tvcp.toNat), (0x28, 216, 0), (0x100, 1024, packWide 64 (t.g.toList.map BitVec.toNat)),
   (0x500, 1024, packWide 64 ((List.range 128).map fun c => (crValue s c).getD 0)),
   (0x900, 592, lanes.elim 0 Lanes.bookkeeping),
   (0xB50, 176, packWide 64 (t.f.toList.map BitVec.toNat) +
     packWide 8 (t.segs.toList.map fun g => g.held.toNat + 2 * g.readPhase.toNat) * 2 ^ 512 +
     (t.mbFirst + t.mbCount * 2 ^ 32) * 2 ^ 640 + t.depth * 2 ^ 768 + t.spill * 2 ^ 832),
   (0xE00, 512, 0), (0x1000, 64 * n, packed)] ++
  (lanes.elim [] fun l => l.pieces t.vmax) ++
  [(0x46000 + start, first, Memory.read t.riser t.spill first),
   (0x46000, len - first, Memory.read t.riser (t.spill + first) (len - first)), (4, 4, flags + 1)]

/-- Pieces written to a frame one after another; the offset of the first byte that cannot be written (R367). -/
def writePieces (s : State) (fn base : Nat) : List (Nat × Nat × Nat) → Except Nat State
  | [] => .ok s
  | (off, n, v) :: r =>
    match devWrite s fn (base + off) n v with
    | .error k => .error (off + k)
    | .ok s => writePieces s fn base r

/-- The front holds no task. -/
def idleTask (t : Task) : Task := { core := t.core, front := t.front, cycle := t.cycle }

/-- The current front is given to the next ready task (R277). -/
def freeFront (s : State) : State :=
  let s := giveLanes s
  let s := { s with c := { s.c with waitedTo := Nat.max s.c.waitedTo s.t.cycle } }
  { s with t := idleTask s.t, agenda := s.agenda ++ [(.launchSelection, {}), (.taskPlacement, {})] }

/-- The lanes of the current task, if it holds them. -/
def heldLanes (s : State) : Option Lanes := if s.c.holder = some s.t.front then some s.c.lanes else none

/-- Where in the frame a save of lanes l writes the byte of lane state at a place of their core; none where it does not. -/
def Lanes.savedAt (l : Lanes) (p : Nat) : Option Nat :=
  let o := mapOff (p - chip)
  let put (h : Mark) (n off : Nat) : Option Nat := if h.dirty && decide (n < h.high) then some off else none
  match mapSpace (p - chip) with
  | 1 => put l.vMark[Fin.ofNat 256 (o / 0x1000)] (o % 0x1000) (0x86000 + o)
  | 2 =>
    if o < 0x20000 then put l.tMark[Fin.ofNat 8 (o / 0x4000)] (o % 0x4000 / 256) (0x24000 + o)
    else put l.tMark[Fin.ofNat 8 ((o - 0x20000) / 0x400)] ((o - 0x20000) % 0x400 / 16) (0x44000 + (o - 0x20000))
  | 3 => put l.aMark[Fin.ofNat 16 (o / 0x2000)] (o % 0x2000 / 256) (0x4000 + o)
  | _ => none

/-- The offset in the current task's frame of the first byte that a save would take from a bad unit, of the lanes or of the riser
buffer: the save meets an uncorrectable error there (R367, R388). -/
def saveBad (s : State) (lanes : Option Lanes) : Option Nat :=
  let at_ (p : Nat) : Option Nat :=
    if p < chip || mapNum (p - chip) != s.t.core then none
    else if mapSpace (p - chip) = 5 then
      let o := mapOff (p - chip)
      if (o + 262144 - s.t.spill % 262144) % 262144 < s.t.depth - s.t.spill then some (0x46000 + o) else none
    else lanes.bind fun l => l.savedAt p
  (s.bad.filterMap at_).foldl (fun x o => some (x.elim o (Nat.min o))) none

/-- The current task's context goes to its frame (R361, R365), VALID clear until the last. A fault of the save, in its frame or in
what it saves, leaves it frozen on its front, with cause 0x16 in the completion object (R367, R388). `cvs` are the entries from TVCP to TPC, `ended` a launch's trapping
task. -/
def saveContext (s : State) (cvs : List Convoy) (pages : List Nat) (ended timed : Bool) : State :=
  let t := { s.t with frozen := cvs, queue := [], strip := none, conv := none }
  let s := { s with t := t }
  let lanes := heldLanes s
  let v : Saved := { ctx := t.ctx, task := t, lanes := lanes, outstanding := pages.length, pages := pages, refused := [],
                     ended := ended, timed := timed, since := s.cycle }
  let launch := s.launch t.launch
  let comp := launch.elim 0 fun l => l.record.comp
  match (saveBad s lanes).elim (writePieces s t.fn (frameOf s t) (framePieces s lanes cvs pages.length timed)) .error with
  | .error off =>
    let s := (devWrite s t.fn (frameOf s t + 4) 4 0).toOption.getD s
    let s := writeComp s t.fn comp 0x0C 4 0x16
    let s := blackBox s (dieOf t.core) 11 0 t.core (trapDetail 0x16 off) t.ctx
    { s with t := { s.t with wait := some .contextSave, tinfo := BitVec.ofNat 64 off },
             saved := { v with frozen := true } :: s.saved.filter fun x => x.ctx != t.ctx }
  | .ok s =>
    let s := { s with saved := v :: s.saved.filter fun x => x.ctx != t.ctx }
    let s := pages.foldl (fun s p => s.askPage t.ctx p t.fn (p % 2 == 1) (p / 2 % 2 == 1)) s
    freeFront s.send

/-- A save waits until the task's asynchronous products have completed (R365); the front waits with it. The rest of
what the save needs stands in the task. -/
def beginSave (s : State) (cvs : List Convoy) (pages : List Nat) (ended : Bool) : State :=
  let s := { s with t := { s.t with frozen := cvs, queue := [], conv := none, wait := some .contextSave } }
  { s with agenda := s.agenda ++ [(.contextSave, { n := [s.t.core, s.t.front, ended.toNat] ++ pages })] }

/-! ## Engine faults in the completion object (R391) -/

/-- The first engine fault of a launch stands in its completion object (R391). -/
def noteFault (s : State) (launch cause ptr : Nat) : State :=
  match s.launch launch with
  | none => s
  | some l =>
    if l.fault.isSome then s
    else
      let s := s.setLaunch { l with fault := some (cause, ptr) }
      let s := writeComp s l.fn l.record.comp 0x0C 4 cause
      writeComp s l.fn l.record.comp 0x10 8 ptr

/-! ## Page faults (R361) -/

/-- The missing pages among n bytes at a pointer, each with its write bit in bit 0. -/
def missing (s : State) (p : Word) (n : Nat) (wr : Bool) : List Nat :=
  (pagesOf s p n).filterMap fun va =>
    match vaToPa s s.t.fn va with
    | none => some (va + wr.toNat)
    | some (_, w, _) => if wr && !w then some (va + 1) else none

/-- The missing pages of the entries from TVCP on, in program order. -/
def probe (s : State) (cvs : List Convoy) : List Nat :=
  cvs.flatMap fun cv =>
    match cv.cmd with
    | some id => (s.c.cmds.filter fun d => d.id == id).flatMap fun d => d.touches.flatMap fun x => missing s x.1 x.2.1 x.2.2
    | none =>
      cv.entries.flatMap fun e =>
        let ts := e.touches s
        ts.1.flatMap fun x => missing s x.1 x.2 ts.2

/-- A list of pages, each once, at most 256. -/
def distinctPages (ps : List Nat) : List Nat :=
  (ps.foldl (fun acc p => if acc.any fun q => q / 2 ^ 16 == p / 2 ^ 16 then acc else acc ++ [p]) []).take 256

/-- The entry that a matrix command captured. -/
def Cmd.entry (d : Cmd) : Entry :=
  { instr := d.instr, hdr := d.addr, modes := d.modes, count := d.count, gb := 0, gc := d.regs[0]?.getD 0, plan := 0 }

/-- A held command as the entry of the front that it was. -/
def Cmd.heldEntry (d : Cmd) : Convoy :=
  match d.instr with
  | .mmaA .. | .mmasA .. => { hdr := d.addr - 4, word := 0x7F, entries := [d.entry], cmd := some d.id }
  | i => { hdr := d.addr, word := wordNat i, entries := [], cmd := some d.id }

/-- The commands of the current task that have left their strip and that no engine has accepted are entries of the front again,
to be saved with it (R361, R364). -/
def recallHeld (s : State) : State × List Convoy :=
  let held (d : Cmd) : Bool := d.ofTask s.t.launch s.t.task && d.released && !d.forked && !d.done
  ({ s with c := { s.c with cmds := s.c.cmds.map fun d => if held d then { d with released := false } else d } },
   (s.c.cmds.filter held).map Cmd.heldEntry)

/-- A free task meets a missing page (R361): the entries from TVCP to TPC are probed and the context is saved. The page that
was met takes its place in program order, at its convoy or, a scalar word's, behind them all. -/
def pageFault (s : State) (t : Trap) (cvs : List Convoy) (tpc : Word) : State :=
  let r := recallHeld s
  let s := r.1
  let at_ := r.2.length + t.at_
  let cvs := r.2 ++ cvs
  let hit := t.info % 2 ^ 55 + t.write.toNat + 2 * t.fetch.toNat
  let before := probe s (cvs.take at_)
  let ps := distinctPages (if (probe s cvs).any fun q => q / 2 ^ 16 == hit / 2 ^ 16 then probe s cvs
    else before ++ hit :: probe s (cvs.drop at_))
  let tvcp := match cvs with | [] => tpc | cv :: _ => BitVec.ofNat 64 cv.hdr
  beginSave { s with t := { s.t with tpc := tpc, tvcp := tvcp, collected := ps.length } } cvs ps false

/-! ## Restoring (R366) -/

/-- A lane register's bytes from its frame, those beyond the mark undefined. -/
def restoreBytes (fr : Nat → Nat → Nat) (free : Nat) (off high : Nat) : BitVec 32768 :=
  BitVec.ofNat 32768 (splice (Config.freeReg free).toNat 0 (8 * high) (fr off high))

/-- The lanes of a frame: the registers its bookkeeping marks; the others are dead. Rows above a mark are undefined, each with
free bytes of its own (R8). `fr` reads the frame. -/
def lanesOf (fr : Nat → Nat → Nat) (free vmax : Nat) : Lanes :=
  let mark (k : Nat) : Mark :=
    let w := fr (0x900 + 2 * k) 2
    { dirty := w.testBit 15, high := w % 2 ^ 13 }
  let rows (w : Nat) (off high f : Nat) (r : Nat) : Nat :=
    if r < high then fr (off + w / 8 * r) (w / 8)
    else (Config.freeReg (f + r / (32768 / w))).toNat / 2 ^ (w * (r % (32768 / w))) % 2 ^ w
  { v := Vector.ofFn fun k =>
      let h := mark k.val
      if h.dirty ∧ k.val < vmax then restoreBytes fr (free + k.val) (0x86000 + 0x1000 * k.val) h.high else 0,
    m := Vector.ofFn fun k => if (mark (256 + k.val)).dirty then BitVec.ofNat 4096 (fr (0x2000 + 512 * k.val) 512) else 0,
    tile := Vector.ofFn fun k =>
      let h := mark (272 + k.val)
      if h.dirty then Vector.ofFn fun r => BitVec.ofNat 2048 (rows 2048 (0x24000 + 0x4000 * k.val) h.high (free + 256 + 4 * k.val) r.val)
      else Vector.replicate 64 0,
    side := Vector.ofFn fun k =>
      let h := mark (272 + k.val)
      if h.dirty then Vector.ofFn fun r => BitVec.ofNat 128 (rows 128 (0x44000 + 0x400 * k.val) h.high (free + 288 + k.val) r.val)
      else Vector.replicate 64 0,
    acc := Vector.ofFn fun k =>
      let h := mark (280 + k.val)
      if h.dirty then Vector.ofFn fun r => BitVec.ofNat 2048 (rows 2048 (0x4000 + 0x2000 * k.val) h.high (free + 296 + 2 * k.val) r.val)
      else Vector.replicate 32 0,
    vMark := Vector.ofFn fun k => mark k.val,
    mMark := Vector.ofFn fun k => mark (256 + k.val),
    tMark := Vector.ofFn fun k => mark (272 + k.val),
    aMark := Vector.ofFn fun k => mark (280 + k.val) }

/-- The control registers that a restore reloads: the RW ones (R86). -/
def reloadCrs (fr : Nat → Nat → Nat) (s : State) : State :=
  (List.range 0x80).foldl (fun s n => if crMask n = 0 then s else crWrite s n (fr (0x500 + 8 * n) 8)) s

/-- The task of a frame: what a restore reloads, over what the device keeps of it. -/
def reloadTask (fr : Nat → Nat → Nat) (s : State) : State :=
  let t := s.t
  let m := t.modes
  let d := fr 0xBB0 8
  let sp := fr 0xBB8 8
  let stack := (List.range (Nat.min (d - sp) 262144)).foldl (fun acc i =>
    acc + fr (0x46000 + (sp + i) % 262144) 1 * 2 ^ (8 * i)) 0
  let t := { t with
    g := Vector.ofFn fun k => if k.val = 0 then 0 else BitVec.ofNat 64 (fr (0x100 + 8 * k.val) 8),
    f := Vector.ofFn fun k => BitVec.ofNat 64 (fr (0xB50 + 8 * k.val) 8),
    segs := Vector.ofFn fun k =>
      let g := t.segs[k]
      let b := fr (0xB90 + k.val) 1
      { g with held := b.testBit 0, readPhase := b.testBit 1 },
    mbFirst := fr 0xBA0 4, mbCount := fr 0xBA4 4, depth := d, spill := sp, riser := cellsOf sp (d - sp) stack,
    modes := { m with vl := BitVec.ofNat 13 (fr 0x500 8), vtype := BitVec.ofNat 4 (fr 0x508 8),
                      vmask := BitVec.ofNat 4 (fr 0x510 8), wb := BitVec.ofNat 4 (fr 0x518 8),
                      shape := BitVec.ofNat 48 (fr 0x528 8) },
    tpc := BitVec.ofNat 64 (fr 0x18 8 / 4 * 4), tvcp := BitVec.ofNat 64 (fr 0x20 8) }
  reloadCrs fr { s with t := t }

/-- What a restore reads of a frame: offset and length. -/
def framePlaces (fr : Nat → Nat → Nat) (lanes : Option Lanes) (vmax : Nat) : List (Nat × Nat) :=
  let sp := fr 0xBB8 8
  let n := Nat.min (fr 0xBB0 8 - sp) 262144
  let first := Nat.min n (262144 - sp % 262144)
  [(0, 0x28), (0x100, 0x800), (0x900, 592), (0xB50, 176), (0x1000, 64 * fr 0x14 4), (0x46000 + sp % 262144, first),
   (0x46000, n - first)] ++ lanes.elim [] fun l => (l.pieces vmax).map fun p => (p.1, p.2.1)

/-- The first bad unit that a restore of a context would read, by physical address (R388). -/
def frameBad (s : State) (v : Saved) : Option Nat :=
  if s.bad = [] then none
  else
    let base := frameOf s v.task
    let fr (off n : Nat) : Nat := (devRead s v.task.fn (base + off) n).getD 0
    (framePlaces fr v.lanes v.task.vmax).findSome? fun p =>
      (linesOf (base + p.1) p.2).findSome? fun q => (vaToPa s v.task.fn q.1).bind fun x => firstBad s x.1 q.2

/-- A context is restored to a front of its core (R366): it takes the lanes if it held them, and the front reissues
from TVCP. -/
def restoreContext (s : State) (v : Saved) (front : Nat) : State :=
  let t := { v.task with front := front, cycle := s.cycle, live := true, wait := none }
  let base := frameOf s t
  let fr (off n : Nat) : Nat := (devRead s t.fn (base + off) n).getD 0
  let s := { s with saved := s.saved.filter fun x => x.ctx != v.ctx }
  let s := (devWrite s t.fn (base + 0x10) 4 0).toOption.getD s
  let s := reloadTask fr { s with t := t }
  let s := { s with t := { s.t with pc := s.t.tpc, queue := s.t.frozen, frozen := [], refused := v.refused } }
  match v.lanes with
  | none => s
  | some _ =>
    { s with c := { s.c with holder := some front, lanes := lanesOf fr (512 * s.free) t.vmax, pipe := [] }, free := s.free + 1 }

end Sys2Proof.Machine
end

