-- ==== Sys2Proof/Machine/Schedule.lean ====
section
/-! DEFINITION. The exact timing of a timed domain (R40 to R44, R53, R154): the issue cycle of each convoy member, and
the timing traps of what would have to wait. -/

namespace Sys2Proof.Machine

/-- Member k issues: exactly on its cycle where the T bit is set, else as soon as it may from that cycle on. A stall of
R43 or R44 on an exact cycle is timing reason 0, a busy column or a full queue reason 1. -/
def placeMember (s : State) (tbit : Bool) (earliest decoded : Nat) (pipe : List Flight) (e : Entry) : R Flight :=
  let u := useOf e s
  let x := flightOf s e u.reads (u.writes.map (·.1))
  let lock := lockOf s pipe x
  let busy := columnFree pipe x
  if 16 ≤ (pipe.filter fun p => p.col == x.col && x.col.isSome && decide (decoded < p.issue)).length then
    .error (timingTrap decoded s.t.origin 1)
  else if tbit && earliest < lock then .error (timingTrap earliest s.t.origin 0)
  else if tbit && earliest < busy then .error (timingTrap earliest s.t.origin 1)
  else .ok (x.at_ (Nat.max earliest (Nat.max lock busy)))

/-- The members of a convoy one after another; the first counts from the header's cycle, each from the one before. -/
def placeMembers (s : State) (tbit : Bool) : Nat → Nat → List Flight → List (Entry × Nat) → R (List Flight)
  | _, _, _, [] => .ok []
  | base, decoded, pipe, (e, d) :: r => do
    let x ← placeMember s tbit (base + d) decoded pipe e
    let xs ← placeMembers s tbit x.issue (decoded + 1) (pipe ++ [x]) r
    .ok (x :: xs)

/-- The scalar results a convoy will write (R44, R194). -/
def lateResults (xs : List Flight) : List Late :=
  xs.filterMap fun x =>
    match x.entry.instr with
    | .vappend .. => none
    | i => (scalarDest i).map fun r => { reg := r.val, ready := x.issue + x.lat, vec := true }

/-- A decoded convoy of a timed task takes its place in the columns: it runs on the cycle on which its last load issues,
its first member where it has none. VRELEASE waits for everything before it. -/
def scheduleConvoy (s : State) (cv : Convoy) (start : Nat) : R (State × Convoy) :=
  if s.t.timed = false then .ok (s, cv)
  else if (cv.entries.any fun e => e.instr matches .vrelease) then
    let s := waitRetired s
    .ok (s, { cv with due := s.t.cycle })
  else do
    let pipe := s.c.pipe.filter fun p => start < p.retire + 2
    let d := delaysOf cv.word
    let xs ← placeMembers s d.1 start (start + 1) pipe (cv.entries.zip d.2)
    let retire := (xs.map Flight.retire).foldl Nat.max 0
    let loads := xs.filter fun x => x.entry.loads
    let due := match loads with
      | [] => (xs.head?.map Flight.issue).getD start
      | l => (l.map Flight.issue).foldl Nat.max 0
    let xs := xs.map fun x => { x with retire := retire }
    .ok ({ s with c := { s.c with pipe := pipe ++ xs }, t := { s.t with late := lateResults xs ++ s.t.late } }, { cv with due := due })

end Sys2Proof.Machine
end

