-- ==== Sys2Proof/Machine/Ops.lean ====
section
/-! DEFINITION. Taking a trap as one operation, and the return from one (R354 to R358, R368); how every scalar-class
word and every vector-class word runs (R137, R157, R335, R337, R372); fetching, waiting, and the capture of engine
commands (R49, R227, R231). -/

namespace Sys2Proof.Machine

/-! ## Outcomes -/

/-- What exec answers. -/
abbrev Out := Host.Outcome State Fault Refusal

/-! ## Taking a trap (R354, R358) -/

/-- The causes that a handler may take (Table 21-1). -/
def handlerCause (cause : Nat) : Bool :=
  (1 ≤ cause && cause ≤ 8) || cause == 0x09 || cause == 0x0B || (0x0C ≤ cause && cause ≤ 0x13) || cause == 0x18 || cause == 0x19

/-- Where a trap goes (Table 21-1). -/
inductive Disposal where
  | handler | ended | rollback | pages
  deriving DecidableEq, Repr

/-- The disposal of a trap of a task (R355, R358). -/
def disposal (t : Task) (tr : Trap) : Disposal :=
  if t.inHandler then .ended
  else if t.timed then (if tr.cause = 0x0A ∨ tr.cause = 0x0B then .rollback else .ended)
  else if tr.pages t then .pages
  else if handlerCause tr.cause && t.thvec.getLsbD 0 then .handler
  else .ended

/-- A multiple of four (R132). -/
def wordAddr (a : Word) : Word := BitVec.ofNat 64 (a.toNat / 4 * 4)

/-- Both levels disarmed, their armed bits in TLOOP (R77). -/
def saveArms (t : Task) : Task :=
  let l0 := t.loops[(0 : Fin 2)]
  let l1 := t.loops[(1 : Fin 2)]
  (({ t with tloop := BitVec.ofNat 2 (l0.armed.toNat + 2 * l1.armed.toNat) }).setLoop 0 (l0.arm false)).setLoop 1 (l1.arm false)

/-- What a trap writes whatever its disposal: the pointer pair, TCAUSE and TINFO (R335, R354). -/
def recordTrap (t : Task) (tr : Trap) (tpc tvcp : Word) : Task :=
  let info := if tr.cause = 0x09 then tr.info + (t.collected - 1) * 2 ^ 56 else tr.info
  { t with tcause := BitVec.ofNat 8 tr.cause, tinfo := BitVec.ofNat 64 info, tpc := wordAddr tpc, tvcp := tvcp, wait := none }

/-- Entry to the task's handler (R354 steps 3 to 5): its first word is decoded on the next cycle, and no strip is open. -/
def enterHandler (t : Task) : Task :=
  let t := saveArms t
  { t with inHandler := true, tpcWritten := false, pc := wordAddr t.thvec, refused := [], collected := 0, strip := none,
           cycle := t.cycle + 1 }

/-- A trap of the current task with everything before it in effect: `frozen` are the entries from TVCP to TPC. Those of the
trap that a handler serves stay frozen behind a trap of its own (R355). -/
def takeTrap (s : State) (tr : Trap) (tpc : Word) (frozen : List Convoy) : State :=
  let tvcp := match frozen with | [] => tpc | cv :: _ => BitVec.ofNat 64 cv.hdr
  let u := recordTrap s.t tr tpc tvcp
  match disposal s.t tr with
  | .pages => pageFault s tr frozen tpc
  | .handler =>
    { s with t := enterHandler { u with frozen := frozen, queue := [], conv := none }, cycle := Nat.max s.cycle (s.t.cycle + 1) }
  | .rollback =>
    { s with t := { u with frozen := [], queue := [], conv := none, wait := some .timedRollback },
             agenda := s.agenda ++ [(.timedRollback, { n := [u.launch, tr.cause, u.tinfo.toNat] })] }
  | .ended =>
    { s with t := { u with frozen := (if s.t.inHandler then s.t.frozen else []) ++ frozen, queue := [], conv := none,
                           wait := some .launchEndByTrap },
             agenda := s.agenda ++ [(.launchEndByTrap, { n := [s.t.core, s.t.front] })] }

/-- The front back at the header of the convoy it is decoding, what its members did at decode undone (R335). -/
def backToHeader (s : State) : State :=
  match s.t.conv with
  | none => s
  | some c =>
    let g := c.cv.entries.foldl (fun (g : Vector Word 128) e =>
      match e.instr with
      | .setvl a _ _ | .mshape a _ => g.set a.val c.before.g[a] a.isLt
      | _ => g) s.t.g
    { s with t := { s.t with g := g, modes := c.before.modes, count := c.before.count,
                             pc := BitVec.ofNat 64 c.cv.hdr, conv := none } }

/-- A trap found while the columns ran, the front standing at its decode point (R335). -/
def columnTrap (s : State) (tr : Trap) (frozen : List Convoy) : State :=
  let s := backToHeader s
  takeTrap s tr s.t.pc frozen

/-- ERET (R356): the pc and the armed bits come back; the frozen entries are released unless TPC was written. -/
def leaveHandler (t : Task) : Task :=
  let l0 := (t.loops[(0 : Fin 2)]).arm (t.tloop.getLsbD 0)
  let l1 := (t.loops[(1 : Fin 2)]).arm (t.tloop.getLsbD 1)
  let t := (t.setLoop 0 l0).setLoop 1 l1
  { t with pc := t.tpc, inHandler := false, queue := t.queue ++ (if t.tpcWritten then [] else t.frozen), frozen := [] }

/-! ## Sequential flow and the loops (R157, R158) -/

/-- The address a level's body ends at, when it is armed. -/
def Loop.ends (l : Loop) (a : Word) : Bool := l.armed && l.le.toNat / 4 * 4 == a.toNat

/-- A pass of level k ends at `a`: the address next decoded, and whether the level falls through. -/
def endPass (t : Task) (k : Fin 2) (a : Word) : Task × Word × Bool :=
  let l := t.loops[k]
  if 1 < l.lc.toNat then (t.setLoop k { l with lc := l.lc - 1 }, l.lb, false)
  else (t.setLoop k { l.arm false with lc := 0 }, a, true)

/-- The length of a level's body. -/
def Loop.body (l : Loop) : Nat := l.le.toNat / 4 * 4 - l.lb.toNat

/-- Sequential flow would next decode the word at `a`: the loop-end steps of R157, then the address. -/
def flowTo (t : Task) (a : Word) : Task :=
  let e0 := (t.loops[(0 : Fin 2)]).ends a
  let e1 := (t.loops[(1 : Fin 2)]).ends a
  let go (k : Fin 2) (both : Option (Fin 2)) : Task :=
    let r := endPass t k a
    if r.2.2 then
      match both with
      | none => { r.1 with pc := a }
      | some j =>
        let q := endPass r.1 j a
        { q.1 with pc := q.2.1 }
    else { r.1 with pc := r.2.1 }
  if e0 && e1 then
    (if (t.loops[(0 : Fin 2)]).body < (t.loops[(1 : Fin 2)]).body then go 0 (some 1) else go 1 (some 0))
  else if e0 then go 0 none
  else if e1 then go 1 none
  else { t with pc := a }

/-- The word after the one at the pc is next (R132, R157). -/
def nextWord (t : Task) : Task := flowTo t (t.pc + 4)

/-- The word at the pc completes and sequential flow goes on. -/
def State.seq (s : State) : State := { s with t := nextWord s.t }

/-- `target` lies in a level's body. -/
def Loop.holds (l : Loop) (a : Word) : Bool := l.lb.toNat ≤ a.toNat && a.toNat < l.le.toNat / 4 * 4

/-- A taken branch or jump that leaves a body disarms its level (R158). -/
def leaveBodies (t : Task) (target : Word) : Task :=
  let f (t : Task) (k : Fin 2) : Task :=
    let l := t.loops[k]
    if l.armed && l.holds t.pc && !l.holds target then t.setLoop k (l.arm false) else t
  f (f t 0) 1

/-- Control passes to a target; two cycles (Table 3-4). -/
def jumpTo (t : Task) (target : Word) : Task := { t with pc := target, cycle := t.cycle + 1 }

/-! ## Fetching (R132, R165, R383) -/

/-- The handles of objects reached from a list by the bindings of references (R304, R404). -/
def reached (objs : List Obj) (fn : Nat) : Nat → List Nat → List Nat
  | 0, hs => hs
  | fuel + 1, hs =>
    reached objs fn fuel (hs ++ ((objs.filter fun o => o.fn == fn && hs.contains o.handle).flatMap Obj.refs).filter
      fun h => !hs.contains h).eraseDups

/-- The objects a launch refers to. -/
def objectsOf (s : State) (l : Launch) : List Nat := reached s.objs l.fn s.objs.length [l.record.handle]

/-- The code object a task's address lies in: its launch's, or one that its references were bound to (R302, R342). -/
def codeOf (s : State) (a : Nat) : Option Obj :=
  match s.launch s.t.launch with
  | none => none
  | some l =>
    (s.objs.filter fun o => o.fn == s.t.fn && o.codeBase ≤ a && a < o.codeBase + o.codeSize).find? fun o =>
      o.handle == l.record.handle || (objectsOf s l).contains o.handle

/-- The word at an address (R132), as the task sees it (R165); a timed task fetches no word of another package (R328). -/
def fetch (s : State) (a : Word) : R (Nat × State) :=
  if a.toNat % 4 ≠ 0 then .error { cause := 0x11, info := a.toNat }
  else
    match codeOf s a.toNat with
    | none => .error { cause := 0x01, info := 8 * 2 ^ 32 }
    | some _ =>
      match s.t.fetched.find? fun x => x.1 == a.toNat with
      | some x => .ok (x.2, s)
      | none =>
        match if s.t.refused.contains (pageInfo a.toNat) then none else translate s 0 s.t.core s.t.fn a.toNat with
        | none => .error { cause := 0x09, info := pageInfo a.toNat, fetch := true }
        | some (e, s') =>
          let pa := e.pa a.toNat
          if s.t.timed ∧ pa / 2 ^ 40 ≠ s.package then .error (timingTrap s.t.cycle s.t.origin 8)
          else if routed s pa = false then .error { cause := 0x15, info := errorInfo pa }
          else do
            let w ← readPlace s' pa 4
            .ok (sightNow s' pa 4 w, s')

/-! ## How a scalar-class word runs -/

/-- A front stalled in one of these takes governor dross (R288). -/
def drossWait (i : Instr) : Bool :=
  match i with
  | .realign | .bwait _ | .segacq _ | .waiteq .. | .waitge .. | .waitt _ | .acq .. => true
  | _ => false

/-- The current core's cycles from a on and before b that governor dross may fill are counted, each once. -/
def State.countWaited (s : State) (a b : Nat) : State :=
  let a := Nat.max a s.c.waitedTo
  if b ≤ a then s else { s with c := { s.c with waited := s.c.waited + s.idleIn a (b - a), waitedTo := b } }

/-- The word waits where it stands, to be tried again; a SEGPHASE that has arrived keeps the cycle on which it issued. -/
def waitAt (i : Instr) (s : State) : State :=
  let s := if drossWait i then s.countWaited s.t.cycle (s.t.cycle + 1) else s
  { s with
    cycle := Nat.max s.cycle (s.t.cycle + 1),
    t := { s.t with wait := some i, cycle := s.t.cycle + 1, issued := if s.t.wait.isSome ∨ s.t.arrived ≠ 0 then s.t.issued else s.t.cycle } }

/-- The cycle on which the word at the pc issued: an earlier one where the front waits in it. -/
def issueCycle (t : Task) : Nat := if t.wait.isSome then t.issued else t.cycle

/-- A page fault that the front meets (R361): strips older than the newest retire and commit (R360), or the front waits for them
as `wait` says; the newest is discarded, and its entries stand frozen. -/
def frontPageFault (wait : State → State) (s : State) (tr : Trap) : State :=
  let r := commitOlder s
  match r.2 with
  | some (t, l) => if t.cause = 0 then wait r.1 else columnTrap r.1 t l
  | none =>
    let s := r.1
    let p := s.stripNow
    let cvs := (if s.t.strip.isSome then p.convoys else []) ++ s.t.queue
    let s := if s.t.strip.isSome then discardStrip s p else s
    takeTrap s { tr with at_ := cvs.length } s.t.pc cvs

/-- A scalar-class trap (R335, R354): every earlier convoy retires and the strip commits, then the trap is taken at
the word, or after it where `after` holds (R357). A page fault discards the strip instead (R361). -/
def scalarTrap (i : Instr) (s : State) (tr : Trap) (after : Bool) : State :=
  if tr.pages s.t && !after then frontPageFault (waitAt i) s tr
  else
    let r := drainClose s
    match r.2 with
    | some (t, l) => if t.cause = 0 then waitAt i r.1 else columnTrap r.1 t l
    | none =>
      let s := if after then { r.1 with t := nextWord r.1.t } else r.1
      takeTrap s tr s.t.pc []

/-- A free task outside its handler is single-stepped (R355, R372). -/
def stepping (t : Task) : Bool := t.dbgctl.getLsbD 0 && !t.timed && !t.inHandler && t.live

/-- A step stop: cause 0x12 with TINFO bit 4 (R372). -/
def stepTrap : Trap := { cause := 0x12, info := 16 }

/-- A single step stops before the next word (R372): the trap is taken there. -/
def stepStop (s : State) : State :=
  if stepping s.t && s.t.wait.isNone && s.t.conv.isNone then
    let r := drainClose s
    match r.2 with
    | some (t, l) => if t.cause = 0 then { r.1 with t := { r.1.t with wait := some .trapEntry } } else columnTrap r.1 t l
    | none => takeTrap r.1 stepTrap s.t.pc []
  else s

/-- A convoy that a single-stepped task has still to run, released by ERET or a restore, runs alone and is stopped after
(R372); an engine command was stopped at its capture. None where no convoy waits. -/
def stepQueue (s : State) : Option State :=
  match s.t.queue with
  | [] => none
  | cv :: rest =>
    if !stepping s.t || s.t.conv.isSome then none
    else
      let waiting : State := { s with t := { s.t with cycle := s.t.cycle + 1 }, cycle := Nat.max s.cycle (s.t.cycle + 1) }
      let stop (r : Run) (l : List Convoy) (f : State → State) : State :=
        match r.2 with
        | some (t, l') => if t.cause = 0 then waiting else columnTrap (r.1.withQueue []) t (l' ++ l)
        | none => f r.1
      some (stop (runConvoy (s.withQueue rest) cv) rest fun s1 =>
        if cv.cmd.isSome then s1
        else stop (closeStrip s1) rest fun s2 => takeTrap (s2.withQueue []) stepTrap s2.t.pc rest)

/-- A word's own action: a state, a trap before the word, or a wait. -/
inductive Act where
  /-- The word completes; the pc already stands where it leads. -/
  | done (s : State)
  /-- ERET completes: the step stop of a resumed task comes after its next word (R372). -/
  | resumed (s : State)
  /-- A trap precise before the word. -/
  | trap (s : State) (t : Trap)
  /-- An engine command has been captured (R49); the pc already stands at the next word. -/
  | cmd (s : State)
  /-- The word leaves the front without a task, or frozen: the state stands as it is. -/
  | out (s : State)
  /-- TRAP and BRK: the trap is taken after the word (R164, R357). -/
  | after (s : State) (t : Trap)
  /-- The word waits and is tried again (R171). -/
  | wait (s : State)
  /-- The columns hold the word back. -/
  | held (r : Run)

/-- The position of a scalar-class word: inside a convoy it is cause 0x03 kind 0 (R340, R352). -/
def memberForm (s : State) : Option Trap :=
  s.t.conv.map fun c => { cause := 0x03, info := c.cv.word + c.next * 2 ^ 36 }

/-- A fault at a convoy's decode takes the front back to its header, with every earlier convoy in effect (R335); a missing page
of a member's word is a page fault met there (R361). -/
def decodeTrap (s : State) (tr : Trap) : State :=
  let s := backToHeader s
  let again (s : State) : State := { s with t := { s.t with wait := none } }
  if tr.pages s.t then frontPageFault again s tr
  else
    let r := drainClose s
    match r.2 with
    | some (t, l) => if t.cause = 0 then again r.1 else columnTrap r.1 t l
    | none => takeTrap r.1 tr r.1.t.pc []

/-- A word has spent its cycle; it is finished, and a step stop is taken where one is due. -/
def spend (s : State) : State :=
  let s := { s with t := { s.t with wait := none, cycle := s.t.cycle + 1 } }
  { s with cycle := Nat.max s.cycle s.t.cycle }
def finishWord (s : State) : State := stepStop (spend s)

/-- The command a step stop waits for has not completed (R372). -/
def commandRuns (s : State) : Bool :=
  match (s.c.cmds.filter fun d => d.ofTask s.t.launch s.t.task).getLast? with
  | none => false
  | some d => !d.done

/-- A step stop after an engine command: at its capture, or with ENGSYNC once it has completed, the strip before it
committed so that it can fork (R372). -/
def commandStop (s : State) : State :=
  if stepping s.t && s.t.dbgctl.getLsbD 1 then
    let r := drainClose s
    match r.2 with
    | some (t, l) =>
      if t.cause = 0 then { r.1 with t := { r.1.t with wait := some .engineCommandFork } } else columnTrap r.1 t l
    | none =>
      if commandRuns r.1 then { r.1 with t := { r.1.t with wait := some .engineCommandFork } } else stepStop r.1
  else stepStop s

/-- Finish the word of an engine command. -/
def finishCmd (s : State) : State := commandStop (spend s)

/-- What a word's own action leads to. -/
def finishAct (i : Instr) (a : Act) : State :=
  match a with
  | .done s => finishWord s
  | .cmd s => finishCmd s
  | .resumed s => spend s
  | .out s => s
  | .trap s tr => scalarTrap i s tr false
  | .after s tr => scalarTrap i s tr true
  | .wait s => waitAt i s
  | .held q =>
    match q.2 with
    | some (t, l) => if t.cause = 0 then waitAt i q.1 else columnTrap q.1 t l
    | none => waitAt i q.1

/-- The front decodes ahead of the columns (R40); the exact timing of a timed domain leaves no choice (R53). -/
def State.runsAhead (s : State) : Bool := s.ahead && !s.t.timed

/-- A scalar-class word runs: `body` acts on the state with the queue drained where the front does not run ahead. -/
def scalarWord (i : Instr) (body : State → Act) (s : State) : Out :=
  match memberForm s with
  | some tr => .next (decodeTrap s tr)
  | none =>
    let r := if s.runsAhead then (s, none) else drain s
    match r.2 with
    | some (t, l) => .next (if t.cause ≠ 0 then columnTrap r.1 t l else finishAct i (body r.1))
    | none => .next (finishAct i (body r.1))

/-- Scalar registers that words not yet retired will write (R44), and those that appends write at their strip's commit
(R194). -/
def queuedDests (s : State) : List GReg := s.t.queue.flatMap fun cv => cv.entries.filterMap fun e => scalarDest e.instr
def appendDests (s : State) : List GReg := s.t.strip.elim [] fun p => p.apps.map fun a => Fin.ofNat 128 a.dest
def pendingDests (s : State) : List GReg := queuedDests s ++ appendDests s

/-- One of the registers rs is among ds; g0 is nobody's result. -/
def awaits (rs ds : List GReg) : Bool := rs.any fun r => r != 0 && ds.contains r

/-- A register that a VAPPEND among rs writes at its strip's commit, decoded or issued (R194). -/
def awaitsAppend (s : State) (rs : List GReg) : Bool :=
  awaits rs (appendDests s) || awaits rs (s.t.queue.flatMap fun cv => cv.entries.filterMap fun e =>
    match e.instr with | .vappend a .. => some a | _ => none)

/-- Registers rs written by the columns: what is decoded has run, in a timed domain so much of it as writes them, and for a
VAPPEND's register its strip has committed (R194). -/
def runFor (s : State) (rs : List GReg) : Run :=
  let r := if awaits rs (queuedDests s) then
      (if s.t.timed then drainWhile (fun s => awaits rs (queuedDests s)) s else drain s)
    else (s, none)
  match r.2 with
  | some _ => r
  | none => if awaits rs (appendDests r.1) then closeStrip r.1 else r

/-- Registers rs, whose latencies have passed, are written by the columns before the word goes on (R44); a timed task does not
wait for a commit (R53). -/
def settledNow (s : State) (rs : List GReg) (f : State → Act) : Act :=
  if !awaits rs (pendingDests s) then f s
  else if s.t.timed && awaitsAppend s rs then .trap s (timingTrap s.t.cycle s.t.origin 0)
  else
    let r := runFor s rs
    match r.2 with
    | some _ => .held r
    | none => f r.1

/-- A word that writes ds and reads rs issues once their latencies have passed (R44, R61); in a timed domain the stall
is timing reason 0 (R53). -/
def settled (s : State) (ds rs : List GReg) (f : State → Act) : Act :=
  let n := readyCycle s.t ds rs
  if s.t.cycle < n then
    if s.t.timed then .trap s (timingTrap s.t.cycle s.t.origin 0)
    else settledNow { s with t := { s.t with cycle := n } } (ds ++ rs) f
  else settledNow s (ds ++ rs) f

/-- A word that only computes: registers read and written settled, the result written after a latency of n, the next
word. -/
def computeIn (n : Nat) (i : Instr) (reads : List GReg) (dest : GReg) (f : State → Word) (s : State) : Out :=
  scalarWord i (fun s => settled s [dest] reads fun s => .done ((s.setG dest (f s)).lateBy dest n).seq) s

/-- A word that only computes, in one cycle. -/
def compute (i : Instr) (reads : List GReg) (dest : GReg) (f : State → Word) (s : State) : Out :=
  computeIn 1 i reads dest f s

/-- Everything decoded has run and its strip has committed, then go on (R83, R127). -/
def committed (s : State) (f : State → Act) : Act :=
  let r := drainClose s
  match r.2 with
  | some _ => .held r
  | none => f r.1

/-! ## How a vector-class word runs (R40, R82, R137, R337) -/

/-- The bindings that the words decoded before leave, from those that stand (R192): VRELEASE ends them all. -/
def bindings (s : State) : List Nat :=
  let es := (s.t.queue.flatMap Convoy.entries) ++ s.t.conv.elim [] fun c => c.cv.entries
  es.foldl (fun bs e =>
    match e.instr with
    | .vbind a _ => (phys e.modes a.val).val :: bs
    | .vunbind a => bs.filter fun p => p != (phys e.modes a.val).val
    | .vrelease => []
    | _ => bs) (if s.c.holder = some s.t.front then s.c.lanes.bind.map Prod.fst else [])

/-- What a vector-class word captures at decode. DESIGN CHOICE: its position in the instruction count is the number of
vector-class words before it, so the first has 0; R82 and R95 do not say (notes/assumptions/35.md). -/
def capture (i : Instr) (s : State) : Entry :=
  { instr := i, hdr := (s.t.conv.map fun c => c.cv.hdr).getD 0, modes := s.t.modes, count := s.t.count,
    gb := (scalarB i).elim 0 s.g, gc := (scalarC i).elim 0 s.g,
    plan := (planReg i).elim 0 fun f => s.t.f[f], bound := bindings s,
    decoded := s.t.conv.elim 0 Conv.start, lead := s.t.conv.all fun c => c.next == 0,
    delay := s.t.conv.elim 0 fun c => (delaysOf c.cv.word).2.getD c.next 0 }

/-- VLMAX of an element width (R174). -/
def vlMax (ty : Nat) : Nat := Nat.min 4096 (32768 / typeBits ty)

/-- What SETVL, VMSEL and MSHAPE do at decode (R174, R191, R200). -/
def atDecode (i : Instr) (e : Entry) (s : State) : State :=
  let m := s.t.modes
  match i with
  | .setvl a _ ty =>
    let n := Nat.min e.gb.toNat (vlMax ty.val)
    let s := { s with t := { s.t with modes := { m with vtype := BitVec.ofNat 4 ty.val, vl := BitVec.ofNat 13 n } } }
    s.setG a (BitVec.ofNat 64 n)
  | .vmsel a => { s with t := { s.t with modes := { m with vmask := BitVec.ofNat 4 a.val } } }
  | .mshape a _ =>
    let x := grantShape m.mtype.toNat e.gb.toNat
    let s := { s with t := { s.t with modes := { m with shape := BitVec.ofNat 48 x } } }
    s.setG a (BitVec.ofNat 64 x)
  | _ => s

/-- SETVL captures the type it sets and the length it grants; the others capture what stands before them (R82). -/
def captured (i : Instr) (s s' : State) : Entry :=
  match i with
  | .setvl .. => { capture i s with modes := s'.t.modes }
  | _ => capture i s

/-- The scalar registers that a vector-class word captures. -/
def capturedRegs (i : Instr) : List GReg := [scalarB i, scalarC i].filterMap id

/-- In a timed domain the capture of a vector-class word would have to wait: timing reason 0 (R44, R53). -/
def captureStalls (i : Instr) (s : State) : Bool :=
  s.t.timed && (decide (s.t.cycle < readyCycle s.t [] (capturedRegs i)) || awaitsAppend s (capturedRegs i))

/-- The trap of a vector-class word whose capture would have to wait: what its own fields break comes first (R337). -/
def stallTrap (i : Instr) (s : State) (c : Conv) : Trap :=
  (wordTrap i (capture i s) c.cv.word c.next (c.cnt + 1) s.t.vmax s.t.inHandler).getD (timingTrap s.t.cycle s.t.origin 0)

/-- Registers a vector-class word captures that an earlier member of its convoy writes: the capture takes the value
that member writes (R44), found by running the members before it. -/
def operandState (i : Instr) (s : State) (c : Conv) : R State :=
  let rs := capturedRegs i
  let ds := c.cv.entries.filterMap fun e => scalarDest e.instr
  if rs.any fun r => r != 0 && ds.contains r then
    if s.t.timed then .error (stallTrap i s c)
    else if s.t.queue ≠ [] ∨ (s.c.holder ≠ none ∧ s.c.holder ≠ some s.t.front) then .error waits
    else
      (c.cv.entries.foldlM (fun s e => runEntry e s) (if s.c.holder = none then takeLanes s else s)).map fun x =>
        { s with t := { s.t with g := x.t.g } }
  else .ok s

/-- Registers that earlier convoys write are written before a vector-class word captures them (R44): the state, or
where the columns stop. -/
def capturable (i : Instr) (s : State) : Run :=
  let n := readyCycle s.t [] (capturedRegs i)
  runFor (if s.t.cycle < n then { s with t := { s.t with cycle := n } } else s) (capturedRegs i)

/-- The front past the convoy it was decoding, with q decoded and not retired. -/
def State.pastConvoy (s : State) (q : List Convoy) : State :=
  { s with t := nextWord { s.t with conv := none, queue := q } }

/-- The last member of a convoy has been decoded: the front goes on, and the columns run unless it runs ahead. -/
def convoyDecoded (s : State) (c : Conv) : State :=
  match scheduleConvoy s c.cv c.start with
  | .error t => decodeTrap s t
  | .ok (s, cv) =>
    let s := s.pastConvoy (s.t.queue ++ [cv])
    if s.runsAhead then s
    else
      let r := drain s
      match r.2 with
      | some (t, l) => if t.cause = 0 then r.1 else columnTrap r.1 t l
      | none => r.1

/-- Batches that a command names. -/
def cmdBatch (i : Instr) : Nat :=
  match i with
  | .lcpy _ _ _ _ _ n | .istream _ n | .txsub _ _ n | .launch _ n | .mmaA _ n _ _ | .mmasA _ n _ _ => n.val
  | _ => 0

/-- Commands of the held set (R231). -/
def heldCount (c : Core) : Nat := (c.cmds.filter fun d => !d.forked && !d.done).length

/-- Commands of a task that have been decoded and not forked. -/
def unforked (c : Core) (launch task : Nat) : Nat := (c.cmds.filter fun d => d.ofTask launch task && !d.forked && !d.done).length

/-- Entries a save would have to write: one for a member not retired, two for a command not forked (R41). -/
def decodedCount (s : State) : Nat :=
  (if s.t.timed then (s.c.pipe.filter fun p => s.t.cycle < p.retire).length
   else (s.t.queue.map fun cv => if cv.cmd.isSome then 0 else cv.entries.length).sum) + 2 * unforked s.c s.t.launch s.t.task

/-- The command's batch belongs to another task, or the held set is full (R227, R231). -/
def captureFull (s : State) (i : Instr) : Bool :=
  16 ≤ heldCount s.c ||
  (match (s.c.batches[Fin.ofNat 8 (cmdBatch i)]).owner with
   | none => false
   | some o => o != (s.t.launch, s.t.task))

/-- A command can be captured: there is room for it in the held set and among the decoded entries too (R41). -/
def canCapture (s : State) (i : Instr) : Bool := !captureFull s i && decodedCount s + 2 ≤ 64

/-- The offset register of a command's start cycle (R54). -/
def startOf (i : Instr) (regs : List Word) : Nat :=
  match i with
  | .lcpy .. => (regs[8]?.getD 0).toNat % 2 ^ 32
  | _ => (regs[0]?.getD 0).toNat / 2 ^ 32

/-- A command is captured (R49): it joins its batch's open group and takes its place among the decoded entries. -/
def captureCmd (s : State) (i : Instr) (regs : List Word) (entries : List Entry) (hdr word : Nat) : State :=
  let t := s.t
  let n := Fin.ofNat 8 (cmdBatch i)
  let d : Cmd :=
    { id := s.c.nextCmd, instr := i, addr := t.pc.toNat, batch := n.val, launch := t.launch, task := t.task,
      frame := t.frame, fn := t.fn, front := t.front, regs := regs, modes := t.modes, count := t.count, segs := t.segs,
      sealed := t.timed, timed := t.timed, start := t.origin + startOf i regs, origin := t.origin }
  let b := s.c.batches[n]
  let c := { s.c with cmds := s.c.cmds ++ [d], nextCmd := s.c.nextCmd + 1,
                      batches := s.c.batches.set n.val { b with owner := some (t.launch, t.task) } n.isLt }
  let cv : Convoy := { hdr := hdr, word := word, entries := entries, cmd := some d.id, due := retireCycle s }
  { s with c := c, t := { t with queue := t.queue ++ [cv] } }

/-- A timed command decoded on or after its start cycle, or that cannot be captured (R54, R341). -/
def captureTrap (s : State) (i : Instr) (regs : List Word) : Option Trap :=
  if !s.t.timed then none
  else if captureFull s i then some (timingTrap s.t.cycle s.t.origin 4)
  else if !canCapture s i then some (timingTrap s.t.cycle s.t.origin 1)
  else if s.t.origin + startOf i regs ≤ s.t.cycle then some (timingTrap s.t.cycle s.t.origin 9)
  else none

/-- MMA.A and MMAS.A, alone in their convoy (R207): captured as an engine command. -/
def matrixCommand (i : Instr) (e : Entry) (s : State) (c : Conv) : State :=
  match captureTrap s i [e.gc] with
  | some tr => decodeTrap s tr
  | none =>
    if !canCapture s i then waitAt i s
    else
      let s := captureCmd { s with t := { s.t with count := s.t.count + 1 } } i [e.gc] [e] c.cv.hdr c.cv.word
      let s := finishCmd { s with t := nextWord { s.t with conv := none } }
      if s.runsAhead then s
      else
        let r := drain s
        match r.2 with
        | some (t, l) => if t.cause = 0 then r.1 else columnTrap r.1 t l
        | none => r.1

/-- A member counted, its cycle spent. -/
def State.counted (s : State) : State :=
  { s with cycle := Nat.max s.cycle (s.t.cycle + 1),
           t := { s.t with count := s.t.count + 1, cycle := s.t.cycle + 1, wait := none } }

/-- A member that has passed its checks joins its convoy, which issues when its last member has been decoded. -/
def joinConvoy (s : State) (c : Conv) (e : Entry) : State :=
  let s := s.counted
  let c := { c with cv := { c.cv with entries := c.cv.entries ++ [e] } }
  if c.next < c.cnt then { s with t := { s.t with pc := s.t.pc + 4, conv := some { c with next := c.next + 1 } } }
  else stepStop (convoyDecoded s c)

/-- A member is decoded: it captures its operands and state, acts at decode, and is checked. -/
def decodeMember (i : Instr) (s : State) (c : Conv) : State :=
  match operandState i s c with
  | .error t =>
    if t.cause = 0 then
      let r := drain s
      match r.2 with
      | some (t, l) => if t.cause = 0 then waitAt i r.1 else columnTrap r.1 t l
      | none => waitAt i r.1
    else decodeTrap s t
  | .ok s1 =>
    let s2 := atDecode i (capture i s1) s1
    let e := captured i s1 s2
    match memberTrap i e c.cv.word c.next (c.cnt + 1) s.t.vmax s.t.inHandler with
    | some tr => decodeTrap s tr
    | none =>
      if asyncProduct i then matrixCommand i e s c else joinConvoy s2 c e

/-- Sixteen members wait on the queue of the word's column, which the columns have to shorten first (R40); in a timed domain
that is checked as the member takes its place. -/
def columnFull (i : Instr) (s : State) (c : Conv) : Bool :=
  let n := ((s.t.queue.flatMap Convoy.entries ++ c.cv.entries).filter fun e =>
    columnOf e.instr == columnOf i && (columnOf i).isSome).length
  !s.t.timed && 16 ≤ n

/-- A vector-class word is decoded (R40): outside a convoy it is cause 0x03 kind 3. -/
def vecWord (i : Instr) (s : State) : Out :=
  match s.t.conv with
  | none => .next (scalarTrap i s { cause := 0x03, info := wordNat i + 3 * 2 ^ 32 } false)
  | some c =>
    if captureStalls i s then .next (decodeTrap s (stallTrap i s c)) else
    let r := if columnFull i s c then drain s else (s, none)
    let r := match r.2 with | some _ => r | none => capturable i r.1
    match r.2 with
    | some (t, l) => .next (if t.cause = 0 then waitAt i r.1 else columnTrap r.1 t l)
    | none => .next (decodeMember i r.1 c)

end Sys2Proof.Machine
end

