-- ==== Sys2Proof/Machine/Front.lean ====
section
/-! DEFINITION. Which front has its task and core in `t` and `c`: bringing another front forward, and acting on a front
from outside (an event names the front it acts on). -/

namespace Sys2Proof.Machine

/-- The task that stands on a front, running or not. -/
def State.rawTask (s : State) (core front : Nat) : Task :=
  if s.t.core = core ∧ s.t.front = front then s.t
  else (s.tasks.find? fun t => t.core == core && t.front == front).getD { core := core, front := front, cycle := s.cycle }

/-- Front k = 2 × core + front comes forward; a free task goes on at the package's cycle. -/
def State.select (s : State) (k : Nat) : State :=
  let n := k / 2
  let f := k % 2
  if s.t.core = n ∧ s.t.front = f ∧ s.c.num = n then s
  else
    let t := s.rawTask n f
    let t := if t.timed then t else { t with cycle := Nat.max t.cycle s.cycle }
    let c := s.coreAt n
    { s with
      cur := k, t := t, c := c,
      tasks := (if s.t.core = n ∧ s.t.front = f then s.tasks else s.t :: s.tasks).filter fun u => !(u.core == n && u.front == f),
      cores := (if s.c.num = n then s.cores else s.c :: s.cores).filter fun d => d.num != n }

/-- The number of a task's front. -/
def Task.front2 (t : Task) : Nat := 2 * t.core + t.front

/-- f acts on a front; the front whose turn it is stays the same. -/
def onFront (core front : Nat) (f : State → State) (s : State) : State :=
  let k := s.t.front2
  (f (s.select (2 * core + front))).select k

/-- The next front to move when the current one waits or is idle: the running tasks in turn. -/
def State.rotate (s : State) : State :=
  match (s.tasks.filter fun t => t.live).getLast? with
  | none => s
  | some t => s.select t.front2

/-- Words of the vector class, by OPC (R138). -/
def vectorClass (opc : Nat) : Bool :=
  (0x30 ≤ opc && opc ≤ 0x42) || (0x50 ≤ opc && opc ≤ 0x52) || (0x70 ≤ opc && opc ≤ 0x74)

/-- The n-th number that came with an event. -/
def State.arg (s : State) (k : Nat) : Nat := s.input.n.getD k 0

end Sys2Proof.Machine
end

