-- ==== Sys2Proof/Machine/Alu.lean ====
section
/-! DEFINITION. The scalar words that only compute: ALU (R147), MULDIV (R148), BIT (R149), the immediate forms (R150),
the constants (R151) and the pointer group (R152). -/

namespace Sys2Proof.Machine

/-! ## Results -/

/-- 1 or 0. -/
def truth (p : Bool) : Word := if p then 1 else 0

/-- A shift amount: the low six bits (R147). -/
def shamt (w : Word) : Nat := w.toNat % 64

/-- A length field: 0 means 64 (R149). -/
def lenField (n : Nat) : Nat := if n % 64 = 0 then 64 else n % 64

/-- zext of the low n bits. -/
def zextN (w : Word) (n : Nat) : Word := BitVec.ofNat 64 (w.toNat % 2 ^ n)

/-- sext of the low n bits (R12). -/
def sextN (w : Word) (n : Nat) : Word := BitVec.ofInt 64 (signed w.toNat n)

/-- Leading zero bits, 64 of zero. -/
def leadingZeros (w : Word) : Nat := 64 - (if w = 0 then 0 else Nat.log2 w.toNat + 1)

/-- Trailing zero bits, 64 of zero. -/
def trailingZeros (w : Word) : Nat := (firstSet w.toNat 64).getD 64

/-- Bit i of the result is bit 63 - i. -/
def bitReverse (w : Word) : Word := w.reverse

/-- Byte k of the result is byte 7 - k. -/
def byteSwap (w : Word) : Word :=
  BitVec.ofNat 64 ((List.range 8).foldl (fun acc k => acc + field w.toNat (8 * k) 8 * 2 ^ (8 * (7 - k))) 0)

/-- INS (R149): bits that would lie above 63 are dropped. -/
def insertField (old src : Word) (pos n : Nat) : Word := BitVec.ofNat 64 (splice old.toNat pos n src.toNat % 2 ^ 64)

/-- The signed quotient rounded toward zero; all ones by zero (R148). -/
def divS (x y : Word) : Word := if y = 0 then BitVec.allOnes 64 else BitVec.ofInt 64 (x.toInt.tdiv y.toInt)
/-- The signed remainder, with the dividend's sign. -/
def remS (x y : Word) : Word := if y = 0 then BitVec.allOnes 64 else BitVec.ofInt 64 (x.toInt.tmod y.toInt)
/-- The unsigned quotient and remainder. -/
def divU (x y : Word) : Word := if y = 0 then BitVec.allOnes 64 else BitVec.ofNat 64 (x.toNat / y.toNat)
def remU (x y : Word) : Word := if y = 0 then BitVec.allOnes 64 else BitVec.ofNat 64 (x.toNat % y.toNat)
/-- Bits 127:64 of a product. -/
def mulHi (x y : Int) : Word := BitVec.ofInt 64 (x * y / 2 ^ 64)

/-! ## ALU (R147) -/

/-- The wrapping sum. -/
def execAdd (a : GReg) (b : GReg) (c : GReg) (s : State) : Out :=
  compute (.add a b c) [b, c] a (fun s => s.g b + s.g c) s

/-- The wrapping difference. -/
def execSub (a : GReg) (b : GReg) (c : GReg) (s : State) : Out :=
  compute (.sub a b c) [b, c] a (fun s => s.g b - s.g c) s

/-- AND. -/
def execAnd (a : GReg) (b : GReg) (c : GReg) (s : State) : Out :=
  compute (.and a b c) [b, c] a (fun s => s.g b &&& s.g c) s

/-- OR. -/
def execOr (a : GReg) (b : GReg) (c : GReg) (s : State) : Out :=
  compute (.or a b c) [b, c] a (fun s => s.g b ||| s.g c) s

/-- XOR. -/
def execXor (a : GReg) (b : GReg) (c : GReg) (s : State) : Out :=
  compute (.xor a b c) [b, c] a (fun s => s.g b ^^^ s.g c) s

/-- gB shifted left by gC[5:0]. -/
def execSll (a : GReg) (b : GReg) (c : GReg) (s : State) : Out :=
  compute (.sll a b c) [b, c] a (fun s => s.g b <<< shamt (s.g c)) s

/-- gB shifted right, zeros in. -/
def execSrl (a : GReg) (b : GReg) (c : GReg) (s : State) : Out :=
  compute (.srl a b c) [b, c] a (fun s => s.g b >>> shamt (s.g c)) s

/-- gB shifted right, copies of its sign in. -/
def execSra (a : GReg) (b : GReg) (c : GReg) (s : State) : Out :=
  compute (.sra a b c) [b, c] a (fun s => (s.g b).sshiftRight (shamt (s.g c))) s

/-- The smaller, unsigned. -/
def execMin (a : GReg) (b : GReg) (c : GReg) (s : State) : Out :=
  compute (.min a b c) [b, c] a (fun s => if (s.g b).toNat ≤ (s.g c).toNat then s.g b else s.g c) s

/-- The larger, unsigned. -/
def execMax (a : GReg) (b : GReg) (c : GReg) (s : State) : Out :=
  compute (.max a b c) [b, c] a (fun s => if (s.g b).toNat ≤ (s.g c).toNat then s.g c else s.g b) s

/-- The smaller, signed. -/
def execMins (a : GReg) (b : GReg) (c : GReg) (s : State) : Out :=
  compute (.mins a b c) [b, c] a (fun s => if (s.g b).toInt ≤ (s.g c).toInt then s.g b else s.g c) s

/-- The larger, signed. -/
def execMaxs (a : GReg) (b : GReg) (c : GReg) (s : State) : Out :=
  compute (.maxs a b c) [b, c] a (fun s => if (s.g b).toInt ≤ (s.g c).toInt then s.g c else s.g b) s

/-- 1 if gB is less, unsigned. -/
def execSlt (a : GReg) (b : GReg) (c : GReg) (s : State) : Out :=
  compute (.slt a b c) [b, c] a (fun s => truth (decide ((s.g b).toNat < (s.g c).toNat))) s

/-- 1 if gB is less, signed. -/
def execSlts (a : GReg) (b : GReg) (c : GReg) (s : State) : Out :=
  compute (.slts a b c) [b, c] a (fun s => truth (decide ((s.g b).toInt < (s.g c).toInt))) s

/-- gB if gC is not zero, else gA stays. -/
def execSel (a : GReg) (b : GReg) (c : GReg) (s : State) : Out :=
  compute (.sel a b c) [a, b, c] a (fun s => if s.g c ≠ 0 then s.g b else s.g a) s

/-! ## MULDIV (R148) -/

/-- The low 64 bits of the product. -/
def execMul (a : GReg) (b : GReg) (c : GReg) (s : State) : Out :=
  computeIn 3 (.mul a b c) [b, c] a (fun s => s.g b * s.g c) s

/-- The high 64 bits, unsigned. -/
def execMulh (a : GReg) (b : GReg) (c : GReg) (s : State) : Out :=
  computeIn 4 (.mulh a b c) [b, c] a (fun s => mulHi (s.g b).toNat (s.g c).toNat) s

/-- The high 64 bits, signed. -/
def execMulhs (a : GReg) (b : GReg) (c : GReg) (s : State) : Out :=
  computeIn 4 (.mulhs a b c) [b, c] a (fun s => mulHi (s.g b).toInt (s.g c).toInt) s

/-- The unsigned quotient. -/
def execDiv (a : GReg) (b : GReg) (c : GReg) (s : State) : Out :=
  computeIn 20 (.div a b c) [b, c] a (fun s => divU (s.g b) (s.g c)) s

/-- The signed quotient, rounded toward zero. -/
def execDivs (a : GReg) (b : GReg) (c : GReg) (s : State) : Out :=
  computeIn 20 (.divs a b c) [b, c] a (fun s => divS (s.g b) (s.g c)) s

/-- The unsigned remainder. -/
def execRem (a : GReg) (b : GReg) (c : GReg) (s : State) : Out :=
  computeIn 20 (.rem a b c) [b, c] a (fun s => remU (s.g b) (s.g c)) s

/-- The signed remainder, with the dividend's sign. -/
def execRems (a : GReg) (b : GReg) (c : GReg) (s : State) : Out :=
  computeIn 20 (.rems a b c) [b, c] a (fun s => remS (s.g b) (s.g c)) s

/-! ## BIT (R149) -/

/-- Leading zero bits. -/
def execClz (a : GReg) (b : GReg) (s : State) : Out :=
  compute (.clz a b) [b] a (fun s => BitVec.ofNat 64 (leadingZeros (s.g b))) s

/-- Trailing zero bits. -/
def execCtz (a : GReg) (b : GReg) (s : State) : Out :=
  compute (.ctz a b) [b] a (fun s => BitVec.ofNat 64 (trailingZeros (s.g b))) s

/-- 1 bits. -/
def execPopc (a : GReg) (b : GReg) (s : State) : Out :=
  compute (.popc a b) [b] a (fun s => BitVec.ofNat 64 (popCount (s.g b).toNat 64)) s

/-- Bits reversed. -/
def execBrev (a : GReg) (b : GReg) (s : State) : Out :=
  compute (.brev a b) [b] a (fun s => bitReverse (s.g b)) s

/-- Bytes reversed. -/
def execBswap (a : GReg) (b : GReg) (s : State) : Out :=
  compute (.bswap a b) [b] a (fun s => byteSwap (s.g b)) s

/-- The low n bits of gB, sign-extended, n = gC[5:0]. -/
def execSext (a : GReg) (b : GReg) (c : GReg) (s : State) : Out :=
  compute (.sext a b c) [b, c] a (fun s => sextN (s.g b) (lenField (s.g c).toNat)) s

/-- The low n bits of gB, n = gC[5:0]. -/
def execZext (a : GReg) (b : GReg) (c : GReg) (s : State) : Out :=
  compute (.zext a b c) [b, c] a (fun s => zextN (s.g b) (lenField (s.g c).toNat)) s

/-- n bits of gB from pos = gC[5:0], n = gC[13:8]. -/
def execExtr (a : GReg) (b : GReg) (c : GReg) (s : State) : Out :=
  compute (.extr a b c) [b, c] a (fun s => zextN (s.g b >>> shamt (s.g c)) (lenField ((s.g c).toNat / 256))) s

/-- The low n bits of gB into gA at pos. -/
def execIns (a : GReg) (b : GReg) (c : GReg) (s : State) : Out :=
  compute (.ins a b c) [a, b, c] a (fun s => insertField (s.g a) (s.g b) (shamt (s.g c)) (lenField ((s.g c).toNat / 256))) s

/-! ## Immediate forms (R150) -/

/-- The wrapping sum with the sign-extended immediate. -/
def execAddi (a : GReg) (b : GReg) (imm : BitVec 11) (s : State) : Out :=
  compute (.addi a b imm) [b] a (fun s => s.g b + sext11 imm) s

/-- AND with the zero-extended immediate. -/
def execAndi (a : GReg) (b : GReg) (imm : BitVec 11) (s : State) : Out :=
  compute (.andi a b imm) [b] a (fun s => s.g b &&& imm.zeroExtend 64) s

/-- OR. -/
def execOri (a : GReg) (b : GReg) (imm : BitVec 11) (s : State) : Out :=
  compute (.ori a b imm) [b] a (fun s => s.g b ||| imm.zeroExtend 64) s

/-- XOR. -/
def execXori (a : GReg) (b : GReg) (imm : BitVec 11) (s : State) : Out :=
  compute (.xori a b imm) [b] a (fun s => s.g b ^^^ imm.zeroExtend 64) s

/-- 1 if gB is less than the sign-extended immediate, unsigned. -/
def execSlti (a : GReg) (b : GReg) (imm : BitVec 11) (s : State) : Out :=
  compute (.slti a b imm) [b] a (fun s => truth (decide ((s.g b).toNat < (sext11 imm).toNat))) s

/-- 1 if gB is less, signed. -/
def execSltis (a : GReg) (b : GReg) (imm : BitVec 11) (s : State) : Out :=
  compute (.sltis a b imm) [b] a (fun s => truth (decide ((s.g b).toInt < (sext11 imm).toInt))) s

/-- SLL by sh. -/
def execSlli (a : GReg) (b : GReg) (sh : Fin 64) (s : State) : Out :=
  compute (.slli a b sh) [b] a (fun s => s.g b <<< sh.val) s

/-- SRL by sh. -/
def execSrli (a : GReg) (b : GReg) (sh : Fin 64) (s : State) : Out :=
  compute (.srli a b sh) [b] a (fun s => s.g b >>> sh.val) s

/-- SRA by sh. -/
def execSrai (a : GReg) (b : GReg) (sh : Fin 64) (s : State) : Out :=
  compute (.srai a b sh) [b] a (fun s => (s.g b).sshiftRight sh.val) s

/-! ## Constants (R151) -/

/-- The sign-extended immediate, shifted left by 14. -/
def execLui (a : GReg) (imm : BitVec 18) (s : State) : Out :=
  compute (.lui a imm) [] a (fun _ => imm.signExtend 64 <<< 14) s

/-- gA shifted left by 18, the immediate below it. -/
def execLsh (a : GReg) (imm : BitVec 18) (s : State) : Out :=
  compute (.lsh a imm) [a] a (fun s => s.g a <<< 18 ||| imm.zeroExtend 64) s

/-! ## The pointer group (R152) -/

/-- gB's segment, its offset moved by gC modulo 2^60. -/
def execPadd (a : GReg) (b : GReg) (c : GReg) (s : State) : Out :=
  compute (.padd a b c) [b, c] a (fun s => ptrAdd (s.g b) (s.g c).toNat) s

/-- Segment gB[3:0], offset gC[59:0]. -/
def execPmk (a : GReg) (b : GReg) (c : GReg) (s : State) : Out :=
  compute (.pmk a b c) [b, c] a (fun s => BitVec.ofNat 64 (mkPtr (s.g b).toNat (s.g c).toNat)) s

/-- The segment of gB. -/
def execPseg (a : GReg) (b : GReg) (s : State) : Out :=
  compute (.pseg a b) [b] a (fun s => BitVec.ofNat 64 ((s.g b).toNat / 2 ^ 60)) s

/-- The offset of gB. -/
def execPoff (a : GReg) (b : GReg) (s : State) : Out :=
  compute (.poff a b) [b] a (fun s => BitVec.ofNat 64 (ptrOff (s.g b).toNat)) s

/-- PADD with the sign-extended immediate, in bytes. -/
def execPaddi (a : GReg) (b : GReg) (imm : BitVec 11) (s : State) : Out :=
  compute (.paddi a b imm) [b] a (fun s => ptrAdd (s.g b) imm.toInt) s

end Sys2Proof.Machine
end

