-- ==== Sys2Proof/Machine/Branch.lean ====
section
/-! DEFINITION. Branches, jumps and the hardware loops (R135, R155 to R158). -/

namespace Sys2Proof.Machine

/-- The target of an immediate branch or jump: the word's own address plus four times the offset (R135). -/
def target (pc : Word) (off : Int) : Word := pc + BitVec.ofInt 64 (4 * off)

/-- A branch: taken, it leaves the bodies whose range it leaves (R158). -/
def branchWord (i : Instr) (a b : GReg) (imm : BitVec 11) (p : Word → Word → Bool) (s : State) : Out :=
  scalarWord i (fun s => settled s [] [a, b] fun s =>
    if p (s.g a) (s.g b) then
      let dst := target s.t.pc imm.toInt
      .done { s with t := jumpTo (leaveBodies s.t dst) dst }
    else .done s.seq) s

/-- Taken when gA is equal. -/
def execBeq (a b : GReg) (imm : BitVec 11) (s : State) : Out := branchWord (.beq a b imm) a b imm (fun x y => x == y) s

/-- Taken when gA is not equal. -/
def execBne (a b : GReg) (imm : BitVec 11) (s : State) : Out := branchWord (.bne a b imm) a b imm (fun x y => x != y) s

/-- Taken when gA is less, unsigned. -/
def execBlt (a b : GReg) (imm : BitVec 11) (s : State) : Out := branchWord (.blt a b imm) a b imm (fun x y => decide (x.toNat < y.toNat)) s

/-- Taken when gA is not less, unsigned. -/
def execBge (a b : GReg) (imm : BitVec 11) (s : State) : Out := branchWord (.bge a b imm) a b imm (fun x y => decide (y.toNat ≤ x.toNat)) s

/-- Taken when gA is less, signed. -/
def execBlts (a b : GReg) (imm : BitVec 11) (s : State) : Out := branchWord (.blts a b imm) a b imm (fun x y => decide (x.toInt < y.toInt)) s

/-- Taken when gA is not less, signed. -/
def execBges (a b : GReg) (imm : BitVec 11) (s : State) : Out := branchWord (.bges a b imm) a b imm (fun x y => decide (y.toInt ≤ x.toInt)) s

/-- J: always taken. -/
def execJ (imm : BitVec 25) (s : State) : Out :=
  scalarWord (.j imm) (fun s =>
    let dst := target s.t.pc imm.toInt
    .done { s with t := jumpTo (leaveBodies s.t dst) dst }) s

/-- JAL: g1 takes the address of the word after; no level is disarmed. -/
def execJal (imm : BitVec 25) (s : State) : Out :=
  scalarWord (.jal imm) (fun s => settled s [1] [] fun s =>
    let dst := target s.t.pc imm.toInt
    let s := s.setG 1 (s.t.pc + 4)
    .done { s with t := jumpTo s.t dst }) s

/-- A register target must be a word's address: cause 0x11, TINFO the target (R155, Table 20-4). -/
def badTarget (dst : Word) : Option Trap := if dst.toNat % 4 ≠ 0 then some { cause := 0x11, info := dst.toNat } else none

/-- JR: the target is gB. -/
def execJr (b : GReg) (s : State) : Out :=
  scalarWord (.jr b) (fun s => settled s [] [b] fun s =>
    let dst := s.g b
    match badTarget dst with
    | some t => .trap s t
    | none => .done { s with t := jumpTo (leaveBodies s.t dst) dst }) s

/-- JALR: gB is read before gA is written; no level is disarmed. -/
def execJalr (a b : GReg) (s : State) : Out :=
  scalarWord (.jalr a b) (fun s => settled s [a] [b] fun s =>
    let dst := s.g b
    match badTarget dst with
    | some t => .trap s t
    | none =>
      let s := s.setG a (s.t.pc + 4)
      .done { s with t := jumpTo s.t dst }) s

/-- LOOP k, gB, label (R156): a count of zero skips the body. -/
def execLoop (k : Fin 2) (b : GReg) (len : BitVec 11) (s : State) : Out :=
  scalarWord (.loop k b len) (fun s => if len = 0 then .trap s (illegal (.loop k b len) 5 0x7FF) else settled s [] [b] fun s =>
    let p := s.t.pc
    let last := p + 4 + BitVec.ofNat 64 (4 * len.toNat)
    if s.g b = 0 then .done { s with t := jumpTo s.t last }
    else .done { s with t := flowTo (s.t.setLoop k { lb := p + 4, le := last ||| 1, lc := s.g b }) (p + 4) }) s

/-- LCLR disarms the levels of its mask (R158). -/
def execLclr (mask : Fin 4) (s : State) : Out :=
  scalarWord (.lclr mask) (fun s =>
    let f (t : Task) (k : Fin 2) : Task :=
      if mask.val.testBit k.val then t.setLoop k ((t.loops[k]).arm false) else t
    .done { s with t := f (f s.t 0) 1 }.seq) s

end Sys2Proof.Machine
end

