-- ==== Sys2Proof/Machine/SchedOps.lean ====
section
/-! DEFINITION. What the scheduler knows of launches, tasks and units (R28 to R30, R51, R277 to R279), and the end of a
task and of a SEQ instance (R30, R163, R227). -/

namespace Sys2Proof.Machine

/-! ## Levels, indices and units (R28, R29, R51) -/

/-- The hardware-bound levels: they precede every SEQ level. -/
def Rec.hw (r : Rec) : List Level := r.levels.takeWhile fun l => l.binding != 0

/-- The product of extents. -/
def extents (ls : List Level) : Nat := (ls.map Level.extent).foldl (· * ·) 1

/-- The indices of number t, row-major over the levels (Table 4-6). -/
def indices : List Level → Nat → List Nat
  | [], _ => []
  | l :: r, t => t / extents r % l.extent :: indices r t

/-- The unit of a binding's kind that a core lies in (Table 3-1, R19). -/
def unitOf (binding core : Nat) : Nat :=
  match binding with
  | 1 => core
  | 2 => core / 36 * 9 + core % 36 / 4
  | 3 => core / 36
  | _ => 0

/-- The tasks whose indices agree at every level outside hardware level k run in one unit of level k's binding (R29):
core satisfies that for a task, given where the launch's tasks have been placed. -/
def coreFits (l : Launch) (task core : Nat) : Bool :=
  let hw := l.record.hw
  let ix := indices hw task
  (List.range hw.length).all fun k =>
    let b := (hw[k]?.map Level.binding).getD 5
    l.placed.all fun p =>
      (indices hw p.1).take k != ix.take k || unitOf b p.2 == unitOf b core

/-- The cores of a timing domain (R51): their number, and the unit code of Table 3-1. -/
def domainCores : Nat → Nat
  | 1 => 4
  | 2 => 36
  | 3 => 288
  | 4 => 1
  | _ => 0
def domainUnit : Nat → Nat
  | 1 => 2
  | 2 => 3
  | 3 => 4
  | _ => 1

/-! ## Fronts and ready tasks -/

/-- A front is free: it holds no task and no frozen context, and no timing domain has it. -/
def frontFree (s : State) (core front : Nat) : Bool :=
  (s.taskAt core front).isNone && !(s.domains.any fun d => d.cores.contains core)

/-- The busy fronts of a core. -/
def busyFronts (s : State) (core : Nat) : Nat :=
  (if (s.taskAt core 0).isSome then 1 else 0) + (if (s.taskAt core 1).isSome then 1 else 0)

/-- The frames of a launch: floor(save-area size ÷ frame size) (R277). -/
def frameCount (l : Launch) : Nat := l.record.saveSize / frameSize l.record.vmax

/-- The lowest-numbered free frame (R278). -/
def freeFrame (l : Launch) : Option Nat :=
  (List.range (l.frames.length + 1)).find? fun f => f < frameCount l && !(l.frames.any fun x => x.1 == f)

/-- A ready task: one not yet placed, or a switched-out context. -/
inductive Choice where
  | fresh (r : Ready)
  | back (v : Saved)
  deriving DecidableEq, Repr

/-- A switched-out context that may resume (R279, R363). -/
def Saved.ready (v : Saved) : Bool := v.outstanding == 0 && !v.frozen && !v.ended && !v.timed

/-- The launch of a choice, and the cycle from which it has been ready. -/
def Choice.launch : Choice → Nat
  | .fresh r => r.launch
  | .back v => v.task.launch
def Choice.since : Choice → Nat
  | .fresh r => r.since
  | .back v => v.since

/-- The priority of a launch. -/
def launchPrio (s : State) (id : Nat) : Nat := (s.launch id).elim 0 fun l => l.record.prio

/-- Every ready task. -/
def choices (s : State) : List Choice :=
  (s.saved.filter Saved.ready).map .back ++ s.readyTasks.map .fresh

/-- a goes before b: launch priority, then oldest ready first (R277). -/
def Choice.before (s : State) (a b : Choice) : Bool :=
  let pa := launchPrio s a.launch
  let pb := launchPrio s b.launch
  pb < pa || (pa == pb && a.since < b.since)

/-- A choice put into its place in an ordered list. -/
def insertChoice (s : State) (x : Choice) : List Choice → List Choice
  | [] => [x]
  | y :: r => if x.before s y then x :: y :: r else y :: insertChoice s x r

/-- The ready tasks in the order in which they are taken. -/
def ordered (s : State) : List Choice := (choices s).foldl (fun acc x => insertChoice s x acc) []

/-- A choice may run on a core once the task of front `leaving`, if one is named, has left it and given up its lanes. -/
def canRunWith (s : State) (core : Nat) (leaving : Option Nat) : Choice → Bool
  | .back v => v.task.core == core && (v.lanes.isNone || (s.coreAt core).holder.isNone || (s.coreAt core).holder == leaving)
  | .fresh r =>
    match s.launch r.launch with
    | none => false
    | some l => !l.stopped && l.record.regime == 0 && (freeFrame l).isSome && coreFits l r.task core

/-- A choice may run on a core. -/
def canRunOn (s : State) (core : Nat) (c : Choice) : Bool := canRunWith s core none c

/-- A task of equal or higher priority is ready for a front of the current core, which this one leaves (R162). -/
def yieldsTo (s : State) : Bool :=
  (choices s).any fun c => launchPrio s s.t.launch ≤ launchPrio s c.launch && canRunWith s s.t.core (some s.t.front) c

/-! ## Code addresses of a task -/

/-- The object a launch's record names. -/
def launchObj (s : State) (l : Launch) : Option Obj := s.objs.find? fun o => o.handle == l.record.handle && o.fn == l.fn

/-- The address of an offset of an object's code, in its translated image where it has one (R307). -/
def Obj.codeAddr (o : Obj) (x : Nat) : Nat := o.codeBase + if o.virt = [] then x else Config.ezbiacMap o.virt x

/-- The loader's map from the words of an object's image to the words of its virtual code (R307): the last virtual word whose
image starts at or before an offset of the image. -/
def Obj.virtualWord (o : Obj) (x : Nat) : Nat :=
  if o.virt = [] then x / 4
  else (((List.range (o.virt.length / 4)).filter fun k => decide (Config.ezbiacMap o.virt (4 * k) ≤ x)).getLast?).getD 0

/-- What the debugger reads of that map: the object whose image holds a code address, and the virtual word there. -/
def State.debugWord (s : State) (addr : Nat) : Option (Nat × Nat) :=
  (s.objs.find? fun o => decide (o.codeBase ≤ addr ∧ addr < o.codeBase + o.codeSize)).map fun o =>
    (o.handle, o.virtualWord (addr - o.codeBase))

/-- The entry address of a launch (Table 3-2). -/
def entryOf (s : State) (l : Launch) : Nat := (launchObj s l).elim 0 fun o => o.codeAddr l.record.entry

/-! ## Batches (R227) -/

/-- A batch of a core loses its owner: at once when a live owner has nothing left in it, or, once the owner's task has
ended, when its last command has completed. -/
def settleBatch (s : State) (n : Fin 8) (c : Core) : Core :=
  let b := c.batches[n]
  match b.owner with
  | none => c
  | some o =>
    let mine := c.cmds.filter fun d => d.batch == n.val && d.ofTask o.1 o.2
    let here := (s.allTasks.any fun t => t.launch == o.1 && t.task == o.2) ||
      (s.saved.any fun v => !v.ended && v.task.launch == o.1 && v.task.task == o.2)
    if here then
      if mine = [] ∧ b.lflags = 0 ∧ b.fault = false then { c with batches := c.batches.set n.val {} n.isLt } else c
    else if mine.all Cmd.done then
      { c with batches := c.batches.set n.val {} n.isLt,
               cmds := c.cmds.filter fun d => !(d.batch == n.val && d.ofTask o.1 o.2) }
    else c

/-- Every batch of core number num is settled. -/
def settleBatches (s : State) (num : Nat) : State :=
  s.setCore ((List.range 8).foldl (fun c n => settleBatch s (Fin.ofNat 8 n) c) (s.coreAt num))

/-! ## The end of a launch by a trap (R359, R391) -/

/-- The current task gives back what a discarded strip of its consumed and it will not consume again (R193). -/
def State.dropOwed (s : State) : State := { s.giveBack s.t.owed with t := { s.t with owed := [] } }

/-- The current front's task stops (R359): its open strip is discarded, and its lanes are given up once its products have
completed: until then no front of the core, but number 2, holds them. -/
def stopFront (s : State) : State :=
  let s := (if s.t.strip.isSome then discardStrip s s.stripNow else s).dropOwed
  let busy := matrixBusy s && s.c.cmds.any fun d => asyncProduct d.instr && d.forked && !d.done
  let s := if s.c.holder = some s.t.front ∧ busy then { s with c := { s.c with holder := some 2 } } else giveLanes s
  { s with t := idleTask s.t }

/-- The lanes of core num that a stopped task's products have kept are free once they have completed. -/
def State.freeStopped (s : State) (num : Nat) : State :=
  let c := s.coreAt num
  if c.holder = some 2 ∧ !(c.cmds.any fun d => asyncProduct d.instr && d.forked && !d.done) then
    (s.setCore { c with holder := none, lanes := {}, pipe := [] }).offerLanes num
  else s

/-- Commands captured and never forked are dropped, but for those of the tasks kept. -/
def dropHeld (s : State) (launch : Nat) (keep : Nat → Bool) : State :=
  let f (c : Core) : Core := { c with cmds := c.cmds.filter fun d => d.launch != launch || d.forked || keep d.task }
  { s with c := f s.c, cores := s.cores.map f }

/-- A core's pending claim passes to the launch of another task that waits there to start (R284). -/
def passClaim (s : State) (launch : Nat) (k : Claim) : Option Claim :=
  if k.launch ≠ launch then some k
  else (s.allTasks.find? fun t => t.core == k.core && t.launch != launch && t.wait == some .taskStart).map fun t =>
    { k with launch := t.launch }

/-- A saved task of a launch has no groups owed to it any more. -/
def dropSavedOwed (launch : Nat) (v : Saved) : Saved :=
  if v.task.launch = launch then { v with task := { v.task with owed := [] } } else v

/-- A LAUNCH that placed a record learns its final status (R170, R393). -/
def tellParent (s : State) (parent : Option (Nat × Nat)) (status comp : Nat) : State :=
  match parent with
  | none => s
  | some (num, id) => { s with agenda := s.agenda ++ [(.launchCommandComplete, { n := [num, id, status, comp] })] }

/-- A page request that a forked command of its context still waits for (R395). -/
def awaited (s : State) (r : Nat × Nat × Nat × Nat) : Bool :=
  s.allCores.any fun c => c.cmds.any fun d => d.forked && !d.done && d.frame * 2 ^ 48 + d.launch == r.1 && d.pages.contains r.2.1

/-- The tasks of a launch stop at once, those kept apart (R359 step 3): running tasks stop, their strips discarded; switched-out
ones are dropped unsaved, those whose save has met a fault among them (R367); no further task is placed. -/
def haltTasks (s : State) (launch : Nat) (keep : Nat → Bool) : State :=
  let gone (v : Saved) : Bool := v.task.launch == launch && !keep v.task.task && (!v.ended || v.frozen)
  let s := dropHeld s launch keep
  let s := (s.allTasks.filter fun t => t.launch == launch && !keep t.task).foldl (fun s t => onFront t.core t.front stopFront s) s
  let s := (s.saved.filter gone).foldl (fun s v => s.giveBack v.task.owed) s
  let s := { s with
    saved := (s.saved.filter fun v => !gone v).map (dropSavedOwed launch),
    readyTasks := s.readyTasks.filter fun r => r.launch != launch,
    waiters := s.waiters.filter fun w => w.2.1 != launch,
    arrivals := s.arrivals.filter fun w => w.2.1 != launch,
    claims := s.claims.filterMap (passClaim s launch) }
  (s.allCores.map Core.num).foldl settleBatches s

/-- The launch of a task ends with a cause: its tasks stop, its completion object takes the cause, the pointer and status 3, and
a black-box event names core and context of the task (R359, R391, R413). -/
def endLaunch (s : State) (t : Task) (cause info ptr : Nat) : State :=
  match s.launch t.launch with
  | none => s
  | some l =>
    if l.stopped then s
    else
      let s := haltTasks s l.id fun _ => false
      let s := { s with domains := s.domains.filter fun d => d.launch != l.id,
                        requests := s.requests.filter fun r => r.1 % 2 ^ 48 != l.id || awaited s r }
      let s := ((s.dropExtents l.id).dropPasts l.id).setLaunch
        { l with stopped := true, fault := some (cause, ptr), endSlot := some s.slot }
      let s := writeFinal s l.fn l.record.comp 3 cause ptr
      let s := tellParent s l.parent 3 l.record.comp
      let s := blackBox s (dieOf t.core) 3 0 t.core (trapDetail cause info) t.ctx
      { s with agenda := s.agenda ++ [(.launchComplete, { n := [l.id] }), (.launchSelection, {}), (.taskPlacement, {})] }

/-- The current task stops with a trap that no handler may take and that ends its launch: strips older than its newest commit
(R360), the newest is discarded, and its context is to be saved (R359). One that has trapped so already stays as it is. -/
def endWith (tr : Trap) (s : State) : State :=
  if s.t.wait = some .launchEndByTrap then s
  else
    let s := (commitOlder (backToHeader s)).1
    let p := s.stripNow
    let cvs := (if s.t.strip.isSome then p.convoys else []) ++ s.t.queue
    let s := if s.t.strip.isSome then discardStrip s p else s
    let tvcp := match cvs with | [] => s.t.pc | cv :: _ => BitVec.ofNat 64 cv.hdr
    let u := recordTrap s.t tr s.t.pc tvcp
    { s with t := { u with frozen := (if s.t.inHandler then s.t.frozen else []) ++ cvs, queue := [], conv := none, wait := some .launchEndByTrap },
             agenda := s.agenda ++ [(.launchEndByTrap, { n := [s.t.core, s.t.front] })] }

/-- A running task stops with such a trap, and the others of its launch stop at once with it (R359, R404, R405). -/
def endTask359 (tr : Trap) (s : State) (t : Task) : State :=
  haltTasks (onFront t.core t.front (endWith tr) s) t.launch fun k => k == t.task

/-! ## Leaving a front (R162, R364) -/

/-- The current task, its strip committed, may be saved with no entries: every command it captured has been forked (R364). -/
def mayBeSaved (s : State) : Bool := unforked s.c s.t.launch s.t.task == 0

/-- The task leaves its front, ready to resume at its pc. -/
def switchOut (s : State) : State :=
  beginSave { s with t := { s.t with tpc := s.t.pc, tvcp := s.t.pc } } [] [] false

/-- The front waits for its strip and its held commands, to be pre-empted (R364). -/
def awaitLeave (s : State) : State :=
  let since := if s.t.wait = some .preemption then s.t.issued else s.cycle
  { s with t := { s.t with wait := some .preemption, issued := since },
           agenda := s.agenda ++ [(.preemption, { n := [s.t.core, s.t.front] })] }

/-! ## Deferred effects of a timed task (R57) -/

/-- Stores that wait with a domain for its next restart point. -/
def holdStores (s : State) (launch : Nat) (ws : List Store) : State :=
  { s with domains := s.domains.map fun d => if d.launch = launch then { d with held := d.held ++ ws } else d }

/-- Stores held for the restart point of cycle n land one after another, in the order of their issue; what an engine
held counts from that cycle (R57, R60). -/
def landDeferred (n : Nat) (s : State) : R State := do
  let ws := byCycle ((heldOf s s.t.launch).map fun w => if w.engine then { w with cycle := n } else w)
  let land (s : State) (w : Store) : R State :=
    landStores (if s.t.timed then s.notePasts s.t.launch [w] else s) s.holdFor [w]
  let s ← ws.foldlM land s
  let clear (t : Task) : Task := if t.launch = s.t.launch then { t with deferred := [], engineLate := [] } else t
  .ok { s with t := { s.t with deferred := [], engineLate := [] }, tasks := s.tasks.map clear,
               domains := s.domains.map fun d => if d.launch = s.t.launch then { d with held := [] } else d }

/-- Another task of the launch runs, so that its domain has a restart point to come. -/
def domainGoesOn (s : State) : Bool :=
  s.t.timed && s.allTasks.any fun t => t.launch == s.t.launch && t.task != s.t.task

/-- At the end of a task its deferred stores land; while its domain goes on, they wait for its next restart point. -/
def passDeferred (s : State) : R State :=
  if domainGoesOn s then
    .ok (holdStores { s with t := { s.t with deferred := [], engineLate := [] } } s.t.launch (s.t.deferred ++ s.t.engineLate))
  else (landDeferred s.t.cycle s).map fun s => s.dropExtents s.t.launch

/-! ## The end of an instance and of a task (R30, R163) -/

/-- The next combination of SEQ indices, the innermost fastest; none after the last. `ls` are the levels from the
outermost on, `ix` their indices. -/
def nextIndices : List Level → List Nat → Option (List Nat)
  | [], _ => none
  | _, [] => none
  | l :: ls, i :: ix =>
    match nextIndices ls ix with
    | some r => some (i :: r)
    | none =>
      if l.binding ≠ 0 then none
      else if i + 1 < l.extent then some ((i + 1) :: (ls.map fun _ => 0)) else none

/-- The next SEQ instance of the task, if there is one: g1 to g127 and the loops cleared, the entry again. -/
def nextInstance (s : State) (l : Launch) : Option State :=
  let ix := (s.t.idx.toList.map BitVec.toNat).take l.record.levels.length
  (nextIndices l.record.levels ix).map fun r =>
    { s with t := { s.t with
        g := Vector.replicate 128 0, loops := Vector.replicate 2 {}, pc := BitVec.ofNat 64 (entryOf s l), wait := none,
        idx := Vector.ofFn fun k => BitVec.ofNat 64 (r.getD k.val 0) } }

/-- The riser stack is discarded. -/
def Task.dropRiser (t : Task) : Task := { t with depth := 0, spill := 0, riser := [], pushes := [], popTop := 0 }

/-- The task ends: its launch counts it, its batches are settled, its front takes the next ready task. -/
def endTask (s : State) : State :=
  let t := s.t
  let s := freeFront s.dropOwed
  let s := settleBatches s t.core
  match s.launch t.launch with
  | none => s
  | some l =>
    let s := s.setLaunch { l with ended := l.ended + 1 }
    let s := writeComp s l.fn l.record.comp 0 8 (l.ended + 1)
    let s := freeFrames s l.id
    { s with agenda := s.agenda ++ [(.launchComplete, { n := [l.id] })] }

/-- The last EXIT of a task. -/
def exitLast (s : State) : Act :=
  match passDeferred s with
  | .error t => .trap s t
  | .ok s => .out (endTask { s with t := s.t.dropRiser })

/-- EXIT with everything before it in effect: the next instance, or the end of the task. -/
def exitNow (s : State) : Act :=
  let r := releaseLanes s
  match r.2 with
  | some _ => .held r
  | none =>
    match (r.1.launch r.1.t.launch).bind (nextInstance { r.1 with t := r.1.t.dropRiser }) with
    | some s => .done s
    | none => exitLast r.1

end Sys2Proof.Machine
end

