-- ==== Sys2Proof/Machine/Control.lean ====
section
/-! DEFINITION. Window and field layouts, task control, waits and timing (R159, R160, R162 to R169, R356). -/

namespace Sys2Proof.Machine

/-! ## Window and field layouts -/

/-- WBASE gB (R159): the window base, at most (V - 128) ÷ 16. DESIGN CHOICE: the base that TINFO 15:8 reports stops at 255
(notes/assumptions/36.md). -/
def execWbase (b : GReg) (s : State) : Out :=
  scalarWord (.wbase b) (fun s => settled s [] [b] fun s =>
    let v := (s.g b).toNat
    if (s.t.vmax - 128) / 16 < v then .trap s (windowTrap b.val (Nat.min v 255) s.t.vmax)
    else .done { s with t := { s.t with modes := { s.t.modes with wb := BitVec.ofNat 4 v } } }.seq) s

/-- FLSET fA, gB (R160): gB[63:36] must be zero. -/
def execFlset (f : FReg) (b : GReg) (s : State) : Out :=
  scalarWord (.flset f b) (fun s => settled s [] [b] fun s =>
    let v := s.g b
    match (List.range 64).find? fun k => 36 ≤ k && v.getLsbD k with
    | some k => .trap s (reservedReg (.flset f b) b.val k)
    | none => .done { s with t := { s.t with f := s.t.f.set f.val v f.isLt } }.seq) s

/-- FLGET gA, fB (R160). -/
def execFlget (a : GReg) (f : FReg) (s : State) : Out := compute (.flget a f) [] a (fun s => s.t.f[f]) s

/-! ## Restart points of a timed domain (R56, R57, R166, R368) -/

/-- The copies that a rollback reloads are made of a task and the current core; copies of tasks that have ended before
go (R368). -/
def copyDomain (s : State) (t : Task) : State :=
  let kept (u : Task) : Bool :=
    !(u.core == t.core && u.front == t.front) && (s.taskAt u.core u.front).any fun x => x.launch == t.launch
  let f (d : Domain) : Domain :=
    if d.launch = t.launch then
      { d with tasks := t :: d.tasks.filter kept,
               coreCopies := s.c :: d.coreCopies.filter (fun c => c.num != s.c.num), restart := t.cycle }
    else d
  { s with domains := s.domains.map f }

/-- A restart point: everything decoded has retired by a cycle (else timing reason 3), the deferred effects take place,
and the copies are made with the front standing after the word. -/
def restartPoint (s : State) (by_ : Nat) (f : State → State) : Act :=
  if by_ < retireCycle s then .trap s (timingTrap (issueCycle s.t) s.t.origin 3) else
  let r := drainClose s
  match r.2 with
  | some (t, l) => if t.cause = 0 then .trap s (timingTrap s.t.cycle s.t.origin 3) else .held (r.1, some (t, l))
  | none =>
    match landDeferred by_ r.1 with
    | .error t => .trap r.1 t
    | .ok s =>
      let s := s.prunePasts s.t.launch by_
      let s := s.dropExtents s.t.launch
      let s := { s with t := { s.t with popTop := s.t.depth, ivRead := [], ivWritten := [], ivShadow := [] } }
      let s := match s.launch s.t.launch with
        | none => s
        | some l => s.setLaunch { l with rolled := false }
      let s := (f s).seq
      .done (copyDomain s { s.t with wait := none, cycle := s.t.cycle + 1 })

/-- A task of a core domain. -/
def coreDomain (t : Task) : Bool := t.timed && t.domain == 4

/-- RPOINT (R166): a restart point in a core domain; elsewhere one cycle. -/
def execRpoint (s : State) : Out :=
  scalarWord .rpoint (fun s => if coreDomain s.t then restartPoint s s.t.cycle id else .done s.seq) s

/-- REALIGN (R166): the next word is decoded on the first cycle of the first tick that begins after the issue cycle; a
restart point in a timed domain. -/
def execRealign (s : State) : Out :=
  scalarWord .realign (fun s =>
    if tickAt (s.t.cycle + 1) ≤ tickAt (issueCycle s.t) then .wait s
    else if s.t.timed then restartPoint s (s.t.cycle + 1) id
    else .done s.seq) s

/-- WAITT gB (R168): until TIME reaches gB; in a timed domain until the first cycle of the first tick after the issue
cycle whose first cycle carries TIME ≥ gB, from which the timing origin counts. -/
def execWaitt (b : GReg) (s : State) : Out :=
  scalarWord (.waitt b) (fun s => settled s [] [b] fun s =>
    let v := (s.g b).toNat
    if s.t.timed then
      let n := tickAt (s.t.cycle + 1)
      let first := n * Config.tickCycles
      if n ≤ tickAt (issueCycle s.t) ∨ timeAt s first < v then .wait s
      else restartPoint s (s.t.cycle + 1) fun s => { s with t := { s.t with origin := first } }
    else if timeAt s (s.t.cycle + 1) < v then .wait s
    else .done s.seq) s

/-- The complete commands whose writes into the current task's mailbox MBCNT has counted are joined: nothing conflicts with them
any more (R115, R129, R130). Those are other tasks' Ladle commands. -/
def joinMail (s : State) : State :=
  let me := (s.t.core, s.t.launch, s.t.task)
  let f (d : Cmd) : Cmd :=
    if d.done && d.mailFor.contains me && engineOf d.instr == 0 && !d.ofTask s.t.launch s.t.task then { d with reads := [], writes := [] } else d
  { s with c := { s.c with cmds := s.c.cmds.map f },
           cores := s.cores.map fun (c : Core) => { c with cmds := c.cmds.map f } }

/-- WAITEV gB (R169): until MBCNT reaches gB[31:0], joining the writes whose count it sees (R129); in a timed domain a wait is
timing reason 2. -/
def execWaitev (b : GReg) (s : State) : Out :=
  scalarWord (.waitev b) (fun s => settled s [] [b] fun s =>
    if (s.g b).toNat % 2 ^ 32 ≤ s.t.mbcnt.toNat then .done (joinMail s).seq
    else if s.t.timed then .trap s (timingTrap s.t.cycle s.t.origin 2)
    else .wait s) s

/-- Dross has run in n cycles of the current front's stall: its core and its open strip count them (R282, R289, R332). -/
def State.drossRan (s : State) (n : Nat) : State :=
  let c := s.c
  let s := { s with c := { c with work := { c.work with dross := c.work.dross + n },
                                  counters := { c.counters with drosscyc := c.counters.drosscyc + n } } }
  match s.t.strip with
  | none => s
  | some p => s.setStrip { p with dross := p.dross + n }

/-- DROSS gB, gC (R167): the front stalls exactly gB[15:0] cycles, or one; dross runs in those in which the matrix array and
the vector unit are idle, where its level is not 0. -/
def execDross (b c : GReg) (s : State) : Out :=
  scalarWord (.dross b c) (fun s => settled s [] [b, c] fun s =>
    let n := (s.g b).toNat % 2 ^ 16
    if s.t.cycle + 1 < issueCycle s.t + n then .wait s
    else
      .done (s.drossRan (if (s.g c).toNat % 8 = 0 then 0 else s.idleIn (issueCycle s.t) n)).seq) s

/-- FENCEI (R165): every earlier store and the strip are in effect; words fetched ahead are discarded. -/
def execFencei (s : State) : Out :=
  scalarWord .fencei (fun s => committed s fun s => .done { s with t := { s.t with fetched := [] } }.seq) s

/-! ## Task control (R162, R163) -/

/-- YIELD (R162): one cycle where the task is timed, in its handler, or nothing of its priority or above is ready; else the
front leaves as in a pre-emption (R364). -/
def execYield (s : State) : Out :=
  scalarWord .yield (fun s =>
    if s.t.timed || s.t.inHandler || !yieldsTo s then .done s.seq
    else
      let r := drainClose s
      let u : State := { r.1.seq with t := { r.1.seq.t with wait := none } }
      match r.2 with
      | some (t, _) => if t.cause = 0 then .out (awaitLeave u) else .held r
      | none => .out (if mayBeSaved u then switchOut u else awaitLeave u)) s

/-- EXIT (R163, R30). -/
def execExit (s : State) : Out := scalarWord .exit (fun s => committed s exitNow) s

/-! ## Software traps and the return from one (R164, R356) -/

/-- TRAP code: cause 0x13, TINFO the code, TPC the word after. -/
def execTrap (code : BitVec 18) (s : State) : Out :=
  scalarWord (.trap code) (fun s => .after s { cause := 0x13, info := code.toNat }) s

/-- BRK: cause 0x12, TINFO 0, TPC the word after. -/
def execBrk (s : State) : Out := scalarWord .brk (fun s => .after s { cause := 0x12, info := 0 }) s

/-- The header of the convoy that holds the word at `a` as a member, and its index there, looking back at most four words (R340
kind 4). -/
def memberAt (s : State) (a : Word) : Nat → Nat → Option (Nat × Nat)
  | 0, _ => none
  | fuel + 1, k =>
    match fetch s (a - BitVec.ofNat 64 (4 * k)) with
    | .error _ => none
    | .ok (w, _) =>
      if w % 128 = 0x7F then (if k - 1 ≤ w / 128 % 4 then some (w, k - 1) else none)
      else if !vectorClass (w % 128) then none
      else memberAt s a fuel (k + 1)

/-- The front resumes at TPC: a member's address there is cause 0x03 kind 4 (R340, R342). -/
def resumeAt (s : State) : Act :=
  match memberAt s s.t.pc 4 1 with
  | some w => .trap { s with t := { s.t with wait := none } } { cause := 0x03, info := w.1 + 4 * 2 ^ 32 + w.2 * 2 ^ 36 }
  | none => .resumed s

/-- The frozen entries of a handler are gone for good: their commands are never forked, and what their strip consumed goes back
(R193, R356). -/
def dropFrozen (s : State) : State :=
  let ids := s.t.frozen.filterMap Convoy.cmd
  let c := { s.c with cmds := s.c.cmds.filter fun d => !(ids.contains d.id && !d.forked && !d.released) }
  (settleBatches { s with c := c } s.c.num).dropOwed

/-- The handler is left (R356). -/
def State.leave (s : State) : State :=
  let s := if s.t.tpcWritten then dropFrozen s else s
  { s with t := leaveHandler s.t }

/-- ERET (R356): in a handler, the pc, the armed bits and the frozen entries come back; elsewhere cause 0x04. -/
def execEret (s : State) : Out :=
  scalarWord .eret (fun s =>
    if s.t.inHandler then resumeAt s.leave
    else if s.t.wait = some .eret then resumeAt s
    else .trap s { cause := 0x04, info := wordNat .eret }) s

end Sys2Proof.Machine
end

