-- ==== Sys2Proof/Machine/ConvoyHeader.lean ====
section
/-! DEFINITION. The convoy header (R37, R41, R136, R137, R340). -/

namespace Sys2Proof.Machine

/-- The lowest member that LE0 or LE1, armed or not, names of the convoy whose header lies at `a`: cause 0x03 kind 4 (R337,
R340). -/
def loopInside (t : Task) (a : Word) (cnt : Nat) : Option Nat :=
  ([(0 : Fin 2), 1].filterMap fun k =>
    let e := (t.loops[k]).le.toNat / 4 * 4
    if a.toNat + 4 ≤ e ∧ e ≤ a.toNat + 4 + 4 * cnt then some ((e - (a.toNat + 4)) / 4) else none).min?

/-- The front begins to decode a convoy. -/
def openConvoy (s : State) (word cnt : Nat) : State :=
  let c : Conv :=
    { cv := { hdr := s.t.pc.toNat, word := word, entries := [] }, next := 0, cnt := cnt,
      before := { g := s.t.g, modes := s.t.modes, count := s.t.count }, start := s.t.cycle }
  { s with t := { s.t with conv := some c, pc := s.t.pc + 4 } }

/-- A convoy header: it waits while its members would pass the 64 entries of a frame (R41; in a timed domain timing
reason 1), or while the other front holds the lanes (R37). Delays and the T bit time the columns. -/
def execConvoyHeader (t : Bool) (d3 d2 d1 d0 : Fin 32) (cnt : Fin 4) (s : State) : Out :=
  let i : Instr := .convoyHeader t d3 d2 d1 d0 cnt
  scalarWord i (fun s =>
    match loopInside s.t s.t.pc cnt.val with
    | some k => .trap s { cause := 0x03, info := wordNat i + 4 * 2 ^ 32 + k * 2 ^ 36 }
    | none =>
    if 64 < decodedCount s + cnt.val + 1 then
      (if s.t.timed then .trap s (timingTrap s.t.cycle s.t.origin 1) else .wait s)
    else if s.c.holder ≠ none ∧ s.c.holder ≠ some s.t.front then .wait (s.stalls 5)
    else .done (openConvoy s (wordNat i) cnt.val)) s

end Sys2Proof.Machine
end

