-- ==== Sys2Proof/Machine/CtlReg.lean ====
section
/-! DEFINITION. CRR, CRW, CRS and CRC (R83, R161). -/

namespace Sys2Proof.Machine

/-- FFLAGS, FEXC, KPERM, CODEBK and RSDEP: the strip commits first (R83). -/
def awaitsCommit (n : Nat) : Bool := n == 0x008 || n == 0x009 || n == 0x00A || n == 0x015 || (0x018 ≤ n && n ≤ 0x01C)

/-- VBCNT and VBMARK: the bound reads decoded before complete first (R192). -/
def awaitsReads (n : Nat) : Bool := n == 0x061 || n == 0x062

/-- Everything decoded has run, then go on. -/
def drained (s : State) (f : State → Act) : Act :=
  let r := drain s
  match r.2 with
  | some _ => .held r
  | none => f r.1

/-- An entry reads a register that was bound when it was decoded. -/
def Entry.readsBound (e : Entry) : Bool := (vecReads e.instr).any fun n => e.bound.contains (phys e.modes n).val

/-- Decoded words that read bound registers have still to run. -/
def awaitsBound (s : State) : Bool := s.t.queue.any fun cv => cv.entries.any Entry.readsBound

/-- The bound reads decoded before have completed (R192): a timed front waits for the last of their cycles. -/
def readsDone (s : State) (f : State → Act) : Act :=
  if s.t.timed then
    let n := ((s.c.pipe.filter fun x => x.entry.readsBound).map Flight.done).foldl Nat.max s.t.cycle
    let r := drainWhile awaitsBound { s with t := { s.t with cycle := n } }
    match r.2 with
    | some _ => .held r
    | none => f r.1
  else drained s f

/-- Control register n exists (else cause 0x01 kind 7, before any register value is looked at: R337). -/
def needCr (i : Instr) (n : Nat) (s : State) (f : State → Act) : Act :=
  if (crValue s n).isSome then f s else .trap s (illegal i 7 n)

/-- The value of control register n, once a strip whose flags it may show has committed, and the bound reads it tells of have
completed. -/
def withCr (n : Nat) (s : State) (f : State → Nat → Act) : Act :=
  let go (s : State) : Act := f s ((crValue s n).getD 0)
  if awaitsCommit n then committed s go else if awaitsReads n then readsDone s go else go s

/-- What a discard of the open strip gives back holds CODEBK as the scalar front leaves it: that front is not rolled back
(R360). -/
def keepCodebk (s : State) : State :=
  match s.t.strip with
  | none => s
  | some p => s.setStrip { p with rest := { p.rest with codebk := s.t.codebk } }

/-- A write of a control register; TPC and TLOOP may be written only in the handler (Table 20-4). -/
def crUpdate (i : Instr) (a : GReg) (n : Nat) (f : Nat → Nat → Nat) (s : State) : Out :=
  scalarWord i (fun s =>
    if (n = 0x041 ∨ n = 0x044) ∧ s.t.inHandler = false then .trap s { cause := 0x04, info := wordNat i }
    else needCr i n s fun s => settled s [] [a] fun s => withCr n s fun s v =>
      let s := crWrite s n (f v (s.g a).toNat)
      let s := if 0x018 ≤ n ∧ n ≤ 0x01B then keepCodebk s else s
      .done { s with t := { s.t with tpcWritten := s.t.tpcWritten || n == 0x041 } }.seq) s

/-- CRR gA, name: the register's value. -/
def execCrr (a : GReg) (n : Fin 2048) (s : State) : Out :=
  scalarWord (.crr a n) (fun s => needCr (.crr a n) n.val s fun s => settled s [a] [] fun s => withCr n.val s fun s v =>
    .done ((s.setG a (BitVec.ofNat 64 v)).lateBy a 2).seq) s

/-- CRW name, gA: its RW fields become gA. -/
def execCrw (a : GReg) (n : Fin 2048) (s : State) : Out := crUpdate (.crw a n) a n.val (fun _ g => g) s

/-- CRS name, gA: its RW fields become CR or gA. -/
def execCrs (a : GReg) (n : Fin 2048) (s : State) : Out := crUpdate (.crs a n) a n.val (fun v g => Nat.lor v g) s

/-- CRC name, gA: its RW fields become CR and not gA. -/
def execCrc (a : GReg) (n : Fin 2048) (s : State) : Out :=
  crUpdate (.crc a n) a n.val (fun v g => v - Nat.land v g) s

end Sys2Proof.Machine
end

