-- ==== Sys2Proof/Machine/Engine.lean ====
section
/-! DEFINITION. Engine commands after capture: their rights and accesses (R129, R376), joining (R228 to R230), completing
and faulting (R391 to R396), and the words of the batches (R227 to R230). -/

namespace Sys2Proof.Machine

/-! ## Commands by number -/

/-- A command of the matrix array. -/
def Cmd.matrix (d : Cmd) : Bool := engineOf d.instr == 1

/-- Command id of core num. -/
def State.cmdAt (s : State) (num id : Nat) : Option Cmd := (s.coreAt num).cmds.find? fun d => d.id == id

/-- Command d.id of core num becomes d. -/
def State.setCmd (s : State) (num : Nat) (d : Cmd) : State :=
  let c := s.coreAt num
  s.setCore { c with cmds := c.cmds.map fun e => if e.id = d.id then d else e }

/-- An event becomes due. -/
def State.post (s : State) (i : Instr) (n : List Nat) : State := { s with agenda := s.agenda ++ [(i, { n := n })] }

/-- An event happens before those that are due. -/
def State.postFirst (s : State) (i : Instr) (n : List Nat) : State := { s with agenda := (i, { n := n }) :: s.agenda }

/-- The issuing task of a command, wherever it stands. -/
def issuerOf (s : State) (d : Cmd) : Option Task :=
  (s.allTasks.find? fun t => t.launch == d.launch && t.task == d.task).or
    ((s.saved.find? fun v => v.task.launch == d.launch && v.task.task == d.task).map Saved.task)

/-- The context id of the issuer (R278). -/
def Cmd.ctx (d : Cmd) : Nat := d.frame * 2 ^ 48 + d.launch

/-- The address of the issuer's frame. -/
def Cmd.frameAt (d : Cmd) (s : State) : Nat := (s.launch d.launch).elim 0 fun l => l.frameAt d.frame

/-- A timed domain is to go back to its restart point (R368). -/
def State.rollback (s : State) (launch : Nat) (tr : Trap) : State := s.post .timedRollback [launch, tr.cause, tr.info]

/-- The TLB an engine translates through (Table 17-5): the Ladle's own, the base die's for the others. -/
def Cmd.tlb (d : Cmd) : Nat := if engineOf d.instr = 0 then 1 else 2

/-- The command as the one who makes an access. -/
def Cmd.who (d : Cmd) (num : Nat) : Actor := d.actor num d.tlb

/-! ## Accesses of engines -/

/-- Each line of n bytes from a formed address reached: places and lengths. -/
def reachAll (s : State) (a : Actor) (x n : Nat) (wr : Bool) : R (State × List (Nat × Nat)) := do
  let r ← (linesOf x n).foldlM (fun (acc : State × List (Nat × Nat)) q => do
    let p ← reach acc.1 a q.1 wr
    .ok (p.2, acc.2 ++ [(p.1, q.2)])) (s, [])
  match r.2.findSome? fun p => strayed s p.1 with
  | some t => .error t
  | none => .ok r

/-- n bytes at a pointer read by an engine, as `see` shows it what stands at a place. -/
def engineRead (s : State) (a : Actor) (see : State → Nat → Nat → Nat → Nat) (ptr : Word) (n align : Nat) : R (State × Nat) := do
  let x ← checkRights s a ptr.toNat n align .rd
  let p ← reachAll s a x n false
  let v ← p.2.foldlM (fun (acc : Nat × Nat) q => do
    let v ← readPlace p.1 q.1 q.2
    .ok (acc.1 + see p.1 q.1 q.2 v * 2 ^ (8 * acc.2), acc.2 + q.2)) (0, 0)
  .ok (p.1, v.1)

/-- What stands at a place, as an engine of a task outside timed domains reads it. -/
def plainly (_ : State) (_ _ v : Nat) : Nat := v

/-- What a command of core num sees at a place: in a timed domain, what its domain sees on its start cycle (R57, R60). -/
def Cmd.see (d : Cmd) (num : Nat) (s : State) (place n v : Nat) : Nat :=
  if d.timed then s.domainView d.launch num d.start place n v else v

/-- The stores that put the low n bytes of v at a pointer. -/
def engineStores (s : State) (a : Actor) (ptr : Word) (n v : Nat) (k : Access) : R (State × List Store) := do
  let x ← checkRights s a ptr.toNat n 1 k
  let p ← reachAll s a x n true
  .ok (p.1, (p.2.foldl (fun (acc : List Store × Nat) q =>
    (acc.1 ++ [{ place := q.1, len := q.2, val := v / 2 ^ (8 * acc.2) % 2 ^ (8 * q.2), hdr := 0 }], acc.2 + q.2)) ([], 0)).1)

/-! ## Footprints (R130, R376) -/

/-- Bytes that a command's descriptor fixes: the pointer, if one names them, the formed address, the length (0 where only their
segment counts), a write; whether its conflicts are found only as it runs (R376). -/
structure Touch where
  ptr : Option Word
  x : Nat
  n : Nat
  wr : Bool
  later : Bool := false
  deriving DecidableEq, Repr

/-- A range as the device tracks it, in 64-byte units (R130). -/
def tracked (x n : Nat) : Nat × Nat := (x / 64 * 64, (x + n + 63) / 64 * 64 - x / 64 * 64)

/-- A range of a pointer that only the run of the command checks (R376). -/
def laterTouch (a : Actor) (ptr : Word) (n : Nat) : Touch :=
  { ptr := some ptr, x := formed a a.segs[ptrSeg ptr.toNat] (ptrOff ptr.toNat), n := n, wr := false }

/-- A touched range of a pointer, its rights checked (R376). -/
def touchPtr (s : State) (a : Actor) (ptr : Word) (n align : Nat) (k : Access) : R Touch :=
  (checkRights s a ptr.toNat n align k).map fun x => { ptr := some ptr, x := x, n := n, wr := k.writes }

/-- The conflict of a command with an earlier unjoined command of its task, found at its fork: products of one task do
not conflict with each other (R130). -/
def forkConflict (s : State) (num : Nat) (d : Cmd) (ts : List Touch) : Option Trap :=
  (s.coreAt num).cmds.findSome? fun e =>
    if e.active (d.who num) && e.id < d.id && !(e.matrix && d.matrix) then
      ts.findSome? fun t =>
        let rs := e.footprint t.wr
        if t.n ≠ 0 ∧ meetsAny t.x t.n rs then
          some { cause := 0x07,
                 info := match t.ptr with
                   | some p => conflictInfo (ptrSeg p.toNat).val (ptrOff p.toNat) t.x t.n rs
                   | none => regForm (lowestIn t.x t.n rs - chip) }
        else none
    else none

/-- The command takes its footprint (R130) and the segments it accesses (R129). -/
def Cmd.begin (d : Cmd) (ts : List Touch) : Cmd :=
  { d with begun := true,
           reads := (ts.filter fun t => !t.wr && t.n != 0).map fun t => tracked t.x t.n,
           writes := (ts.filter fun t => t.wr && t.n != 0).map fun t => tracked t.x t.n,
           uses := (ts.filterMap fun t => t.ptr.map fun p => (ptrSeg p.toNat).val).eraseDups }

/-! ## Joining (R129, R207, R228) -/

/-- What a joined command leaves in its task: the flags of a product (R207). -/
def joinFlags (t : Task) (d : Cmd) : Task :=
  if d.matrix ∧ !d.faulted ∧ d.flags ≠ 0 then t.takeFlags d.flags (some (d.fexc0, d.fexc1)) else t

/-- The complete commands of batch n of the current task for which p holds are joined, in issue order. -/
def joinBatch (s : State) (n : Batch) (p : Cmd → Bool) : State :=
  let mine (d : Cmd) : Bool := d.batch == n.val && d.ofTask s.t.launch s.t.task && p d
  { s with t := (s.c.cmds.filter mine).foldl joinFlags s.t,
           c := { s.c with cmds := s.c.cmds.filter fun d => !mine d } }

/-- A timed command is joined as it completes (R230). -/
def joinTimed (s : State) (num : Nat) (d : Cmd) : State :=
  let s := match s.allTasks.find? fun t => t.launch == d.launch && t.task == d.task with
    | none => s
    | some t => s.setTask (joinFlags t d)
  let c := s.coreAt num
  s.setCore { c with cmds := c.cmds.filter fun e => e.id != d.id }

/-! ## Completing and faulting -/

/-- A command completes: its batch takes the flags of a Ladle command (R229), a timed one is joined, and what waits for
its completion may go on (R227, R278, R391). -/
def completeCmd (s : State) (num : Nat) (d : Cmd) : State :=
  let n := Fin.ofNat 8 d.batch
  let c := s.coreAt num
  let b := c.batches[n]
  let b := { b with lflags := if engineOf d.instr = 0 then b.lflags ||| d.flags else b.lflags, fault := b.fault || d.faulted }
  let s := s.setCore { c with batches := c.batches.set n.val b n.isLt }
  let d := { d with done := true }
  let s := s.setCmd num d
  let s := if d.matrix then s.freeStopped num else s
  let s := if d.timed then joinTimed s num d else s
  (freeFrames (settleBatches s num) d.launch).post .launchComplete [d.launch]

/-- The engine fault record (Table 25-2). -/
def faultRecord (d : Cmd) (cause info : Nat) : Nat :=
  d.ctx + cause * 2 ^ 64 + engineOf d.instr * 2 ^ 96 + d.batch * 2 ^ 104 + d.addr * 2 ^ 128 + info * 2 ^ 192 +
    d.progress * 2 ^ 256

/-- A command's fault ends its launch (R388, R396): the issuer, where it runs, stops as at a trap, its context saved to the frame
that becomes the record pointer. -/
def endIssuer (s : State) (num : Nat) (d : Cmd) (tr : Trap) : State :=
  match s.allTasks.find? fun t => t.launch == d.launch && t.task == d.task && t.wait != some .contextSave with
  | some t => endTask359 tr s t
  | none =>
    endLaunch s { core := num, front := d.front, launch := d.launch, task := d.task, frame := d.frame } tr.cause tr.info (d.frameAt s)

/-- A forked command faults (R391 to R396): its record stands in the frame before its batch entry completes; where it
cannot, an event of kind 4. Cause 0x15 (R388) and any fault of a timed command (R396) end the launch. -/
def faultCmd (s : State) (num : Nat) (d : Cmd) (tr : Trap) : State :=
  let ptr := d.frameAt s + 0xC00 + 64 * d.batch
  let x := match devWrite s d.fn ptr 64 (faultRecord d tr.cause tr.info) with
    | .ok s => (s, ptr)
    | .error _ => (blackBox s (dieOf num) 4 0 num (tr.cause + d.batch * 2 ^ 32) d.ctx, 0)
  let s := completeCmd (noteFault x.1 d.launch tr.cause x.2) num { d with faulted := true }
  let s := if engineOf d.instr = 3 then s.post .textStageMessage [(dieOf num).val, (d.regs[0]?.getD 0).toNat % 16, 0] else s
  if d.timed ∨ tr.cause = 0x15 then endIssuer s num d tr else s

/-- A command holds for a page it has requested (R395). -/
def holdCmd (s : State) (num : Nat) (d : Cmd) (tr : Trap) : State :=
  let page := tr.info % 2 ^ 55 / 2 ^ 16 * 2 ^ 16
  ((s.setCmd num { d with pages := page :: d.pages }).askPage d.ctx page d.fn tr.write false).send

/-- What stands in a command's way: a timing trap takes its domain back, a missing page is requested once and, refused,
is a fault (R395), anything else is a fault. -/
def stopCmd (s : State) (num : Nat) (d : Cmd) (tr : Trap) : State :=
  if tr.cause = 0x0A then s.rollback d.launch tr
  else if tr.cause = 0x09 ∧ d.timed = false ∧ d.refused.contains (tr.info % 2 ^ 55) = false then holdCmd s num d tr
  else faultCmd s num d tr

/-- The event in which a command completes. -/
def doneEvent (i : Instr) : Instr :=
  match engineOf i with
  | 0 => .ladleCopyComplete
  | 1 => .matrixCommandComplete
  | 2 => .istreamComplete
  | 3 => .txsubComplete
  | _ => .launchCommandComplete

/-- The cycle of Table 3-4 on which a command completes has come, for a timed one as its issuer counts (R230), for another at the
soonest (R61, R238). -/
def Cmd.due (d : Cmd) (s : State) : Bool :=
  d.finish ≤ (if d.timed then (issuerOf s d).elim s.cycle Task.cycle else s.cycle)

/-- A command may act in its completion event: begun, not complete, waiting for no page. -/
def Cmd.ready (d : Cmd) : Bool := d.begun && !d.done && d.pages == []

/-- A completion event of one engine, naming core and command: `act` on a command that is ready, at or after the cycle of
Table 3-4. -/
def completion (kind : Nat) (i : Instr) (act : Nat → Cmd → State → State) (s : State) : Out :=
  let num := s.arg 0
  match s.cmdAt num (s.arg 1) with
  | none => .next s
  | some d =>
    if engineOf d.instr ≠ kind ∨ d.ready = false then .next s
    else if d.due s = false then .next (s.post i [num, d.id])
    else .next (act num d s)

/-! ## BATCH (R228 to R230, R350) -/

/-- The current task owns batch n of its core. -/
def ownsBatch (s : State) (n : Batch) : Bool := (s.c.batches[n]).owner == some (s.t.launch, s.t.task)

/-- The current task's commands of batch n. -/
def batchCmds (s : State) (n : Batch) : List Cmd := s.c.cmds.filter fun d => d.batch == n.val && d.ofTask s.t.launch s.t.task

/-- Sealed commands of batch n that have not completed. -/
def pending (s : State) (n : Batch) : Nat := ((batchCmds s n).filter fun d => d.sealed && !d.done).length

/-- BCOMMIT bN: the open group is sealed. -/
def execBcommit (n : Batch) (s : State) : Out :=
  scalarWord (.bcommit n) (fun s =>
    let f (d : Cmd) : Cmd := if d.batch == n.val && d.ofTask s.t.launch s.t.task then { d with sealed := true } else d
    .done { s with c := { s.c with cmds := s.c.cmds.map f } }.seq) s

/-- A successful join of batch n. -/
def joined (s : State) (n : Batch) : State := settleBatches (joinBatch s n fun d => d.sealed && d.done) s.c.num

/-- BWAIT bN: until every sealed command of bN has completed; in a timed domain a wait is timing reason 2. -/
def execBwait (n : Batch) (s : State) : Out :=
  scalarWord (.bwait n) (fun s =>
    if pending s n = 0 then .done (joined s n).seq
    else if s.t.timed then .trap s (timingTrap s.t.cycle s.t.origin 2)
    else .wait s) s

/-- The status word of Table 11-5. -/
def batchStatus (s : State) (n : Batch) : Nat :=
  let b := s.c.batches[n]
  let own := ownsBatch s n
  let isOpen := (batchCmds s n).any fun d => !d.sealed
  isOpen.toNat * 2 ^ 24 + Nat.min (pending s n) 255 * 2 ^ 16 + (if own then b.lflags.toNat * 2 ^ 8 + b.fault.toNat * 2 else 0) +
    (if pending s n = 0 then 1 else 0)

/-- LFLAGS and FAULT of batch n, once a successful BTEST has read them (R229, R393). -/
def clearBatch (s : State) (n : Batch) : State :=
  if ownsBatch s n then
    { s with c := { s.c with batches := s.c.batches.set n.val { s.c.batches[n] with lflags := 0, fault := false } n.isLt } }
  else s

/-- BTEST gA, bN: the status word; with DONE = 1 it joins, and clears LFLAGS and FAULT. -/
def execBtest (a : GReg) (n : Batch) (s : State) : Out :=
  scalarWord (.btest a n) (fun s => settled s [a] [] fun s =>
    let v : Word := BitVec.ofNat 64 (batchStatus s n)
    if pending s n = 0 then .done ((joined (clearBatch s n) n).setG a v).seq
    else if s.t.timed then .trap s (timingTrap s.t.cycle s.t.origin 2)
    else .done (s.setG a v).seq) s

end Sys2Proof.Machine
end

