-- ==== Sys2Proof/Machine/Ed25519.lean ====
section
/-! DEFINITION. Ed25519, by which firmware images are verified and attestation reports signed (R416, R417). The spec names the
scheme and does not repeat it: it is written out here from RFC 8032, 5.1 (notes/assumptions/10.md). -/

namespace Sys2Proof.Machine

/-- The field's prime, the order of the base point, and the curve's constant d. -/
def edP : Nat := 2 ^ 255 - 19
def edL : Nat := 2 ^ 252 + 27742317777372353535851937790883648493
def edD : Nat := 37095705934669439343138083508754565189542113879843219016388785533085940283555

/-- b ^ e modulo m, for an exponent below 2 ^ fuel. -/
def powMod (m : Nat) : Nat → Nat → Nat → Nat
  | 0, _, _ => 1
  | fuel + 1, b, e =>
    let h := powMod m fuel (b * b % m) (e / 2)
    if e % 2 = 1 then b * h % m else h

/-- The inverse modulo the prime. -/
def edInv (x : Nat) : Nat := powMod edP 256 x (edP - 2)

/-- A difference modulo the prime, of reduced numbers. -/
def edSub (x y : Nat) : Nat := (x + (edP - y)) % edP

/-- A point in extended coordinates: x = X/Z, y = Y/Z, x y = T/Z. -/
structure EdPoint where
  x : Nat
  y : Nat
  z : Nat := 1
  t : Nat
  deriving DecidableEq, Repr

/-- The point of affine coordinates. -/
def edPoint (x y : Nat) : EdPoint := { x := x, y := y, t := x * y % edP }

/-- The base point and the neutral one. -/
def edBase : EdPoint :=
  edPoint 15112221349535400772501151409588531511454012693041857206046113283949847762202
    46316835694926478169428394003475163141307993866256225615783033603165251855960
def edZero : EdPoint := edPoint 0 1

/-- The sum of two points; the law is complete, so that it doubles too (RFC 8032, 5.1.4). -/
def edAdd (p q : EdPoint) : EdPoint :=
  let a := edSub p.y p.x * edSub q.y q.x % edP
  let b := (p.y + p.x) * (q.y + q.x) % edP
  let c := p.t * 2 % edP * (edD * q.t % edP) % edP
  let d := p.z * 2 * q.z % edP
  let e := edSub b a
  let f := edSub d c
  let g := (d + c) % edP
  let h := (b + a) % edP
  { x := e * f % edP, y := g * h % edP, z := f * g % edP, t := e * h % edP }

/-- n times a point, for n below 2 ^ fuel. -/
def edMul : Nat → Nat → EdPoint → EdPoint
  | 0, _, _ => edZero
  | fuel + 1, n, p =>
    let r := edMul fuel (n / 2) (edAdd p p)
    if n % 2 = 1 then edAdd p r else r

/-- Two points are the same. -/
def EdPoint.same (p q : EdPoint) : Bool := p.x * q.z % edP == q.x * p.z % edP && p.y * q.z % edP == q.y * p.z % edP

/-- The 32 bytes of a point: y, with the lowest bit of x on top. -/
def edEncode (p : EdPoint) : List Byte :=
  let i := edInv p.z
  bytesOf 32 (p.y * i % edP + p.x * i % edP % 2 * 2 ^ 255)

/-- The x of a point with a given y and lowest bit of x (RFC 8032, 5.1.3). -/
def edRecover (y sign : Nat) : Option Nat :=
  let u := edSub (y * y % edP) 1
  let v := (edD * (y * y % edP) + 1) % edP
  let v3 := v * v % edP * v % edP
  let r := u * v3 % edP * powMod edP 256 (u * (v3 * v3 % edP * v % edP) % edP) ((edP - 5) / 8) % edP
  let w := v * (r * r % edP) % edP
  let root := if w = u then some r
    else if w = edSub 0 u then some (r * powMod edP 256 2 ((edP - 1) / 4) % edP)
    else none
  match root with
  | none => none
  | some x => if x = 0 ∧ sign = 1 then none else some (if x % 2 = sign then x else edP - x)

/-- The point of 32 bytes; none where they are no point's. -/
def edDecode (bs : List Byte) : Option EdPoint :=
  let n := leNat (bs.take 32)
  let y := n % 2 ^ 255
  if bs.length ≠ 32 ∨ edP ≤ y then none else (edRecover y (n / 2 ^ 255)).map (edPoint · y)

/-- The secret scalar of a private key, and the prefix of its nonces (RFC 8032, 5.1.5). -/
def edSecret (key : List Byte) : Nat × List Byte :=
  let h := sha512 key
  (leNat (h.take 32) % 2 ^ 254 / 8 * 8 + 2 ^ 254, h.drop 32)

/-- A hash as a scalar. -/
def edScalar (bs : List Byte) : Nat := leNat (sha512 bs) % edL

/-- The 64 bytes of the signature of a message under a private key (RFC 8032, 5.1.6). -/
def edSign (key msg : List Byte) : List Byte :=
  let k := edSecret key
  let pub := edEncode (edMul 256 k.1 edBase)
  let r := edScalar (k.2 ++ msg)
  let point := edEncode (edMul 256 r edBase)
  point ++ bytesOf 32 ((r + edScalar (point ++ pub ++ msg) * k.1) % edL)

/-- A signature of a message holds under a public key (RFC 8032, 5.1.7). -/
def edVerify (pub msg sig : List Byte) : Bool :=
  let s := leNat (sig.drop 32)
  match edDecode pub, edDecode (sig.take 32) with
  | some a, some r =>
    sig.length == 64 && decide (s < edL) &&
      (edMul 256 (8 * s) edBase).same (edAdd (edMul 4 8 r) (edMul 256 (8 * edScalar (sig.take 32 ++ pub ++ msg)) a))
  | _, _ => false

/-- The bytes of a signature are 64. -/
theorem edSign_length (key msg : List Byte) : (edSign key msg).length = 64 := by
  simp [edSign, edEncode, bytesOf]

end Sys2Proof.Machine
end

