-- ==== Sys2Proof/Machine/CharTables.lean ====
section
/-! DEFINITION. The single-byte character sets of Table 15-4 beyond ASCII: the ISO-8859 parts from byte 0xA0 and KOI8-R from
byte 0x80, which the spec names and does not tabulate (notes/assumptions/10.md). Each number holds 16 characters, the first
lowest, of 16 bits each; 0 where the set has none. -/

namespace Sys2Proof.Machine

/-- Character k of such a table. -/
def cellOf (rows : List Nat) (k : Nat) : Option Nat :=
  let c := field (rows.getD (k / 16) 0) (16 * (k % 16)) 16
  if c = 0 then none else some c

def iso2 : List Nat :=
  [0x017B017D00AD01790164015E016000A800A7015A013D00A4014102D8010400A0,
   0x017C017E02DD017A0165015F016100B802C7015B013E00B4014202DB010500B0,
   0x010E00CE00CD011A00CB011800C9010C00C70106013900C4010200C200C10154,
   0x00DF016200DD00DC017000DA016E015800D700D6015000D400D3014701430110,
   0x010F00EE00ED011B00EB011900E9010D00E70107013A00E4010300E200E10155,
   0x02D9016300FD00FC017100FA016F015900F700F6015100F400F3014801440111]
def iso3 : List Nat :=
  [0x017B000000AD0134011E015E013000A800A70124000000A400A302D8012600A0,
   0x017C000000BD0135011F015F013100B800B7012500B500B400B300B2012700B0,
   0x00CF00CE00CD00CC00CB00CA00C900C800C70108010A00C4000000C200C100C0,
   0x00DF015C016C00DC00DB00DA00D9011C00D700D6012000D400D300D200D10000,
   0x00EF00EE00ED00EC00EB00EA00E900E800E70109010B00E4000000E200E100E0,
   0x02D9015D016D00FC00FB00FA00F9011D00F700F6012100F400F300F200F10000]
def iso4 : List Nat :=
  [0x00AF017D00AD016601220112016000A800A7013B012800A401560138010400A0,
   0x014B017E014A016701230113016100B802C7013C012900B4015702DB010500B0,
   0x012A00CE00CD011600CB011800C9010C012E00C600C500C400C300C200C10100,
   0x00DF016A016800DC00DB00DA017200D800D700D600D500D40136014C01450110,
   0x012B00EE00ED011700EB011900E9010D012F00E600E500E400E300E200E10101,
   0x02D9016B016900FC00FB00FA017300F800F700F600F500F40137014D01460111]
def iso5 : List Nat :=
  [0x040F040E00AD040C040B040A04090408040704060405040404030402040100A0,
   0x041F041E041D041C041B041A0419041804170416041504140413041204110410,
   0x042F042E042D042C042B042A0429042804270426042504240423042204210420,
   0x043F043E043D043C043B043A0439043804370436043504340433043204310430,
   0x044F044E044D044C044B044A0449044804470446044504440443044204410440,
   0x045F045E00A7045C045B045A0459045804570456045504540453045204512116]
def iso6 : List Nat :=
  [0x0000000000AD060C000000000000000000000000000000A400000000000000A0,
   0x061F000000000000061B00000000000000000000000000000000000000000000,
   0x062F062E062D062C062B062A0629062806270626062506240623062206210000,
   0x00000000000000000000063A0639063806370636063506340633063206310630,
   0x064F064E064D064C064B064A0649064806470646064506440643064206410640,
   0x0000000000000000000000000000000000000000000000000000065206510650]
def iso7 : List Nat :=
  [0x2015000000AD00AC00AB037A00A900A800A700A620AF20AC00A32019201800A0,
   0x038F038E00BD038C00BB038A0389038800B703860385038400B300B200B100B0,
   0x039F039E039D039C039B039A0399039803970396039503940393039203910390,
   0x03AF03AE03AD03AC03AB03AA03A903A803A703A603A503A403A3000003A103A0,
   0x03BF03BE03BD03BC03BB03BA03B903B803B703B603B503B403B303B203B103B0,
   0x000003CE03CD03CC03CB03CA03C903C803C703C603C503C403C303C203C103C0]
def iso8 : List Nat :=
  [0x00AF00AE00AD00AC00AB00D700A900A800A700A600A500A400A300A2000000A0,
   0x000000BE00BD00BC00BB00F700B900B800B700B600B500B400B300B200B100B0,
   0x0000000000000000000000000000000000000000000000000000000000000000,
   0x2017000000000000000000000000000000000000000000000000000000000000,
   0x05DF05DE05DD05DC05DB05DA05D905D805D705D605D505D405D305D205D105D0,
   0x0000200F200E0000000005EA05E905E805E705E605E505E405E305E205E105E0]
def iso9 : List Nat :=
  [0x00AF00AE00AD00AC00AB00AA00A900A800A700A600A500A400A300A200A100A0,
   0x00BF00BE00BD00BC00BB00BA00B900B800B700B600B500B400B300B200B100B0,
   0x00CF00CE00CD00CC00CB00CA00C900C800C700C600C500C400C300C200C100C0,
   0x00DF015E013000DC00DB00DA00D900D800D700D600D500D400D300D200D1011E,
   0x00EF00EE00ED00EC00EB00EA00E900E800E700E600E500E400E300E200E100E0,
   0x00FF015F013100FC00FB00FA00F900F800F700F600F500F400F300F200F1011F]
def iso10 : List Nat :=
  [0x014A016A00AD017D016601600110013B00A701360128012A01220112010400A0,
   0x014B016B2015017E016701610111013C00B701370129012B01230113010500B0,
   0x00CF00CE00CD011600CB011800C9010C012E00C600C500C400C300C200C10100,
   0x00DF00DE00DD00DC00DB00DA017200D8016800D600D500D400D3014C014500D0,
   0x00EF00EE00ED011700EB011900E9010D012F00E600E500E400E300E200E10101,
   0x013800FE00FD00FC00FB00FA017300F8016900F600F500F400F3014D014600F0]
def iso11 : List Nat :=
  [0x0E0F0E0E0E0D0E0C0E0B0E0A0E090E080E070E060E050E040E030E020E0100A0,
   0x0E1F0E1E0E1D0E1C0E1B0E1A0E190E180E170E160E150E140E130E120E110E10,
   0x0E2F0E2E0E2D0E2C0E2B0E2A0E290E280E270E260E250E240E230E220E210E20,
   0x0E3F00000000000000000E3A0E390E380E370E360E350E340E330E320E310E30,
   0x0E4F0E4E0E4D0E4C0E4B0E4A0E490E480E470E460E450E440E430E420E410E40,
   0x00000000000000000E5B0E5A0E590E580E570E560E550E540E530E520E510E50]
def iso13 : List Nat :=
  [0x00C600AE00AD00AC00AB015600A900D800A700A6201E00A400A300A2201D00A0,
   0x00E600BE00BD00BC00BB015700B900F800B700B600B5201C00B300B200B100B0,
   0x013B012A013601220116017900C9010C0112011800C500C401060100012E0104,
   0x00DF017D017B00DC016A015A0141017200D700D600D5014C00D3014501430160,
   0x013C012B013701230117017A00E9010D0113011900E500E401070101012F0105,
   0x2019017E017C00FC016B015B0142017300F700F600F5014D00F3014601440161]
def iso14 : List Nat :=
  [0x017800AE00AD1EF21E0B1E8200A91E8000A71E0A010B010A00A31E031E0200A0,
   0x1E611E851E841EF31E601E831E571E811E5600B61E411E40012101201E1F1E1E,
   0x00CF00CE00CD00CC00CB00CA00C900C800C700C600C500C400C300C200C100C0,
   0x00DF017600DD00DC00DB00DA00D900D81E6A00D600D500D400D300D200D10174,
   0x00EF00EE00ED00EC00EB00EA00E900E800E700E600E500E400E300E200E100E0,
   0x00FF017700FD00FC00FB00FA00F900F81E6B00F600F500F400F300F200F10175]
def iso15 : List Nat :=
  [0x00AF00AE00AD00AC00AB00AA00A9016100A7016000A520AC00A300A200A100A0,
   0x00BF01780153015200BB00BA00B9017E00B700B600B5017D00B300B200B100B0,
   0x00CF00CE00CD00CC00CB00CA00C900C800C700C600C500C400C300C200C100C0,
   0x00DF00DE00DD00DC00DB00DA00D900D800D700D600D500D400D300D200D100D0,
   0x00EF00EE00ED00EC00EB00EA00E900E800E700E600E500E400E300E200E100E0,
   0x00FF00FE00FD00FC00FB00FA00F900F800F700F600F500F400F300F200F100F0]
def iso16 : List Nat :=
  [0x017B017A00AD017900AB021800A9016100A70160201E20AC01410105010400A0,
   0x017C01780153015200BB0219010D017E00B700B6201D017D0142010C00B100B0,
   0x00CF00CE00CD00CC00CB00CA00C900C800C700C6010600C4010200C200C100C0,
   0x00DF021A011800DC00DB00DA00D90170015A00D6015000D400D300D201430110,
   0x00EF00EE00ED00EC00EB00EA00E900E800E700E6010700E4010300E200E100E0,
   0x00FF021B011900FC00FB00FA00F90171015B00F6015100F400F300F201440111]
def koi8r : List Nat :=
  [0x2590258C258825842580253C2534252C2524251C251825142510250C25022500,
   0x00F700B700B200B0232100A0226522642248221A221925A02320259325922591,
   0x255E255D255C255B255A25592558255725562555255425530451255225512550,
   0x00A9256C256B256A25692568256725662565256425632562040125612560255F,
   0x043E043D043C043B043A0439043804450433044404350434044604310430044E,
   0x044A04470449044D04480437044B044C043204360443044204410440044F043F,
   0x041E041D041C041B041A0419041804250413042404150414042604110410042E,
   0x042A04270429042D04280417042B042C041204160423042204210420042F041F]

/-- The ISO-8859 part of a number from 2 to 16; there is no part 12. -/
def isoPart (part : Nat) : List Nat :=
  match part with
  | 2 => iso2
  | 3 => iso3
  | 4 => iso4
  | 5 => iso5
  | 6 => iso6
  | 7 => iso7
  | 8 => iso8
  | 9 => iso9
  | 10 => iso10
  | 11 => iso11
  | 13 => iso13
  | 14 => iso14
  | 15 => iso15
  | 16 => iso16
  | _ => []

end Sys2Proof.Machine
end

