-- ==== Sys2Proof/Machine/Zstd.lean ====
section
/-! DEFINITION. Zstandard frames as a decompress engine accepts them (R262, Table 15-1): windows up to 8 MiB, the content
checksum verified, skippable frames skipped, no dictionary. The spec names RFC 8878 and does not repeat it: the format is
written out here from it (notes/assumptions/10.md). The causes are those of Table 25-5: 4 malformed, 5 window or
dictionary, 6 checksum, 7 the input ends. -/

namespace Sys2Proof.Machine

/-- A result, or the quarantine cause of Table 25-5 in its way. -/
abbrev Dec := Except Nat

/-- An output of n bytes passes what MAXOUT allows, if it limits (Table 15-3): cause 9, met where the output passes it. -/
def tooLong (room : Option Nat) (n : Nat) : Bool := room.any fun r => decide (r < n)

/-- Byte k of a list. -/
def byteAt (bs : List Byte) (k : Nat) : Nat := (bs.getD k 0).toNat

/-- n bytes copied from `dist` back; the output stands newest first. -/
def copyBack (dist : Nat) : Nat → List Byte → List Byte
  | 0, out => out
  | n + 1, out => copyBack dist n (out.getD (dist - 1) 0 :: out)

/-- The number of n bytes at k, lowest first; the cause where the list ends. -/
def leAt (cause : Nat) (bs : List Byte) (k n : Nat) : Dec Nat :=
  if bs.length < k + n then .error cause else .ok (leNat ((bs.drop k).take n))

/-! ## Bit streams read from their end -/

/-- A bit stream read backwards: its value, and the bits left, below 0 once more were taken than it has. -/
structure Rev where
  x : Nat
  left : Int
  deriving DecidableEq, Repr

/-- The stream of some bytes: it begins below the highest set bit of the last byte, which is not zero. -/
def revOf (bs : List Byte) : Dec Rev :=
  let last := byteAt bs (bs.length - 1)
  if bs = [] ∨ last = 0 then .error 4 else .ok { x := leNat bs, left := (8 * (bs.length - 1) + Nat.log2 last : Nat) }

/-- The next n bits, zeros where the stream has ended, and the stream past k of them. -/
def Rev.peek (r : Rev) (n : Nat) : Nat :=
  if (n : Int) ≤ r.left then field r.x (r.left.toNat - n) n else field r.x 0 r.left.toNat * 2 ^ (n - r.left.toNat)
def Rev.skip (r : Rev) (k : Nat) : Rev := { r with left := r.left - k }

/-- The next n bits, and the stream past them. -/
def Rev.take (r : Rev) (n : Nat) : Nat × Rev := (r.peek n, r.skip n)

/-! ## Finite state entropy -/

/-- A decoding table: its accuracy, and for each state the symbol, the bits to read and what they are added to. -/
structure Fse where
  al : Nat
  cells : List (Nat × Nat × Nat)
  deriving DecidableEq, Repr

/-- The table of a normalised distribution, where -1 stands for a probability below one. -/
def fseTable (al : Nat) (freq : List Int) : Fse :=
  let size := 2 ^ al
  let low := (freq.zipIdx.filter fun x => x.1 == -1).map Prod.snd
  let spots := ((List.range size).map fun k => k * (size / 2 + size / 8 + 3) % size).filter fun k => k < size - low.length
  let syms := freq.zipIdx.flatMap fun x => List.replicate x.1.toNat x.2
  let table := (spots.zip syms).foldl (fun (t : List Nat) p => t.set p.1 p.2) (List.replicate size 0)
  let table := low.zipIdx.foldl (fun (t : List Nat) p => t.set (size - 1 - p.2) p.1) table
  let step (acc : List (Nat × Nat × Nat) × List Nat) (s : Nat) : List (Nat × Nat × Nat) × List Nat :=
    let n := acc.2.getD s 0
    let k := al - Nat.log2 n
    ((s, k, n * 2 ^ k - size) :: acc.1, acc.2.set s (n + 1))
  { al := al, cells := (table.foldl step ([], freq.map Int.natAbs)).1.reverse }

/-- The table of one symbol. -/
def fseOne (s : Nat) : Fse := { al := 0, cells := [(s, 0, 0)] }

/-- The symbol of a state, and the state after it. -/
def Fse.sym (f : Fse) (st : Nat) : Nat := (f.cells.getD st (0, 0, 0)).1
def Fse.move (f : Fse) (st : Nat) (r : Rev) : Nat × Rev :=
  let c := f.cells.getD st (0, 0, 0)
  (c.2.2 + r.peek c.2.1, r.skip c.2.1)

/-- A first state. -/
def Fse.start (f : Fse) (r : Rev) : Nat × Rev := r.take f.al

/-- Zeros that a repeat flag of two bits adds, at bit p of x. -/
def zeroRun (x : Nat) : Nat → Nat → Nat × Nat
  | 0, p => (0, p)
  | fuel + 1, p =>
    let v := field x p 2
    if v = 3 then
      let r := zeroRun x fuel (p + 2)
      (3 + r.1, r.2)
    else (v, p + 2)

/-- The distribution at bit p of x, `left` of it still to give out, the symbols so far last first. -/
def freqs (x max : Nat) : Nat → Nat → Nat → List Int → Dec (List Int × Nat)
  | _, p, 0, fs => .ok (fs.reverse, p)
  | 0, _, _, _ => .error 4
  | fuel + 1, p, left, fs =>
    if max < fs.length then .error 4
    else
      let bits := Nat.log2 (left + 1) + 1
      let v := field x p bits
      let half := 2 ^ (bits - 1)
      let short := 2 ^ bits - 1 - (left + 1)
      let (v, p) :=
        if v % half < short then (v % half, p + bits - 1) else (if half ≤ v then v - short else v, p + bits)
      let pr : Int := (v : Int) - 1
      if left < pr.natAbs then .error 4
      else if pr = 0 then
        let z := zeroRun x (max + 1) p
        freqs x max fuel z.2 left (List.replicate z.1 0 ++ 0 :: fs)
      else freqs x max fuel p (left - pr.natAbs) (pr :: fs)

/-- A table description at the head of some bytes, its accuracy and symbols limited: the table, and the bytes it takes. -/
def fseRead (bs : List Byte) (maxAl max : Nat) : Dec (Fse × Nat) := do
  let x := leNat bs
  let al := x % 16 + 5
  if maxAl < al then .error 4
  else do
    let (fs, p) ← freqs x max (max + 2) 4 (2 ^ al) []
    if max + 1 < fs.length ∨ 8 * bs.length < p then .error 4 else .ok (fseTable al fs, (p + 7) / 8)

/-! ## Huffman codes -/

/-- A code: the length of its longest word, and for each value of that many bits the symbol and its bits. -/
structure Huff where
  bits : Nat
  cells : List (Nat × Nat)
  deriving DecidableEq, Repr

/-- The code of a list of weights, the last of which is not in it and completes the sum. -/
def huffOf (ws : List Nat) : Dec Huff :=
  let sum := (ws.map fun w => if w = 0 then 0 else 2 ^ (w - 1)).sum
  let bits := Nat.log2 sum + 1
  let rest := 2 ^ bits - sum
  if sum = 0 ∨ 11 < bits ∨ 255 < ws.length ∨ rest ≠ 2 ^ Nat.log2 rest then .error 4
  else
    let ws := ws ++ [Nat.log2 rest + 1]
    .ok { bits := bits,
          cells := (List.range bits).flatMap fun k => (ws.zipIdx.filter fun x => x.1 == k + 1).flatMap fun x =>
            List.replicate (2 ^ k) (x.2, bits - k) }

/-- Weights under a table by two states in turn, until the stream has ended. -/
def weights (f : Fse) : Nat → Nat → Nat → Rev → Dec (List Nat)
  | 0, _, _, _ => .error 4
  | fuel + 1, a, b, r =>
    let (n, r) := f.move a r
    if r.left < 0 then .ok [f.sym a, f.sym b] else (weights f fuel b n r).map fun ws => f.sym a :: ws

/-- A tree description at the head of some bytes: the code, and the bytes it takes. -/
def huffRead (bs : List Byte) : Dec (Huff × Nat) := do
  let h ← leAt 4 bs 0 1
  if 128 ≤ h then do
    let n := h - 127
    let k := (n + 1) / 2
    let _ ← leAt 4 bs 1 k
    let c ← huffOf ((List.range n).map fun i => if i % 2 = 0 then byteAt bs (1 + i / 2) / 16 else byteAt bs (1 + i / 2) % 16)
    .ok (c, 1 + k)
  else do
    let _ ← leAt 4 bs 1 h
    let part := (bs.drop 1).take h
    let (f, k) ← fseRead part 6 255
    let r ← revOf (part.drop k)
    let (a, r) := f.start r
    let (b, r) := f.start r
    if r.left < 0 then .error 4
    else do
      let ws ← weights f 256 a b r
      let c ← huffOf ws
      .ok (c, 1 + h)

/-- n symbols of a stream, which ends with the last. -/
def huffSyms (c : Huff) : Nat → Rev → Dec (List Byte)
  | 0, r => if r.left = 0 then .ok [] else .error 4
  | n + 1, r =>
    let s := c.cells.getD (r.peek c.bits) (0, 0)
    if r.left < s.2 then .error 4 else (huffSyms c n (r.skip s.2)).map fun l => BitVec.ofNat 8 s.1 :: l

/-- n literals in one stream, or in four behind a table of the sizes of three. -/
def huffLits (c : Huff) (four : Bool) (n : Nat) (bs : List Byte) : Dec (List Byte) := do
  if four = false then do
    let r ← revOf bs
    huffSyms c n r
  else do
    let a ← leAt 4 bs 0 2
    let b ← leAt 4 bs 2 2
    let d ← leAt 4 bs 4 2
    let k := (n + 3) / 4
    let bs := bs.drop 6
    if bs.length < a + b + d ∨ n < 3 * k then .error 4
    else do
      let r ← revOf (bs.take a)
      let w ← huffSyms c k r
      let r ← revOf ((bs.drop a).take b)
      let x ← huffSyms c k r
      let r ← revOf ((bs.drop (a + b)).take d)
      let y ← huffSyms c k r
      let r ← revOf (bs.drop (a + b + d))
      let z ← huffSyms c (n - 3 * k) r
      .ok (w ++ x ++ y ++ z)

/-! ## Blocks -/

/-- What goes on from block to block: the code, the three tables, the three repeated offsets, the output newest first. -/
structure Zst where
  huff : Option Huff := none
  ll : Option Fse := none
  ofs : Option Fse := none
  ml : Option Fse := none
  reps : Nat × Nat × Nat := (1, 4, 8)
  out : List Byte := []
  len : Nat := 0
  deriving DecidableEq, Repr

/-- The literals of a block: them, the bytes their section takes, and the code that stays. -/
def literals (z : Zst) (bs : List Byte) : Dec (List Byte × Nat × Option Huff) := do
  let h ← leAt 4 bs 0 1
  let sf := h / 4 % 4
  if h % 4 < 2 then do
    let (n, k) ← if sf % 2 = 0 then pure (h / 8, 1) else do
      let x ← leAt 4 bs 0 (if sf = 1 then 2 else 3)
      pure (x / 16, if sf = 1 then 2 else 3)
    if h % 4 = 0 then do
      let _ ← leAt 4 bs k n
      .ok ((bs.drop k).take n, k + n, z.huff)
    else do
      let v ← leAt 4 bs k 1
      .ok (List.replicate n (BitVec.ofNat 8 v), k + 1, z.huff)
  else do
    let w := match sf with | 2 => 14 | 3 => 18 | _ => 10
    let k := (4 + 2 * w) / 8
    let x ← leAt 4 bs 0 k
    let n := field x 4 w
    let size := field x (4 + w) w
    let _ ← leAt 4 bs k size
    let part := (bs.drop k).take size
    if 131072 < n then .error 4
    else if h % 4 = 2 then do
      let (c, t) ← huffRead part
      let l ← huffLits c (sf != 0) n (part.drop t)
      .ok (l, k + size, some c)
    else
      match z.huff with
      | none => .error 4
      | some c => do
        let l ← huffLits c (sf != 0) n part
        .ok (l, k + size, some c)

/-- Base values and extra bits of the codes 16 to 35 of literal lengths, and 32 to 52 of match lengths. -/
def llBase : List (Nat × Nat) :=
  [(16, 1), (18, 1), (20, 1), (22, 1), (24, 2), (28, 2), (32, 3), (40, 3), (48, 4), (64, 6), (128, 7), (256, 8), (512, 9),
   (1024, 10), (2048, 11), (4096, 12), (8192, 13), (16384, 14), (32768, 15), (65536, 16)]
def mlBase : List (Nat × Nat) :=
  [(35, 1), (37, 1), (39, 1), (41, 1), (43, 2), (47, 2), (51, 3), (59, 3), (67, 4), (83, 4), (99, 5), (131, 7), (259, 8),
   (515, 9), (1027, 10), (2051, 11), (4099, 12), (8195, 13), (16387, 14), (32771, 15), (65539, 16)]

/-- The distributions that the format itself gives. -/
def llDefault : Fse :=
  fseTable 6 ([4, 3] ++ List.replicate 11 2 ++ [1, 1, 1] ++ List.replicate 9 2 ++ [3, 2, 1, 1, 1, 1, 1, -1, -1, -1, -1])
def mlDefault : Fse := fseTable 6 ([1, 4, 3] ++ List.replicate 6 2 ++ List.replicate 37 1 ++ List.replicate 7 (-1))
def ofDefault : Fse := fseTable 5 (List.replicate 6 1 ++ [2, 2, 2] ++ List.replicate 15 1 ++ List.replicate 5 (-1))

/-- A table by its mode: the format's own, one symbol, a description, or the last one again. -/
def tableOf (mode : Nat) (own : Fse) (last : Option Fse) (maxAl max : Nat) (bs : List Byte) : Dec (Fse × Nat) :=
  match mode with
  | 0 => .ok (own, 0)
  | 1 => do
    let s ← leAt 4 bs 0 1
    if max < s then .error 4 else .ok (fseOne s, 1)
  | 2 => fseRead bs maxAl max
  | _ => match last with | none => .error 4 | some f => .ok (f, 0)

/-- The offset of a sequence with an offset value v and a literal length l, and the repeated offsets after it. -/
def offsetOf (reps : Nat × Nat × Nat) (v l : Nat) : Nat × Nat × Nat × Nat :=
  let (a, b, c) := reps
  if 3 < v then (v - 3, v - 3, a, b)
  else
    match (if l = 0 then v else v - 1) with
    | 0 => (a, a, b, c)
    | 1 => (b, b, a, c)
    | 2 => (c, c, a, b)
    | _ => (a - 1, a - 1, a, b)

/-- Sequences: n more, on the states of the three tables; what stays of the literals is copied at the end. -/
def runSeqs (room : Option Nat) (fl fo fm : Fse) (window : Nat) : Nat → Nat → Nat → Nat → Rev → List Byte → Zst → Dec Zst
  | 0, _, _, _, r, lits, z =>
    if r.left ≠ 0 then .error 4 else .ok { z with out := lits.reverse ++ z.out, len := z.len + lits.length }
  | n + 1, sl, so, sm, r, lits, z =>
    let cl := fl.sym sl
    let co := fo.sym so
    let cm := fm.sym sm
    let (v, r) := r.take co
    let v := 2 ^ co + v
    let bm := if cm < 32 then (cm + 3, 0) else mlBase.getD (cm - 32) (0, 0)
    let (m, r) := r.take bm.2
    let m := bm.1 + m
    let bl := if cl < 16 then (cl, 0) else llBase.getD (cl - 16) (0, 0)
    let (l, r) := r.take bl.2
    let l := bl.1 + l
    let (off, a, b, c) := offsetOf z.reps v l
    let len := z.len + l
    if lits.length < l ∨ r.left < 0 then .error 4
    else if tooLong room len then .error 9
    else if off = 0 ∨ len < off ∨ window < off then .error 4
    else if tooLong room (len + m) then .error 9
    else
      let z := { z with reps := (a, b, c), out := copyBack off m ((lits.take l).reverse ++ z.out), len := len + m }
      let lits := lits.drop l
      if n = 0 then runSeqs room fl fo fm window n sl so sm r lits z
      else
        let (sl, r) := fl.move sl r
        let (sm, r) := fm.move sm r
        let (so, r) := fo.move so r
        runSeqs room fl fo fm window n sl so sm r lits z

/-- A compressed block. -/
def zBlock (room : Option Nat) (window : Nat) (z : Zst) (bs : List Byte) : Dec Zst := do
  let (lits, k, huff) ← literals z bs
  let z := { z with huff := huff }
  let bs := bs.drop k
  let h ← leAt 4 bs 0 1
  if h = 0 then
    if bs.length ≠ 1 then .error 4 else .ok { z with out := lits.reverse ++ z.out, len := z.len + lits.length }
  else do
    let (n, k) ← if h < 128 then pure (h, 1) else if h < 255 then do
        let b ← leAt 4 bs 1 1
        pure ((h - 128) * 256 + b, 2)
      else do
        let b ← leAt 4 bs 1 2
        pure (b + 0x7F00, 3)
    let modes ← leAt 4 bs k 1
    let bs := bs.drop (k + 1)
    if modes % 4 ≠ 0 then .error 4
    else do
      let (fl, k) ← tableOf (modes / 64) llDefault z.ll 9 35 bs
      let bs := bs.drop k
      let (fo, k) ← tableOf (modes / 16 % 4) ofDefault z.ofs 8 31 bs
      let bs := bs.drop k
      let (fm, k) ← tableOf (modes / 4 % 4) mlDefault z.ml 9 52 bs
      let z := { z with ll := some fl, ofs := some fo, ml := some fm }
      if n = 0 then
        if bs.length ≠ k then .error 4 else .ok { z with out := lits.reverse ++ z.out, len := z.len + lits.length }
      else do
        let r ← revOf (bs.drop k)
        let (sl, r) := fl.start r
        let (so, r) := fo.start r
        let (sm, r) := fm.start r
        runSeqs room fl fo fm window n sl so sm r lits z

/-- Blocks up to the last, none of them over the limit, and the input bytes they take. -/
def zBlocks (room : Option Nat) (window : Nat) : Nat → Nat → Zst → List Byte → Dec (Zst × Nat)
  | 0, _, _, _ => .error 7
  | fuel + 1, k, z, bs => do
    let limit := Nat.min window 131072
    let h ← leAt 7 bs 0 3
    let size := h / 8
    if h / 2 % 4 = 3 ∨ limit < size then .error 4
    else do
      let n := if h / 2 % 4 = 1 then 1 else size
      if h / 2 % 4 = 0 ∧ tooLong room (z.len + Nat.min size (bs.length - 3)) then .error 9 else
      let _ ← leAt 7 bs 3 n
      let part := (bs.drop 3).take n
      let y ← match h / 2 % 4 with
        | 0 => pure { z with out := part.reverse ++ z.out, len := z.len + size }
        | 1 => pure { z with out := List.replicate size (part.headD 0) ++ z.out, len := z.len + size }
        | _ => zBlock (if tooLong room (z.len + limit) then room else none) window z part
      if limit < y.len - z.len then .error 4
      else if tooLong room y.len then .error 9
      else if h % 2 = 1 then .ok (y, k + 3 + n)
      else zBlocks room window fuel (k + 3 + n) y (bs.drop (3 + n))

/-! ## The content checksum -/

/-- A word turned left by r bits. -/
def rol64 (x : Word) (r : Nat) : Word := x <<< r ||| x >>> (64 - r)

/-- The five primes of the hash. -/
def xxP1 : Word := 0x9E3779B185EBCA87
def xxP2 : Word := 0xC2B2AE3D27D4EB4F
def xxP3 : Word := 0x165667B19E3779F9
def xxP4 : Word := 0x85EBCA77C2B2AE63
def xxP5 : Word := 0x27D4EB2F165667C5

/-- One round of a lane. -/
def xxRound (acc x : Word) : Word := rol64 (acc + x * xxP2) 31 * xxP1

/-- Word k of 8 bytes. -/
def xxWord (bs : List Byte) (k : Nat) : Word := BitVec.ofNat 64 (leNat ((bs.drop (8 * k)).take 8))

/-- Stripes of 32 bytes on four lanes. -/
def xxStripes : Nat → List Byte → Word × Word × Word × Word → Word × Word × Word × Word
  | 0, _, v => v
  | n + 1, bs, (a, b, c, d) =>
    xxStripes n (bs.drop 32) (xxRound a (xxWord bs 0), xxRound b (xxWord bs 1), xxRound c (xxWord bs 2), xxRound d (xxWord bs 3))

/-- What is left, by words, a half word and bytes. -/
def xxTail : Nat → List Byte → Word → Word
  | 0, _, h => h
  | n + 1, bs, h =>
    if 8 ≤ bs.length then xxTail n (bs.drop 8) (rol64 (h ^^^ xxRound 0 (xxWord bs 0)) 27 * xxP1 + xxP4)
    else if 4 ≤ bs.length then
      xxTail n (bs.drop 4) (rol64 (h ^^^ BitVec.ofNat 64 (leNat (bs.take 4)) * xxP1) 23 * xxP2 + xxP3)
    else
      match bs with
      | [] => h
      | b :: r => xxTail n r (rol64 (h ^^^ BitVec.ofNat 64 b.toNat * xxP5) 11 * xxP1)

/-- XXH64 with seed 0 (RFC 8878 names it). -/
def xxh64 (bs : List Byte) : Word :=
  let n := bs.length
  let h : Word :=
    if n < 32 then xxP5
    else
      let v := xxStripes (n / 32) bs (xxP1 + xxP2, xxP2, 0, -xxP1)
      let merge (h x : Word) : Word := (h ^^^ xxRound 0 x) * xxP1 + xxP4
      let h := rol64 v.1 1 + rol64 v.2.1 7 + rol64 v.2.2.1 12 + rol64 v.2.2.2 18
      merge (merge (merge (merge h v.1) v.2.1) v.2.2.1) v.2.2.2
  let h := xxTail n (bs.drop (n / 32 * 32)) (h + BitVec.ofNat 64 n)
  let h := (h ^^^ h >>> 33) * xxP2
  let h := (h ^^^ h >>> 29) * xxP3
  h ^^^ h >>> 32

/-! ## Frames -/

/-- A skippable frame at the head: the bytes it takes. -/
def skippable (bs : List Byte) : Bool := 4 ≤ bs.length && leNat (bs.take 4) / 16 == 0x184D2A5

/-- Skippable frames at the head, whole ones only where `all` is not set: the bytes they take. -/
def skips (whole : Bool) : Nat → List Byte → Dec Nat
  | 0, _ => .ok 0
  | fuel + 1, bs =>
    if skippable bs = false then .ok 0
    else
      let n := leNat ((bs.drop 4).take 4)
      if bs.length < 8 ∨ bs.length < 8 + n then if whole then .ok 0 else .error 7
      else (skips whole fuel (bs.drop (8 + n))).map fun k => 8 + n + k

/-- A frame: its output and the bytes it takes. -/
def zFrame (room : Option Nat) (bs : List Byte) : Dec (List Byte × Nat) := do
  let magic ← leAt 7 bs 0 4
  if magic ≠ 0xFD2FB528 then .error 4
  else do
    let d ← leAt 7 bs 4 1
    let one := d.testBit 5
    if d.testBit 3 then .error 4
    else do
      let (w, k) ← if one then pure (0, 5) else do
        let v ← leAt 7 bs 5 1
        let base := 2 ^ (10 + v / 8)
        pure (base + base / 8 * (v % 8), 6)
      let dn := match d % 4 with | 3 => 4 | n => n
      let dict ← leAt 7 bs k dn
      let k := k + dn
      let cn := match d / 64 with | 0 => if one then 1 else 0 | 1 => 2 | 2 => 4 | _ => 8
      let c ← leAt 7 bs k cn
      let c := if cn = 2 then c + 256 else c
      let window := if one then c else w
      if 8388608 < window ∨ dict ≠ 0 then .error 5
      else do
        let k := k + cn
        let (z, n) ← zBlocks room window bs.length k {} (bs.drop k)
        if cn ≠ 0 ∧ z.len ≠ c then .error 4
        else if d.testBit 2 then do
          let sum ← leAt 7 bs n 4
          if sum = (xxh64 z.out.reverse).toNat % 2 ^ 32 then .ok (z.out.reverse, n + 4) else .error 6
        else .ok (z.out.reverse, n)

/-- A frame, with the skippable frames before it and after it. -/
def unzstd (room : Option Nat) (bs : List Byte) : Dec (List Byte × Nat) := do
  let k ← skips false bs.length bs
  if k ≠ 0 ∧ bs.length = k then .ok ([], k)
  else do
    let (out, n) ← zFrame room (bs.drop k)
    let m ← skips true bs.length (bs.drop (k + n))
    .ok (out, k + n + m)

end Sys2Proof.Machine
end

