-- ==== Sys2Proof/Machine/Inflate.lean ====
section
/-! DEFINITION. What a decompress engine accepts (R262, Table 15-3): DEFLATE (RFC 1951), raw or in zlib (RFC 1950) and
gzip (RFC 1952) wrappers, Zstandard frames (Zstd.lean), and a message's members in order (R271). The spec names the RFCs
and does not repeat them: DEFLATE and its wrappers are written out here from them (notes/assumptions/10.md). -/

namespace Sys2Proof.Machine

/-! ## Bits -/

/-- A bit stream, least significant bit of the first byte first: its value, the bits in all, the bits read. -/
structure Bits where
  x : Nat
  len : Nat
  pos : Nat := 0
  deriving DecidableEq, Repr

/-- The bit stream of a byte list. -/
def bitsOf (bs : List Byte) : Bits := { x := leNat bs, len := 8 * bs.length }

/-- The next n bits; cause 7 where the input ends. -/
def Bits.take (b : Bits) (n : Nat) : Dec (Nat × Bits) :=
  if b.len < b.pos + n then .error 7 else .ok (field b.x b.pos n, { b with pos := b.pos + n })

/-- On to the next byte boundary. -/
def Bits.align (b : Bits) : Bits := { b with pos := (b.pos + 7) / 8 * 8 }

/-! ## Canonical codes -/

/-- A canonical code: how many symbols have each length, and the symbols by length and then by value. -/
structure Code where
  count : List Nat
  syms : List Nat
  deriving DecidableEq, Repr

/-- The code of a list of lengths. -/
def codeFrom (lens : List Nat) : Code :=
  { count := (List.range 16).map fun l => (lens.filter fun x => x == l).length,
    syms := (List.range 15).flatMap fun l => (lens.zipIdx.filter fun x => x.1 == l + 1).map Prod.snd }

/-- The code space left over: negative where too many codes are claimed. -/
def Code.left (c : Code) : Int :=
  (List.range 15).foldl (fun (a : Int) l => 2 * a - (c.count.getD (l + 1) 0 : Nat)) 1

/-- The code is complete, or is empty or one code of one bit. -/
def Code.ok (c : Code) (n : Nat) : Bool :=
  c.left == 0 || (0 < c.left && c.count.getD 0 0 + c.count.getD 1 0 == n)

/-- One symbol: bit by bit through the lengths. -/
def Code.next (c : Code) : Nat → Nat → Nat → Nat → Bits → Dec (Nat × Bits)
  | 0, _, _, _, _ => .error 1
  | fuel + 1, code, first, index, b => do
    let (v, b) ← b.take 1
    let code := code + v
    let k := c.count.getD (15 - fuel) 0
    if code < first + k then .ok (c.syms.getD (index + (code - first)) 0, b)
    else c.next fuel (2 * code) (2 * (first + k)) (index + k) b

/-- One symbol. -/
def Code.read (c : Code) (b : Bits) : Dec (Nat × Bits) := c.next 15 0 0 0 b

/-! ## DEFLATE -/

/-- Base lengths and extra bits of the length symbols 257 to 285. -/
def lengthBase : List Nat :=
  [3, 4, 5, 6, 7, 8, 9, 10, 11, 13, 15, 17, 19, 23, 27, 31, 35, 43, 51, 59, 67, 83, 99, 115, 131, 163, 195, 227, 258]
def lengthExtra : List Nat :=
  [0, 0, 0, 0, 0, 0, 0, 0, 1, 1, 1, 1, 2, 2, 2, 2, 3, 3, 3, 3, 4, 4, 4, 4, 5, 5, 5, 5, 0]

/-- Base distances and extra bits of the distance symbols 0 to 29. -/
def distBase : List Nat :=
  [1, 2, 3, 4, 5, 7, 9, 13, 17, 25, 33, 49, 65, 97, 129, 193, 257, 385, 513, 769, 1025, 1537, 2049, 3073, 4097, 6145,
   8193, 12289, 16385, 24577]
def distExtra : List Nat :=
  [0, 0, 0, 0, 1, 1, 2, 2, 3, 3, 4, 4, 5, 5, 6, 6, 7, 7, 8, 8, 9, 9, 10, 10, 11, 11, 12, 12, 13, 13]

/-- The symbols of one block, the output newest first. -/
def blockSyms (room : Option Nat) (lit dist : Code) : Nat → Bits → List Byte → Dec (Bits × List Byte)
  | 0, _, _ => .error 7
  | fuel + 1, b, out => do
    if tooLong room out.length then .error 9 else
    let (v, b) ← lit.read b
    if v < 256 then blockSyms room lit dist fuel b (BitVec.ofNat 8 v :: out)
    else if v = 256 then .ok (b, out)
    else if 285 < v then .error 1
    else do
      let (e, b) ← b.take (lengthExtra.getD (v - 257) 0)
      let (w, b) ← dist.read b
      if 29 < w then .error 1
      else do
        let (f, b) ← b.take (distExtra.getD w 0)
        let d := distBase.getD w 1 + f
        if out.length < d then .error 1
        else blockSyms room lit dist fuel b (copyBack d (lengthBase.getD (v - 257) 0 + e) out)

/-- The code lengths of a dynamic block, n of them, the last ones first. -/
def codeLengths (c : Code) (n : Nat) : Nat → Bits → List Nat → Dec (Bits × List Nat)
  | 0, b, ls => if ls.length = n then .ok (b, ls) else .error 1
  | fuel + 1, b, ls =>
    if ls.length = n then .ok (b, ls)
    else if n < ls.length then .error 1
    else do
      let (v, b) ← c.read b
      if v < 16 then codeLengths c n fuel b (v :: ls)
      else if v = 16 then do
        let (k, b) ← b.take 2
        match ls with
        | [] => .error 1
        | l :: _ => codeLengths c n fuel b (List.replicate (3 + k) l ++ ls)
      else if v = 17 then do
        let (k, b) ← b.take 3
        codeLengths c n fuel b (List.replicate (3 + k) 0 ++ ls)
      else do
        let (k, b) ← b.take 7
        codeLengths c n fuel b (List.replicate (11 + k) 0 ++ ls)

/-- The order in which the lengths of the code-length code stand. -/
def lengthOrder : List Nat := [16, 17, 18, 0, 8, 7, 9, 6, 10, 5, 11, 4, 12, 3, 13, 2, 14, 1, 15]

/-- n values of three bits. -/
def threes : Nat → Bits → Dec (Bits × List Nat)
  | 0, b => .ok (b, [])
  | n + 1, b => do
    let (v, b) ← b.take 3
    let (b, r) ← threes n b
    .ok (b, v :: r)

/-- The two codes of a dynamic block. -/
def dynamicCodes (b : Bits) : Dec (Bits × Code × Code) := do
  let (l, b) ← b.take 5
  let (d, b) ← b.take 5
  let (k, b) ← b.take 4
  if 29 < l ∨ 29 < d then .error 1
  else do
    let (b, xs) ← threes (k + 4) b
    let cl := codeFrom ((List.range 19).map fun i => xs.getD (lengthOrder.idxOf i) 0)
    if cl.left ≠ 0 then .error 1
    else do
      let n := l + 257 + d + 1
      let (b, ls) ← codeLengths cl n (n + 1) b []
      let ls := ls.reverse
      let lit := codeFrom (ls.take (l + 257))
      let dist := codeFrom (ls.drop (l + 257))
      if ls.getD 256 0 = 0 ∨ !lit.ok (l + 257) ∨ !dist.ok (d + 1) then .error 1 else .ok (b, lit, dist)

/-- The fixed codes. -/
def fixedLit : Code :=
  codeFrom (List.replicate 144 8 ++ List.replicate 112 9 ++ List.replicate 24 7 ++ List.replicate 8 8)
def fixedDist : Code := codeFrom (List.replicate 30 5)

/-- A stored block. -/
def storedBlock (room : Option Nat) (b : Bits) (out : List Byte) : Dec (Bits × List Byte) := do
  let (n, b) ← b.align.take 16
  let (m, b) ← b.take 16
  if n + m ≠ 65535 then .error 1
  else if tooLong room (out.length + Nat.min n ((b.len - b.pos) / 8)) then .error 9
  else do
    let (v, b) ← b.take (8 * n)
    .ok (b, (bytesOf n v).reverse ++ out)

/-- Blocks up to the last. -/
def blocks (room : Option Nat) : Nat → Bits → List Byte → Dec (Bits × List Byte)
  | 0, _, _ => .error 7
  | fuel + 1, b, out => do
    let (last, b) ← b.take 1
    let (kind, b) ← b.take 2
    let (b, out) ←
      if kind = 0 then storedBlock room b out
      else if kind = 1 then blockSyms room fixedLit fixedDist (b.len + 1) b out
      else if kind = 2 then do
        let (b, lit, dist) ← dynamicCodes b
        blockSyms room lit dist (b.len + 1) b out
      else .error 1
    if last = 1 then .ok (b, out) else blocks room fuel b out

/-- A DEFLATE stream: its output, and the input bytes it takes. -/
def inflate (room : Option Nat) (bs : List Byte) : Dec (List Byte × Nat) := do
  let (b, out) ← blocks room (8 * bs.length + 1) (bitsOf bs) []
  .ok (out.reverse, (b.pos + 7) / 8)

/-! ## Checks -/

/-- Adler-32 (RFC 1950). -/
def adler32 (bs : List Byte) : Nat :=
  let r := bs.foldl (fun (p : Nat × Nat) b =>
    let x := (p.1 + b.toNat) % 65521
    (x, (p.2 + x) % 65521)) (1, 0)
  r.2 * 65536 + r.1

/-- One byte into a CRC-32 (RFC 1952). -/
def crcByte (c : Nat) (b : Byte) : Nat :=
  (List.range 8).foldl (fun c _ => if c % 2 = 1 then Nat.xor 0xEDB88320 (c / 2) else c / 2) (Nat.xor c b.toNat)

/-- CRC-32. -/
def crc32 (bs : List Byte) : Nat := Nat.xor (bs.foldl crcByte 0xFFFFFFFF) 0xFFFFFFFF

/-! ## Wrappers -/

/-- A zlib header is valid (RFC 1950). -/
def zlibHeader (bs : List Byte) : Bool :=
  2 ≤ bs.length && byteAt bs 0 % 16 == 8 && byteAt bs 0 / 16 ≤ 7 && (byteAt bs 0 * 256 + byteAt bs 1) % 31 == 0

/-- The bytes from offset k on; cause 7 where fewer than n remain. -/
def need (bs : List Byte) (k n : Nat) : Dec (List Byte) := if bs.length < k + n then .error 7 else .ok (bs.drop k)

/-- A zlib stream. -/
def unzlib (room : Option Nat) (bs : List Byte) : Dec (List Byte × Nat) := do
  let _ ← need bs 0 2
  if zlibHeader bs = false ∨ byteAt bs 1 / 32 % 2 = 1 then .error 2
  else do
    let (out, n) ← inflate room (bs.drop 2)
    let t ← need bs (2 + n) 4
    let sum := (t.take 4).foldl (fun a b => a * 256 + b.toNat) 0
    if sum = adler32 out then .ok (out, n + 6) else .error 2

/-- The offset after a zero-terminated string that begins at k. -/
def afterName (bs : List Byte) (k : Nat) : Dec Nat :=
  match (bs.drop k).findIdx? fun b => b == 0 with
  | none => .error 7
  | some i => .ok (k + i + 1)

/-- The length of a gzip header (RFC 1952). -/
def gzipHeader (bs : List Byte) : Dec Nat := do
  let _ ← need bs 0 10
  let flg := byteAt bs 3
  if byteAt bs 0 ≠ 0x1F ∨ byteAt bs 1 ≠ 0x8B ∨ byteAt bs 2 ≠ 8 ∨ 32 ≤ flg then .error 3
  else do
    let k ← if flg.testBit 2 then do
        let x ← need bs 10 2
        let n := leNat (x.take 2)
        let _ ← need bs 12 n
        pure (12 + n)
      else pure 10
    let k ← if flg.testBit 3 then afterName bs k else pure k
    let k ← if flg.testBit 4 then afterName bs k else pure k
    if flg.testBit 1 then do
      let x ← need bs k 2
      if leNat (x.take 2) = crc32 (bs.take k) % 65536 then .ok (k + 2) else .error 3
    else .ok k

/-- A gzip member. -/
def gunzip (room : Option Nat) (bs : List Byte) : Dec (List Byte × Nat) := do
  let k ← gzipHeader bs
  let (out, n) ← inflate room (bs.drop k)
  let t ← need bs (k + n) 8
  if leNat (t.take 4) = crc32 out ∧ leNat ((t.drop 4).take 4) = out.length % 2 ^ 32 then .ok (out, k + n + 8) else .error 3

/-- One member of a format: 0 raw DEFLATE, 1 zlib, 2 gzip, 3 Zstandard; the output that is allowed, if it is limited. -/
def member (format : Nat) (room : Option Nat) (bs : List Byte) : Dec (List Byte × Nat) :=
  match format with
  | 0 => inflate room bs
  | 1 => unzlib room bs
  | 2 => gunzip room bs
  | _ => unzstd room bs

/-- The format that FORMAT 4 recognises (Table 15-3). -/
def detect (bs : List Byte) : Option Nat :=
  if byteAt bs 0 = 0x1F ∧ byteAt bs 1 = 0x8B then some 2
  else if bs.take 4 = [0x28, 0xB5, 0x2F, 0xFD] then some 3
  else if zlibHeader bs then some 1
  else none

/-- How a message fails in a stage: the cause of Table 25-5, the byte offset, the member. -/
structure Fail where
  cause : Nat
  off : Nat
  member : Nat := 0
  deriving DecidableEq, Repr

/-- Members one after another: the output of those before the first that fails (R271), and the failure. `room` is what
MAXOUT still allows, if it limits. -/
def members (format : Nat) (multi : Bool) : Nat → Nat → Nat → Option Nat → List Byte → List Byte × Option Fail
  | 0, _, _, _, _ => ([], none)
  | fuel + 1, k, off, room, bs =>
    if k ≠ 0 ∧ bs = [] then ([], none)
    else if k ≠ 0 ∧ (!multi ∨ format < 2) then ([], some { cause := 8, off := off, member := k })
    else
      match member format room bs with
      | .error c => ([], some { cause := c, off := off, member := k })
      | .ok (out, n) =>
        let r := members format multi fuel (k + 1) (off + n) (room.map fun r => r - out.length) (bs.drop n)
        (out ++ r.1, r.2)

/-- A decompress stage on a message, under its options (Table 15-3). -/
def decompress (opts : Nat) (bs : List Byte) : List Byte × Option Fail :=
  let maxout := field opts 8 24
  let room := if maxout = 0 then none else some (1024 * maxout)
  let f := opts % 8
  match (if f = 4 then detect bs else some f) with
  | none => ([], some { cause := 10, off := 0 })
  | some f => members f (opts.testBit 3) (bs.length + 2) 0 0 room bs

end Sys2Proof.Machine
end

