-- ==== Sys2Proof/Machine/Charset.lean ====
section
/-! DEFINITION. The transfer-and-charset stage (R262, Table 15-4): base64 and quoted-printable (RFC 2045), the character
sets, and what the stage writes. -/

namespace Sys2Proof.Machine

/-- A byte and its offset in the stage's input. -/
abbrev At := Nat × Nat

/-! ## Transfer decoding -/

/-- The value of a base64 character. -/
def base64Val (b : Nat) : Option Nat :=
  if 65 ≤ b ∧ b ≤ 90 then some (b - 65)
  else if 97 ≤ b ∧ b ≤ 122 then some (b - 71)
  else if 48 ≤ b ∧ b ≤ 57 then some (b + 4)
  else if b = 43 then some 62
  else if b = 47 then some 63
  else none

/-- The bytes that a group of 2, 3 or 4 sextets gives. -/
def sextets (vs : List At) : List At :=
  let x := (vs.map Prod.fst).foldl (fun a v => a * 64 + v) 0 * 64 ^ (4 - vs.length)
  let o := (vs.head?.map Prod.snd).getD 0
  ((List.range 3).map fun i => (x / 256 ^ (2 - i) % 256, o)).take (vs.length - 1)

/-- Base64: `vs` are the sextets of the group begun, `pad` the padding characters met. A group that the end of a whole
message leaves without padding stands; of a message cut short it is dropped (R272). -/
def unbase64 (whole : Bool) (vs : List At) (pad : Nat) : List At → List At × Option Fail
  | [] =>
    if pad = 0 then
      if whole = false then ([], none) else
      if vs.length = 1 then ([], some { cause := 11, off := (vs.head?.map Prod.snd).getD 0 }) else (sextets vs, none)
    else if vs.length + pad = 4 then (sextets vs, none)
    else if whole = false then ([], none)
    else ([], some { cause := 11, off := (vs.head?.map Prod.snd).getD 0 })
  | (b, o) :: r =>
    if b = 13 ∨ b = 10 ∨ b = 32 ∨ b = 9 then unbase64 whole vs pad r
    else if b = 61 then
      if vs.length < 2 ∨ 4 ≤ vs.length + pad then ([], some { cause := 11, off := o }) else unbase64 whole vs (pad + 1) r
    else
      match base64Val b with
      | none => ([], some { cause := 11, off := o })
      | some v =>
        if pad ≠ 0 then ([], some { cause := 11, off := o })
        else if vs.length = 3 then
          let t := unbase64 whole [] 0 r
          (sextets (vs ++ [(v, o)]) ++ t.1, t.2)
        else unbase64 whole (vs ++ [(v, o)]) 0 r

/-- The value of a hexadecimal digit. -/
def hexVal (b : Nat) : Option Nat :=
  if 48 ≤ b ∧ b ≤ 57 then some (b - 48)
  else if 65 ≤ b ∧ b ≤ 70 then some (b - 55)
  else if 97 ≤ b ∧ b ≤ 102 then some (b - 87)
  else none

/-- A blank of a line: space or tab. -/
def isBlank (x : At) : Bool := x.1 == 32 || x.1 == 9

/-- The bytes of the blanks and the line break that come next, where they do. -/
def breakLen (xs : List At) : Option Nat :=
  let n := (xs.takeWhile isBlank).length
  match xs.drop n with
  | (13, _) :: (10, _) :: _ => some (n + 2)
  | (10, _) :: _ => some (n + 1)
  | _ => none

/-- The value of the two hexadecimal digits that come next. -/
def hexPair (xs : List At) : Option Nat := do
  let h ← xs[0]?
  let l ← xs[1]?
  let h ← hexVal h.1
  let l ← hexVal l.1
  some (16 * h + l)

/-- The input ends inside an escape: after its sign and at most one digit, or inside a line break. -/
def escapeCut (xs : List At) : Bool :=
  xs.length < 2 && (xs.all fun x => (hexVal x.1).isSome) || match xs.dropWhile isBlank with
    | [] => true
    | [x] => x.1 == 13
    | _ => false

/-- Quoted-printable (RFC 2045): blanks at the end of a line do not count, soft line breaks are removed. `k` bytes of the
input are part of what has been read. An escape inside which a message cut short ends is dropped (R272). -/
def unquote (whole : Bool) : Nat → List At → List At × Option Fail
  | _, [] => ([], none)
  | k + 1, _ :: r => unquote whole k r
  | 0, x :: r =>
    if isBlank x ∧ ((breakLen r).isSome ∨ r.all isBlank) then unquote whole 0 r
    else if x.1 ≠ 61 then
      let t := unquote whole 0 r
      (x :: t.1, t.2)
    else
      match breakLen r, hexPair r with
      | some n, _ => unquote whole n r
      | none, some v =>
        let t := unquote whole 2 r
        ((v, x.2) :: t.1, t.2)
      | none, none => if !whole ∧ escapeCut r then ([], none) else ([], some { cause := 12, off := x.2 })

/-- Transfer decoding TE of a stage's input. -/
def transfer (whole : Bool) (te : Nat) (bs : List Byte) : List At × Option Fail :=
  let xs := bs.zipIdx.map fun b => (b.1.toNat, b.2)
  match te with
  | 1 => unbase64 whole [] 0 xs
  | 2 => unquote whole 0 xs
  | _ => (xs, none)

/-! ## Character sets -/

/-- A scalar value of Unicode. -/
def isScalar (c : Nat) : Bool := c < 0xD800 || (0xE000 ≤ c && c ≤ 0x10FFFF)

/-- How the next character stands: none where the input ends inside it, else the bytes it takes and its code point, if it
has one. -/
abbrev Char1 := Option (Nat × Option Nat)

/-- One UTF-8 character (R398 cause 13: overlong forms, surrogates, values beyond Unicode are invalid). -/
def utf8Next (bs : List Nat) : Char1 :=
  let b := bs.headD 0
  let n := if b < 0x80 then 1 else if 0xC2 ≤ b ∧ b ≤ 0xDF then 2 else if 0xE0 ≤ b ∧ b ≤ 0xEF then 3
    else if 0xF0 ≤ b ∧ b ≤ 0xF4 then 4 else 0
  if n = 0 then some (1, none)
  else
    let tail := ((bs.drop 1).take (n - 1))
    if tail.any fun x => x < 0x80 || 0xBF < x then some (1, none)
    else if bs.length < n then none
    else
      let c := tail.foldl (fun a x => a * 64 + x % 64) (if n = 1 then b else b % 2 ^ (7 - n))
      let low := match n with | 1 => 0 | 2 => 0x80 | 3 => 0x800 | _ => 0x10000
      some (n, if low ≤ c ∧ isScalar c then some c else none)

/-- n bytes as a number, little-endian or not. -/
def unitOfBytes (little : Bool) (bs : List Nat) : Nat :=
  if little then bs.foldr (fun b a => b + 256 * a) 0 else bs.foldl (fun a b => a * 256 + b) 0

/-- One UTF-16 character. -/
def utf16Next (little : Bool) (bs : List Nat) : Char1 :=
  if bs.length < 2 then none
  else
    let a := unitOfBytes little (bs.take 2)
    if a < 0xD800 ∨ 0xDFFF < a then some (2, some a)
    else if 0xDC00 ≤ a then some (2, none)
    else if bs.length < 4 then none
    else
      let b := unitOfBytes little ((bs.drop 2).take 2)
      if 0xDC00 ≤ b ∧ b ≤ 0xDFFF then some (4, some (0x10000 + (a - 0xD800) * 0x400 + (b - 0xDC00))) else some (2, none)

/-- One UTF-32 character. -/
def utf32Next (little : Bool) (bs : List Nat) : Char1 :=
  if bs.length < 4 then none
  else
    let a := unitOfBytes little (bs.take 4)
    some (4, if isScalar a then some a else none)

/-- The bytes of the next character of a legacy set: EUC-JP, Shift_JIS, EUC-KR, GB18030; one of the others. -/
def legacyLen (cs : Nat) (bs : List Nat) : Nat :=
  let b := bs.headD 0
  let c := (bs.drop 1).headD 0
  match cs with
  | 8 => if b = 0x8F then 3 else if b = 0x8E ∨ 0xA1 ≤ b ∧ b ≤ 0xFE then 2 else 1
  | 9 => if 0x81 ≤ b ∧ b ≤ 0x9F ∨ 0xE0 ≤ b ∧ b ≤ 0xFC then 2 else 1
  | 10 => if 0xA1 ≤ b ∧ b ≤ 0xFE then 2 else 1
  | 11 => if 0x81 ≤ b ∧ b ≤ 0xFE then (if 0x30 ≤ c ∧ c ≤ 0x39 then 4 else 2) else 1
  | _ => 1

/-- Where cell k of a table stands: no character, a free value, or a character. -/
def tableCell (t : String) (cs : Nat) (bs : List Nat) (k : Nat) : Option Nat :=
  match t.toList[k]? with
  | none => none
  | some c =>
    if c = '.' then none else if c = '?' then Config.charMap cs (bs.map (BitVec.ofNat 8)) else some c.toNat

/-- The cell of a pair of bytes in a table of rows of n cells that begins at lead byte `lead` and trail byte `low`. -/
def pairCell (t : String) (cs n lead low : Nat) (bs : List Nat) (h l : Nat) : Option Nat :=
  if h < lead ∨ l < low ∨ low + n ≤ l then none else tableCell t cs bs ((h - lead) * n + (l - low))

/-- The half-width katakana of JIS X 0201. -/
def katakana (b : Nat) : Option Nat := if 0xA1 ≤ b ∧ b ≤ 0xDF then some (0xFF61 + (b - 0xA1)) else none

/-- A code of EUC-JP beyond ASCII. -/
def eucJp (bs : List Nat) : Option Nat :=
  let b (k : Nat) : Nat := bs.getD k 0
  if b 0 = 0x8E then katakana (b 1)
  else if b 0 = 0x8F then pairCell jis212 8 94 0xA1 0xA1 bs (b 1) (b 2)
  else pairCell jis208 8 94 0xA1 0xA1 bs (b 0) (b 1)

/-- A code of Shift_JIS beyond ASCII: two rows of JIS X 0208 to a lead byte. -/
def shiftJis (bs : List Nat) : Option Nat :=
  let b (k : Nat) : Nat := bs.getD k 0
  let lead := if b 0 < 0xE0 then b 0 - 0x81 else b 0 - 0xC1
  let trail := if b 1 < 0x7F then b 1 - 0x40 else b 1 - 0x41
  if bs.length = 1 then katakana (b 0)
  else if b 1 < 0x40 ∨ b 1 = 0x7F ∨ 0xFC < b 1 then none
  else tableCell jis208 9 bs (lead * 188 + trail)

/-- The other two-byte codes of GB18030 that no character of the tables takes, where its published tables agree: the first code of a
run within a row, its character, and how many there are. -/
def gbOthers : List (Nat × Nat × Nat) :=
  [(0xA2AB, 0xE766, 6), (0xA2E4, 0xE76D, 1), (0xA2EF, 0xE76E, 2), (0xA2FD, 0xE770, 2), (0xA4F4, 0xE772, 11), (0xA5F7, 0xE77D, 8),
   (0xA6B9, 0xE785, 8), (0xA6F6, 0xE797, 9), (0xA7C2, 0xE7A0, 15), (0xA7F2, 0xE7AF, 13), (0xA896, 0xE7BC, 11), (0xA8BF, 0x01F9, 1),
   (0xA8C1, 0xE7C9, 4), (0xA8EA, 0xE7CD, 21), (0xA958, 0xE7E2, 1), (0xA95B, 0xE7E3, 1), (0xA95D, 0xE7E4, 3), (0xA997, 0xE7F4, 13),
   (0xA9F0, 0xE801, 15), (0xD7FA, 0xE810, 5)]

/-- The character of a code of those runs. -/
def gbOther (code : Nat) : Option Nat :=
  (gbOthers.find? fun r => r.1 ≤ code && code < r.1 + r.2.2).map fun r => r.2.1 + (code - r.1)

/-- A two-byte code of GB18030: its user-defined areas follow one another from U+E000 on. -/
def gbPair (bs : List Nat) : Option Nat :=
  let h := bs.getD 0 0
  let l := bs.getD 1 0
  let cell := if l < 0x7F then l else l - 1
  if l < 0x40 ∨ l = 0x7F ∨ 0xFE < l then none
  else if 0xAA ≤ h ∧ h ≤ 0xAF ∧ 0xA1 ≤ l then some (0xE000 + (h - 0xAA) * 94 + (l - 0xA1))
  else if 0xF8 ≤ h ∧ 0xA1 ≤ l then some (0xE234 + (h - 0xF8) * 94 + (l - 0xA1))
  else if 0xA1 ≤ h ∧ h ≤ 0xA7 ∧ l ≤ 0xA0 then some (0xE4C6 + (h - 0xA1) * 96 + (cell - 0x40))
  else if (gbOther (h * 256 + l)).isSome then gbOther (h * 256 + l)
  else if h < 0xAB then pairCell gbkA 11 190 0x81 0x40 bs h cell
  else if h < 0xD5 then pairCell gbkB 11 190 0xAB 0x40 bs h cell
  else pairCell gbkC 11 190 0xD5 0x40 bs h cell

/-- The character of the run that code n falls in. -/
def runCell (n : Nat) : Option Nat := ((gbRuns.reverse.find? fun r => r.1 ≤ n).map fun r => r.2 + (n - r.1))

/-- A four-byte code of GB18030, which follow one another in order, those beyond the first plane without a gap. -/
def gbFour (bs : List Nat) : Option Nat :=
  let d (k lo : Nat) : Nat := bs.getD k 0 - lo
  let n (lead : Nat) : Nat := ((d 0 lead * 10 + d 1 0x30) * 126 + d 2 0x81) * 10 + d 3 0x30
  if bs.getD 2 0 < 0x81 ∨ 0xFE < bs.getD 2 0 ∨ bs.getD 3 0 < 0x30 ∨ 0x39 < bs.getD 3 0 then none
  else if 0x90 ≤ bs.headD 0 then
    let c := 0x10000 + n 0x90
    if c ≤ 0x10FFFF then some c else none
  else if 39420 ≤ n 0x81 then none
  else if n 0x81 = 7457 then Config.charMap 11 (bs.map (BitVec.ofNat 8))
  else runCell (n 0x81)

/-- One character of a legacy set, from the tables of CharTables and CharRows: ASCII stands for itself, but for the two codes
of Shift_JIS whose published tables differ. -/
def legacyNext (cs part : Nat) (bs : List Nat) : Char1 :=
  let b := bs.headD 0
  let n := legacyLen cs bs
  let x := bs.take n
  if bs.length < n then none
  else if n = 1 ∧ b < 0x80 then
    some (1, if cs = 9 ∧ (b = 0x5C ∨ b = 0x7E) then Config.charMap cs (x.map (BitVec.ofNat 8)) else some b)
  else
    some (n, match cs with
      | 6 => if b < 0xA0 ∨ part = 1 then some b else cellOf (isoPart part) (b - 0xA0)
      | 7 => cellOf koi8r (b - 0x80)
      | 8 => if n = 1 then none else eucJp x
      | 9 => shiftJis x
      | 10 => if n = 1 then none else pairCell ksx1001 10 94 0xA1 0xA1 x b (x.getD 1 0)
      | _ => if n = 1 then none else if n = 2 then gbPair x else gbFour x)

/-- One character of set cs (Table 15-4); set 3 has been settled into 1 or 2. -/
def charNext (cs part : Nat) (bs : List Nat) : Char1 :=
  match cs with
  | 0 => utf8Next bs
  | 1 => utf16Next true bs
  | 2 | 3 => utf16Next false bs
  | 4 => utf32Next true bs
  | 5 => utf32Next false bs
  | _ => legacyNext cs part bs

/-- Characters to the end of the input or the first failure: 13 invalid, 14 the input ends inside a character; an incomplete
character that ends a message cut short is dropped (R272). -/
def decodeChars (whole : Bool) (cs part : Nat) : Nat → List At → List Nat × Option Fail
  | 0, _ => ([], none)
  | _ + 1, [] => ([], none)
  | fuel + 1, x :: r =>
    match charNext cs part ((x :: r).map Prod.fst) with
    | none => ([], if whole then some { cause := 14, off := x.2 } else none)
    | some (_, none) => ([], some { cause := 13, off := x.2 })
    | some (n, some c) =>
      let t := decodeChars whole cs part fuel ((x :: r).drop n)
      (c :: t.1, t.2)

/-- UTF-16 by its byte-order mark, big-endian without one. -/
def settleSet (cs : Nat) (xs : List At) : Nat :=
  if cs = 3 then (if (xs.map Prod.fst).take 2 = [0xFF, 0xFE] then 1 else 2) else cs

/-- The UTF-8 bytes of a code point. -/
def utf8Bytes (c : Nat) : List Nat :=
  if c < 0x80 then [c]
  else if c < 0x800 then [0xC0 + c / 64, 0x80 + c % 64]
  else if c < 0x10000 then [0xE0 + c / 4096, 0x80 + c / 64 % 64, 0x80 + c % 64]
  else [0xF0 + c / 262144, 0x80 + c / 4096 % 64, 0x80 + c / 64 % 64, 0x80 + c % 64]

/-! ## What the stage writes -/

/-- Byte entries, three bytes at a time (R264). -/
def byteEntries : List Nat → List Nat
  | [] => []
  | [a] => [2 ^ 24 + a]
  | [a, b] => [2 * 2 ^ 24 + a + b * 2 ^ 8]
  | a :: b :: c :: r => (3 * 2 ^ 24 + a + b * 2 ^ 8 + c * 2 ^ 16) :: byteEntries r

/-- The bytes of byte entries. DESIGN CHOICE: a code point or a token that comes to a stage that takes bytes is no byte
(notes/assumptions/36.md). -/
def entryBytes (es : List Nat) : List Byte :=
  es.flatMap fun e => bytesOf (field e 24 2) (e % 2 ^ 24)

/-- What a stage makes of a message: the data entries, their bytes for the record (Table 15-7), and its failure. -/
structure Made where
  entries : List Nat
  bytes : Nat
  fail : Option Fail := none
  deriving DecidableEq, Repr

/-- A transfer-and-charset stage on a message, under its options (Table 15-4). The failure met first in input order is
the one that counts; `whole` says that the message has not been cut short before this stage. -/
def transcode (whole : Bool) (opts : Nat) (bs : List Byte) : Made :=
  let t := transfer whole (opts % 4) bs
  let cs := settleSet (field opts 4 4) t.1
  let d := decodeChars whole cs (field opts 8 5) (t.1.length + 1) t.1
  let fail := match t.2, d.2 with
    | some f, some e => if e.cause = 14 then some f else some e
    | some f, none => some f
    | none, e => e
  let out := if opts.testBit 17 && d.1.head? == some 0xFEFF then d.1.drop 1 else d.1
  if opts.testBit 16 then { entries := out, bytes := 4 * out.length, fail := fail }
  else
    let us := out.flatMap utf8Bytes
    { entries := byteEntries us, bytes := us.length, fail := fail }

end Sys2Proof.Machine
end

