-- ==== Sys2Proof/Machine/Ladle.lean ====
section
/-! DEFINITION. Ladle copies (R232 to R238): the word, what its descriptor fixes, the transform chain (R106, R235,
R236), and the landing of its rows (R57, R115, R381, R382, R394). -/

namespace Sys2Proof.Machine

/-! ## The word (R232, R233, Table 20-7) -/

/-- Scalar register k after a. -/
def regAfter (a : GReg) (k : Nat) : GReg := Fin.ofNat 128 (a.val + k)

/-- The lowest bit of x at or above bit `lo`. -/
def reservedBit (x : Word) (mask : Nat) : Option Nat := firstSet (Nat.land x.toNat mask) 64

/-- Reserved descriptor fields that are not zero: cause 0x02. -/
def lcpyReserved (i : Instr) (a : GReg) (cv : Nat) (regs : List Word) : Option Trap :=
  let m2 := 2 ^ 64 - 2 ^ 34 + (if cv = 0 then 0 else 3 * 2 ^ 32)
  [(2, m2), (4, 2 ^ 64 - 2 ^ 32), (5, 2 ^ 64 - 2 ^ 48), (7, 2 ^ 64 - 1)].findSome? fun q =>
    (reservedBit (regs[q.1]?.getD 0) q.2).map fun b => reservedReg i (a.val + q.1) b

/-- The map address of a copy's destination lies in space 4 with room for COLS (R237); its multiple of 64 is its alignment,
which R233 names (cause 0x11). -/
def sliceDst (s : State) (c : Copy) : Bool :=
  let g := s.t.segs[ptrSeg c.dst.toNat]
  let x := formed s.actor g (ptrOff c.dst.toNat) - chip
  g.desc.onChip && mapSpace x == 4 && mapOff x + c.cols ≤ 0x20000

/-- Descriptor limits: cause 0x01 kind 5, naming the register (R236, R237). -/
def lcpyLimit (s : State) (i : Instr) (a : GReg) (c : Copy) : Option Trap :=
  let bad (k : Nat) : Option Trap := some (illegal i 5 (a.val + k))
  if c.cv = 7 ∧ 512 < c.dcols then bad 2
  else if c.cv ≠ 8 then none
  else if sliceDst s c = false then bad 1
  else if c.rows ≠ 64 ∨ c.cols % 64 ≠ 0 ∨ c.cols < 64 ∨ 65472 < c.cols then bad 2
  else if c.vrows ≠ 64 ∨ c.vcols ≠ c.cols then bad 4
  else none

/-- A pointer's formed address is not a multiple of n: cause 0x11. -/
def misaligned (s : State) (p : Word) (n : Nat) : Option Trap :=
  if formed s.actor s.t.segs[ptrSeg p.toNat] (ptrOff p.toNat) % n ≠ 0 then
    some { cause := 0x11, info := memForm (ptrSeg p.toNat).val (ptrOff p.toNat) }
  else none

/-- SRC and DST alignment (R233, R379). -/
def lcpyAlign (s : State) (c : Copy) : Option Trap :=
  (misaligned s c.src c.se).or (misaligned s c.dst (if c.cv = 8 then 64 else Nat.max 1 (c.deBits / 8)))

/-- A fault of an LCPY's own fields, which comes before its registers are read (R337). -/
def lcpyField (i : Instr) (a : GReg) (tr : Bool) (cv rc : Nat) : Option Trap :=
  if a.val = 0 ∨ 120 < a.val ∨ (cv = 8 ∧ (tr ∨ rc ≠ 0)) then some (illegal i 5 0x7FF) else none

/-- The first fault of an LCPY found at decode, in the order of R337. -/
def lcpyTrap (s : State) (i : Instr) (a : GReg) (c : Copy) (regs : List Word) : Option Trap :=
  (lcpyField i a c.tr c.cv c.rc).or ((lcpyReserved i a c.cv regs).or ((lcpyLimit s i a c).or (lcpyAlign s c)))

/-- An engine command of the scalar class is captured (R49): traps found at decode first, then the stall of a full held
set or of another task's batch. The strip before it closes at once unless the front runs ahead. -/
def captureAct (i : Instr) (regs : List Word) (early : Option Trap) (s : State) : Act :=
  match early.or (captureTrap s i regs) with
  | some t => .trap s t
  | none =>
    if canCapture s i = false then .wait s
    else
      let s := (captureCmd s i regs [] s.t.pc.toNat 0).seq
      if s.runsAhead then .cmd s
      else
        let r := drain s
        match r.2 with
        | some (t, l) => if t.cause = 0 then .cmd r.1 else .out (columnTrap { r.1 with t := { r.1.t with wait := none } } t l)
        | none => .cmd r.1

/-- LCPY gA, gB, code, bN. -/
def execLcpy (a b : GReg) (tr : Bool) (cv : Fin 16) (rc : Fin 8) (n : Batch) (s : State) : Out :=
  scalarWord (.lcpy a b tr cv rc n) (fun s =>
    match lcpyField (.lcpy a b tr cv rc n) a tr cv.val rc.val with
    | some t => .trap s t
    | none =>
    settled s [] (b :: (List.range 8).map (regAfter a)) fun s =>
      let regs := ((List.range 8).map fun k => s.g (regAfter a k)) ++ [s.g b]
      let i : Instr := .lcpy a b tr cv rc n
      captureAct i regs (lcpyTrap s i a (copyOf regs tr cv.val rc.val) regs) s) s

/-! ## What the descriptor fixes (R238, R376) -/

/-- The kind of access a copy's writes make (Table 6-5). -/
def Copy.wrKind (c : Copy) : Access := if c.cv = 8 then .bstore else .wr

/-- The bytes of the valid source elements, then the destination bytes. -/
def Copy.touched (c : Copy) (s : State) (a : Actor) : R (List Touch) := do
  let r ← c.srcRows.mapM fun p => touchPtr s a p.1 p.2 1 .rd
  let w ← c.dstRows.mapM fun p => touchPtr s a p.1 p.2 1 c.wrKind
  .ok (r ++ w)

/-- The cycle on which a timed copy completes (Table 3-4, R238). -/
def Copy.finish (c : Copy) (start : Nat) (onChip : Bool) : Nat :=
  let first := start + if onChip then 24 else 1024
  let bytes := (c.dstRows.map Prod.snd).sum
  if bytes = 0 then first else first + ceilDiv bytes 128 - 1 + 8

/-! ## The transform chain (R106, R234 to R236) -/

/-- The exact product of an element and the scale. -/
def Copy.product (c : Copy) (x : Nat) : Exact :=
  mulV (decodeF ((cvTypes c.cv).elim 9 Prod.fst) x) (decodeF 9 c.scale)

/-- The draw of element (r, cc). -/
def Copy.drawAt (c : Copy) (r cc : Nat) : Nat := draw c.seed 0 (65536 * r + cc)

/-- One element converted: raw under codes 0 and 8, else rounded once. -/
def Copy.convert (c : Copy) (r cc x : Nat) : Res :=
  match cvTypes c.cv with
  | none => ⟨x, 0⟩
  | some t =>
    let p := c.product x
    let y := roundVal t.1 t.2 c.rc (c.drawAt r cc) p.1
    ⟨y.bits, Nat.lor y.flags p.2⟩

/-- Source row and column of destination element (dr, dc). -/
def Copy.srcOf (c : Copy) (dr dc : Nat) : Nat × Nat := if c.tr then (dc, dr) else (dr, dc)

/-- The source element at (r, cc), none beyond the valid edge. -/
def Copy.read (c : Copy) (s : State) (a : Actor) (see : State → Nat → Nat → Nat → Nat) (r cc : Nat) : R (State × Option Nat) :=
  if r < c.vrows ∧ cc < c.vcols then
    (engineRead s a see (ptrAdd c.src ((r * c.sstr + cc * c.se : Nat) : Int)) c.se 1).map fun x => (x.1, some x.2)
  else .ok (s, none)

/-- The source elements of destination row dr, in order. -/
def Copy.readRow (c : Copy) (s : State) (a : Actor) (see : State → Nat → Nat → Nat → Nat) (dr : Nat) : R (State × List (Option Nat)) :=
  (List.range c.dcols).foldlM (fun (acc : State × List (Option Nat)) dc => do
    let q := c.srcOf dr dc
    let x ← c.read acc.1 a see q.1 q.2
    .ok (x.1, acc.2 ++ [x.2])) (s, [])

/-- The E8M0 scale of a block under conversion 7 (R236 step 2). -/
def blockScale (xs : List FVal) : Nat :=
  let a := amax xs
  if a.1 = 0 then 127 else (127 + ceilLog a.1 a.2 6 (-127) 127).toNat

/-- An element of a block divided by its scale and rounded to e2m1 (R236 step 3). -/
def Copy.mxElem (c : Copy) (e r cc : Nat) (p : Exact) : Res :=
  let v := match p.1 with | .fin n m q => .fin n m (q - ((e : Int) - 127)) | v => v
  let y := roundVal 11 14 c.rc (c.drawAt r cc) v
  ⟨y.bits, Nat.lor y.flags p.2⟩

/-- Elements packed at b bits each. -/
def packed (b : Nat) (rs : List Res) : Nat := rs.zipIdx.foldl (fun acc x => acc + x.1.bits * 2 ^ (b * x.2)) 0

/-- The flags of a list of results. -/
def joinedFlags (rs : List Res) : Nat := rs.foldl (fun acc r => Nat.lor acc r.flags) 0

/-- A row under conversion 7: the elements, and the 16 scale bytes. -/
def Copy.mxRow (c : Copy) (dr : Nat) (xs : List (Option Nat)) : List Res × Nat :=
  let ps : List (Option Exact) := xs.map fun x => x.map c.product
  let scale (b : Nat) : Nat := blockScale (((ps.drop (32 * b)).take 32).filterMap fun p => p.map Prod.fst)
  let n := ceilDiv xs.length 32
  (ps.zipIdx.map fun p => match p.1 with
    | none => ⟨0, 0⟩
    | some v => c.mxElem (scale (p.2 / 32)) (c.srcOf dr p.2).1 (c.srcOf dr p.2).2 v,
   (List.range 16).foldl (fun acc b => acc + (if b < n then scale b else 0x7F) * 2 ^ (8 * b)) 0)

/-- A destination row: its results, and the scale bytes that go with it. -/
def Copy.row (c : Copy) (dr : Nat) (xs : List (Option Nat)) : List Res × Nat :=
  if c.cv = 7 then c.mxRow dr xs
  else
    (xs.zipIdx.map fun x => match x.1 with
      | none => ⟨0, 0⟩
      | some v => c.convert (c.srcOf dr x.2).1 (c.srcOf dr x.2).2 v, 0)

/-! ## Landing rows -/

/-- The stores of row dr. DESIGN CHOICE: the upper half of the last byte of a row of an odd number of 4-bit elements is written as 0
(notes/assumptions/36.md). -/
def Copy.rowStores (c : Copy) (s : State) (a : Actor) (dr : Nat) (row : List Res × Nat) : R (State × List Store) := do
  let x ← engineStores s a (c.dstPtr dr) c.rowBytes (packed c.deBits row.1) c.wrKind
  if c.cv = 7 then do
    let y ← engineStores x.1 a (c.scalePtr dr) 16 row.2 .wr
    .ok (y.1, x.2 ++ y.2)
  else .ok x

/-- Stores that touch scratchpad tiles land tile by tile, ascending, up to the tile whose extents fail (R381). -/
def landTiles (s : State) (hold : Option Nat) : List (Nat × Nat) → List Store → State × Option Trap
  | [], _ => (s, none)
  | t :: r, ws =>
    match landStores s hold (ws.filter fun w => tilesOf [w] == [t]) with
    | .error e => (s, some e)
    | .ok s => landTiles s hold r ws

/-- The stores of a row land: scratchpad tiles each whole, everything else as one unit (R394); in a timed domain the
bytes of device memory are held in the engine's store path while the domain runs (R57), and those of a launch that a
trap has ended never land. -/
def landRow (s : State) (num : Nat) (d : Cmd) (ws : List Store) : State × Option Trap :=
  let inTile (w : Store) : Bool := tilesOf [w] != []
  let gone := (s.launch d.launch).elim true Launch.stopped
  let runs := s.allTasks.any fun t => t.launch == d.launch
  let dev (w : Store) : Bool := d.timed && (runs || gone) && decide (w.place < chip)
  let ws := if d.timed then ws.map fun w => { w with core := num, cycle := d.finish, engine := dev w } else ws
  let s := if d.timed then s.notePasts d.launch (ws.filter fun w => !dev w) else s
  let hold := if d.timed then some d.launch else none
  match landStores s hold (ws.filter fun w => !inTile w && !dev w) with
  | .error e => (s, some e)
  | .ok s =>
    let s := match s.taskAt num d.front with
      | none => if gone then s else holdStores s d.launch (ws.filter dev)
      | some t => if !gone && ws.any dev then s.setTask { t with engineLate := t.engineLate ++ ws.filter dev } else s
    landTiles s hold (tilesOf ws) (ws.filter inTile)

/-- Rows dr, dr + 1, … are read, converted and written; the state, the command with its progress and flags, and what
stopped it. -/
def Copy.run (c : Copy) (num : Nat) : Nat → State → Cmd → State × Cmd × Option Trap
  | 0, s, d => (s, d, none)
  | fuel + 1, s, d =>
    let dr := c.drows - (fuel + 1)
    match c.readRow s (d.who num) (d.see num) dr with
    | .error t => (s, d, some t)
    | .ok (s1, xs) =>
      let row := c.row dr xs
      let d := { d with flags := d.flags ||| BitVec.ofNat 6 (joinedFlags row.1) }
      match c.rowStores s1 (d.who num) dr row with
      | .error t => (s1, d, some t)
      | .ok (s2, ws) =>
        match landRow (s2.ladleMoves num c.rowBytes) num d ws with
        | (s3, some t) => (s3, d, some t)
        | (s3, none) => c.run num fuel s3 { d with progress := d.progress + 1 }

/-! ## Space 1 of a core (R115, R382) -/

/-- The registers of another task's mailbox that a command writes: core and physical register. -/
def mailboxRegs (d : Cmd) : List (Nat × Nat) :=
  (d.writes.flatMap fun r =>
    if r.1 < chip ∨ mapSpace (r.1 - chip) ≠ 1 then []
    else
      let p := mapOff (r.1 - chip) / 4096
      (List.range ((mapOff (r.1 - chip) + r.2 - 1) / 4096 - p + 1)).map fun k => (mapNum (r.1 - chip), p + k)).eraseDups

/-- A task's mailbox range covers register p. -/
def Task.mailbox (t : Task) (p : Nat) : Bool := t.mbFirst ≤ p && p < t.mbFirst + t.mbCount

/-- The tasks of core num, running and switched out. -/
def tasksOf (s : State) (num : Nat) : List Task :=
  (s.allTasks ++ (s.saved.filter fun v => !v.ended).map Saved.task).filter fun t => t.core == num

/-- The task of core num in whose mailbox all the registers ps lie: the lane holder where its range covers them, else one for
which the write is held (R115, R382). -/
def mailTask (s : State) (num : Nat) (ps : List Nat) : Option (Nat × Nat) :=
  match ps.map (mailOwner s num) with
  | some o :: r => if r.all fun x => x == some o then some o else none
  | _ => ((tasksOf s num).find? fun t => ps.all t.mailbox).map fun t => (t.launch, t.task)

/-- The registers of core num among those a command writes. -/
def mailboxOn (d : Cmd) (num : Nat) : List Nat := ((mailboxRegs d).filter fun q => q.1 == num).map Prod.snd

/-- The cores whose registers a command writes. -/
def mailCores (d : Cmd) : List Nat := ((mailboxRegs d).map Prod.fst).eraseDups

/-- The task that a command writes to on core num: the one it has come to before, if its range still covers the registers; once
the first byte has landed its range is not asked again (R197). -/
def Cmd.mailTask (d : Cmd) (s : State) (num : Nat) : Option (Nat × Nat) :=
  match d.mailFor.find? fun m => m.1 == num with
  | none => Machine.mailTask s num (mailboxOn d num)
  | some m =>
    if (tasksOf s num).any fun t => t.launch == m.2.1 && t.task == m.2.2 && (d.progress != 0 || (mailboxOn d num).all t.mailbox)
    then some m.2 else none

/-- What a command's writes into space 1 meet. -/
inductive Mail where
  /-- They may land. -/
  | lands
  /-- They are held for the tasks they are meant for. -/
  | held
  /-- No range covers a register of a core. -/
  | lost (core reg : Nat)
  deriving DecidableEq, Repr

/-- The command with the tasks whose mailboxes it writes. -/
def Cmd.aim (d : Cmd) (s : State) : Cmd :=
  { d with mailFor := (mailCores d).filterMap fun n => (d.mailTask s n).map fun o => (n, o.1, o.2) }

/-- Whether a command's writes into space 1 land now, are held, or find no mailbox (R115, R382). -/
def mailStop (s : State) (d : Cmd) : Mail :=
  match (mailCores d).find? fun n => (d.mailTask s n).isNone with
  | some n => .lost n (((mailboxOn d n).find? fun p => !inMailbox s n p).getD ((mailboxOn d n).headD 0))
  | none =>
    let holds (num : Nat) (o : Nat × Nat) : Bool :=
      ((s.coreAt num).holder.bind (s.taskAt num)).any fun t => t.launch == o.1 && t.task == o.2
    if (d.aim s).mailFor.all fun m =>
        holds m.1 m.2 && (d.progress != 0 || (mailboxOn d m.1).all fun p => mailOwner s m.1 p == some m.2) then .lands
    else .held

/-- No range covers a register: the command's batch records cause 0x19, and the task that holds the target's lanes takes
it at its next strip close (R358, R382). -/
def mailFault (s : State) (num : Nat) (d : Cmd) (q : Nat × Nat) : State :=
  let info := q.2 + num * 2 ^ 32
  let s := match (s.coreAt q.1).holder.bind (s.taskAt q.1) with
    | none => s
    | some t => s.setTask { t with mbFault := some (BitVec.ofNat 64 info) }
  faultCmd s num d { cause := 0x19, info := info }

/-- The registers of mailboxes that a command wrote stand written whole (R115). -/
def fillMails (s : State) (d : Cmd) : State := (mailCores d).foldl (fun s num => s.fillMail num (mailboxOn d num)) s

/-- Each other task whose mailbox a copy wrote counts it once (R115). -/
def countMail (s : State) (d : Cmd) : State :=
  (mailCores d).foldl (fun s num => if d.mailTask s num = some (d.launch, d.task) then s else s.countMailbox num) (fillMails s d)

/-! ## Completion (R238) -/

/-- The scratchpad tiles a copy wrote: core and tile. -/
def tilesWritten (d : Cmd) : List (Nat × Nat) :=
  (d.writes.flatMap fun r =>
    if r.1 < chip ∨ mapSpace (r.1 - chip) ≠ 0 then []
    else
      let t := mapOff (r.1 - chip) / 4096
      (List.range ((mapOff (r.1 - chip) + r.2 - 1) / 4096 - t + 1)).map fun k => (mapNum (r.1 - chip), t + k)).eraseDups

/-- The tiles a copy wrote take its TAG, their checked bits cleared (R118, R238). -/
def tagTiles (s : State) (num : Nat) (d : Cmd) (tag : Nat) : State :=
  (tilesWritten d).foldl (fun s q =>
    let s := if d.timed then s.noteTag d.launch num d.finish q.1 q.2 else s
    let c := s.coreAt q.1
    s.setCore (c.setTile { c.tileAt q.2 with tag := BitVec.ofNat 16 tag, checked := false })) s

/-- A copy runs from the first row it has not written. -/
def runCopy (num : Nat) (d : Cmd) (s : State) : State :=
  match d.copy with
  | none => s
  | some c =>
    match mailStop s d with
    | .held => (s.setCmd num (d.aim s)).post .ladleCopyComplete [num, d.id]
    | .lost core p => mailFault s num d (core, p)
    | .lands =>
      let rows := if c.dstRows = [] then 0 else c.drows - d.progress
      match c.run num rows s (d.aim s) with
      | (s, d, some t) => stopCmd (s.setCmd num d) num d t
      | (s, d, none) => completeCmd (countMail (tagTiles s num d c.tag) d) num d

/-- LADLE_COPY_COMPLETE: every byte of a copy has landed. -/
def execLadleCopyComplete (s : State) : Out := completion 0 .ladleCopyComplete runCopy s

/-! ## Mailbox writes that wait (R115) -/

/-- The lists of stores that wait for core num: those its lane holder's range covers land, each counted once. -/
def landMail (s : State) (num : Nat) : State :=
  let c := s.coreAt num
  c.mailbox.foldl (fun s ws => mailTo s num ws) (s.setCore { c with mailbox := [] })

/-- MAILBOX_WRITE_LAND: writes into the mailbox of a core land if its lane holder has the range. -/
def execMailboxWriteLand (s : State) : Out := .next (landMail s (s.arg 0))

end Sys2Proof.Machine
end

