-- ==== Sys2Proof/Machine/Stream.lean ====
section
/-! DEFINITION. The matrix array's own commands (R207), indirect streams (R239, R240), LAUNCH (R170), and the fork of an
engine command (R49, R129, R130, R231, R376). -/

namespace Sys2Proof.Machine

/-! ## MMA.A and MMAS.A on the array (R207) -/

/-- The environment of a matrix command's product. -/
def Cmd.matEnv (d : Cmd) : MatEnv :=
  { mt := d.modes.mtype.toNat, shape := d.modes.shape.toNat, codebk := d.codebk, perm := d.perm, permLen := d.permLen }

/-- The registers and the B-store bytes of a matrix command (R207). -/
def matrixTouched (d : Cmd) (num : Nat) : List Touch :=
  let e := d.entry
  let t (wr : Bool) (r : Nat × Nat) : Touch := { ptr := none, x := r.1, n := r.2, wr := wr }
  ((tileReads d.instr e).flatMap fun k => (LReg.places (.t k) num).map (t false)) ++ (bReads e num).map (t false) ++
    (accWrites d.instr e).flatMap fun k => (LReg.places (.a k) num).map (t true)

/-- The synchronous form of a matrix command. -/
def syncForm : Instr → Instr
  | .mmaA a _ b c => .mma a b c
  | .mmasA a _ b c => .mmas a b c
  | i => i

/-- The fault a product meets before its first accumulator write (Table 25-3). -/
def productTrap (s : State) (num : Nat) (d : Cmd) : Option Trap :=
  let bad := (d.reads ++ d.writes).findSome? fun r => firstBad s r.1 r.2
  let wrong := match d.instr with
    | .mmasA _ _ b _ => if d.entry.shaped then metaCheck (s.coreAt num).lanes b.val d.matEnv else none
    | _ => none
  match wrong, bad with
  | some info, _ => some { cause := 0x0D, info := info }
  | none, some b => some { cause := 0x15, info := errorInfo b }
  | none, none => none

/-- The product of a matrix command. -/
def productOf (c : Core) (d : Cmd) : Lanes × Raised :=
  match d.instr with
  | .mmaA a _ b _ => matProduct c a.val b.val d.entry.offset false d.matEnv
  | .mmasA a _ b _ => matProduct c a.val b.val d.entry.offset true d.matEnv
  | _ => (c.lanes, [])

/-- An earlier matrix command of the core has not completed: the array runs them in fork order. -/
def arrayBusy (s : State) (num : Nat) (d : Cmd) : Bool :=
  (s.coreAt num).cmds.any fun e => e.matrix && e.forked && !e.done && e.id < d.id

/-- A matrix command runs. -/
def runProduct (num : Nat) (d : Cmd) (s : State) : State :=
  if arrayBusy s num d then s.post .matrixCommandComplete [num, d.id]
  else
    match productTrap s num d with
    | some t => stopCmd s num d t
    | none =>
      let c := s.coreAt num
      let p := productOf c d
      let lanes := (accWrites d.instr d.entry).foldl (fun l k => l.advance (.a k) 32) p.1
      completeCmd (s.setCore { c with lanes := lanes }) num
        { d with flags := BitVec.ofNat 6 p.2.all, fexc0 := fexcWord0 p.2, fexc1 := fexcWord1 p.2 }

/-- MATRIX_COMMAND_COMPLETE: the accumulators hold the product. -/
def execMatrixCommandComplete (s : State) : Out := completion 1 .matrixCommandComplete runProduct s

/-! ## ISTREAM (R239, R240) -/

/-- A parameter block (Table 11-8). -/
structure Block where
  idx : Word
  count : Nat
  iw : Nat
  esize : Nat
  table : Word
  limit : Nat
  dst : Word
  /-- Every reserved byte is zero. -/
  zero : Bool
  deriving DecidableEq, Repr

/-- The block that 64 bytes hold. -/
def blockOf (v : Nat) : Block :=
  let f (off n : Nat) : Nat := field v (8 * off) (8 * n)
  { idx := BitVec.ofNat 64 (f 0 8), count := f 8 4, iw := f 0xC 1, esize := f 0x10 4, table := BitVec.ofNat 64 (f 0x18 8),
    limit := f 0x20 8, dst := BitVec.ofNat 64 (f 0x28 8), zero := f 0xD 3 == 0 && f 0x14 4 == 0 && f 0x30 16 == 0 }

/-- The fields keep the limits of Table 11-8. -/
def Block.ok (b : Block) : Bool :=
  b.zero && (b.iw == 4 || b.iw == 8) && 4 ≤ b.esize && b.esize ≤ 4096 && b.esize % 4 == 0

/-- Index n of the stream. -/
def Block.index (b : Block) (s : State) (a : Actor) (n : Nat) : R (State × Nat) :=
  engineRead s a plainly (ptrAdd b.idx ((n * b.iw : Nat) : Int)) b.iw b.iw

/-- The table elements of indices n, n + 1, … as far as they can be read at the fork: part of the footprint (R240), checked only as
the stream comes to them (R376). Behind an index that cannot be read, the table's segment alone. -/
def Block.elements (b : Block) (s : State) (a : Actor) : Nat → Nat → List Touch
  | 0, _ => []
  | fuel + 1, n =>
    match b.index s a n with
    | .error _ => [laterTouch a b.table 0]
    | .ok (s, k) =>
      let r := b.elements s a fuel (n + 1)
      if k < b.limit then { laterTouch a (ptrAdd b.table ((k * b.esize : Nat) : Int)) b.esize with later := true } :: r else r

/-- The destination names a STREAM segment. -/
def Block.toQueue (b : Block) (a : Actor) : Bool := (a.segs[ptrSeg b.dst.toNat]).desc.disc == .stream

/-- A pointer of the block is aligned on the address it forms. -/
def alignedPtr (a : Actor) (p : Word) (n : Nat) : R Unit :=
  if formed a a.segs[ptrSeg p.toNat] (ptrOff p.toNat) % n ≠ 0 then
    .error { cause := 0x11, info := memForm (ptrSeg p.toNat).val (ptrOff p.toNat) }
  else .ok ()

/-- A stream's destination, formed at x, comes to register p of a core that no mailbox covers: cause 0x07. -/
def Block.noMailbox (b : Block) (x core p : Nat) : Trap :=
  { cause := 0x07, info := memForm (ptrSeg b.dst.toNat).val (ptrOff b.dst.toNat + (chipPlace core 1 (4096 * p) - x)) }

/-- The destination of a stream may be written: a queue whose segment is writable and that no stage fills (R121, R266); a
range of another core's registers only where a mailbox covers it (R114). The bytes it writes. -/
def Block.target (b : Block) (d : Cmd) (num : Nat) (s : State) : R (List Touch) :=
  let a := d.who num
  let g := a.segs[ptrSeg b.dst.toNat]
  if b.toQueue a then
    let dq := queueOf a g
    if g.desc.writable = false then .error { cause := 0x07, info := memForm (ptrSeg b.dst.toNat).val (ptrOff b.dst.toNat) }
    else if (s.queue dq.1 dq.2).isOut then .error (queueFault dq.1 dq.2 4)
    else .ok []
  else do
    let w ← touchPtr s a b.dst (b.count * b.esize) 1 .wr
    match mailStop s (d.begin [w]) with
    | .lost core p =>
      .error (b.noMailbox w.x core p)
    | _ => .ok [w]

/-- What the block fixes: itself, the index stream, the destination (R376), and with them the table elements (R240); a field
beyond its limit is cause 0x01 kind 5 (notes/assumptions/9.md). The block's own bytes are no part of the footprint, its segment is
used. The 64 bytes of the block with them. -/
def streamTouched (d : Cmd) (num : Nat) (s : State) : R (State × List Touch × Nat) := do
  let a := d.who num
  let own ← (touchPtr s a (d.regs[0]?.getD 0) 64 1 .rd).map fun (t : Touch) => { t with n := 0 }
  let (s, v) ← engineRead s a plainly (d.regs[0]?.getD 0) 64 1
  let b := blockOf v
  if b.ok = false then .error (illegal d.instr 5 0x7FF)
  else do
    alignedPtr a b.idx b.iw
    alignedPtr a b.table 4
    alignedPtr a b.dst 4
    if b.count = 0 then .ok (s, [own], v)
    else do
      let r ← touchPtr s a b.idx (b.count * b.iw) 1 .rd
      let w ← b.target d num s
      .ok (s, [own, r] ++ b.elements s a b.count 0 ++ w, v)

/-- Element n of the stream: its bytes, and the footprint of the table element it read, which an earlier command's may meet
(R130, R376). -/
def Block.element (b : Block) (s : State) (num : Nat) (d : Cmd) (n : Nat) : R (State × Nat × List (Nat × Nat)) := do
  let a := d.who num
  let (s, k) ← b.index s a n
  if k < b.limit then do
    let p := ptrAdd b.table ((k * b.esize : Nat) : Int)
    let t ← touchPtr s a p b.esize 4 .rd
    match forkConflict s num d [t] with
    | some u => .error u
    | none => do
      let (s, v) ← engineRead s a plainly p b.esize 4
      .ok (s, v, [tracked t.x t.n])
  else .ok (s, 0, [])

/-- Entries go to the queue of the destination while it has room (R240): the state and those that wait; a bad unit with which
they would have to merge stops the stream (R388). -/
def Block.push (b : Block) (s : State) (a : Actor) (es : List Nat) : R (State × List Nat) :=
  let dq := queueOf a (a.segs[ptrSeg b.dst.toNat])
  let n := s.queueRoom dq.1 dq.2
  match queueMerge s dq.1 dq.2 (es.take n).length with
  | some t => .error t
  | none => .ok (s.pushQueue dq.1 dq.2 (es.take n), es.drop n)

/-- Element n goes to its place. -/
def Block.put (b : Block) (s : State) (a : Actor) (n v : Nat) : R State := do
  let (s, ws) ← engineStores s a (ptrAdd b.dst ((n * b.esize : Nat) : Int)) b.esize v .wr
  landStores s none ws

/-- The queue entries of an element. -/
def Block.entries (b : Block) (v : Nat) : List Nat := (List.range (b.esize / 4)).map fun j => field v (32 * j) 32

/-- Elements from the first not written on, entries that waited for room before them. The last answer: what stopped the stream,
or none where it is complete or waits for room in its queue. -/
def Block.run (b : Block) (num : Nat) : Nat → State → Cmd → State × Cmd × Option Trap
  | 0, s, d => (s, d, none)
  | fuel + 1, s, d =>
    let n := b.count - (fuel + 1)
    if d.rest ≠ [] then
      match b.push s (d.who num) d.rest with
      | .error t => (s, d, some t)
      | .ok (s, []) => b.run num fuel s { d with rest := [], progress := d.progress + 1 }
      | .ok (s, es) => (s, { d with rest := es }, none)
    else
      match b.element s num d n with
      | .error t => (s, d, some t)
      | .ok (s, v, rs) =>
        let d := { d with reads := d.reads ++ rs.filter fun r => !d.reads.contains r }
        if b.toQueue (d.who num) then
          match b.push s (d.who num) (b.entries v) with
          | .error t => (s, d, some t)
          | .ok (s, []) => b.run num fuel s { d with progress := d.progress + 1 }
          | .ok (s, es) => (s, { d with rest := es }, none)
        else
          match b.put s (d.who num) n v with
          | .error t => (s, d, some t)
          | .ok s => b.run num fuel s { d with progress := d.progress + 1 }

/-- A stream runs from the first element it has not written, by the block it read at its fork; into a mailbox once its task
takes the writes (R115). -/
def runStream (num : Nat) (d : Cmd) (s : State) : State :=
  let b := blockOf (d.block.getD 0)
  match mailStop s d with
  | .held => (s.setCmd num (d.aim s)).post .istreamComplete [num, d.id]
  | .lost core p =>
    stopCmd s num d (b.noMailbox (formed (d.who num) (d.segs[ptrSeg b.dst.toNat]) (ptrOff b.dst.toNat)) core p)
  | .lands =>
    match b.run num (b.count - d.progress) s (d.aim s) with
    | (s, d, some t) => stopCmd (s.setCmd num d) num d t
    | (s, d, none) =>
      if d.progress = b.count then completeCmd (fillMails (s.setCmd num d) d) num d
      else (s.setCmd num d).post .istreamComplete [num, d.id]

/-- ISTREAM_COMPLETE: the last element of an indirect stream has landed. -/
def execIstreamComplete (s : State) : Out := completion 2 .istreamComplete runStream s

/-- A word that no timed task may issue: timing reason 8 (R54, R341), whatever its registers hold (R337). -/
def untimed (s : State) (f : State → Act) : Act :=
  if s.t.timed then .trap s (timingTrap s.t.cycle s.t.origin 8) else f s

/-- ISTREAM gB, bN. -/
def execIstream (b : GReg) (n : Batch) (s : State) : Out :=
  scalarWord (.istream b n) (fun s => untimed s fun s => settled s [] [b] fun s => captureAct (.istream b n) [s.g b] none s) s

/-! ## LAUNCH (R170) -/

/-- The launched record: its rights checked, its bytes read. -/
def launchTouched (d : Cmd) (num : Nat) (s : State) : R (State × List Touch × Nat) := do
  let p := d.regs[0]?.getD 0
  let t ← touchPtr s (d.who num) p 1024 64 .rd
  let (s, v) ← engineRead s (d.who num) plainly p 1024 64
  .ok (s, [t], v)

/-- LAUNCH_COMMAND_COMPLETE: the launched completion object has a final status, argument 2, and stands at argument 3: 1
completes the command, 2 to 5 make it faulted with cause 0 (R170, R393). -/
def execLaunchCommandComplete (s : State) : Out :=
  completion 4 .launchCommandComplete (fun num d s =>
    if s.arg 2 = 1 then completeCmd s num d
    else if 2 ≤ s.arg 2 ∧ s.arg 2 ≤ 5 then faultCmd s num d { cause := 0, info := s.arg 3 }
    else s) s

/-- LAUNCH gB, bN. -/
def execLaunch (b : GReg) (n : Batch) (s : State) : Out :=
  scalarWord (.launch b n) (fun s => untimed s fun s => settled s [] [b] fun s => captureAct (.launch b n) [s.g b] none s) s

/-! ## The fork -/

/-- The bytes of a number as a list. -/
def recordBytes (v : Nat) : List Byte := bytesOf 1024 v

/-- The messages that wait at a chain of a core's die change. -/
def State.mapInbox (s : State) (num handle : Nat) (f : List Msg → List Msg) : State :=
  let k := dieOf num
  let x := s.dies[k]
  s.setDie k { x with chains := x.chains.map fun c => if c.handle = handle then { c with inbox := f c.inbox } else c }

/-- The chain that a TXSUB names. -/
def Cmd.chain (d : Cmd) : Nat := (d.regs[0]?.getD 0).toNat % 16

/-- A forked TXSUB takes its place at its chain, in the order of submission (R270). -/
def enlist (s : State) (num : Nat) (d : Cmd) : State :=
  if engineOf d.instr ≠ 3 then s
  else s.mapInbox num d.chain fun ms => ms ++ [{ core := num, cmd := d.id, ptr := 0, len := 0, id := 0, opts := 0, rsvd := false }]

/-- The message of a TXSUB stands at its chain. -/
def submit (s : State) (num : Nat) (m : Msg) (handle : Nat) : State :=
  (s.mapInbox num handle fun ms => ms.map fun x => if x.core = m.core ∧ x.cmd = m.cmd then m else x).post
    .textStageMessage [(dieOf num).val, handle, 0]

/-- The message that a 32-byte descriptor describes (R242). -/
def msgOf (num id v : Nat) : Msg :=
  { core := num, cmd := id, ptr := BitVec.ofNat 64 (field v 0 64), len := field v 64 32, id := field v 96 32,
    opts := field v 128 64, rsvd := field v 192 64 != 0, ready := true }

/-- A record joins its queue (R274). -/
def offer (s : State) (c : Candidate) : State := { s with candidates := s.candidates ++ [c] }.post .launchSelection []

/-- A stream keeps the block it read at its fork (R239). -/
def State.keepBlock (s : State) (num id v : Nat) : State :=
  (s.cmdAt num id).elim s fun d => s.setCmd num { d with block := some v }

/-- What a command's descriptor fixes, read and checked: its touches, and the step that starts it. -/
def prepare (s : State) (num : Nat) (d : Cmd) : R (State × List Touch × (State → State)) :=
  match engineOf d.instr with
  | 0 =>
    match d.copy with
    | none => .ok (s, [], id)
    | some c => (c.touched s (d.who num)).map fun ts => (s, ts, fun s => s.post .ladleCopyComplete [num, d.id])
  | 1 => .ok (s, matrixTouched d num, fun s => s.post .matrixCommandComplete [num, d.id])
  | 2 => (streamTouched d num s).map fun x =>
    (x.1, x.2.1, fun s => (s.keepBlock num d.id x.2.2).post .istreamComplete [num, d.id])
  | 3 => do
    let p := d.regs[1]?.getD 0
    let t ← touchPtr s (d.who num) p 32 1 .rd
    let (s, v) ← engineRead s (d.who num) plainly p 32 1
    let m := msgOf num d.id v
    let input := if m.len = 0 then [] else [laterTouch (d.who num) m.ptr m.len]
    .ok (s, t :: input, fun s => submit s num m d.chain)
  | _ => do
    let (s, ts, v) ← launchTouched d num s
    .ok (s, ts, fun s => offer s { queue := deviceQueue d.fn, fn := d.fn, bytes := recordBytes v, parent := some (num, d.id) })

/-- The cycle on which a command completes (Table 3-4): of a copy and of a product. -/
def Cmd.finishCycle (d : Cmd) : Nat :=
  match d.copy with
  | some c =>
    let g := d.segs[ptrSeg c.src.toNat]
    c.finish d.start (g.desc.onChip && g.desc.scope != 5)
  | none => if d.matrix then d.start + productCycles d.entry + 16 else d.start

/-- The cycle of a trap that the device finds for a command, from its issuer's timing origin. -/
def deviceTrap (s : State) (d : Cmd) (reason : Nat) : Trap := timingTrap s.cycle ((issuerOf s d).elim 0 Task.origin) reason

/-- What is known of a command whose descriptor cannot be read yet: the segment of its pointer, and the bytes of the descriptor
where they are read footprint: of a TXSUB and a LAUNCH (R129, R130, R170). -/
def Cmd.unread (d : Cmd) (num : Nat) : Cmd :=
  let t (k n : Nat) : List Touch := [laterTouch (d.who num) (d.regs[k]?.getD 0) n]
  let ts := match engineOf d.instr with
    | 2 => t 0 0
    | 3 => t 1 32
    | 4 => t 0 1024
    | _ => []
  { d.begin ts with begun := false }

/-- Commands issued after d, and begun before d's own descriptor could be read, whose footprints conflict with it (R130). -/
def laterConflicts (s : State) (num : Nat) (d : Cmd) : List (Cmd × Trap) :=
  (s.coreAt num).cmds.filterMap fun e =>
    let ts : List Touch := (e.reads.map fun r => { ptr := none, x := r.1, n := r.2, wr := false }) ++
      e.writes.map fun r => { ptr := none, x := r.1, n := r.2, wr := true }
    if e.active (d.who num) && e.begun && !e.done && d.id < e.id && !(e.matrix && d.matrix) then
      ts.findSome? fun t =>
        let rs := d.footprint t.wr
        if meetsAny t.x t.n rs then some (e, { cause := 0x07, info := if t.x < chip then memForm 0 t.x else regForm (t.x - chip) })
        else none
    else none

/-- The cycles in which the array works on a matrix command: from its start, behind its earlier products (R207). -/
def productLoad (s : State) (num : Nat) (d : Cmd) : State :=
  if d.matrix then
    let c := s.coreAt num
    let from_ := (c.loads.filter fun l => l.col == some .wide).foldl (fun m l => Nat.max m (l.start + l.len)) d.start
    let n := productCycles d.entry
    let w : Work := ({ wide := n } : Work).add (mtA d.modes.mtype.toNat) n
    s.setCore { c with loads := c.loads ++ [{ col := some .wide, start := from_, len := Nat.max 1 n, work := w }] }
  else s

/-- A forked command is read, checked and started, or stopped (R376). A free one takes no fewer cycles than Table 3-4 gives. -/
def beginCmd (s : State) (num : Nat) (d : Cmd) : State :=
  let d := if d.timed then d else { d with start := s.cycle }
  match prepare s num d with
  | .error t => stopCmd s num (d.unread num) t
  | .ok (s, ts, go) =>
    match forkConflict s num d (ts.filter fun t => !t.later) with
    | some t => if d.timed then s.rollback d.launch (deviceTrap s d 5) else stopCmd s num d t
    | none =>
      let d := { d.begin ts with finish := d.finishCycle }
      let s := (laterConflicts s num d).foldl (fun s x => faultCmd s num x.1 x.2) (productLoad (s.setCmd num d) num d)
      go s

/-- The command leaves the held set with its issuer's rights of this moment (R129). -/
def forkCmd (s : State) (num : Nat) (d : Cmd) : State :=
  let d := { d with forked := true, segs := (issuerOf s d).elim d.segs Task.segs }
  beginCmd (enlist (s.setCmd num d) num d) num d

/-- The timing trap of a timed command not forked by its start cycle (R54). -/
def lateFork (s : State) (d : Cmd) : Option Trap :=
  if d.timed ∧ d.start < (issuerOf s d).elim s.cycle Task.cycle then some (deviceTrap s d 9) else none

/-- A throttle level withholds a free task's fork on this cycle (R285). -/
def forkThrottled (s : State) (num : Nat) (d : Cmd) : Bool := !d.timed && throttled (s.coreAt num).throttle s.cycle != s.cycle

/-- The cycles for which a fork is withheld are counted, each once (R289). -/
def countWithheld (s : State) (num : Nat) (d : Cmd) : State :=
  let c := s.coreAt num
  let n := throttled c.throttle s.cycle
  let s := s.setCore { c with counters := { c.counters with thrcyc := c.counters.thrcyc + (n - Nat.max d.withheld s.cycle) } }
  s.setCmd num { d with withheld := Nat.max n d.withheld }

/-- ENGINE_COMMAND_FORK: a held command whose strip has committed is forked once its engine accepts it and its core's throttle
level lets it; a forked one that waited for a page of its descriptor goes on. -/
def execEngineCommandFork (s : State) : Out :=
  let num := s.arg 0
  match s.cmdAt num (s.arg 1) with
  | none => .next s
  | some d =>
    if d.done ∨ d.begun ∨ d.pages ≠ [] then .next s
    else if d.forked then .next (beginCmd s num d)
    else
      match lateFork s d with
      | some t => .next ((s.setCmd num { d with done := true }).rollback d.launch t)
      | none => .next (if d.released = false then s
        else if engineFull s num d then s.post .engineCommandFork [num, d.id]
        else if forkThrottled s num d then (countWithheld s num d).post .engineCommandFork [num, d.id]
        else forkCmd s num d)

end Sys2Proof.Machine
end

