-- ==== Sys2Proof/Machine/LoadStore.lean ====
section
/-! DEFINITION. The scalar loads and stores (R153), their order towards the task's own vector-class accesses (R46,
R154), and what they raise (Tables 20-4, 23-2). -/

namespace Sys2Proof.Machine

/-! ## Order towards the task's own vector-class accesses (R46, R154) -/

/-- The 64-byte lines that n bytes from an address touch. -/
def lineRange (x n : Nat) : Nat × Nat := (x / 64 * 64, (x + n + 63) / 64 * 64 - x / 64 * 64)

/-- Two accesses of the task, by pointer, touch one 64-byte line. -/
def sharesLine (s : State) (p : Word) (n : Nat) (q : Word) (k : Nat) : Bool :=
  let at_ (x : Word) : Nat := formed s.actor s.t.segs[ptrSeg x.toNat] (ptrOff x.toNat)
  let a := lineRange (at_ p) n
  let b := lineRange (at_ q) k
  (s.t.segs[ptrSeg p.toNat]).desc.onChip == (s.t.segs[ptrSeg q.toNat]).desc.onChip && n != 0 && k != 0 &&
    overlaps a.1 a.2 b.1 b.2

/-- The whole segment of a pointer, for an access whose addresses stand in a vector register. -/
def wholeSegment (s : State) (p : Word) : List (Word × Nat) :=
  [(BitVec.ofNat 64 (mkPtr (ptrSeg p.toNat).val 0), (s.t.segs[ptrSeg p.toNat]).desc.limit)]

/-- An entry not yet executed reads, or writes, lines of n bytes at p. -/
def Entry.meets (e : Entry) (s : State) (wr : Bool) (p : Word) (n : Nat) : Bool :=
  match e.instr with
  | .vldx .. => wr && (wholeSegment s e.gb).any fun x => sharesLine s x.1 x.2 p n
  | .vstx .. => (wholeSegment s e.gb).any fun x => sharesLine s x.1 x.2 p n
  | _ => (wr || (e.touches s).2) && (e.touches s).1.any fun x => sharesLine s x.1 x.2 p n

/-- A vector-class word decoded earlier has still to make an access that must precede a scalar one (R154). -/
def queuedBefore (s : State) (wr : Bool) (p : Word) (n : Nat) : Bool :=
  s.t.queue.any fun cv => cv.cmd.isNone && cv.entries.any fun e => e.meets s wr p n

/-- The accesses that a memory word makes, as it issues: of its active elements, at the addresses that its indices give. -/
def Entry.makes (e : Entry) (s : State) : List (Word × Nat) × Bool :=
  match e.instr with
  | .vappend .. => e.touches s
  | _ => let l := e.ordered s
    (l.1.map fun x => (BitVec.ofNat 64 x.2.1, x.2.2.1), l.2.writes)

/-- Some word of a convoy meets a test, each judged on the state that those before it leave. -/
def memberMeets (f : State → Entry → Bool) : State → List Entry → Bool
  | _, [] => false
  | s, e :: r => f s e || memberMeets f (match runEntry e s with | .ok s => s | .error _ => s) r

/-- Some word decoded and not run meets a test, each judged on the state in which its turn comes. -/
def queueMeets (f : State → Entry → Bool) : Nat → State → Bool
  | 0, _ => false
  | fuel + 1, s =>
    match s.t.queue with
    | [] => false
    | cv :: rest =>
      let r := runConvoy (s.withQueue rest) cv
      (cv.cmd.isNone && memberMeets f s cv.entries) || (r.2.isNone && queueMeets f fuel r.1)

/-- In a timed domain, a vector-class word decoded earlier reads lines of n bytes at p on a later cycle (R154). -/
def readLater (s : State) (p : Word) (n : Nat) : Bool :=
  queueMeets (fun u e => e.loads && (s.c.pipe.any fun x => x.entry.count == e.count && decide (s.t.cycle < x.issue)) &&
    (e.makes u).1.any fun x => sharesLine u x.1 x.2 p n) s.t.queue.length s

/-- In a timed domain, a vector store decoded earlier and not run covers some of n bytes at p (R154). -/
def storesLater (s : State) (p : Word) (n : Nat) : Bool :=
  let at_ (u : State) (x : Word) : Nat := formed u.actor u.t.segs[ptrSeg x.toNat] (ptrOff x.toNat)
  queueMeets (fun u e => (e.makes u).2 && (e.makes u).1.any fun x =>
    (u.t.segs[ptrSeg x.1.toNat]).desc.onChip == (u.t.segs[ptrSeg p.toNat]).desc.onChip &&
      overlaps (at_ u x.1) x.2 (at_ u p) n) s.t.queue.length s

/-- The current strip holds a store to some of n bytes at a place (R46). -/
def coveredBy (s : State) (place n : Nat) : Bool :=
  match s.t.strip with
  | none => false
  | some p => p.stores.any fun w => overlaps place n w.place w.len

/-- A place in the issuer's own lane state (R154). -/
def ownLanes (s : State) (place : Nat) : Bool :=
  chip ≤ place && 1 ≤ mapSpace (place - chip) && mapSpace (place - chip) ≤ 3 && mapNum (place - chip) == s.t.core

/-- An access to several places in order: what must precede it has run, and the strip commits where it covers the bytes
or the access is to lane state. In a timed domain the stall of a store is timing reason 0 (R154). -/
def inOrderAll (s : State) (wr : Bool) (p : Word) (n : Nat) (places : List (Nat × Nat)) (f : State → Act) : Act :=
  let late (s : State) : Act :=
    if places.any fun q => coveredBy s q.1 q.2 || ownLanes s q.1 then committed s f else f s
  if s.t.timed then
    if wr && readLater s p n then .trap s (timingTrap s.t.cycle s.t.origin 0)
    else if storesLater s p n then committed s f
    else late s
  else if queuedBefore s wr p n then
    let r := drain s
    match r.2 with
    | some _ => .held r
    | none => late r.1
  else late s

/-- An access to one place in order. -/
def inOrder (s : State) (wr : Bool) (p : Word) (n place : Nat) (f : State → Act) : Act :=
  inOrderAll s wr p n [(place, n)] f

/-! ## Loads and stores (R153) -/

/-- A scalar load of n bytes, its value given by `ext`. -/
def loadWord (i : Instr) (n : Nat) (a b : GReg) (imm : BitVec 11) (ext : Nat → Word) (s : State) : Out :=
  scalarWord i (fun s => settled s [a] [b] fun s =>
    let p := effPtr (s.g b) imm n
    match checkAccess s s.actor p.toNat n n .rd with
    | .error t => .trap s t
    | .ok (place, s') => inOrder s' false p n place fun s =>
      match readPlace s place n with
      | .error t => .trap s t
      | .ok v => .done ((s.setG a (ext (s.seenBy s.t.cycle place n v))).lateBy a (loadLatency s place)).seq) s

/-- A scalar store of the low n bytes of gA. -/
def storeWord (i : Instr) (n : Nat) (a b : GReg) (imm : BitVec 11) (s : State) : Out :=
  scalarWord i (fun s => settled s [] [a, b] fun s =>
    let p := effPtr (s.g b) imm n
    match checkAccess s s.actor p.toNat n n .wr with
    | .error t => .trap s t
    | .ok (place, s') => inOrder s' true p n place fun s =>
      match landGroup s [{ place := place, len := n, val := (s.g a).toNat % 2 ^ (8 * n), hdr := s.t.pc.toNat, core := s.c.num, cycle := s.t.cycle }] with
      | .error t => .trap s t
      | .ok s => .done s.seq) s

/-- The bytes read, extended with zeros, and with their sign (R12). -/
def zextBytes (v : Nat) : Word := BitVec.ofNat 64 v
def sextBytes (n v : Nat) : Word := BitVec.ofInt 64 (signed v (8 * n))

/-- A load of 1 byte, zero-extended. -/
def execLdB (a b : GReg) (imm : BitVec 11) (s : State) : Out := loadWord (.ldB a b imm) 1 a b imm zextBytes s

/-- A load of 1 byte, sign-extended. -/
def execLdBs (a b : GReg) (imm : BitVec 11) (s : State) : Out := loadWord (.ldBs a b imm) 1 a b imm (sextBytes 1) s

/-- A load of 2 bytes, zero-extended. -/
def execLdH (a b : GReg) (imm : BitVec 11) (s : State) : Out := loadWord (.ldH a b imm) 2 a b imm zextBytes s

/-- A load of 2 bytes, sign-extended. -/
def execLdHs (a b : GReg) (imm : BitVec 11) (s : State) : Out := loadWord (.ldHs a b imm) 2 a b imm (sextBytes 2) s

/-- A load of 4 bytes, zero-extended. -/
def execLdW (a b : GReg) (imm : BitVec 11) (s : State) : Out := loadWord (.ldW a b imm) 4 a b imm zextBytes s

/-- A load of 4 bytes, sign-extended. -/
def execLdWs (a b : GReg) (imm : BitVec 11) (s : State) : Out := loadWord (.ldWs a b imm) 4 a b imm (sextBytes 4) s

/-- A load of 8 bytes, zero-extended. -/
def execLdD (a b : GReg) (imm : BitVec 11) (s : State) : Out := loadWord (.ldD a b imm) 8 a b imm zextBytes s

/-- A store of 1 byte. -/
def execStB (a b : GReg) (imm : BitVec 11) (s : State) : Out := storeWord (.stB a b imm) 1 a b imm s

/-- A store of 2 bytes. -/
def execStH (a b : GReg) (imm : BitVec 11) (s : State) : Out := storeWord (.stH a b imm) 2 a b imm s

/-- A store of 4 bytes. -/
def execStW (a b : GReg) (imm : BitVec 11) (s : State) : Out := storeWord (.stW a b imm) 4 a b imm s

/-- A store of 8 bytes. -/
def execStD (a b : GReg) (imm : BitVec 11) (s : State) : Out := storeWord (.stD a b imm) 8 a b imm s

end Sys2Proof.Machine
end

