-- ==== Sys2Proof/Machine/Sync.lean ====
section
/-! DEFINITION. Atomic and synchronising words (R123 to R128, R221 to R226, Table 20-7). -/

namespace Sys2Proof.Machine

/-! ## Releasers and scopes (R128, R378) -/

/-- Core b lies in the unit that a scope names around core a (Table 3-1); 288 stands for a core of another package, which
only the widest scope takes in. -/
def inScope (scope a b : Nat) : Bool := 3 < scope || decide (b < 288) && unitOf (scope + 1) a == unitOf (scope + 1) b

/-- Two cores of the current task's timing domain: no scope is checked between them (R60). -/
def sameDomain (s : State) (core : Nat) : Bool :=
  s.t.timed && s.domains.any fun d => d.launch == s.t.launch && d.cores.contains core

/-- An acquire of a segment that observes a releaser: cause 0x08 outside the scope. -/
def scopeTrap (s : State) (seg off : Nat) (rel : Option Nat) : Option Trap :=
  match rel with
  | none => none
  | some c =>
    if sameDomain s c || inScope (s.t.segs[Fin.ofNat 16 seg]).desc.scope s.t.core c then none
    else some { cause := 0x08, info := memForm seg off }

/-! ## Atomic operations (R221, R222) -/

/-- An atomic or synchronising word that acts on its own core's lane state closes the strip first, as any scalar access does
(R154). -/
def overLanes (s : State) (place : Nat) (f : State → Act) : Act := if ownLanes s place then committed s f else f s

/-- The word at a place as the task's read sees it: in a timed domain what its domain sees on this cycle (R60). -/
def readWord (s : State) (place n : Nat) : R Nat := (readPlace s place n).map (sightNow s place n)

/-- An AMO of n bytes: the new value and its flags from the old one; `dest` receives the old value. -/
def amoWord (i : Instr) (n : Nat) (reads : List GReg) (b dest : GReg) (f : State → Nat → Nat × Nat) (s : State) : Out :=
  scalarWord i (fun s => settled s [dest] (b :: reads) fun s =>
    match checkAccess s s.actor (s.g b).toNat n n .atomicWr with
    | .error t => .trap s t
    | .ok (place, s) => overLanes s place fun s =>
      match readWord s place n with
      | .error t => .trap s t
      | .ok old =>
        let x := f s old
        match putWord s place n (x.1 % 2 ^ (8 * n)) with
        | .error t => .trap s t
        | .ok s =>
          let s := noteReleaser s place
          let s := if dest = 0 ∧ (i matches .amoAddnr ..) then s else s.stall (wordLatency s place)
          .done ({ s with t := s.t.orFlags x.2 }.setG dest (BitVec.ofNat 64 old)).seq) s

/-- The smaller and the larger of two values, by an order on integers. -/
def pickBy (f : Nat → Int) (larger : Bool) (x y : Nat) : Nat := if (f x ≤ f y) = larger then y else x

/-- A rounded sum and its flags (R90, R91, R98). -/
def faddAmo (ty : Nat) (x y : Nat) : Nat × Nat :=
  let r := addBits ty x y
  (r.bits, r.flags)

/-- The wrapping sum. -/
def execAmoAdd (a b c : GReg) (s : State) : Out := amoWord (.amoAdd a b c) 8 [c] b a (fun s old => (old + (s.g c).toNat, 0)) s

/-- The smaller, unsigned. -/
def execAmoMin (a b c : GReg) (s : State) : Out := amoWord (.amoMin a b c) 8 [c] b a (fun s old => (pickBy Int.ofNat false old (s.g c).toNat, 0)) s

/-- The larger, unsigned. -/
def execAmoMax (a b c : GReg) (s : State) : Out := amoWord (.amoMax a b c) 8 [c] b a (fun s old => (pickBy Int.ofNat true old (s.g c).toNat, 0)) s

/-- The smaller, signed. -/
def execAmoMins (a b c : GReg) (s : State) : Out := amoWord (.amoMins a b c) 8 [c] b a (fun s old => (pickBy (signed · 64) false old (s.g c).toNat, 0)) s

/-- The larger, signed. -/
def execAmoMaxs (a b c : GReg) (s : State) : Out := amoWord (.amoMaxs a b c) 8 [c] b a (fun s old => (pickBy (signed · 64) true old (s.g c).toNat, 0)) s

/-- AND. -/
def execAmoAnd (a b c : GReg) (s : State) : Out := amoWord (.amoAnd a b c) 8 [c] b a (fun s old => (Nat.land old (s.g c).toNat, 0)) s

/-- OR. -/
def execAmoOr (a b c : GReg) (s : State) : Out := amoWord (.amoOr a b c) 8 [c] b a (fun s old => (Nat.lor old (s.g c).toNat, 0)) s

/-- XOR. -/
def execAmoXor (a b c : GReg) (s : State) : Out := amoWord (.amoXor a b c) 8 [c] b a (fun s old => (Nat.xor old (s.g c).toNat, 0)) s

/-- gC. -/
def execAmoSwap (a b c : GReg) (s : State) : Out := amoWord (.amoSwap a b c) 8 [c] b a (fun s _ => ((s.g c).toNat, 0)) s

/-- gC if the old value is gA as read at issue, else the old value. -/
def execAmoCas (a b c : GReg) (s : State) : Out :=
  amoWord (.amoCas a b c) 8 [a, c] b a (fun s old => (if old = (s.g a).toNat then (s.g c).toNat else old, 0)) s

/-- The rounded f32 sum with gC[31:0]. -/
def execAmoFaddF32 (a b c : GReg) (s : State) : Out :=
  amoWord (.amoFaddF32 a b c) 4 [c] b a (fun s old => faddAmo 9 old ((s.g c).toNat % 2 ^ 32)) s

/-- The rounded f64 sum with gC. -/
def execAmoFaddF64 (a b c : GReg) (s : State) : Out :=
  amoWord (.amoFaddF64 a b c) 8 [c] b a (fun s old => faddAmo 8 old (s.g c).toNat) s

/-- The wrapping sum; nothing is returned. -/
def execAmoAddnr (b c : GReg) (s : State) : Out :=
  amoWord (.amoAddnr b c) 8 [c] b 0 (fun s old => (old + (s.g c).toNat, 0)) s

/-! ## ACQ, REL, WAITEQ, WAITGE (R224, R225) -/

/-- The condition of a wait does not hold: a free task waits, a timed one takes timing reason 2 (R225). -/
def notYet (s : State) : Act := if s.t.timed then .trap s (timingTrap s.t.cycle s.t.origin 2) else .wait s

/-- An acquire of the doubleword at gB, whose value must meet p; ACQ clears it in the same step. -/
def acquireWord (i : Instr) (clears : Bool) (a b : GReg) (reads : List GReg) (p : State → Nat → Bool) (s : State) : Out :=
  scalarWord i (fun s => settled s [a] (b :: reads) fun s =>
    let ptr := (s.g b).toNat
    match checkAccess s s.actor ptr 8 8 (if clears then .atomicWr else .atomicRd) with
    | .error t => .trap s t
    | .ok (place, s) => overLanes s place fun s =>
      match readWord s place 8 with
      | .error t => .trap s t
      | .ok v =>
        if p s v = false then notYet s
        else
          match scopeTrap s (ptrSeg ptr).val (ptrOff ptr) (releaserOf s place) with
          | some t => .trap s t
          | none =>
            let go (s : State) : Act := .done ((s.stall (wordLatency s place)).setG a (BitVec.ofNat 64 v)).seq
            if clears then
              match putWord s place 8 0 with
              | .error t => .trap s t
              | .ok s => go (dropReleaser s place)
            else go s) s

/-- ACQ gA, [gB]: waits for a nonzero doubleword, takes it and clears it. -/
def execAcq (a b : GReg) (s : State) : Out := acquireWord (.acq a b) true a b [] (fun _ v => v != 0) s

/-- WAITEQ gA, [gB], gC: waits until the doubleword is gC. -/
def execWaiteq (a b c : GReg) (s : State) : Out :=
  acquireWord (.waiteq a b c) false a b [c] (fun s v => v == (s.g c).toNat) s

/-- WAITGE gA, [gB], gC: waits until the doubleword is at least gC, unsigned. -/
def execWaitge (a b c : GReg) (s : State) : Out :=
  acquireWord (.waitge a b c) false a b [c] (fun s v => decide ((s.g c).toNat ≤ v)) s

/-- REL [gB], gC: a release point; the doubleword becomes gC. -/
def execRel (b c : GReg) (s : State) : Out :=
  scalarWord (.rel b c) (fun s => settled s [] [b, c] fun s =>
    match checkAccess s s.actor (s.g b).toNat 8 8 .atomicWr with
    | .error t => .trap s t
    | .ok (place, s) => committed s fun s =>
      match putWord s place 8 (s.g c).toNat with
      | .error t => .trap s t
      | .ok s => .done (noteReleaser s place).seq) s

/-! ## Tokens (R124) -/

/-- The discipline trap of a word that names a segment (Table 20-7). -/
def needDisc (s : State) (b : SReg) (d : Disc) : Option Trap :=
  if (s.t.segs[b]).desc.disc = d then none else some (segTrap b)

/-- The place of a segment's token or phase word. -/
def segWord (s : State) (b : SReg) (k : Access) : R (Nat × State) :=
  checkAccess s s.actor (mkPtr b.val (s.t.segs[b]).desc.word) 8 8 k

/-- A front still waits for the token at a place. -/
def stillWaits (s : State) (launch task : Nat) : Bool :=
  s.allTasks.any fun t => t.launch == launch && t.task == task && (match t.wait with | some (.segacq _) => true | _ => false)

/-- Another SEGACQ has waited longer for the token at a place. -/
def waitedLonger (s : State) (place : Nat) : Bool :=
  let q := s.waiters.filter fun w => w.1 == place && (w.2 == (s.t.launch, s.t.task) || stillWaits s w.2.1 w.2.2)
  match q.head? with
  | none => false
  | some w => w.2 != (s.t.launch, s.t.task)

/-- The current task joins the waiters of a place, at the end where its SEGACQ issues anew (R171). -/
def joinWaiters (s : State) (place : Nat) : State :=
  let me := (s.t.launch, s.t.task)
  if s.t.wait.isSome && s.waiters.any fun w => w.1 == place && w.2 == me then s
  else { s with waiters := (s.waiters.filter fun w => !(w.1 == place && w.2 == me)) ++ [(place, me.1, me.2)] }

/-- Segment b's state bits change. -/
def State.setSeg (s : State) (b : SReg) (f : Seg → Seg) : State :=
  { s with t := { s.t with segs := s.t.segs.set b.val (f s.t.segs[b]) b.isLt } }

/-- The core a token word names as its last releaser; none of this package where it names another. -/
def tokenReleaser (s : State) (v : Nat) : Option Nat :=
  if v.testBit 63 = false then none else if field v 41 13 = s.package then some (field v 32 9) else some 288

/-- SEGACQ sgB: takes the token when it is free, the longest waiter first, or is the issuer's. -/
def execSegacq (b : SReg) (s : State) : Out :=
  scalarWord (.segacq b) (fun s =>
    match needDisc s b .owned with
    | some t => .trap s t
    | none =>
      match segWord s b .token with
      | .error t => .trap s t
      | .ok (place, s) =>
        match readWord s place 8 with
        | .error t => .trap s t
        | .ok v =>
          let me := s.t.task + 1
          let holder := v % 2 ^ 32
          if holder ≠ me ∧ (holder ≠ 0 ∨ waitedLonger s place) then notYet (joinWaiters s place)
          else
            match scopeTrap s b.val (s.t.segs[b]).desc.word (tokenReleaser s v) with
            | some t => .trap s t
            | none =>
              match putWord s place 8 (v / 2 ^ 32 * 2 ^ 32 + me) with
              | .error t => .trap s t
              | .ok s =>
                let s := { s with waiters := s.waiters.filter fun w => !(w.1 == place && w.2 == (s.t.launch, s.t.task)) }
                .done ((s.stall (wordLatency s place)).setSeg b fun g => { g with held := true }).seq) s

/-- A forked command of the task that has not completed accesses segment b (R129). -/
def engineUses (s : State) (b : SReg) : Bool :=
  s.c.cmds.any fun d => d.ofTask s.t.launch s.t.task && d.forked && !d.done && d.uses.contains b.val

/-- Tasks of the launch (R51, Table 20-7). -/
def taskCount (s : State) : Nat := (s.launch s.t.launch).elim 0 Launch.total

/-- SEGREL sgB, or SEGREL sgB, gC: the token becomes free, or passes to task gC[31:0]. -/
def execSegrel (b : SReg) (c : GReg) (s : State) : Out :=
  scalarWord (.segrel b c) (fun s => settled s [] [c] fun s =>
    let next := (s.g c).toNat % 2 ^ 32
    if c ≠ 0 ∧ taskCount s ≤ next then .trap s (illegal (.segrel b c) 5 c.val)
    else
      match needDisc s b .owned with
      | some t => .trap s t
      | none =>
        if (s.t.segs[b]).held = false then .trap s { cause := 0x07, info := memForm b.val (s.t.segs[b]).desc.word }
        else
          match segWord s b .token with
          | .error t => .trap s t
          | .ok (place, s) => committed s fun s =>
            if engineUses s b then .wait s
            else
              let holder := if c = 0 then 0 else next + 1
              match putWord s place 8 (2 ^ 63 + s.package * 2 ^ 41 + s.t.core * 2 ^ 32 + holder % 2 ^ 32) with
              | .error t => .trap s t
              | .ok s => .done (s.setSeg b fun g => { g with held := false }).seq) s

/-! ## Phases (R123, R225) -/

/-- The current task arrives at the phase word of a place; the last participant makes the switch due. -/
def arrive (s : State) (b : SReg) (place : Nat) : State :=
  let s := { s with arrivals := s.arrivals ++ [(place, s.t.launch, s.t.task)],
                    t := { s.t with arrived := 1, issued := issueCycle s.t } }
  if (s.t.segs[b]).parts ≤ (s.arrivals.filter fun w => w.1 == place).length then
    { s with agenda := s.agenda ++ [(.segphaseComplete, { n := [place] })] }
  else s

/-- The other participants of the task's phase that run, and those of them that have arrived. -/
def partners (s : State) (b : SReg) : List Task :=
  s.allTasks.filter fun t => t.launch == s.t.launch && t.task != s.t.task && (t.segs[b]).inst == (s.t.segs[b]).inst

/-- A task has arrived at the phase of the current task's segment b: it waits in a SEGPHASE of that instance. -/
def Task.arrivedAt (t : Task) (s : State) (b : SReg) : Bool :=
  t.arrived == 1 && match t.wait with
    | some (.segphase c) => (t.segs[c]).inst == (s.t.segs[b]).inst
    | _ => false
def arrivedPartners (s : State) (b : SReg) : List Task := (partners s b).filter fun t => t.arrivedAt s b

/-- A participant will not arrive on the cycle on which the current task's SEGPHASE issued: it has ended, waits at another phase, or
has gone past that cycle. -/
def neverArrives (s : State) (b : SReg) : Bool :=
  (partners s b).length + 1 < (s.t.segs[b]).parts ||
    (partners s b).any fun t => !t.arrivedAt s b && (t.arrived == 1 || decide (s.t.issued < t.cycle))

/-- Every participant's SEGPHASE has issued. -/
def phaseDue (s : State) : Bool :=
  s.agenda.any fun x => (match x.1 with | .segphaseComplete => true | _ => false) &&
    s.arrivals.any fun w => x.2.n == [w.1] && w.2 == (s.t.launch, s.t.task)

/-- A timed task that has arrived, and others not: a participant that will not arrive on its cycle is timing reason 7 (R225). -/
def timedWait (s : State) (b : SReg) : Act :=
  if !phaseDue s && neverArrives s b then
    .trap { s with arrivals := s.arrivals.filter (fun w => w.2 != (s.t.launch, s.t.task)),
                   t := { s.t with arrived := 0 } } (timingTrap s.t.issued s.t.origin 7)
  else .wait s

/-- SEGPHASE sgB: completes once every participant has issued it and the device has switched the phase, 200 cycles after the
last has issued at the earliest; in a timed domain all issue it on one cycle, and it completes exactly 200 cycles later. -/
def execSegphase (b : SReg) (s : State) : Out :=
  scalarWord (.segphase b) (fun s =>
    match needDisc s b .sliced with
    | some t => .trap s t
    | none =>
      if s.t.arrived = 2 then
        if !s.t.timed && decide (s.t.cycle + 1 < s.t.issued + 200) then .wait s
        else
          let s := s.setSeg b fun g => { g with readPhase := !g.readPhase }
          .done { s with t := { s.t with arrived := 0, cycle := if s.t.timed then s.t.issued + 199 else s.t.cycle } }.seq
      else if s.t.arrived = 1 then (if s.t.timed then timedWait s b else .wait s)
      else
        match segWord s b .phase with
        | .error t => .trap s t
        | .ok (place, s) => committed s fun s =>
          if engineUses s b then .wait s
          else if s.t.timed && (arrivedPartners s b).any fun t => decide (issueCycle s.t < t.issued) then
            .trap s (timingTrap (issueCycle s.t) s.t.origin 7)
          else if s.t.timed && (arrivedPartners s b).any fun t => decide (t.issued < issueCycle s.t) then .wait s
          else .wait (arrive s b place)) s

/-- The device switches a phase: PHASE inverted, the generation raised by one, every participant's SEGPHASE completes, its time
counted from the issue of the last. -/
def execSegphaseComplete (s : State) : Out :=
  let place := s.arg 0
  let here := s.arrivals.filter fun w => w.1 == place
  if here = [] then .next s
  else
    let v := getPlace s place 8
    let met (t : Task) : Bool := t.arrived == 1 && here.any fun w => w.2 == (t.launch, t.task)
    let last := (((s.allTasks ++ s.saved.map Saved.task).filter met).map Task.issued).foldl Nat.max 0
    let s := putPlace s place 8 ((v / 2 ^ 32 + 1) % 2 ^ 32 * 2 ^ 32 + (1 - v % 2))
    let f (t : Task) : Task := if met t then { t with arrived := 2, issued := last } else t
    .next { s with arrivals := s.arrivals.filter fun w => w.1 != place, t := f s.t, tasks := s.tasks.map f,
                   saved := s.saved.map fun v => { v with task := f v.task } }

/-- Cycles within which a store becomes observable throughout a scope (R128, R328): across packages, on the longest way that
firmware's routes name. -/
def scopeBound (s : State) (sc : Fin 8) : Nat :=
  if sc ≤ 2 then 64 else if sc = 3 then 192 else 192 + 1536 * (s.hops.map Prod.snd).foldl Nat.max 1

/-- FENCE (R226): the strip commits, every earlier store is performed and observable in the scope; one cycle in a timed
domain. -/
def execFence (sc : Fin 8) (s : State) : Out :=
  scalarWord (.fence sc) (fun s =>
    if s.t.timed then .done s.seq else committed s fun s => .done (s.stall (scopeBound s sc)).seq) s

end Sys2Proof.Machine
end

