-- ==== Sys2Proof/Machine/Text.lean ====
section
/-! DEFINITION. The message pipeline (R241 to R243, R262 to R272, R394, R397 to R399): the queue words, TXCFG and TXSUB,
the tokeniser, and the stages of a chain. -/

namespace Sys2Proof.Machine

/-! ## Queue words (R241, R243, R265) -/

/-- A wait of a queue word: timing reason 2 in a timed domain. -/
def queueWait (s : State) : Act := if s.t.timed then .trap s (timingTrap s.t.cycle s.t.origin 2) else .wait s

/-- The queue of segment b. -/
def segQueue (s : State) (b : SReg) : Fin 8 × Nat := queueOf s.actor s.t.segs[b]

/-- The current strip appends to a queue and has not committed. -/
def appendsTo (s : State) (dq : Fin 8 × Nat) : Bool :=
  match s.t.strip with
  | none => false
  | some p => p.apps.any fun a =>
      (s.t.segs[Fin.ofNat 16 a.seg]).desc.disc == .stream && queueOf s.actor s.t.segs[Fin.ofNat 16 a.seg] == dq

/-- The current strip has taken groups from a queue and has not committed. -/
def takesFrom (s : State) (dq : Fin 8 × Nat) : Bool :=
  match s.t.strip with
  | none => false
  | some p => p.taken.any fun g => g.1 == dq.1.val && g.2.1 == dq.2

/-- Go on once the strip has committed, where p holds. -/
def committedIf (p : Bool) (s : State) (f : State → Act) : Act := if p then committed s f else f s

/-- The latency of a queue word (R241, Table 11-2). -/
def queueLatency (s : State) (die : Fin 8) : Nat := wordLatency s (chip + die.val * 2 ^ 37 + 6 * 2 ^ 27)

/-- QPUSH gA, sgB: a write, for which the segment must be writable (Table 6-5). -/
def execQpush (a : GReg) (b : SReg) (s : State) : Out :=
  scalarWord (.qpush a b) (fun s => settled s [] [a] fun s => drained s fun s =>
    match needDisc s b .stream with
    | some t => .trap s t
    | none =>
      let dq := segQueue s b
      if (s.t.segs[b]).desc.writable = false then .trap s (segTrap b)
      else if (s.queue dq.1 dq.2).isOut then .trap s (queueFault dq.1 dq.2 4)
      else committedIf (appendsTo s dq) s fun s =>
        if s.queueRoom dq.1 dq.2 = 0 then queueWait s
        else
          match queueMerge s dq.1 dq.2 1 with
          | some t => .trap s t
          | none =>
            .done ((s.stall (queueLatency s dq.1)).pushQueue dq.1 dq.2 [(s.g a).toNat % 2 ^ 32]).seq) s

/-- QPOP gA, sgB. -/
def execQpop (a : GReg) (b : SReg) (s : State) : Out :=
  scalarWord (.qpop a b) (fun s => settled s [a] [] fun s => drained s fun s =>
    match needDisc s b .stream with
    | some t => .trap s t
    | none =>
      let dq := segQueue s b
      if (s.queue dq.1 dq.2).isIn then .trap s (queueFault dq.1 dq.2 5)
      else committedIf (takesFrom s dq) s fun s =>
        match (s.queue dq.1 dq.2).entries with
        | [] => queueWait s
        | v :: _ =>
          match queueBad s dq.1 dq.2 1 with
          | some t => .trap s t
          | none =>
            let s := s.setQueue dq.1 ((s.queue dq.1 dq.2).drop 1)
            .done ((s.stall (queueLatency s dq.1)).setG a (BitVec.ofNat 64 (v % 2 ^ 32))).seq) s

/-- QSTAT gA, sgB. -/
def execQstat (a : GReg) (b : SReg) (s : State) : Out :=
  scalarWord (.qstat a b) (fun s => settled s [a] [] fun s => drained s fun s =>
    match needDisc s b .stream with
    | some t => .trap s t
    | none =>
      let dq := segQueue s b
      .done ((s.stall (queueLatency s dq.1)).setG a (BitVec.ofNat 64 ((s.queue dq.1 dq.2).entries.length + Config.queueEntries * 2 ^ 32))).seq) s

/-! ## TXCFG (R241, R242, R266 to R268, R397) -/

/-- The options of a stage name nothing reserved (Tables 15-3 and 15-4). -/
def stageOptsOk (kind v : Nat) : Bool :=
  match kind with
  | 0 => field v 32 32 == 0 && field v 4 4 == 0 && v % 8 ≤ 4
  | 1 =>
    field v 18 46 == 0 && field v 13 3 == 0 && field v 2 2 == 0 && v % 4 != 3 && field v 4 4 ≤ 11 &&
      (field v 4 4 != 6 || (1 ≤ field v 8 5 && field v 8 5 ≤ 16 && field v 8 5 != 12))
  | _ => true

/-- Stage k of a chain block. -/
def blockStage (v k : Nat) : Stage :=
  let o := 8 * (16 + 16 * k)
  { kind := field v o 8, engine := field v (o + 8) 8, inq := field v (o + 16) 8, outq := field v (o + 24) 8,
    opts := field v (o + 64) 64 }

/-- The stages of a chain block. -/
def blockStages (v : Nat) : List Stage := (List.range (Nat.min (v % 256) 3)).map (blockStage v)

/-- A tokeniser's VOCAB names a READ segment at an address that is a multiple of 64 (Table 15-5). -/
def vocabOk (s : State) (st : Stage) : Bool :=
  let g := s.t.segs[ptrSeg st.opts]
  st.kind != 2 || (g.desc.disc == .read && formed s.actor g (ptrOff st.opts) % 64 == 0)

/-- The chain block keeps R242 and R266: counts, zero bytes, codes, the queues of its own stages, and no queue of
another live chain of the die. -/
def chainOk (s : State) (v : Nat) : Bool :=
  let n := v % 256
  let ss := blockStages v
  let outs := ss.map Stage.outq
  let quar := field v 8 8
  let d := s.dies[dieOf s.t.core]
  let live := d.chains.flatMap fun c => c.quarantine :: c.stages.map Stage.outq
  1 ≤ n && n ≤ 3 && quar < 64 && field v 16 112 == 0 &&
    (ss.zipIdx.all fun x => x.1.kind ≤ 2 && x.1.engine ≤ 3 && x.1.outq < 64 && field v (8 * (20 + 16 * x.2)) 32 == 0 &&
      stageOptsOk x.1.kind x.1.opts && vocabOk s x.1 &&
      x.1.inq == (if x.2 = 0 then 0 else outs.getD (x.2 - 1) 64)) &&
    ((ss.zip (ss.drop 1)).all fun p => !(p.2.kind == 2 && p.1.kind == 1 && p.1.opts.testBit 16)) &&
    outs.eraseDups.length == outs.length && !outs.contains quar && !((quar :: outs).any live.contains)

/-- A vocabulary header keeps R268. -/
def headerOk (v : Nat) : Bool :=
  let f (k : Nat) : Nat := field v (32 * k) 32
  f 0 == 1 && 1 ≤ f 1 && f 1 ≤ 2 ^ 24 && f 2 ≤ 2 ^ 20 && f 3 < 2 ^ 20 && 1 ≤ f 4 && f 4 ≤ 255 && v / 2 ^ 160 == 0

/-- Cause 0x18 of a TXCFG. -/
def chainFault (s : State) (kind : Nat) : Trap := queueFault (dieOf s.t.core) 0 kind

/-- The lowest handle that names no live chain of a die. -/
def Die.handle (d : Die) : Option Nat := (List.range 16).find? fun h => !(d.chains.any fun c => c.handle == h)

/-- The vocabulary headers of the tokeniser stages, in stage order. -/
def readHeaders (s : State) : List Stage → R State
  | [] => .ok s
  | st :: r =>
    if st.kind ≠ 2 then readHeaders s r
    else do
      let (s, v) ← engineRead s s.actor plainly (BitVec.ofNat 64 st.opts) 64 1
      if headerOk v then readHeaders s r else .error (chainFault s 3)

/-- The latency of the read of a stage's vocabulary header, where it has one. -/
def headerLatency (s : State) (st : Stage) : Nat :=
  if st.kind ≠ 2 then 0
  else
    let g := s.t.segs[ptrSeg st.opts]
    let x := formed s.actor g (ptrOff st.opts)
    loadLatency s (if g.desc.onChip then x else ((walk s s.t.fn x).map fun e => e.1.pa x).getD x)

/-- Queue flags of a chain's stages: its outputs in message mode, the inputs of its later stages (R264, R266). -/
def markQueues (d : Die) (ss : List Stage) : Die :=
  let d := ss.foldl (fun (d : Die) st => d.setQueue { d.queue st.outq with message := true, isOut := true }) d
  (ss.drop 1).foldl (fun (d : Die) st => d.setQueue { d.queue st.inq with isIn := true }) d

/-- The chain of a block that has passed every check. -/
def buildChain (s : State) (v h : Nat) : State :=
  let k := dieOf s.t.core
  let ss := (blockStages v).map fun st =>
    { st with vocab := formed s.actor s.t.segs[ptrSeg st.opts] (ptrOff st.opts) }
  let ss := ss.zipIdx.map fun x => { x.1 with stray := if x.2 = 0 then 0 else (s.queue k x.1.inq).entries.length }
  let d := markQueues s.dies[k] ss
  s.setDie k { d with chains := d.chains ++
    [{ handle := h, launch := s.t.launch, fn := s.t.fn, quarantine := field v 8 8, stages := ss }] }

/-- TXCFG gA, gB: the chain block read, for which the front waits, and checked, a chain built, gA its handle. -/
def execTxcfg (a b : GReg) (s : State) : Out :=
  scalarWord (.txcfg a b) (fun s => settled s [a] [b] fun s =>
    let ptr := s.g b
    match (do let x ← checkRights s s.actor ptr.toNat 64 1 .rd
              reachAll s s.actor x 64 false) with
    | .error t => .trap s t
    | .ok (s, ps) => inOrderAll s false ptr 64 ps fun s =>
      match engineRead s s.actor sightNow ptr 64 1 with
      | .error t => .trap s t
      | .ok (s, v) =>
        if chainOk s v = false then .trap s (chainFault s 1)
        else
          match (s.dies[dieOf s.t.core]).handle with
          | none => .trap s (chainFault s 2)
          | some h =>
            match readHeaders s (blockStages v) with
            | .error t => .trap s t
            | .ok s =>
              let block := loadLatency s ((ps.head?.map Prod.fst).getD 0)
              let headers := ((blockStages v).map (headerLatency s)).sum
              .done ((((buildChain s v h).stall block).lateBy a (headers + 17)).setG a (BitVec.ofNat 64 h)).seq) s

/-! ## TXSUB (R241, R242) -/

/-- gA[3:0] names no live chain of the issuer's launch on its die: cause 0x18 kind 0. -/
def chainGone (s : State) (h : Nat) : Option Trap :=
  if (s.dies[dieOf s.t.core]).chains.any fun c => c.handle == h && c.launch == s.t.launch then none
  else some (chainFault s 0)

/-- TXSUB gA, gB, bN. -/
def execTxsub (a b : GReg) (n : Batch) (s : State) : Out :=
  scalarWord (.txsub a b n) (fun s => untimed s fun s => settled s [] [a, b] fun s =>
    captureAct (.txsub a b n) [s.g a, s.g b] (chainGone s ((s.g a).toNat % 16)) s) s

/-! ## The tokeniser (R268, R269) -/

/-- n bytes of a vocabulary image, from its formed address. -/
def vocabRead (s : State) (a : Actor) (base off n : Nat) : R Nat := do
  let (s, ps) ← reachAll s a (base + off) n false
  let v ← ps.foldlM (fun (acc : Nat × Nat) (q : Nat × Nat) => do
    let v ← readPlace s q.1 q.2
    .ok (acc.1 + v * 2 ^ (8 * acc.2), acc.2 + q.2)) (0, 0)
  .ok v.1

/-- The header of an image: node count, unknown id, longest match. -/
structure Vocab where
  base : Nat
  nodes : Nat
  unknown : Nat
  longest : Nat
  deriving DecidableEq, Repr

/-- Node k. -/
def Vocab.node (v : Vocab) (s : State) (a : Actor) (k : Nat) : R Nat := vocabRead s a v.base (0x40 + 8 * k) 8

/-- The child of a node by byte b, among n edges from edge e. -/
def Vocab.child (v : Vocab) (s : State) (a : Actor) (b : Nat) : Nat → Nat → R (Option Nat)
  | 0, _ => .ok none
  | n + 1, e => do
    let x ← vocabRead s a v.base (0x40 + 8 * v.nodes + 4 * e) 4
    if x % 256 = b then .ok (some (x / 256)) else v.child s a b n (e + 1)

/-- How the walk from one position ends: at its longest match, of length 0 where there is none; on an edge that leads out
of the nodes (cause 15); or with the bytes of a message cut short (R272). -/
inductive Walk where
  | found (n tok : Nat)
  | broken
  | unfinished
  deriving DecidableEq, Repr

/-- The walk along the bytes, j being the length reached with the next one. -/
def Vocab.walk (v : Vocab) (s : State) (a : Actor) (whole : Bool) : Nat → Nat → Nat × Nat → Nat → List Byte → R Walk
  | 0, _, best, _, _ => .ok (.found best.1 best.2)
  | _ + 1, _, best, _, [] => .ok (if whole then .found best.1 best.2 else .unfinished)
  | fuel + 1, node, best, j, b :: r => do
    let c ← v.child s a b.toNat (field node 21 9) (node / 2 ^ 32)
    match c with
    | none => .ok (.found best.1 best.2)
    | some k =>
      if v.nodes ≤ k then .ok .broken
      else do
        let nd ← v.node s a k
        v.walk s a whole fuel nd (if nd.testBit 20 then (j, nd % 2 ^ 20) else best) (j + 1) r

/-- The bytes that one unknown token covers, and whether more of them could follow. -/
def unknownLen (bs : List Byte) : Nat × Bool :=
  let b := byteAt bs 0
  let n := if b < 0x80 then 1 else if 0xC2 ≤ b ∧ b ≤ 0xDF then 2 else if 0xE0 ≤ b ∧ b ≤ 0xEF then 3
    else if 0xF0 ≤ b ∧ b ≤ 0xF4 then 4 else 1
  let k := 1 + (((bs.drop 1).take (n - 1)).takeWhile fun x => 0x80 ≤ x.toNat && x.toNat ≤ 0xBF).length
  (k, k < n && k == bs.length)

/-- The tokens of the bytes from offset pos on, and the failure that ends them. -/
def Vocab.tokens (v : Vocab) (s : State) (a : Actor) (whole : Bool) : Nat → Nat → List Byte → R (List Nat × Option Fail)
  | 0, _, _ => .ok ([], none)
  | _ + 1, _, [] => .ok ([], none)
  | fuel + 1, pos, b :: r => do
    let root ← v.node s a 0
    let m ← v.walk s a whole v.longest root (0, 0) 1 (b :: r)
    match m with
    | .broken => .ok ([], some { cause := 15, off := pos })
    | .unfinished => .ok ([], none)
    | .found n tok =>
      let u := unknownLen (b :: r)
      if n = 0 ∧ u.2 ∧ !whole then .ok ([], none)
      else do
        let len := if n = 0 then u.1 else n
        let t ← v.tokens s a whole fuel (pos + len) ((b :: r).drop len)
        .ok ((if n = 0 then v.unknown else tok) :: t.1, t.2)

/-- A tokeniser stage on a message. -/
def tokenise (s : State) (a : Actor) (whole : Bool) (base : Nat) (bs : List Byte) : R Made := do
  let h ← vocabRead s a base 0 64
  let v : Vocab := { base := base, nodes := field h 32 32, unknown := field h 96 32, longest := field h 128 32 }
  let t ← v.tokens s a whole (bs.length + 1) 0 bs
  .ok { entries := t.1, bytes := 4 * t.1.length, fail := t.2 }

/-! ## One stage of a chain (R270 to R272, R398, R399) -/

/-- The options of a stage for a message: the descriptor's overrides (R267). DESIGN CHOICE: they hold for every stage of the chain of
their kind (notes/assumptions/36.md). -/
def stageOpts (st : Stage) (opts : Nat) : Nat :=
  match st.kind with
  | 0 => if opts.testBit 7 then splice st.opts 0 3 opts else st.opts
  | 1 => if opts.testBit 15 then splice (splice st.opts 4 4 (field opts 8 4)) 8 5 (field opts 16 5) else st.opts
  | _ => st.opts

/-- The per-message options name nothing reserved for a stage kind that the chain holds (R267). -/
def msgOptsOk (c : Chain) (v : Nat) : Bool :=
  let has (k : Nat) : Bool := c.stages.any fun st => st.kind == k
  let part := field v 16 5
  field v 21 43 == 0 && field v 12 3 == 0 && field v 3 4 == 0 && !(has 0 && v.testBit 7 && 5 ≤ v % 8) &&
    !(has 1 && v.testBit 15 && (12 ≤ field v 8 4 || (field v 8 4 == 6 && (part == 0 || part == 12 || 17 ≤ part))))

/-- A failure that the end of a message cut short brings about, and no byte of it: the partial state is discarded (R272). -/
def Fail.partial (f : Fail) (n : Nat) : Bool := f.cause == 7 || (f.cause == 10 && n < 4)

/-- What a stage makes of a message's bytes, all of them or those before a failure in an earlier stage. -/
def stageMade (s : State) (a : Actor) (whole : Bool) (st : Stage) (m : Msg) (bs : List Byte) : R Made :=
  match st.kind with
  | 0 =>
    let r := decompress (stageOpts st m.opts) bs
    .ok { entries := byteEntries (r.1.map BitVec.toNat), bytes := r.1.length,
          fail := if whole then r.2 else r.2.filter fun f => !f.partial bs.length }
  | 1 => .ok (transcode whole (stageOpts st m.opts) bs)
  | _ => tokenise s a whole st.vocab bs

/-- The quarantine record as 16 entries (Table 15-7). -/
def quarantineRecord (m : Msg) (k : Nat) (st : Stage) (f : Fail) (bytes : Nat) : List Nat :=
  let v := m.id + k * 2 ^ 32 + st.kind * 2 ^ 40 + st.engine * 2 ^ 48 + f.member % 256 * 2 ^ 56 + f.off * 2 ^ 64 +
    f.cause * 2 ^ 128 + bytes * 2 ^ 192 + m.ptr.toNat * 2 ^ 256
  (List.range 16).map fun n => field v (32 * n) 32

/-- An end marker (Table 15-2). -/
def endMarker (status id : Nat) : Nat := 2 ^ 31 + status * 2 ^ 28 + id % 2 ^ 28

/-- The stage has its output to write: entries, a record where the message fails here, the marker, of the status with which
the message came to this stage or 1. -/
def Stage.take (st : Stage) (m : Msg) (k status : Nat) (x : Made) : Stage :=
  let st := { st with ending := true, gathered := [] }
  match x.fail with
  | none => { st with pending := x.entries ++ [endMarker status m.id], records := [] }
  | some f => { st with pending := x.entries ++ [endMarker 1 m.id], records := quarantineRecord m k st f x.bytes }

/-- Chain h of die k becomes c. -/
def State.setChain (s : State) (k : Fin 8) (c : Chain) : State :=
  let d := s.dies[k]
  s.setDie k { d with chains := d.chains.map fun e => if e.handle = c.handle then c else e }

/-- Chain h of die k. -/
def State.chainAt (s : State) (k : Fin 8) (h : Nat) : Option Chain := s.dies[k].chains.find? fun c => c.handle == h

/-- Stage j of a chain becomes st. -/
def Chain.setStage (c : Chain) (j : Nat) (st : Stage) : Chain := { c with stages := c.stages.set j st }

/-- What stands in the way of a message's input bytes: a failing pointer (R376), or the fault with which it is
quarantined (R394). -/
inductive InputStop where
  | rights (t : Trap)
  | bytes (t : Trap) (off : Nat)
  deriving DecidableEq, Repr

/-- The first input byte that cannot be read, by the fault met there. -/
def stopOffset (s : State) (a : Actor) (x n : Nat) : Nat :=
  let bad (q : Nat × Nat) : Bool := match (do let p ← byRoute s (reach s a q.1 false)
                                              readPlace s p.1 q.2 : R Nat) with | .ok _ => false | .error _ => true
  ((linesOf x n).find? bad).elim 0 fun q => q.1 - x

/-- The input bytes of a message. -/
def inputBytes (s : State) (a : Actor) (m : Msg) : Except InputStop (List Byte) :=
  if m.len = 0 then .ok []
  else
    match checkRights s a m.ptr.toNat m.len 1 .rd with
    | .error t => .error (.rights t)
    | .ok x =>
      match engineRead s a plainly m.ptr m.len 1 with
      | .error t => .error (.bytes t (stopOffset s a x m.len))
      | .ok (_, v) => .ok (bytesOf m.len v)

/-- What stage 0 makes of the bytes before the first that cannot be read: a member that they end inside fails there, and
what stands whole before it is written (R271, R394). -/
def cutMade (st : Stage) (m : Msg) (off : Nat) (bs : List Byte) (x : Made) : Made :=
  let fails (bs : List Byte) : Option Fail := if st.kind = 0 then (decompress (stageOpts st m.opts) bs).2 else none
  match x.fail with
  | none =>
    let f := ((fails bs).or (fails (bs ++ [0]))).getD { cause := 18, off := off }
    { x with fail := some { f with cause := 18 } }
  | some _ => x

/-- The message's command holds for a page: it is requested once. -/
def holdMessage (s : State) (m : Msg) (t : Trap) : State :=
  match s.cmdAt m.core m.cmd with
  | none => s
  | some d => holdCmd s m.core d t

/-- A page fault that the message's command may still wait for (R395). -/
def mayWait (s : State) (m : Msg) (t : Trap) : Bool :=
  t.cause == 0x09 && (s.cmdAt m.core m.cmd).any fun d => !(d.refused.contains (t.info % 2 ^ 55))

/-- Stage 0 takes the next message (R270); one whose descriptor is wrong, or whose input cannot be read, is quarantined
there (R242, R267, R394). -/
def takeMessage (s : State) (k : Fin 8) (c : Chain) (st : Stage) (m : Msg) : State :=
  let next (s : State) (m : Msg) (x : Made) : State :=
    s.setChain k { c with stages := c.stages.set 0 (st.take m 0 0 x), inbox := c.inbox.drop 1, inside := c.inside ++ [m] }
  let fail (cause off : Nat) : Made := { entries := [], bytes := 0, fail := some { cause := cause, off := off } }
  match s.cmdAt m.core m.cmd with
  | none => s.setChain k { c with inbox := c.inbox.drop 1 }
  | some d =>
    if d.done then s.setChain k { c with inbox := c.inbox.drop 1 }
    else if !m.ready ∨ d.pages ≠ [] then s
    else if m.id / 2 ^ 28 ≠ 0 ∨ m.rsvd then next s m (fail 16 0)
    else if msgOptsOk c m.opts = false then next s m (fail 17 0)
    else
      match inputBytes s (d.who m.core) m with
      | .error (.rights t) => stopCmd (s.setChain k { c with inbox := c.inbox.drop 1 }) m.core d t
      | .error (.bytes t off) =>
        if mayWait s m t then holdMessage s m t
        else
          let m := { m with fault := some (t.cause, t.info) }
          match inputBytes s (d.who m.core) { m with len := off } with
          | .error _ => next s m (fail 18 off)
          | .ok bs =>
            match stageMade s (d.who m.core) false st m bs with
            | .error t => if mayWait s m t then holdMessage s m t else next s m (fail 18 off)
            | .ok x => next s m (cutMade st m off bs x)
      | .ok bs =>
        match stageMade s (d.who m.core) true st m bs with
        | .error t =>
          if mayWait s m t then holdMessage s m t
          else next s { m with fault := some (t.cause, t.info) } (fail 18 0)
        | .ok x => next s m x

/-- The message that stage j works on next, or has still to end: the oldest inside the chain that the stages before it have
passed on (R270). -/
def Chain.current (c : Chain) (j : Nat) : Option Msg := c.inside.find? fun m => m.passed == j

/-- The oldest message of stage j becomes f of it. -/
def Chain.mapCurrent (c : Chain) (j : Nat) (f : Msg → Msg) : Chain :=
  match c.inside.findIdx? fun m => m.passed == j with
  | none => c
  | some i => { c with inside := c.inside.modify i f }

/-- The engine of a stage has a message of another chain under way: it takes one whole message at a time (R266). -/
def engineTaken (s : State) (k : Fin 8) (h : Nat) (st : Stage) : Bool :=
  s.dies[k].chains.any fun c => c.handle != h && c.stages.any fun x => x.kind == st.kind && x.engine == st.engine && x.pending != []

/-- The command of the message that stage j works on waits for a page. -/
def Chain.awaitsPage (c : Chain) (s : State) (j : Nat) : Bool :=
  (c.current j).any fun m => (s.cmdAt m.core m.cmd).any fun d => d.pages != []

/-- Stage j has its whole message before it, the marker mk closing it: it makes its own output; a message that an earlier
stage cut short keeps its status, its partial state discarded (R270, R272). DESIGN CHOICE: a message whose vocabulary image cannot be
read is quarantined with cause 18 and offset 0 (notes/assumptions/36.md). -/
def closeMessage (s : State) (k : Fin 8) (c : Chain) (j : Nat) (st : Stage) (m : Msg) (mk : Nat) : State :=
  let q := s.queue k st.inq
  let go (c : Chain) (x : Made) : State :=
    (s.setQueue k (q.drop 1)).setChain k (c.setStage j (st.take m j (field mk 28 3) x))
  let unread : Made := { entries := [], bytes := 0, fail := some { cause := 18, off := 0 } }
  match s.cmdAt m.core m.cmd with
  | none => go c { entries := [], bytes := 0 }
  | some d =>
    if field mk 28 3 = 0 ∧ m.fault ≠ none then go c unread else
    match stageMade s (d.who m.core) (field mk 28 3 == 0) st m (entryBytes st.gathered) with
    | .ok x => go c x
    | .error t =>
      if mayWait s m t then holdMessage s m t
      else
        go (c.mapCurrent j fun m => { m with fault := some (t.cause, t.info) }) unread

/-- A later stage takes the entries of its input queue up to a marker, and with the marker closes its message once its
engine is free for it. What stood in the queue before the chain was built is no message: its markers go on
(notes/assumptions/34.md). -/
def takeEntries (s : State) (k : Fin 8) (c : Chain) (j : Nat) (st : Stage) : State :=
  let q := s.queue k st.inq
  if st.stray ≠ 0 then
    let marks := (q.entries.take st.stray).filter q.isMarker
    (s.setQueue k (q.drop st.stray)).setChain k
      (c.setStage j { st with stray := 0, pending := marks, ending := false })
  else
    let data := q.entries.takeWhile fun v => !q.isMarker v
    let rest := q.entries.drop data.length
    let st := { st with gathered := st.gathered ++ data }
    let c := (c.setStage j st).mapCurrent j fun m =>
      match queueBad s k st.inq data.length with
      | some t => { m with fault := m.fault.or (some (t.cause, t.info)) }
      | none => m
    let s := (s.setQueue k (q.drop data.length)).setChain k c
    match rest.head?, c.current j with
    | some mk, some m => if engineTaken s k c.handle st then s else closeMessage s k c j st m mk
    | _, _ => s

/-- The oldest message of a chain whose last stage has written its marker: its TXSUB is due to complete (R242). -/
def messageDone (s : State) (k : Fin 8) (c : Chain) : State :=
  match c.inside with
  | [] => s
  | m :: r =>
    let f := m.fault.getD (0, 0)
    (s.setChain k { c with inside := r }).post .txsubComplete [m.core, m.cmd, f.1, f.2]

/-- Stage j has written all it had to: the message whose marker that was has passed it, and the last stage completes its
TXSUB. -/
def endStage (s : State) (k : Fin 8) (c : Chain) (j : Nat) (st : Stage) : State :=
  if st.ending = false then s.setChain k (c.setStage j st)
  else
    let c := (c.setStage j { st with ending := false }).mapCurrent j fun m => { m with passed := j + 1 }
    let s := s.setChain k c
    if j + 1 = c.stages.length then messageDone s k c else s

/-- A stage writes what it has still to write, as far as its queues have room; a record goes before the marker. -/
def flushStage (s : State) (k : Fin 8) (h j : Nat) : State :=
  match s.chainAt k h with
  | none => s
  | some c =>
    match c.stages[j]? with
    | none => s
    | some st =>
      let write (s : State) (st : Stage) (most : Nat) : State × Stage :=
        let n := Nat.min (s.queueRoom k st.outq) most
        (s.pushQueue k st.outq (st.pending.take n), { st with pending := st.pending.drop n })
      let r := write s st (st.pending.length - (if st.records = [] then 0 else 1))
      let r :=
        if r.2.records = [] ∨ r.2.pending.length ≠ 1 ∨ r.1.queueRoom k c.quarantine < 16 then r
        else write (r.1.pushQueue k c.quarantine r.2.records) { r.2 with records := [] } 1
      if r.2.pending = [] then endStage r.1 k c j r.2 else r.1.setChain k (c.setStage j r.2)

/-- The stage has more to do: output to write, a message or entries to read. -/
def stageDue (s : State) (k : Fin 8) (h j : Nat) : Bool :=
  match s.chainAt k h with
  | none => false
  | some c =>
    match c.stages[j]? with
    | none => false
    | some st =>
      st.pending != [] || (if j = 0 then
          match c.inbox with
          | [] => false
          | m :: _ => (s.cmdAt m.core m.cmd).all fun d => d.done || (m.ready && d.pages == [])
        else (s.queue k st.inq).entries != [] && !c.awaitsPage s j)

/-- The stage's step that follows: a decompress stage commits its members in DECODER_MEMBER_COMMIT. -/
def againStage (s : State) (k : Fin 8) (h j : Nat) : State :=
  if stageDue s k h j = false then s
  else
    let dec := (s.chainAt k h).any fun c => (c.stages[j]?).any fun st => st.kind == 0 && st.pending != []
    s.post (if dec then .decoderMemberCommit else .textStageMessage) [k.val, h, j]

/-- TEXT_STAGE_MESSAGE: stage argument 2 of chain argument 1 on die argument 0 processes one message, and writes its
entries and its marker as far as its queue has room. -/
def execTextStageMessage (s : State) : Out :=
  let k := Fin.ofNat 8 (s.arg 0)
  let h := s.arg 1
  let j := s.arg 2
  match s.chainAt k h with
  | none => .next s
  | some c =>
    match c.stages[j]? with
    | none => .next s
    | some st =>
      let s := if st.pending ≠ [] then s
        else if j = 0 then
          match c.inbox with
          | [] => s
          | m :: _ => if engineTaken s k h st then s else takeMessage s k c st m
        else if (s.queue k st.inq).entries = [] ∨ c.awaitsPage s j then s
        else takeEntries s k c j st
      let s := if st.kind = 0 then s else flushStage s k h j
      .next (againStage s k h j)

/-- DECODER_MEMBER_COMMIT: a decompress stage's verified output goes to its queue, in submission and member order. -/
def execDecoderMemberCommit (s : State) : Out :=
  let k := Fin.ofNat 8 (s.arg 0)
  .next (againStage (flushStage s k (s.arg 1) (s.arg 2)) k (s.arg 1) (s.arg 2))

/-- TXSUB_COMPLETE: the last stage has written the message's marker, so that its one message is complete; arguments 2 and 3 are the
fault of an input that could not be read (R394). -/
def execTxsubComplete (s : State) : Out :=
  completion 3 .txsubComplete (fun num d s =>
    let d := { d with progress := 1 }
    if s.arg 2 ≠ 0 then faultCmd s num d { cause := s.arg 2, info := s.arg 3 }
    else completeCmd s num d) s

/-! ## The end of a chain (R242, R264) -/

/-- The chains of a launch are gone from a die; their output queues are emptied and raw. -/
def Die.dropChains (d : Die) (launch : Nat) : Die :=
  let gone := d.chains.filter fun c => c.launch == launch
  let d := { d with chains := d.chains.filter fun c => c.launch != launch }
  (gone.flatMap Chain.stages).foldl (fun (d : Die) st => d.setQueue { n := st.outq }) d

/-- The chains of a launch are gone. -/
def dropChains (s : State) (launch : Nat) : State := { s with dies := s.dies.map fun d => d.dropChains launch }

end Sys2Proof.Machine
end

