-- ==== Sys2Proof/Machine/Launching.lean ====
section
/-! DEFINITION. Launch records (R28, R32 to R34), their refusal (R401), dependences (R275, R402), and selection (R274,
R276, R280, R281, R407). -/

namespace Sys2Proof.Machine

/-! ## Reading a record (Tables 3-2, 3-3) -/

/-- Field of n bytes at an offset of a record. -/
def recField (v off n : Nat) : Nat := field v (8 * off) (8 * n)

/-- The discipline of a code. -/
def discOf : Nat → Disc
  | 1 => .priv
  | 2 => .read
  | 3 => .sliced
  | 4 => .owned
  | 5 => .atomic
  | 6 => .stream
  | _ => .unused

/-- Segment descriptor i of a record. -/
def recDesc (v i : Nat) : Desc :=
  let f (off n : Nat) : Nat := recField v (0x100 + 32 * i + off) n
  { base := f 0 8, limit := f 8 8, disc := discOf (f 0x10 1), scope := f 0x11 1, slice := f 0x12 1, level := f 0x13 1,
    onChip := (f 0x14 1).testBit 0, pinned := (f 0x14 1).testBit 1, writable := (f 0x14 1).testBit 2, word := f 0x18 8 }

/-- Level k of a record. -/
def recLevel (v k : Nat) : Level :=
  { extent := recField v (0x80 + 16 * k) 4, binding := recField v (0x84 + 16 * k) 1, scope := recField v (0x85 + 16 * k) 1 }

/-- A SLICED segment's scope is its slice level's (R31), whatever its descriptor's scope byte holds. -/
def Desc.scoped (d : Desc) (levels : List Level) : Desc :=
  if d.disc = .sliced then { d with scope := (levels[d.level]?).elim d.scope Level.scope } else d

/-- The record that 1,024 bytes hold. -/
def recOf (bytes : List Byte) : Rec :=
  let v := leNat bytes
  let f := recField v
  let levels := (List.range (Nat.min (f 6 1) 8)).map (recLevel v)
  { regime := f 4 1, domain := f 5 1, prio := f 7 1, handle := f 8 8, entry := f 0x10 8, handler := f 0x18 8,
    savePtr := f 0x20 8, saveSize := f 0x28 8, vmax := f 0x30 8, start := f 0x38 8, wp := f 0x40 2, wr := f 0x42 2,
    slots := f 0x44 2, comp := f 0x48 8, waits := (List.range 4).map fun i => f (0x50 + 8 * i) 8, pool := f 0x70 8,
    stack := f 0x78 8, levels := levels,
    descs := Vector.ofFn fun i => (recDesc v i.val).scoped levels, args := (bytes.drop 0x300).take 256 }

/-- The number of tasks of a launch: the product of its hardware-bound extents (R30). -/
def Rec.tasks (r : Rec) : Nat := extents r.hw

/-- A timed launch's tasks per core (R51). -/
def Rec.perCore (r : Rec) : Nat :=
  match r.hw.getLast? with
  | some l => if l.binding = 1 ∧ l.extent = 2 then 2 else 1
  | none => 1

/-! ## Refusal (Table 25-6) -/

/-- A rule broken: the offset of the first offending byte, and the code. -/
abbrev Broken := Nat × Nat

/-- A rule of the record. -/
def rule (p : Bool) (off code : Nat) : List Broken := if p then [] else [(off, code)]

/-- The first nonzero byte among n from an offset. -/
def zeroBytes (v off n code : Nat) : List Broken :=
  match (List.range n).find? fun k => recField v (off + k) 1 != 0 with
  | none => []
  | some k => [(off + k, code)]

/-- Every page of n bytes from an address, all below 2^55, is mapped and pinned (R290). -/
def pinnedRange (s : State) (fn va n : Nat) : Bool :=
  n == 0 || decide (va + n ≤ 2 ^ 55) && (List.range ((va + n - 1) / 2 ^ 16 - va / 2 ^ 16 + 1)).all fun k =>
    match vaToPa s fn ((va / 2 ^ 16 + k) * 2 ^ 16) with
    | some (_, _, true) => true
    | _ => false

/-- An offset of a launch's code: a multiple of 4 inside the code section. -/
def codeOffset (o : Obj) (x : Nat) : Bool :=
  x % 4 == 0 && x < if o.virt = [] then o.codeSize else o.virt.length

/-- Rules of the fixed fields up to the levels. -/
def fixedRules (s : State) (fn v : Nat) (r : Rec) : List Broken :=
  let timed := r.regime == 1
  let o := s.objs.find? fun o => o.handle == r.handle && o.fn == fn && !o.forced
  let vok := 128 ≤ r.vmax && r.vmax ≤ 256 && r.vmax % 16 == 0
  let frames := r.saveSize / frameSize r.vmax
  rule (recField v 0 4 == 1) 0 1 ++ rule (r.regime ≤ 1) 4 2 ++
  rule (r.domain ≤ 4 && (timed || r.domain == 0)) 5 2 ++ rule (!timed || r.domain != 0) 5 9 ++
  rule (!(timed && r.domain != 4 && (o.any fun o => o.coreOnly))) 5 9 ++
  rule (1 ≤ recField v 6 1 && recField v 6 1 ≤ 8) 6 2 ++ rule (r.prio ≤ 7) 7 2 ++
  rule o.isSome 8 3 ++ rule (o.all fun o => codeOffset o r.entry) 0x10 3 ++
  rule (o.all fun o => r.handler == 0 || codeOffset o r.handler) 0x18 3 ++
  rule (pinnedRange s fn r.savePtr r.saveSize) 0x20 4 ++ rule (!vok || (1 ≤ frames && (!timed || r.tasks ≤ frames))) 0x28 4 ++
  rule vok 0x30 5 ++
  rule (if timed then r.wp ≤ r.wr * r.slots && r.wp ≤ 3300 else r.wp == 0) 0x40 6 ++
  rule (if timed then r.wr ≤ 96 else r.wr == 0) 0x42 6 ++ rule (timed || r.slots == 0) 0x44 6 ++ zeroBytes v 0x46 2 1 ++
  rule (r.comp % 64 == 0) 0x48 7 ++ (r.waits.zipIdx.flatMap fun w => rule (w.1 % 64 == 0) (0x50 + 8 * w.2) 7) ++
  rule (r.pool == 0 || (r.pool % 2 ^ 16 == 0 && pinnedRange s fn r.pool (frames * (r.stack + 4096 * r.vmax)))) 0x70 4 ++
  rule (r.stack % 2 ^ 16 == 0 && (r.pool != 0 || r.stack == 0)) 0x78 4

/-- Rules of level k (R28, R51), given the levels before it. -/
def levelRules (v : Nat) (r : Rec) (k : Nat) : List Broken :=
  let o := 0x80 + 16 * k
  match r.levels[k]? with
  | none => zeroBytes v o 16 1
  | some l =>
    let before := r.levels.take k
    let smallest := (before.filter fun m => m.binding != 0).foldl (fun a m => Nat.min a m.binding) 5
    rule (1 ≤ l.extent && extents (before ++ [l]) ≤ 2 ^ 32) o 8 ++
    rule (l.binding ≤ smallest && (l.binding == 0 || before.all fun m => m.binding != 0) && (l.binding != 0 || k != 0)) (o + 4) 8 ++
    rule (!(r.regime == 1 && domainUnit r.domain < l.binding)) (o + 4) 9 ++
    rule (l.scope ≤ 4 && l.binding ≤ l.scope + 1) (o + 5) 8 ++ zeroBytes v (o + 6) 10 1

/-- The number of a timed launch's tasks fits its domain (R51). -/
def domainRule (r : Rec) : List Broken := rule (r.regime == 0 || r.tasks == r.perCore * domainCores r.domain) 0x80 9

/-- The innermost hardware-bound level. -/
def Rec.innermost (r : Rec) : Nat := r.hw.length - 1

/-- Instances of a segment in one launch (R122, R123). -/
def instances (r : Rec) (d : Desc) : Nat :=
  match d.disc with
  | .priv => r.tasks
  | .sliced => extents (r.levels.take d.level)
  | _ => 1

/-- Two on-chip windows can lie in the same space of one core, as R113 places them: the die of a scope up to DIE is the
task's, any; the core of CORE scope any, of QUAD scope any of its number modulo 4. Space 6 belongs to a die. -/
def unitsMeet (a b : Desc) : Bool :=
  let dies := a.scope ≤ 2 || b.scope ≤ 2 || mapDie a.base == mapDie b.base
  let cores :=
    if a.scope = 0 ∨ b.scope = 0 ∨ mapSpace a.base = 6 then true
    else if a.scope = 1 ∨ b.scope = 1 then mapCore a.base % 4 == mapCore b.base % 4
    else mapCore a.base == mapCore b.base
  dies && cores && mapSpace a.base == mapSpace b.base

/-- Two descriptors overlap once instantiated (R113, R122, R123, R126). -/
def windowsMeet (r : Rec) (a b : Desc) : Bool :=
  let m := a.limit * instances r a
  let n := b.limit * instances r b
  m != 0 && n != 0 && a.onChip == b.onChip &&
    if a.onChip then unitsMeet a b && overlaps (mapOff a.base) m (mapOff b.base) n else overlaps a.base m b.base n

/-- The word of an OWNED or SLICED segment, and the fields that only they use (R33, R123, R124). -/
def wordRules (r : Rec) (d : Desc) (o : Nat) : List Broken :=
  match d.disc with
  | .sliced =>
    rule (d.level == r.innermost && r.hw != []) (o + 0x13) 10 ++
    rule (d.word % 8 == 0 && ((r.levels[d.level]?).elim 0 Level.extent) * 2 ^ d.slice ≤ d.word && d.word + 8 ≤ d.limit) (o + 0x18) 10
  | .owned =>
    rule (d.slice == 0) (o + 0x12) 10 ++ rule (d.level == 0) (o + 0x13) 10 ++
    rule (d.word % 8 == 0 && d.word + 8 ≤ d.limit) (o + 0x18) 10
  | _ => rule (d.slice == 0) (o + 0x12) 10 ++ rule (d.level == 0) (o + 0x13) 10 ++ rule (d.word == 0) (o + 0x18) 10

/-- A STREAM descriptor names a queue (R263). -/
def streamRules (d : Desc) (o : Nat) : List Broken :=
  if d.disc ≠ .stream then []
  else rule (mapSpace d.base == 6 && d.base % 0x8000 == 0) o 10 ++ rule (d.limit == 0x8000) (o + 8) 10 ++ rule d.onChip (o + 0x14) 10

/-- Bounds, spaces and overlap with the descriptors before (R112, R126, R377). DESIGN CHOICE: a base in space 6 whose CORE
field is not 0 is not refused for it, since no rule says so, and names the same queue (notes/assumptions/35.md). -/
def boundRules (r : Rec) (i : Nat) (d : Desc) (o : Nat) : List Broken :=
  let end_ := d.limit * instances r d
  let before := (List.range i).map fun k => r.descs[Fin.ofNat 16 k]
  if d.disc = .unused then []
  else
    rule (if d.onChip then
        d.base < 2 ^ 40 && mapCore d.base < 36 && mapSpace d.base ≤ 6 && mapOff d.base + end_ ≤ spaceSize (mapSpace d.base)
      else d.base + end_ ≤ 2 ^ 55) o 11 ++
    rule (!(before.any fun b => b.disc != .unused && windowsMeet r d b)) o 11

/-- Rules of segment descriptor i. -/
def descRules (v : Nat) (r : Rec) (i : Nat) : List Broken :=
  let o := 0x100 + 32 * i
  if i = 0 ∨ i = 1 ∨ i = 15 then zeroBytes v o 32 10
  else
    let d := r.descs[Fin.ofNat 16 i]
    rule (recField v (o + 0x10) 1 ≤ 6) (o + 0x10) 10 ++ rule (recField v (o + 0x11) 1 ≤ 4) (o + 0x11) 10 ++
    rule (recField v (o + 0x14) 1 < 8) (o + 0x14) 1 ++ zeroBytes v (o + 0x15) 3 1 ++
    wordRules r d o ++ streamRules d o ++ boundRules r i d o ++
    rule (r.regime == 0 || d.disc == .unused || d.pinned) (o + 0x14) 12

/-- The broken rule of the least offset, and at one offset of the least code. -/
def firstBroken : List Broken → Option Broken
  | [] => none
  | b :: r =>
    match firstBroken r with
    | none => some b
    | some c => if c.1 < b.1 ∨ (c.1 = b.1 ∧ c.2 < b.2) then some c else some b

/-- Why a record is refused: offset and code (R401). -/
def refusal (s : State) (fn : Nat) (bytes : List Byte) : Option Broken :=
  let v := leNat bytes
  let r := recOf bytes
  firstBroken (fixedRules s fn v r ++ (List.range 8).flatMap (levelRules v r) ++ domainRule r ++
    (List.range 16).flatMap (descRules v r))

/-! ## Ends of a launch that are not its tasks' (R391, R401, R402) -/

/-- A record that is not placed: its completion object takes the status, cause and pointer. -/
def turnAway (s : State) (c : Candidate) (status cause ptr : Nat) : State :=
  let comp := (recOf c.bytes).comp
  tellParent (writeFinal s c.fn comp status cause ptr) c.parent status comp

/-! ## Examining the heads (R274, R275, R281) -/

/-- The heads of the queues: the first candidate of each. -/
def heads : List Candidate → List Candidate
  | [] => []
  | c :: r => c :: (heads r).filter fun d => d.queue != c.queue

/-- The waits-on objects of a record; a pointer that is not aligned names none, and refuses the record (R401). -/
def Rec.waitsOn (r : Rec) : List Nat := r.waits.filter fun w => w != 0 && w % 64 == 0

/-- The first waits-on object of a record that reports failure or cannot be read. -/
def failedWait (s : State) (c : Candidate) : Option Nat :=
  (recOf c.bytes).waitsOn.find? fun w =>
    match compStatus s c.fn w with
    | none => true
    | some x => 2 ≤ x && x ≤ 5

/-- The first cycle of the current domain tick. -/
def tickStart (s : State) : Nat := tickAt s.cycle * Config.tickCycles

/-- A candidate is ready (R275, R281). -/
def isReady (s : State) (c : Candidate) : Bool :=
  let r := recOf c.bytes
  (r.waitsOn.all fun w => compStatus s c.fn w == some 1) &&
    (r.start == 0 || r.regime != 0 || r.start ≤ timeAt s (tickStart s))

/-- A candidate taken out of its queue. -/
def dropCandidate (s : State) (c : Candidate) : State := { s with candidates := s.candidates.erase c }

/-- Heads whose dependences have failed are turned away with status 5 (R402). -/
def dropFailed (s : State) : State :=
  (heads s.candidates).foldl (fun s c =>
    match failedWait s c with
    | none => s
    | some w => turnAway (dropCandidate s c) c 5 0 w) s

/-- Of the candidates in their order, those that head their queue note since when they are ready; `seen` are the queues met
before. -/
def noteHeads (s : State) : List Nat → List Candidate → List Candidate
  | _, [] => []
  | seen, c :: r =>
    (if c.readySince = none ∧ !seen.contains c.queue ∧ isReady s c then { c with readySince := some s.cycle } else c) ::
      noteHeads s (c.queue :: seen) r

/-- Each head that is ready notes since when (R276). -/
def noteReady (s : State) : State := { s with candidates := noteHeads s [] s.candidates }

/-- Queues in all (R276). -/
def queueCount : Nat := 16896

/-- How far a queue lies behind the last one served. -/
def turnOf (s : State) (c : Candidate) : Nat := (c.queue + queueCount - s.lastQueue - 1) % queueCount

/-- The least of a list by a key. -/
def leastBy {α : Type} (f : α → Nat) : List α → Option α
  | [] => none
  | x :: r =>
    match leastBy f r with
    | none => some x
    | some y => if f y < f x then some y else some x

/-- The candidate that the front selects (R276). -/
def selected (s : State) : Option Candidate :=
  let ready := (heads s.candidates).filter fun c => c.readySince.isSome
  let prio (c : Candidate) : Nat := (recOf c.bytes).prio
  let top := ready.foldl (fun a c => Nat.max a (prio c)) 0
  let cs := ready.filter fun c => prio c == top
  let since (c : Candidate) : Nat := c.readySince.getD 0
  let old := cs.filter fun c => since c + 256 * Config.tickCycles ≤ s.cycle
  (leastBy since old).or (leastBy (turnOf s) cs)

/-! ## Placing a launch (R277, R280, R407) -/

/-- The cores of unit u of a timing domain. -/
def unitCores (domain u : Nat) : List Nat := (List.range (domainCores domain)).map fun k => u * domainCores domain + k

/-- A front that a launch of priority `prio` finds free, or can have emptied (R279, R280). -/
def frontOpen (s : State) (prio core front : Nat) : Bool :=
  match s.taskAt core front with
  | none => true
  | some t => !t.timed && launchPrio s t.launch ≤ prio

/-- A front that holds no timed task. -/
def frontUntimed (s : State) (core front : Nat) : Bool := (s.taskAt core front).all fun t => !t.timed

/-- The unit a timed launch takes: the lowest whose every front is free (R407), else the lowest that pre-emption can
empty, else the lowest on which free tasks of higher priority run on until they end, yield or fault (R280). -/
def chooseUnit (s : State) (r : Rec) : Option Nat :=
  let us := List.range (Config.cores / Nat.max 1 (domainCores r.domain))
  let taken (u : Nat) : Bool := (unitCores r.domain u).any fun n => s.domains.any fun d => d.cores.contains n
  let all (p : Nat → Nat → Bool) (u : Nat) : Bool := !taken u && (unitCores r.domain u).all fun n => p n 0 && p n 1
  ((us.find? (all fun n f => (s.taskAt n f).isNone)).or (us.find? (all (frontOpen s r.prio)))).or (us.find? (all (frontUntimed s)))

/-- Fronts can accept work of a launch (R276): for a free launch some front outside every domain is free or holds a task
of lower priority; for a timed launch a unit can be had. -/
def canAccept (s : State) (r : Rec) : Bool :=
  if r.regime ≠ 0 then (chooseUnit s r).isSome
  else
    (List.range Config.cores).any fun n => !(s.domains.any fun d => d.cores.contains n) &&
      [0, 1].any fun f => match s.taskAt n f with
        | none => true
        | some t => !t.timed && launchPrio s t.launch < r.prio

/-- A candidate that keeps every rule becomes a launch: its tasks are ready, or its timing domain is reserved. -/
def placeLaunch (s : State) (c : Candidate) : State :=
  let r := recOf c.bytes
  let id := s.nextLaunch
  let timed := r.regime == 1
  let l : Launch := { id := id, fn := c.fn, record := r, total := r.tasks, starting := timed, parent := c.parent }
  let s := { s with launches := s.launches ++ [l], nextLaunch := id + 1, lastQueue := c.queue }
  let s := blackBox s 0 1 0 0xFFFF r.comp id
  let s :=
    if timed then
      { s with domains := s.domains ++
          [({ launch := id, cores := unitCores r.domain ((chooseUnit s r).getD 0), tasks := [], coreCopies := [], restart := 0 } : Domain)] }
    else { s with readyTasks := s.readyTasks ++ (List.range r.tasks).map fun t =>
        ({ launch := id, task := t, since := s.cycle } : Ready) }
  s.postFirst .taskPlacement []

/-- LAUNCH_SELECTION: heads whose dependences have failed are turned away; the candidate that R276 selects is refused
(R401) or placed, if fronts can accept it. Under Dusk nothing is examined (R412). -/
def execLaunchSelection (s : State) : Out :=
  if s.mgmt.dusk then .next s else
  let s := noteReady (dropFailed s)
  match selected s with
  | none => .next s
  | some c =>
    match refusal s c.fn c.bytes with
    | some b => .next ((turnAway { dropCandidate s c with lastQueue := c.queue } c 4 b.2 b.1).post .launchSelection [])
    | none =>
      if canAccept s (recOf c.bytes) then .next ((placeLaunch (dropCandidate s c) c).post .launchSelection [])
      else .next s

end Sys2Proof.Machine
end

