-- ==== Sys2Proof/Machine/Placement.lean ====
section
/-! DEFINITION. Placing tasks on fronts (R29, R51, R277 to R280, R284), starting them (R30, R33, R34, R75, R78), the end
of a launch (R35, R242, R391), and the governor's slots (R282 to R289, R405). -/

namespace Sys2Proof.Machine

/-! ## Binding segments (R33, R34, R122, R123) -/

/-- Descriptor i as a task's segment register binds it: sg0, sg1 and sg15 from the launch, the others from the record. -/
def boundDesc (s : State) (l : Launch) (i : Nat) : Desc :=
  let r := l.record
  if i = 0 then
    { base := r.pool, limit := if r.pool = 0 then 0 else r.stack + 4096 * r.vmax, disc := .priv, pinned := true, writable := true }
  else if i = 1 then
    { base := argPlace l.id - chip, limit := 256, disc := .read, scope := 5, onChip := true, pinned := true }
  else if i = 15 then
    match launchObj s l with
    | none => {}
    | some o => { base := o.constBase, limit := o.constSize, disc := .read, pinned := true }
  else r.descs[Fin.ofNat 16 i]

/-- The segment register of a task on frame f. -/
def bindSeg (s : State) (l : Launch) (task f i : Nat) : Seg :=
  let d := boundDesc s l i
  let hw := l.record.hw
  let parts := (hw[d.level]?).elim 1 Level.extent
  if i = 0 then { desc := d, inst := d.base + f * d.limit }
  else if d.disc = .priv then { desc := d, inst := d.base + task * d.limit }
  else if d.disc = .sliced then
    { desc := d, inst := d.base + task / parts * d.limit, index := task % parts, parts := parts }
  else { desc := d, inst := d.base }

/-- TASKID (Table 4-6). -/
def taskidOf (s : State) (task core front : Nat) : Word :=
  BitVec.ofNat 64 (task % 2 ^ 32 + core * 2 ^ 32 + front * 2 ^ 41 + s.package * 2 ^ 42)

/-- A task as it stands on its front before it starts (Table 4-3). -/
def newTask (s : State) (l : Launch) (task frame core front : Nat) : Task :=
  let r := l.record
  let ix := indices r.hw task
  { live := true, launch := l.id, task := task, frame := frame, fn := l.fn, core := core, front := front, vmax := r.vmax,
    timed := r.regime == 1, domain := r.domain, pc := BitVec.ofNat 64 (entryOf s l),
    segs := Vector.ofFn fun k => bindSeg s l task frame k.val,
    modes := { seed := BitVec.ofNat 64 (task % 2 ^ 32) }, taskid := taskidOf s task core front,
    idx := Vector.ofFn fun k => BitVec.ofNat 64 (ix.getD k.val 0),
    ext := Vector.ofFn fun k => BitVec.ofNat 64 ((r.levels[k.val]?).elim 1 Level.extent),
    thvec := if r.handler = 0 then 0 else BitVec.ofNat 64 ((launchObj s l).elim 0 (·.codeAddr r.handler) + 1),
    born := s.cycle, cycle := s.cycle, ready := false, wait := some .taskStart }

/-! ## Placing (R277, R278, R284) -/

/-- The core a choice goes to: among those it may run on with a free front, the fewest busy fronts, then the lowest
number. -/
def bestCore (s : State) (c : Choice) : Option Nat :=
  leastBy (busyFronts s) ((List.range Config.cores).filter fun n =>
    (frontFree s n 0 || frontFree s n 1) && canRunOn s n c)

/-- The first choice that a front can take, and the core. -/
def nextPlacement (s : State) : Option (Choice × Nat) :=
  (ordered s).findSome? fun c => (bestCore s c).map fun n => (c, n)

/-- A task has come to a core: an empty core claims its start step, a core that runs starts the task (R284). -/
def claimStart (s : State) (launch core front : Nat) (empty : Bool) : State :=
  if empty then { s with claims := s.claims ++ [{ launch := launch, core := core }] }
  else if s.claims.any fun c => c.core == core then s
  else s.post .taskStart [core, front]

/-- A task not yet placed takes the lowest free frame and a front (R278). -/
def placeFresh (s : State) (l : Launch) (task frame core front : Nat) : State :=
  let s := s.setLaunch { l with frames := l.frames ++ [(frame, task)], placed := l.placed ++ [(task, core)] }
  let s := { s with readyTasks := s.readyTasks.filter fun r => !(r.launch == l.id && r.task == task) }
  onFront core front (fun s => { s with t := newTask s l task frame core front }) s

/-- A switched-out context comes back to a front of its core (R366); held mailbox writes may land (R115). A bad unit in its
frame ends its launch (R388). -/
def placeBack (s : State) (v : Saved) (front : Nat) : State :=
  let core := v.task.core
  match frameBad s v with
  | some b => endLaunch s v.task 0x15 (errorInfo b) (frameOf s v.task)
  | none =>
    let s := onFront core front (fun s =>
      let u := restoreContext s v front
      { u with t := { u.t with wait := some .taskStart } }) s
    s.post .mailboxWriteLand [core]

/-- A choice goes to a core. -/
def placeOn (s : State) (c : Choice) (core : Nat) : State :=
  let front := if frontFree s core 0 then 0 else 1
  let empty := busyFronts s core == 0
  match c with
  | .back v =>
    let s := placeBack s v front
    if (s.taskAt core front).isSome then claimStart s v.task.launch core front empty else s
  | .fresh r =>
    match s.launch r.launch with
    | none => s
    | some l =>
      match freeFrame l with
      | none => s
      | some f => claimStart (placeFresh s l r.task f core front) l.id core front empty

/-! ## Asking for pre-emption (R279, R280, R59) -/

/-- A running task that may be pre-empted at all (R355, R361); a step stop that waits is taken first (R372). -/
def mayLeave (t : Task) : Bool :=
  t.live && !t.inHandler && !(match t.wait with
    | some .contextSave | some .launchEndByTrap | some .timedRollback | some .preemption | some .taskStart | some .trapEntry
    | some .engineCommandFork => true
    | _ => false)

/-- a goes before b as a victim: lowest priority first, then the youngest. -/
def victimRank (s : State) (t : Task) : Nat := launchPrio s t.launch * 2 ^ 64 + (2 ^ 64 - 1 - t.born % 2 ^ 64)

/-- The task that a ready choice has pre-empted: on a core it may run on, of lower priority. -/
def victimFor (s : State) (c : Choice) : Option Task :=
  leastBy (victimRank s) (s.allTasks.filter fun t =>
    mayLeave t && launchPrio s t.launch < launchPrio s c.launch && canRunWith s t.core (some t.front) c)

/-- The free tasks that a selected timed launch has pre-empted from its domain: priority at most its own. -/
def domainVictims (s : State) : List Task :=
  (s.launches.filter fun l => l.starting && !l.stopped).flatMap fun l =>
    s.allTasks.filter fun t => mayLeave t && !t.timed && launchPrio s t.launch ≤ l.record.prio &&
      s.domains.any fun d => d.launch == l.id && d.cores.contains t.core

/-- Pre-emption of a task becomes due, once. -/
def askLeave (s : State) (t : Task) : State :=
  let x : Input := { n := [t.core, t.front] }
  if s.agenda.contains (.preemption, x) then s else { s with agenda := s.agenda ++ [(.preemption, x)] }

/-- Timed domains saved at a REALIGN whose fronts are all free go on (R371). -/
def resumable (s : State) : List Nat :=
  ((s.saved.filter fun v => v.timed).map fun v => v.task.launch).eraseDups.filter fun l =>
    match s.launch l with
    | none => false
    | some x => (unitCores x.record.domain (x.domCore / Nat.max 1 (domainCores x.record.domain))).all fun n =>
        frontFree s n 0 && frontFree s n 1

/-- TASK_PLACEMENT: the first ready task that a front can take goes there; with none, the tasks that R279 and R280 name
are to be pre-empted. -/
def execTaskPlacement (s : State) : Out :=
  match if s.mgmt.dusk then none else nextPlacement s with
  | some (c, core) => .next ((placeOn s c core).postFirst .taskPlacement [])
  | none =>
    let s := (domainVictims s).foldl askLeave s
    let s := match (ordered s).findSome? (victimFor s) with
      | none => s
      | some t => askLeave s t
    .next ((resumable s).foldl (fun s l => s.post .timedResume [l]) s)

/-! ## Starting a task (R30, R75, R78) -/

/-- The token word or phase word of segment k is read through the segment, and sets HELD or the phase (R75). -/
def readSegWord (s : State) (k : Nat) : R State :=
  let i := Fin.ofNat 16 k
  let g := s.t.segs[i]
  let put (s : State) (g : Seg) : State := { s with t := { s.t with segs := s.t.segs.set i.val g i.isLt } }
  match g.desc.disc with
  | .owned => do
    let (p, s) ← byRoute s (reach s s.actor (formed s.actor g g.desc.word) false)
    let v ← readPlace s p 8
    .ok (put s { g with held := v % 2 ^ 32 == s.t.task + 1 })
  | .sliced => do
    let (p, s) ← byRoute s (reach s s.actor (formed s.actor g g.desc.word) false)
    let v ← readPlace s p 8
    .ok (put s { g with readPhase := v.testBit 0 })
  | _ => .ok s

/-- The segment words of the current task are read, each that can be; the first trap met among the others. -/
def readSegWords (s : State) : State × Option Trap :=
  (List.range 16).foldl (fun (x : State × Option Trap) k =>
    match readSegWord x.1 k with
    | .ok s => (s, x.2)
    | .error t => (x.1, x.2.or (some t))) (s, none)

/-- A core with no task that runs has been empty up to a cycle, from which the current front's task starts (R288). -/
def State.countEmpty (s : State) (cycle : Nat) : State :=
  if s.tasks.any fun t => t.core == s.c.num && t.live && t.wait != some .taskStart then s
  else s.countWaited (s.slot * Config.tickCycles) cycle

/-- The current front's task starts on a cycle: TSTART, its segment words, and the entry word next. -/
def startTask (cycle : Nat) (s : State) : State :=
  let s := s.countEmpty cycle
  let t := { s.t with wait := none, cycle := cycle }
  if s.t.ready then { s with t := t }
  else
    let r := readSegWords { s with t := { t with tstart := BitVec.ofNat 64 (timeAt s cycle), origin := cycle } }
    let s := r.1
    match r.2 with
    | none =>
      let s := { s with t := { s.t with ready := true } }
      if s.t.timed then copyDomain s s.t else s
    | some tr => takeTrap { s with t := { s.t with ready := !tr.pages s.t } } tr s.t.pc []

/-- TASK_START: the task of a front, argument 0 the core and 1 the front, starts on the cycle of argument 2, or, with
none given, on this one. -/
def execTaskStart (s : State) : Out :=
  let cycle := if s.arg 2 = 0 then s.cycle else s.arg 2
  .next (onFront (s.arg 0) (s.arg 1) (fun s => if s.t.live && s.t.wait == some .taskStart then startTask cycle s else s) s)

/-! ## The end of a launch (R35, R242, R391) -/

/-- Every task of the launch has ended, or the launch has been stopped, and every command it forked is complete. -/
def launchOver (s : State) (l : Launch) : Bool :=
  !l.final && (l.stopped || l.ended == l.total) && (cmdsOf s l.id).all Cmd.done

/-- Its final status with cause and pointer, chains and domain (R391, R242): a stopped launch has its status already, and its
parent knows it. -/
def finishLaunch (s : State) (l : Launch) : State :=
  let status := if l.stopped then 3 else if l.fault.isSome then 2 else 1
  let s := ((dropChains s l.id).dropPasts l.id).dropExtents l.id
  let s := { s with domains := s.domains.filter fun d => d.launch != l.id }
  let s := s.setLaunch { l with final := true, endSlot := some (l.endSlot.getD s.slot) }
  let s := blackBox s 0 2 0 0xFFFF l.record.comp l.id
  let x := l.fault.getD (0, 0)
  let s := if l.stopped then s else tellParent (writeFinal s l.fn l.record.comp status x.1 x.2) l.parent status l.record.comp
  (s.post .launchSelection []).post .taskPlacement []

/-- LAUNCH_COMPLETE: the launch of argument 0 takes its final status once it is over. -/
def execLaunchComplete (s : State) : Out :=
  match s.launch (s.arg 0) with
  | none => .next s
  | some l => .next (if launchOver s l then finishLaunch s l else s)

/-! ## The governor: envelopes (R286, R287) -/

/-- 96 W in sixteenths. -/
def rampStep : Nat := 1536

/-- A timed launch that has started and not ended. -/
def Launch.runsTimed (l : Launch) : Bool := l.record.regime == 1 && !l.starting && l.endSlot.isNone

/-- The first slot of a timed launch's reservation: of its envelope, or, before it starts, of the tick reserved for it. -/
def Launch.firstSlot (l : Launch) : Option Nat :=
  if l.record.regime ≠ 1 then none else if l.starting then l.reserved else some l.startSlot

/-- The rise reserved in a slot, in sixteenths. -/
def reservedRise (s : State) (slot : Nat) : Nat :=
  ((s.launches.filter fun l => l.endSlot.isNone && l.firstSlot.any fun a => decide (a ≤ slot ∧ slot < a + l.record.slots)).map
    fun l => 16 * l.record.wr).sum

/-- The peak a launch has reserved in a slot, which falls by 96 W per slot once it has ended (R287). -/
def Launch.reservedPeak (l : Launch) (slot : Nat) : Nat :=
  match l.firstSlot, l.endSlot with
  | none, _ => 0
  | some _, none => 16 * l.record.wp
  | some _, some e => 16 * l.record.wp - rampStep * (slot - e)

/-- The cores of the timed launches that run. -/
def timedCores (s : State) : List Nat :=
  (s.domains.filter fun d => (s.launch d.launch).any Launch.runsTimed).flatMap Domain.cores

/-- The sum of the last slot's estimates over cores. -/
def estimateOf (s : State) (nums : List Nat) : Nat := (nums.map fun n => (s.coreAt n).estimate).sum

/-- The cores that are not as after Dawn. -/
def coreNums (s : State) : List Nat := s.allCores.map Core.num

/-- Those of them that no timed launch runs on. -/
def freeCores (s : State) : List Nat :=
  let ts := timedCores s
  (coreNums s).filter fun n => !ts.contains n

/-- The last slot's estimate of the free cores. -/
def freeEstimate (s : State) : Nat := estimateOf s (freeCores s)

/-- Both reservations of a launch fit from a slot on, beside those of the others (R286). -/
def envelopeFits (s : State) (l : Launch) (slot : Nat) : Bool :=
  let o : State := { s with launches := s.launches.filter fun m => m.id != l.id }
  ((List.range l.record.slots).all fun j => reservedRise o (slot + j) + 16 * l.record.wr ≤ rampStep) &&
  16 * l.record.wp + (o.launches.map fun m => m.reservedPeak slot).sum + freeEstimate s ≤ 16 * 3300

/-- The ceiling of a launch in slot k of its envelope, in sixteenths. -/
def Launch.ceiling (l : Launch) (k : Nat) : Nat := 16 * Nat.min l.record.wp (l.record.wr * (k + 1))

/-! ## The governor: estimates (R282) -/

/-- Counts weighted: an estimate in sixteenths of a watt. -/
def Work.weigh (w u : Work) : Nat :=
  ((w.matrix.zipWith (· * ·) u.matrix).toList.sum + w.arith * u.arith + w.wide * u.wide + w.mem * u.mem + w.xfer * u.xfer +
    w.bytes * u.bytes + w.ladle * u.ladle + w.dross * u.dross) / 2 ^ 20

/-- What a core counts of this slot up to cycle b (R282). -/
def Core.workUpTo (c : Core) (b : Nat) : Work := c.loads.foldl (fun w l => w.plus (l.counts b)) c.work

/-- The counts up to cycle b weighted into each core's estimate of the slot so far. -/
def weighCores (s : State) (b : Nat) : State :=
  (coreNums s).foldl (fun s n =>
    let c := s.coreAt n
    s.setCore { c with activity := (c.workUpTo b).weigh s.weights }) s

/-- Loads whose cycles ended long before a slot are forgotten: no stall of a front reaches back to them. -/
def oldLoad : Nat := 2 ^ 17

/-- A slot begins on cycle b: its counts begin from zero. -/
def clearWork (s : State) (b : Nat) : State :=
  let g (ls : List Load) : List Load :=
    (ls.map fun l => { l with taken := l.upTo b }).filter fun l => decide (l.taken < l.len ∨ b < l.start + l.len + oldLoad)
  let f (c : Core) : Core := { c with work := {}, loads := g c.loads, activity := 0, waited := 0 }
  { s with c := f s.c, cores := s.cores.map f, partials := 0, otherLast := s.otherNow }

/-! ## The governor: settling a slot (R283, R287 to R289) -/

/-- The cycles of the slot before tick `slot` that dross may fill on a core: those counted while a front waited, and, where no task
runs there, those since (R288). -/
def drossCycles (s : State) (n slot : Nat) : Nat :=
  let c := s.coreAt n
  let from_ := Nat.max c.waitedTo ((slot - 1) * Config.tickCycles)
  c.waited + (if s.allTasks.any fun t => t.core == n && t.wait != some .taskStart then 0 else slot * Config.tickCycles - from_)

/-- How far a core's estimate fell in the slot before. -/
def Core.fell (c : Core) : Nat := c.estimate0 - c.estimate

/-- Shares of an amount in proportion to weights, in all the whole amount; where every weight is 0, in equal parts. -/
def shares (amount : Nat) (ws : List Nat) : List Nat :=
  let ws := if ws.sum = 0 then ws.map fun _ => 1 else ws
  (List.range ws.length).map fun k =>
    amount * (ws.take (k + 1)).sum / Nat.max 1 ws.sum - amount * (ws.take k).sum / Nat.max 1 ws.sum

/-- The cycles of that slot in which dross fills a core: those that it may fill, else every idle one. -/
def filledCycles (s : State) (n slot : Nat) : Nat :=
  if drossCycles s n slot = 0 then (s.coreAt n).idleIn ((slot - 1) * Config.tickCycles) Config.tickCycles else drossCycles s n slot

/-- How far below its own floor each core of a group would fall: the floor is its estimate of the slot before less its share of the
fall allowance, apportioned by each core's fall in the slot before (R288). -/
def coreLacks (s : State) (nums : List Nat) (allowance : Nat) : List Nat :=
  (nums.zip (shares allowance (nums.map fun n => (s.coreAt n).fell))).map fun x =>
    (s.coreAt x.1).estimate - x.2 - (s.coreAt x.1).activity

/-- Amounts granted in order while a total lasts, and what remains of it. -/
def grantUpTo : Nat → List Nat → List Nat × Nat
  | rest, [] => ([], rest)
  | rest, w :: r =>
    let t := grantUpTo (rest - Nat.min w rest) r
    (Nat.min w rest :: t.1, t.2)

/-- The dross of each core of a group that lacks `lack` below its floor: first what keeps each core that may take dross at its own
floor; what the group still lacks goes to those cores by their falls, and where none may take it, to all (R283, R288,
notes/assumptions/36.md). -/
def drossOf (s : State) (slot : Nat) (nums : List Nat) (allowance lack : Nat) : List Nat :=
  let may (n : Nat) : Bool := drossCycles s n slot != 0
  let own := grantUpTo lack ((nums.zip (coreLacks s nums allowance)).map fun x => if may x.1 then x.2 else 0)
  let any := nums.any may
  let takers := nums.filter fun n => may n || !any
  let more := takers.zip (shares own.2 (takers.map fun n => (s.coreAt n).fell))
  (nums.zip own.1).map fun x => x.2 + ((more.find? fun y => y.1 == x.1).map Prod.snd).getD 0

/-- The open strip of a core's lane holder counts dross cycles (R289, R332). -/
def stripDross (s : State) (num cycles : Nat) : State :=
  match (s.coreAt num).holder.bind (s.taskAt num) with
  | none => s
  | some t => s.setTask { t with strip := t.strip.map fun (p : Strip) => { p with dross := p.dross + cycles } }

/-- The slot before tick `slot` of a group of cores is settled: dross fills up to the floor, never above the cap; the counters of
Table 16-1 take the slot. -/
def settleGroup (s : State) (slot : Nat) (nums : List Nat) (floor cap allowance : Nat) : State :=
  let sum := (nums.map fun n => (s.coreAt n).activity).sum
  let given := drossOf s slot nums allowance (Nat.min (floor - sum) (cap - sum))
  (nums.zip given).foldl (fun s x =>
    let c := s.coreAt x.1
    let k := c.counters
    let cycles := if x.2 = 0 then 0 else filledCycles s x.1 slot
    let k := { k with estsum := k.estsum + c.activity + x.2, drosscyc := k.drosscyc + cycles }
    stripDross (s.setCore { c with estimate := c.activity + x.2, estimate0 := c.estimate, dross := x.2, counters := k }) x.1 cycles) s

/-! ## The governor: holding the rise (R283, R285) -/

/-- What a core has to do before cycle b is held to `keep` parts of `all`: the rest of its cycles comes later, and counts as
withheld (R289). -/
def Core.withhold (c : Core) (b keep all : Nat) : Core :=
  let run (l : Load) : Nat := l.upTo b - l.taken
  let put (l : Load) : Load := { l with start := l.start + (run l - run l * keep / Nat.max 1 all) }
  let late := (c.loads.map fun l => run l - run l * keep / Nat.max 1 all).foldl Nat.max 0
  { c with loads := c.loads.map put, counters := { c.counters with thrcyc := c.counters.thrcyc + late } }

/-- An excess over the rise bound is withheld from the cores of the largest rise first; DROSS, which a program asks for, is not
withheld (R285). -/
def withholdAll (s : State) (b : Nat) : Nat → Nat → List Core → State
  | 0, _, _ => s
  | fuel + 1, excess, cs =>
    if excess = 0 then s
    else
      match leastBy (fun (c : Core) => 2 ^ 64 - (c.activity - c.estimate)) cs with
      | none => s
      | some c =>
        let fixed := c.work.weigh s.weights
        let loads := c.activity - fixed
        let cut := Nat.min excess loads
        withholdAll (s.setCore (c.withhold b (loads - cut) loads)) b fuel (excess - cut) (cs.filter fun d => d.num != c.num)

/-- The cores of a launch's domain. -/
def domainOf (s : State) (l : Launch) : List Nat := (s.domains.filter fun d => d.launch == l.id).flatMap Domain.cores

/-- The rise bound of a slot leaves the throttle levels up (R283, R285): the free cores and firmware's figure have risen, beside
the rise that timed envelopes reserve, by more than 96 W. -/
def risesTooFar (s : State) (slot before now : Nat) : Bool := before + rampStep < now + reservedRise s slot

/-- The counts of the slot that ended on cycle b, what goes past the rise bound of the free cores withheld from it (R283): timed
domains count through their reservation (R286). -/
def heldRise (s : State) (slot b : Nat) : State :=
  let s := weighCores s b
  let cap := freeEstimate s + s.otherLast + rampStep - reservedRise s (slot - 1) - s.otherNow
  let cs := (freeCores s).map s.coreAt
  weighCores (withholdAll s b cs.length ((cs.map Core.activity).sum - cap) cs) b

/-- The slot before tick `slot` is settled: each timed domain, then the free cores; the package's estimate and peak. A throttle
level falls by one where the bound allows it. -/
def settleSlot (s : State) (slot : Nat) : State :=
  let b := slot * Config.tickCycles
  let before := freeEstimate s + s.otherLast
  let up := risesTooFar s (slot - 1) before (((freeCores (weighCores s b)).map fun n => ((weighCores s b).coreAt n).activity).sum + s.otherNow)
  let s := heldRise s slot b
  let s := (s.launches.filter Launch.runsTimed).foldl (fun s l =>
    settleGroup s slot (domainOf s l) (l.draw - 16 * l.record.wr) (l.ceiling (slot - 1 - l.startSlot)) (16 * l.record.wr)) s
  let floor := s.pLast - rampStep - s.otherNow - estimateOf s (timedCores s)
  let s := settleGroup s slot (freeCores s) floor floor rampStep
  let p := s.otherNow + estimateOf s (coreNums s)
  let f (c : Core) : Core := if up then c else { c with throttle := c.throttle - 1 }
  clearWork (b := b) { s with pLast := p, c := f s.c, cores := s.cores.map f, mgmt := { s.mgmt with peakEst := Nat.max s.mgmt.peakEst p } }

/-! ## The governor: violations (R287, R405) -/

/-- TINFO of a ramp violation (Table 20-1), where slot k's draw breaks the envelope. -/
def violation (l : Launch) (k draw : Nat) : Option Nat :=
  let info (b : Nat) : Nat := draw / 16 % 2 ^ 16 + l.ceiling k / 16 * 2 ^ 16 + k % 2 ^ 16 * 2 ^ 32 + b * 2 ^ 48
  if l.ceiling k < draw then some (info 0) else if l.draw + 16 * l.record.wr < draw then some (info 1) else none

/-- A launch breaks its envelope: the violation is counted, its task 0 takes cause 0x14, and every core of its domain stops at
once (R405). -/
def rampViolation (s : State) (l : Launch) (info : Nat) : State :=
  let s := { s with mgmt := { s.mgmt with rampViol := s.mgmt.rampViol + 1 } }
  let s := blackBox s 0 5 0 0xFFFF (trapDetail 0x14 info) l.id
  match s.allTasks.find? fun t => t.launch == l.id && t.task == 0 with
  | some t => endTask359 { cause := 0x14, info := info } s t
  | none => endLaunch s { launch := l.id, core := l.domCore } 0x14 info 0

/-- Each timed launch's draw of the slot that ended is held to its envelope. -/
def checkEnvelopes (s : State) (slot : Nat) : State :=
  (s.launches.filter Launch.runsTimed).foldl (fun s l =>
    let draw := estimateOf s (domainOf s l)
    let s := s.setLaunch { l with draw := draw }
    match violation l (slot - l.startSlot) draw with
    | none => s
    | some info => rampViolation s { l with draw := draw } info) s

/-! ## The governor: starting (R281, R284, R286) -/

/-- Task t of a timed launch takes its frame and its front of the domain (R51). -/
def placeTimed (s : State) (id t : Nat) : State :=
  match s.launch id with
  | none => s
  | some l =>
    let k := l.record.perCore
    match freeFrame l, (domainOf s l)[t / k]? with
    | some f, some core => placeFresh s l t f core (t % k)
    | _, _ => s

/-- A timed launch starts on the first cycle of a slot, its tasks together. -/
def startTimed (s : State) (l : Launch) (slot : Nat) : State :=
  let cores := domainOf s l
  let s := s.setLaunch { l with starting := false, reserved := none, startSlot := slot, domCore := cores.headD 0 }
  let s := (List.range l.total).foldl (fun s t => placeTimed s l.id t) s
  (s.allTasks.filter fun t => t.launch == l.id).foldl (fun s t =>
    onFront t.core t.front (startTask (slot * Config.tickCycles)) s) s

/-- The start time of a launch has come by the first cycle of a slot (R281). -/
def startReached (s : State) (l : Launch) (slot : Nat) : Bool :=
  l.record.start == 0 || l.record.start ≤ timeAt s (slot * Config.tickCycles)

/-- A slot is a timed launch's start tick (R281); Dusk lets none start (R412). -/
def startsNow (s : State) (l : Launch) (slot : Nat) : Bool :=
  !s.mgmt.dusk && l.starting && !l.stopped && startReached s l slot && ((domainOf s l).all fun n => busyFronts s n == 0) && envelopeFits s l slot

/-- Each timed launch in launch order: one whose start tick this is starts; for one whose next tick may be it, the envelope is
reserved from there, if it fits (R286). -/
def startAll (s : State) (slot : Nat) : State :=
  (s.launches.map Launch.id).foldl (fun s id =>
    match s.launch id with
    | none => s
    | some l =>
      if startsNow s l slot then startTimed s l slot
      else if l.starting then
        s.setLaunch { l with reserved := if startReached s l (slot + 1) && envelopeFits s l (slot + 1) then some (slot + 1) else none }
      else s) s

/-- A claim is granted: its core's tasks start on the slot's first cycle. -/
def grant (s : State) (c : Claim) (slot : Nat) : State :=
  let k := s.coreAt c.core
  let s := s.setCore { k with admitted := true, counters := { k.counters with starts := k.counters.starts + 1 } }
  [0, 1].foldl (fun s f =>
    match (s.taskAt c.core f).bind Task.wait with
    | some .taskStart => s.post .taskStart [c.core, f, slot * Config.tickCycles]
    | _ => s) s

/-- A claim waits for another slot. -/
def holdClaim (s : State) (c : Claim) : State :=
  let k := s.coreAt c.core
  { s.setCore { k with counters := { k.counters with rampwait := k.counters.rampwait + 1 } } with claims := s.claims ++ [c] }

/-- Claims in order, each launch's in the order of placement. -/
def claimOrder (s : State) : List Claim :=
  (s.claims.map Claim.launch).eraseDups.foldl (fun acc id =>
    (acc.takeWhile fun (c : Claim) => c.launch < id) ++ (s.claims.filter fun c => c.launch == id) ++
      acc.dropWhile fun c => c.launch < id) []

/-- Claims are granted while the slot's budget lasts; the first that does not fit holds those behind it (R284). -/
def grantAll (s : State) (slot budget : Nat) : List Claim → State
  | [] => s
  | c :: r =>
    if s.startStep ≤ budget then grantAll (grant s c slot) slot (budget - s.startStep) r
    else (c :: r).foldl holdClaim s

/-- RAMP_SLOT: the slot before is settled and checked, timed launches start, claims are granted. -/
def execRampSlot (s : State) : Out :=
  let slot := s.slot
  let s := startAll (checkEnvelopes (settleSlot s slot) (slot - 1)) slot
  .next (grantAll { s with claims := [] } slot (rampStep - reservedRise s slot) (claimOrder s))

/-! ## Partial estimates (R282, R285) -/

/-- A core that runs free tasks. -/
def runsFree (s : State) (c : Core) : Bool := s.allTasks.any fun t => t.core == c.num && !t.timed

/-- The rise of a core's estimate, projected from the partials taken. -/
def Core.rise (s : State) (c : Core) : Nat := c.activity * 16 / Nat.max 1 s.partials - c.estimate

/-- Throttle levels raised by one, at most to 7, on the free cores of the largest rise first, until what they withhold, an eighth
of each rise, covers the excess. -/
def throttleFor (s : State) : Nat → Nat → List Core → State
  | 0, _, _ => s
  | fuel + 1, excess, cs =>
    if excess = 0 then s
    else
      match leastBy (fun c => 2 ^ 64 - c.rise s) (cs.filter fun c => c.throttle < 7 && c.rise s != 0) with
      | none => s
      | some c =>
        throttleFor (s.setCore { s.coreAt c.num with throttle := c.throttle + 1 }) fuel (excess - (c.rise s + 7) / 8)
          (cs.filter fun d => d.num != c.num)

/-- ESTIMATE_PARTIAL: the master receives the cores' partial estimates, and as argument 0, where it comes, firmware's figure for
the rest of the package; a projection past the rise bound raises throttle levels. The projection takes the slot to go on as it
has begun (notes/assumptions/25.md); timed domains count through their reservation (R286). -/
def execEstimatePartial (s : State) : Out :=
  let s := { s with partials := s.partials + 1, otherNow := s.input.n.headD s.otherNow }
  let s := weighCores s (s.slot * Config.tickCycles + 256 * s.partials)
  let now := ((freeCores s).map fun n => (s.coreAt n).activity).sum * 16 / s.partials + s.otherNow
  let before := freeEstimate s + s.otherLast
  let cs := s.allCores.filter (runsFree s)
  .next (if risesTooFar s s.slot before now then throttleFor s cs.length (now + reservedRise s s.slot - before - rampStep) cs else s)

/-! ## The domain tick (R52, R281) -/

/-- The fabric's reference TIME at the first cycle of fabric tick n (R406). -/
def fabricTime (n : Nat) : Nat := n * 655360 / 17

/-- The fabric tick whose TIME lies nearest. -/
def fabricTick (time : Nat) : Nat := (17 * time + 327680) / 655360

/-- The package is in phase with the fabric under a skew bound: its TIME at the first cycle of a tick lies within twice the bound of
that of a fabric tick (R406). DEDUCED: a skew bound stands only while this holds (notes/assumptions/37.md). -/
def inPhase (time skew : Nat) : Bool :=
  let f := fabricTime (fabricTick time)
  time ≤ f + 2 * skew && f ≤ time + 2 * skew

/-- Synchronisation is lost where the tick that begins is out of phase with the fabric (R330, R406). -/
def checkPhase (s : State) : State :=
  if inPhase (timeAt s (s.slot * Config.tickCycles)) s.tskew.toNat then s else { s with tskew := 0xFFFFFFFF }

/-- DOMAIN_TICK: the next tick begins; where the package's cycle has not reached it, time passes up to it. The slot before is
settled before any front moves (R405). -/
def execDomainTick (s : State) : Out :=
  let tick := s.slot + 1
  let s := checkPhase { s with slot := tick, cycle := Nat.max s.cycle (tick * Config.tickCycles), turn := false }
  .next (((s.post .launchSelection []).post .taskPlacement []).postFirst .rampSlot [])

end Sys2Proof.Machine
end

