-- ==== Sys2Proof/Machine/Switching.lean ====
section
/-! DEFINITION. What the vector columns and the scheduler do to a front as steps of their own: issue, retirement and
commit (R40, R42, R45), the riser's spill and fill (R254, R395), traps that come due (R354, R359), page faults and their
replies (R361 to R363, R395), pre-emption (R364, R371), saving and restoring (R365 to R367). -/

namespace Sys2Proof.Machine

/-! ## Acting on the front an event names -/

/-- A step of the front of arguments 0 and 1, where a task runs there. -/
def onLive (f : State → State) (s : State) : Out :=
  .next (onFront (s.arg 0) (s.arg 1) (fun s => if s.t.live then f s else s) s)

/-! ## The columns (R40, R42, R45) -/

/-- The oldest convoy that has not retired takes its turn in the columns. -/
def headTurn (s : State) : State :=
  match s.t.queue with
  | [] => s
  | cv :: rest =>
    let r := runConvoy (s.withQueue rest) cv
    match r.2 with
    | none => r.1
    | some (t, l) => if t.cause = 0 then r.1.withQueue (l ++ rest) else columnTrap (r.1.withQueue []) t (l ++ rest)

/-- The oldest entry is a convoy, no engine command. -/
def headConvoy (s : State) : Bool := (s.t.queue.head?).any fun cv => cv.cmd.isNone

/-- The oldest entry closes the current strip. -/
def headCloses (s : State) : Bool :=
  (s.t.queue.head?).any fun cv => cv.cmd.isSome || closesBefore s cv ||
    (cv.entries.head?).any fun e => opensStrip e.instr || givesLanes e.instr

/-- VECTOR_MEMBER_ISSUE: the members of a front's oldest convoy issue, where their interlocks allow; the model's convoys
issue and retire as one. -/
def execVectorMemberIssue (s : State) : Out :=
  onLive (fun s => if headConvoy s then (stepQueue s).getD (headTurn s) else s) s

/-- CONVOY_RETIRE: a front's oldest convoy retires; a single step stops there (R372), as in the events beside it. -/
def execConvoyRetire (s : State) : Out :=
  onLive (fun s => if headConvoy s then (stepQueue s).getD (headTurn s) else s) s

/-- STRIP_COMMIT: the strip that a front's oldest entry closes commits. -/
def execStripCommit (s : State) : Out :=
  onLive (fun s => if headCloses s then (stepQueue s).getD (headTurn s) else s) s

/-! ## Spill and fill (R254, R395) -/

/-- A spill or fill has run, waits for a page it requests once, or ends the launch. -/
def riserDone (s : State) (r : R State) : State :=
  match r with
  | .ok s => s
  | .error t => if t.cause = 0 then askRiser s t else endWith t s

/-- RISER_SPILL: committed records, oldest first, go to sg14. -/
def execRiserSpill (s : State) : Out := onLive (fun s => riserDone s (spillOver s)) s

/-- RISER_FILL: the fill that a pop has made due brings whole records back from sg14, whatever has been pushed since. -/
def execRiserFill (s : State) : Out :=
  onLive (fun s => if s.t.timed ∨ s.t.spill = 0 then s else riserDone s (fillUp 16384 s)) s

/-! ## Traps that come due (R354, R358, R359) -/

/-- TRAP_ENTRY: a step stop that waited for the columns is taken; a trap of the columns, or one due at a strip close, is
entered. -/
def execTrapEntry (s : State) : Out :=
  onLive (fun s =>
    match s.t.wait with
    | some .trapEntry => stepStop { s with t := { s.t with wait := none } }
    | some .engineCommandFork => commandStop { s with t := { s.t with wait := none } }
    | _ =>
      if s.t.queue = [] ∧ s.t.mbFault = none then s
      else
        let r := drainClose s
        match r.2 with
        | some (t, l) => if t.cause = 0 then s else columnTrap r.1 t l
        | none => s) s

/-- A save waits for what the rules let it wait for: products under way (R365), spill and fill in flight (R258). -/
def saveWaits (s : State) : Bool := ((heldLanes s).isSome && matrixBusy s) || riserBusy s s.t

/-- LAUNCH_END_BY_TRAP: once its products have completed the trapping task's context is saved, and its launch ends with
its cause and its frame's address (R359). -/
def execLaunchEndByTrap (s : State) : Out :=
  onLive (fun s =>
    if s.t.wait ≠ some .launchEndByTrap then s
    else if saveWaits s then s.post .launchEndByTrap [s.t.core, s.t.front]
    else
      let t := s.t
      let ptr := frameOf s t
      let u := saveContext s t.frozen [] true false
      if u.t.wait = some .contextSave then u else endLaunch u t t.tcause.toNat t.tinfo.toNat ptr) s

/-! ## Page faults (R361, R383) -/

/-- PAGE_FAULT: a front whose oldest convoy, or whose next word, meets a missing page is put aside. -/
def execPageFault (s : State) : Out :=
  onLive (fun s =>
    let r := drain s
    match r.2 with
    | some (t, l) => if t.pages s.t then columnTrap r.1 t l else s
    | none =>
      match fetch r.1 r.1.t.pc with
      | .error t => if t.pages r.1.t ∧ r.1.t.wait = none ∧ r.1.t.conv = none then scalarTrap .pageFault r.1 t false else s
      | .ok _ => s) s

/-- A reply lowers the count of the frame it names (R363); a reply for no such frame is ignored. -/
def replyContext (s : State) (ctx page : Nat) (no : Bool) : State :=
  match s.saved.find? fun v => v.ctx == ctx && 0 < v.outstanding with
  | none => s
  | some v =>
    let n := v.outstanding - 1
    let v := { v with outstanding := n, refused := if no then v.refused ++ [page] else v.refused, since := s.cycle }
    let s := { s with saved := s.saved.map fun x => if x.ctx = ctx then v else x }
    let s := (devWrite s v.task.fn (frameOf s v.task + 0x10) 4 n).toOption.getD s
    if n = 0 then s.post .taskPlacement [] else s

/-- A held command goes on: it is read anew, or its engine is. -/
def goOn (s : State) (num : Nat) (d : Cmd) : State :=
  if !d.begun then s.post .engineCommandFork [num, d.id]
  else if engineOf d.instr = 3 then
    [0, 1, 2].foldl (fun s j => s.post .textStageMessage [(dieOf num).val, d.chain, j]) s
  else s.post (doneEvent d.instr) [num, d.id]

/-- A reply serves every engine request of its context and page (R395). -/
def replyEngines (s : State) (ctx page : Nat) (no : Bool) : State :=
  (s.allCores.flatMap fun c => c.cmds.map fun d => (c.num, d)).foldl (fun s x =>
    let d := x.2
    if d.ctx = ctx ∧ d.pages.contains page then
      let d := { d with pages := d.pages.filter fun p => p != page, refused := if no then page :: d.refused else d.refused }
      goOn (s.setCmd x.1 d) x.1 d
    else s) s

/-- A reply serves a spill or fill: it goes on, or its launch ends with cause 0x09 (R395). -/
def replyRiser (s : State) (ctx page : Nat) (no : Bool) : State :=
  let hit (t : Task) : Bool := t.ctx == ctx && t.riserPages.contains page
  let clear (t : Task) : Task := { t with riserPages := t.riserPages.filter fun p => p != page }
  match s.allTasks.find? hit with
  | some t =>
    let s := s.setTask (clear t)
    if no then onFront t.core t.front (endWith { cause := 0x09, info := page }) s
    else (s.post .riserSpill [t.core, t.front]).post .riserFill [t.core, t.front]
  | none =>
    match s.saved.find? fun v => hit v.task with
    | none => s
    | some v =>
      let s := { s with saved := s.saved.map fun x => if x.ctx = v.ctx then { x with task := clear x.task } else x }
      if no then endLaunch s v.task 0x09 page (frameOf s v.task) else s

/-- Entries of the reply ring that the device has not taken. -/
def repliesLeft (m : Mgmt) : Nat := (m.frplTail + 2 ^ 32 - m.frplHead) % 2 ^ 32

/-- PAGE_FAULT_REPLY: the device takes the next reply of the ring (R362, R363, R395). -/
def execPageFaultReply (s : State) : Out :=
  let m := s.mgmt
  if repliesLeft m = 0 then .next s
  else
    let size := 2 ^ (m.frplBase % 16)
    let v := (devRead s 0 (m.frplBase / 64 * 64 % 2 ^ 55 + 16 * (m.frplHead % size)) 16).getD 0
    let ctx := v % 2 ^ 64
    let page := field v 64 55 / 2 ^ 16 * 2 ^ 16
    let no := v.testBit 64
    let s := { s with mgmt := { m with frplHead := (m.frplHead + 1) % 2 ^ 32 } }
    let s := replyRiser (replyEngines (replyContext s ctx page no) ctx page no) ctx page no
    .next (if repliesLeft s.mgmt = 0 then s else s.post .pageFaultReply [])

/-- PAGE_FAULT_REPLY_DOORBELL: system software writes FRPLTAIL, argument 0. -/
def execPageFaultReplyDoorbell (s : State) : Out :=
  let s := { s with mgmt := { s.mgmt with frplTail := s.arg 0 % 2 ^ 32 } }
  .next (if repliesLeft s.mgmt = 0 then s else s.post .pageFaultReply [])

/-- FREQHEAD_WRITE: system software writes FREQHEAD, argument 0; requests that wait for room are sent (R362). -/
def execFreqheadWrite (s : State) : Out := .next ({ s with mgmt := { s.mgmt with freqHead := s.arg 0 % 2 ^ 32 } }).send

/-! ## Saving and restoring (R365 to R367) -/

/-- The save of a front's context has met a fault, and waits for SAVERETRY (R367). -/
def saveFrozen (s : State) : Bool := s.saved.any fun v => v.frozen && v.ctx == s.t.ctx

/-- CONTEXT_SAVE: a front, arguments 0 and 1, whose context is to be saved, with the pages it has collected from
argument 3 on, once its products have completed. -/
def execContextSave (s : State) : Out :=
  let x := s.input
  onLive (fun s =>
    if s.t.wait ≠ some .contextSave ∨ saveFrozen s then s
    else if saveWaits s then s.post .contextSave x.n
    else saveContext s s.t.frozen (x.n.drop 3) false false) s

/-- Once no save of a task's launch stands frozen any more, cause and record pointer of its completion object are again what
Table 25-1 gives a launch that is pending (R391). -/
def reportSaved (s : State) (t : Task) : State :=
  if s.saved.any fun v => v.frozen && v.task.launch == t.launch then s
  else
    match s.launch t.launch with
    | none => s
    | some l => writeComp s l.fn l.record.comp 0x0C 4 (l.fault.getD (0, 0)).1

/-- SAVERETRY: the frozen save of context argument 0 is tried again from the start; a launch that its trap ends then
ends. -/
def execSaveretry (s : State) : Out :=
  match s.saved.find? fun v => v.frozen && v.ctx == s.arg 0 with
  | none => .next s
  | some v =>
    .next (onFront v.task.core v.task.front (fun s =>
      if s.t.wait ≠ some .contextSave ∨ s.t.ctx ≠ v.ctx then s
      else
        let ptr := frameOf s v.task
        let u := reportSaved (saveContext { s with t := v.task } v.task.frozen v.pages v.ended v.timed) v.task
        if u.t.wait = some .contextSave ∨ v.ended = false then u
        else endLaunch u v.task v.task.tcause.toNat v.task.tinfo.toNat ptr) s)

/-- CONTEXT_RESTORE: the ready context of argument 0 comes back to a free front of its core (R279, R366), unless Dusk has begun
(R412). -/
def execContextRestore (s : State) : Out :=
  match s.saved.find? fun v => v.ready && v.ctx == s.arg 0 with
  | none => .next s
  | some v =>
    .next (if !s.mgmt.dusk && (frontFree s v.task.core 0 || frontFree s v.task.core 1) && canRunOn s v.task.core (.back v) then
      placeOn s (.back v) v.task.core else s)

/-! ## Pre-emption (R364, R371) -/

/-- The wait of a front that is to leave goes on, or has run out (R364). -/
def leaveLater (s : State) : State :=
  if s.t.wait = some .preemption ∧ s.t.issued + 4096 ≤ s.cycle then s.post .preemptionDrainTimeout [s.t.core, s.t.front]
  else awaitLeave s

/-- The next word is a convoy's header, which the front still decodes, with its members (R138, R364). -/
def atHeader (s : State) : Bool :=
  s.t.wait.isNone && match fetch s s.t.pc with
    | .ok (w, _) => w % 128 == 0x7F
    | .error _ => false

/-- A free front stops at its next scalar-class word; its strip drains and its held commands fork, or the front waits for them;
then its context is saved with no entries (R364). -/
def leaveFront (s : State) : State :=
  if s.t.conv.isSome || atHeader s then s.post .preemption [s.t.core, s.t.front]
  else
    let r := drainClose s
    match r.2 with
    | none => if mayBeSaved r.1 then switchOut r.1 else leaveLater r.1
    | some (t, l) => if t.cause ≠ 0 then columnTrap r.1 t l else leaveLater r.1

/-- Every task of the current task's launch stands in a REALIGN with no product running. -/
def allAligned (s : State) : Bool :=
  (s.allTasks.filter fun t => t.launch == s.t.launch).all fun t =>
    t.wait == some .realign && !((s.coreAt t.core).cmds.any fun d => d.ofTask t.launch t.task && !d.done)

/-- A timed task is saved after its REALIGN with no entries (R371); its cycle is the first of the tick that ends it. Where the
REALIGN traps, that is what it does. -/
def saveAligned (s : State) : Except State State :=
  match restartPoint s ((tickAt s.t.issued + 1) * Config.tickCycles) id with
  | .done s => .ok (saveContext { s with t := { s.t with wait := none, cycle := (tickAt s.t.issued + 1) * Config.tickCycles,
                                                         tpc := s.t.pc, tvcp := s.t.pc } } [] [] false true)
  | a => .error (finishAct .realign a)

/-- The tasks of a domain saved one after another; the first trap that one of them meets takes the place of all that. -/
def saveDomain (k : Nat) : State → List Task → Except State State
  | s, [] => .ok s
  | s, t :: r =>
    match saveAligned (s.select t.front2) with
    | .error u => .error (u.select k)
    | .ok u => saveDomain k (u.select k) r

/-- The trap of a task whose REALIGN does not stand, before any is saved. -/
def trapAligned (s : State) (ts : List Task) : Option State :=
  ts.findSome? fun t =>
    match saveAligned (s.select t.front2) with
    | .error u => some (u.select s.t.front2)
    | .ok _ => none

/-- A timed domain leaves its fronts, all at once (R59, R371). -/
def leaveDomain (s : State) : State :=
  if allAligned s then
    let id := s.t.launch
    let ts := s.allTasks.filter fun t => t.launch == id
    match trapAligned s ts, saveDomain s.t.front2 s ts with
    | some u, _ => u
    | none, .error u => u
    | none, .ok s => { s with domains := s.domains.filter fun d => d.launch != id }
  else s.post .preemption [s.t.core, s.t.front]

/-- PREEMPTION: the dispatcher pre-empts the task of a front: a free task once its strip has drained, a timed domain at a
REALIGN. -/
def execPreemption (s : State) : Out :=
  onLive (fun s =>
    if s.t.inHandler || (s.t.wait != some .preemption && !mayLeave s.t) then s
    else if s.t.timed then leaveDomain s else leaveFront s) s

/-- PREEMPTION_DRAIN_TIMEOUT: a wait of 4,096 cycles runs out; strips older than the newest commit (R360), the newest is discarded
and its entries saved, with count 0 (R364). -/
def execPreemptionDrainTimeout (s : State) : Out :=
  onLive (fun s =>
    if s.t.wait ≠ some .preemption ∨ s.cycle < s.t.issued + 4096 then s
    else
      let r := commitOlder s
      match r.2 with
      | some (t, l) => if t.cause = 0 then r.1.post .preemptionDrainTimeout [s.t.core, s.t.front] else columnTrap r.1 t l
      | none =>
      let s := r.1
      let p := s.stripNow
      let cvs := (if s.t.strip.isSome then p.convoys else []) ++ s.t.queue
      let s := if s.t.strip.isSome then discardStrip s p else s
      let r := recallHeld s
      let s := r.1
      let cvs := r.2 ++ cvs
      let tvcp := match cvs with | [] => s.t.pc | cv :: _ => BitVec.ofNat 64 cv.hdr
      beginSave { s with t := { s.t with tpc := s.t.pc, tvcp := tvcp } } cvs [] false) s

/-! ## Waits (R62, R224, R225) -/

/-- A word that waits for a condition, tried again where it stands. -/
def retryWait (s : State) : Option Out :=
  match s.t.wait with
  | some (.acq a b) => some (execAcq a b s)
  | some (.segacq b) => some (execSegacq b s)
  | some (.waiteq a b c) => some (execWaiteq a b c s)
  | some (.waitge a b c) => some (execWaitge a b c s)
  | some (.waitt b) => some (execWaitt b s)
  | some (.waitev b) => some (execWaitev b s)
  | some (.bwait n) => some (execBwait n s)
  | _ => none

/-- WAIT_CONDITION_MET: the current front's waiting word resumes where its condition holds, and waits on where not. -/
def execWaitConditionMet (s : State) : Out := (retryWait s).getD (.next s)

end Sys2Proof.Machine
end

