-- ==== Sys2Proof/Machine/Loader.lean ====
section
/-! DEFINITION. The loader: Utset objects (R301 to R305), Ezbiac and the image cache (R307, R308), unloading (R306) and
forced unloading (R404). -/

namespace Sys2Proof.Machine

/-! ## A Utset object (R301) -/

/-- A section: kind, alignment log2, and its bytes. -/
structure Section where
  kind : Nat
  align : Nat
  bytes : List Byte
  deriving DecidableEq, Repr

/-- n bytes of an object from an offset; none where they do not all lie in it. -/
def slice (x : List Byte) (off n : Nat) : Option (List Byte) :=
  if off + n ≤ x.length then some ((x.drop off).take n) else none

/-- n bytes as a little-endian number. -/
def numAt (x : List Byte) (off n : Nat) : Nat := leNat ((x.drop off).take n)

/-- Section-table entry i. -/
def sectionAt (x : List Byte) (tableOff i : Nat) : Option Section := do
  let e ← slice x (tableOff + 32 * i) 32
  let kind := numAt e 0 1
  if 1 ≤ kind ∧ kind ≤ 6 ∧ numAt e 1 7 = 0 ∧ numAt e 0x19 7 = 0 then
    let b ← slice x (numAt e 8 8) (numAt e 0x10 8)
    some { kind := kind, align := numAt e 0x18 1, bytes := b }
  else none

/-- The sections of an object; none where its header or a section is malformed. -/
def sectionsOf (x : List Byte) : Option (List Section) :=
  if 64 ≤ x.length ∧ numAt x 0 4 = 0x4F535455 ∧ numAt x 4 2 = 1 ∧ numAt x 0x0F 1 = 0 ∧ numAt x 0x18 4 ≤ 1 ∧
      numAt x 0x1C 36 = 0 then
    (List.range (numAt x 6 2)).mapM fun i => sectionAt x (numAt x 0x10 8) i
  else none

/-- The bytes of the first section of a kind. -/
def sectionOf (ss : List Section) (kind : Nat) : List Byte := (ss.find? fun s => s.kind == kind).elim [] Section.bytes

/-- The alignment of the first section of a kind. -/
def alignOf (ss : List Section) (kind : Nat) : Nat := 2 ^ (ss.find? fun s => s.kind == kind).elim 0 Section.align

/-- The versions of Table 0-1: KB, KV, KM, KW, KX, KT. -/
def versions : List Nat := [1, 3, 2, 1, 1, 1]

/-- The declared versions, a KB byte of 0 declaring KB1 (R301). -/
def declared (x : List Byte) : List Nat :=
  (List.range 6).map fun i => if i = 0 ∧ numAt x 8 1 = 0 then 1 else numAt x (8 + i) 1

/-- NB version, a byte of 0 declaring NB4. -/
def nbVersion (x : List Byte) : Nat := if numAt x 0x0E 1 = 0 then 4 else numAt x 0x0E 1

/-- An object that Ezbiac re-encodes: a profile declared at an older version (R307). DESIGN CHOICE: an object that is older
only in its NB version, with every profile current, runs as it stands, as R307's last words on NB1 to NB3 have it; R2 says
that an object that declares any older version is re-encoded (notes/assumptions/35.md). -/
def older (x : List Byte) : Bool := ((declared x).zip versions).any fun p => p.1 != 0 && p.1 < p.2

/-- The object declares timed regions. -/
def hasTimed (x : List Byte) : Bool := numAt x 0x18 1 % 2 == 1

/-! ## Symbols and relocations (R302) -/

/-- A relocation. -/
structure Reloc where
  place : Nat
  sym : Nat
  sect : Nat
  kind : Nat
  addend : Int
  /-- Its 24 bytes. -/
  raw : List Byte
  deriving DecidableEq, Repr

/-- A symbol entry as it stands in an object. -/
structure RawSym where
  name : List Byte
  kind : Nat
  seg : Nat
  binding : Nat
  value : Nat
  size : Nat
  deriving DecidableEq, Repr

/-- The name at an offset of the strings section, up to a zero byte. -/
def nameAt (strings : List Byte) (off : Nat) : List Byte := (strings.drop off).takeWhile fun b => b != 0

/-- Symbol i of a symbols section; none where it is malformed. -/
def symAt (syms strings : List Byte) (i : Nat) : Option RawSym := do
  let e ← slice syms (32 * i) 32
  let s : RawSym := { name := nameAt strings (numAt e 0 4), kind := numAt e 4 1, seg := numAt e 5 1,
                      binding := numAt e 6 1, value := numAt e 8 8, size := numAt e 0x10 8 }
  if s.kind ≤ 1 ∧ s.seg ≤ 15 ∧ s.binding ≤ 2 ∧ numAt e 7 1 = 0 ∧ numAt e 0x18 8 = 0 ∧ numAt e 0 4 ≤ strings.length then some s
  else none

/-- Relocation i of a relocations section; none where it is malformed. -/
def relocAt (rs : List Byte) (i : Nat) : Option Reloc := do
  let e ← slice rs (24 * i) 24
  let r : Reloc := { place := numAt e 0 8, sym := numAt e 8 4, sect := numAt e 0xC 2, kind := numAt e 0xE 1,
                     addend := signed (numAt e 0x10 8) 64, raw := e }
  if 1 ≤ r.kind ∧ r.kind ≤ 6 ∧ numAt e 0xF 1 = 0 then some r else none

/-- An object, read. -/
structure Parsed where
  code : List Byte
  consts : List Byte
  map : List Byte
  syms : List RawSym
  relocs : List Reloc
  /-- The kinds of its sections, by index. -/
  kinds : List Nat
  /-- The alignments of its code and its constants, in bytes. -/
  codeAlign : Nat
  constAlign : Nat
  deriving DecidableEq, Repr

/-- A relocation's place lies in the section that its kind patches. -/
def Parsed.placed (p : Parsed) (r : Reloc) : Bool :=
  if r.kind = 5 then (p.kinds[r.sect]?.getD 0) == 2 && r.place + 8 ≤ p.consts.length
  else (p.kinds[r.sect]?.getD 0) == 1 && r.place % 4 == 0 && r.place + 4 ≤ p.code.length

/-- The parts of an object; none where a section is malformed. -/
def parse (x : List Byte) : Option Parsed := do
  let ss ← sectionsOf x
  let syms := sectionOf ss 4
  let rels := sectionOf ss 5
  if syms.length % 32 ≠ 0 ∨ rels.length % 24 ≠ 0 ∨ (sectionOf ss 1).length % 4 ≠ 0 then none
  else do
    let sy ← (List.range (syms.length / 32)).mapM fun i => symAt syms (sectionOf ss 6) i
    let rs ← (List.range (rels.length / 24)).mapM fun i => relocAt rels i
    let p : Parsed := { code := sectionOf ss 1, consts := sectionOf ss 2, map := sectionOf ss 3, syms := sy, relocs := rs,
                        kinds := ss.map Section.kind, codeAlign := Nat.max 4 (alignOf ss 1), constAlign := alignOf ss 2 }
    if rs.all p.placed then some p else none

/-! ## Timed regions (R54, R58) -/

/-- A word that no timed region may hold. -/
def bannedWord (w : Nat) : Bool :=
  match decode w with
  | .ok (.istream ..) | .ok (.txsub ..) | .ok (.launch ..) => true
  | _ => false

/-- A region of the code holds such a word. -/
def bannedIn (code : List Byte) (r : Nat × Nat) : Bool :=
  (List.range ((r.2 - r.1) / 4)).any fun k => bannedWord (numAt code (r.1 + 4 * k) 4)

/-- Words that a timed front runs in one cycle each, that store nothing and write no lane register: the arithmetic, the loads
and the pointer words of OPC 0x01 to 0x13, 0x2A and 0x2B. -/
def quietWord (w : Nat) : Bool :=
  match decode w with
  | .ok _ => decide (1 ≤ w % 128 ∧ w % 128 ≤ 0x13) || decide (0x2A ≤ w % 128 ∧ w % 128 ≤ 0x2B)
  | .error _ => false

/-- Words after which a front may go on elsewhere: branches, jumps, loop ends, traps. -/
def leavingWord (w : Nat) : Bool := decide (0x18 ≤ w % 128 ∧ w % 128 ≤ 0x21) || decide (0x27 ≤ w % 128 ∧ w % 128 ≤ 0x28)

/-- A word that ends an interval in a pass: REALIGN and WAITT, in the first pass RPOINT too (R58). -/
def restartWord (second : Bool) (w : Nat) : Bool :=
  match decode w with
  | .ok .realign | .ok (.waitt _) => true
  | .ok .rpoint => !second
  | _ => false

/-- A restart point that comes within a tick of its issue: REALIGN, and in the first pass RPOINT. -/
def nearRestart (second : Bool) (w : Nat) : Bool :=
  restartWord second w && !(match decode w with | .ok (.waitt _) => true | _ => false)

/-- The words of a region cut after each restart point: first offset and words of each interval. -/
def intervals (second : Bool) : Nat → Nat → List Nat → List Nat → List (Nat × List Nat)
  | first, _, acc, [] => [(first, acc)]
  | first, off, acc, w :: r =>
    if restartWord second w then (first, acc ++ [w]) :: intervals second (off + 4) (off + 4) [] r
    else intervals second first (off + 4) (acc ++ [w]) r

/-- The cycles of 64 domain ticks. -/
def intervalCycles : Nat := 64 * Config.tickCycles

/-- A branch or jump at word k of n that only ever goes on, to a later word of the same n. -/
def forwardWord (n k w : Nat) : Bool :=
  let on (off : Int) : Bool := decide (0 < off ∧ (k : Int) + off < n)
  match decode w with
  | .ok (.beq _ _ i) | .ok (.bne _ _ i) | .ok (.blt _ _ i) | .ok (.bge _ _ i) | .ok (.blts _ _ i) | .ok (.bges _ _ i) => on i.toInt
  | .ok (.j i) => on i.toInt
  | _ => false

/-- A convoy's header, and a vector word that stores nothing and acts on no segment, queue, strip or mailbox. -/
def lanesWord (w : Nat) : Bool :=
  match decode w with
  | .ok (.convoyHeader ..) => true
  | .ok (.vst ..) | .ok (.vsts ..) | .ok (.vstx ..) => false
  | .ok _ => decide (0x30 ≤ w % 128 ∧ w % 128 ≤ 0x3C) || decide (0x3F ≤ w % 128 ∧ w % 128 ≤ 0x42)
  | .error _ => false

/-- The lane registers that a word may write, at the longest vector there is. -/
def mayWrite (w : Nat) : List LReg :=
  match decode w with
  | .ok i =>
    let e : Entry := { instr := i, hdr := 0, modes := { vl := 4096 }, count := 0, gb := 0, gc := 0, plan := 0 }
    let own := match i with | .vcompress _ a _ _ => [a.val] | _ => []
    (own ++ (vecWrites i e State.reset).1).map LReg.v ++ (maskWrites i e).map LReg.m
  | .error _ => []

/-- Shadow entries that the words of an interval can cost at most: each register is shadowed once (R47, R57). -/
def mostShadows (ws : List Nat) : Nat := ((ws.flatMap mayWrite).eraseDups.map LReg.cost).sum

/-- Cycles that a front may need for one word of an interval that holds only such words, at most: in a timed domain no word
waits (R53). -/
def mostCycles : Nat := 32

/-- Every word of an interval issues at most once, within the interval, and stores nothing. -/
def bounded (second : Bool) (ws : List Nat) : Bool :=
  ws.zipIdx.all fun x => quietWord x.1 || lanesWord x.1 || forwardWord ws.length x.2 x.1 ||
    x.2 + 1 == ws.length && nearRestart second x.1

/-- An interval keeps the four limits of R58. One of more words than 64 ticks have cycles, with no way out of its order, spans
more. One whose words run at most once each and store nothing defers no byte and replaces no extent: it passes where its
shadows cannot exceed 32 entries and its words end in time. What the words do not decide (a store, whose bytes may be the
device's or replace an extent, and the extents a launch leaves free; a backward branch, a loop, a call) is a free value
(notes/assumptions/11.md). -/
def intervalPasses (code : List Byte) (second : Bool) (v : Nat × List Nat) : Bool :=
  let ws := v.2
  if intervalCycles < ws.length ∧ !(ws.any leavingWord) then false
  else if bounded second ws ∧ mostShadows ws ≤ 32 ∧ mostCycles * ws.length + Config.tickCycles ≤ intervalCycles then true
  else Config.intervalsPass code (v.1, ws.length) second

/-- Every interval of a region passes. -/
def intervalsPass (code : List Byte) (r : Nat × Nat) (second : Bool) : Bool :=
  (intervals second r.1 r.1 [] ((List.range ((r.2 - r.1) / 4)).map fun k => numAt code (r.1 + 4 * k) 4)).all
    (intervalPasses code second)

/-! ## Binding (R304) -/

/-- A symbol entry defines its name in the object: a code symbol, or a symbol of the constants, whose bytes lie in its
section; a symbol of another segment. -/
def Parsed.defines (p : Parsed) (s : RawSym) : Bool :=
  if s.kind = 0 then s.value + s.size ≤ p.code.length && s.value < p.code.length
  else if s.seg = 15 then s.value + s.size ≤ p.consts.length
  else true

/-- The content hash of a symbol: SHA-512 over its bytes and the relocations placed within them; a symbol of a segment other
than 15 has none of either in the object. -/
def Parsed.hash (p : Parsed) (s : RawSym) : List Byte :=
  let body := if s.kind = 0 then p.code else if s.seg = 15 then p.consts else []
  let sect := if s.kind = 0 then 1 else 2
  let within := p.relocs.filter fun r =>
    (s.kind == 0 || s.seg == 15) && (p.kinds[r.sect]?.getD 0) == sect && s.value ≤ r.place && r.place < s.value + s.size
  sha512 (((body.drop s.value).take s.size) ++ within.flatMap Reloc.raw)

/-- The definition of a name in a function's context. -/
def contextSym (s : State) (fn : Nat) (name : List Byte) : Option Sym :=
  s.syms.find? fun y => y.name == name && (s.objs.any fun o => o.handle == y.obj && o.fn == fn)

/-- What a global or weak definition of a new object comes to: it stands, it gives way to the context's, or it clashes. -/
inductive Clash where
  | stands | yields | refused
  deriving DecidableEq, Repr

/-- R304 for one definition. -/
def Parsed.clash (p : Parsed) (s : State) (fn : Nat) (y : RawSym) : Clash :=
  match contextSym s fn y.name with
  | none => .stands
  | some o =>
    if o.hash = p.hash y then .yields
    else if y.binding = 2 then .yields
    else if o.weak then .stands
    else .refused

/-- Where a symbol leads: value, address for a code symbol, and the object that defines it if it is another. -/
structure Bound where
  value : Nat
  addr : Nat
  obj : Option Nat
  deriving DecidableEq, Repr

/-- The binding of symbol entry y of the object being loaded at a code base; `at_` maps an offset of its code to its
image. -/
def Parsed.bind (p : Parsed) (s : State) (fn codeBase : Nat) (at_ : Nat → Nat) (y : RawSym) : Option Bound :=
  let own : Bound := { value := y.value, addr := codeBase + at_ y.value, obj := none }
  let theirs := (contextSym s fn y.name).map fun o =>
    { value := o.value, addr := (s.objs.find? fun q => q.handle == o.obj).elim 0 (·.codeAddr o.value), obj := some o.obj : Bound }
  if p.defines y then
    if y.binding ≠ 0 ∧ p.clash s fn y = .yields then theirs else some own
  else theirs

/-! ## Relocating (Table 8-4, Table 17-8) -/

/-- Access size of a load or store word. -/
def accessSize (w : Nat) : Option Nat :=
  match decode w with
  | .ok (.ldB ..) | .ok (.ldBs ..) | .ok (.stB ..) => some 1
  | .ok (.ldH ..) | .ok (.ldHs ..) | .ok (.stH ..) => some 2
  | .ok (.ldW ..) | .ok (.ldWs ..) | .ok (.stW ..) => some 4
  | .ok (.ldD ..) | .ok (.stD ..) => some 8
  | _ => none

/-- An integer lies in the range of n signed bits. -/
def fits (v : Int) (n : Nat) : Bool := -((2 ^ (n - 1) : Nat) : Int) ≤ v && v < ((2 ^ (n - 1) : Nat) : Int)

/-- The word w at an address, patched by a relocation of a kind; none where the value is out of range. -/
def patchWord (kind w place : Nat) (b : Bound) (addend : Int) : Option Nat :=
  let v : Int := b.value + addend
  match kind with
  | 1 => if fits v 11 then some (splice w 21 11 (wrap v 11)) else none
  | 2 =>
    match accessSize w with
    | none => none
    | some n => if v % n = 0 ∧ fits (v / n) 11 then some (splice w 21 11 (wrap (v / n) 11)) else none
  | 3 => if 0 ≤ v ∧ v < 2 ^ 36 then some (splice w 14 18 (v.toNat / 2 ^ 18)) else none
  | 4 => if 0 ≤ v ∧ v < 2 ^ 36 then some (splice w 14 18 v.toNat) else none
  | _ =>
    let d : Int := (b.addr : Int) - (place : Int) + addend
    if d % 4 = 0 ∧ fits (d / 4) 25 then some (splice w 7 25 (wrap (d / 4) 25)) else none

/-- Code and constants while they are relocated, as numbers, and the objects referred to. -/
structure Image where
  code : Nat
  consts : Nat
  refs : List Nat
  deriving DecidableEq, Repr

/-- One relocation; the load status where it fails. -/
def relocate (p : Parsed) (s : State) (fn codeBase : Nat) (at_ : Nat → Nat) (m : Image) (r : Reloc) : Except Nat Image :=
  match (p.syms[r.sym]?).bind (p.bind s fn codeBase at_) with
  | none => .error 4
  | some b =>
    let m := { m with refs := (b.obj.toList ++ m.refs).eraseDups }
    if r.kind = 5 then .ok { m with consts := splice m.consts (8 * r.place) 64 (wrap (b.value + r.addend) 64) }
    else
      let q := at_ r.place
      match patchWord r.kind (field m.code (8 * q) 32) (codeBase + q) b r.addend with
      | none => .error 5
      | some w => .ok { m with code := splice m.code (8 * q) 32 w }

/-! ## The image cache (R308) -/

/-- The key of an object's translated image. -/
def imageKey (s : State) (code : List Byte) (nb : Nat) : List Byte :=
  sha512 (code ++ bytesOf 4 s.trust.translator ++ bytesOf 8 s.trust.features ++ bytesOf 4 s.trust.microcode ++ bytesOf 1 nb)

/-- The code to run, and the cache with it: of an older object its image, cached or translated now. -/
def imageOf (s : State) (x code : List Byte) : List Byte × State :=
  if older x then
    let key := imageKey s code (nbVersion x)
    match s.images.find? fun i => i.1 == key with
    | some i => (i.2, s)
    | none => (Config.ezbiac code, { s with images := (key, Config.ezbiac code) :: s.images })
  else (code, s)

/-! ## Loading (R305) -/

/-- n bytes at a virtual address of a function, written by the loader into memory that is mapped. -/
def loaderPut (s : State) (fn va : Nat) (bytes : List Byte) : Option State :=
  let v := leNat bytes
  (linesOf va bytes.length).foldlM (fun (s : State) q =>
    (vaToPa s fn q.1).map fun x => { s with mem := Memory.write s.mem x.1 q.2 (v / 2 ^ (8 * (q.1 - va))) }) s

/-- The statuses that a header gives before any section is read. -/
def headerStatus (x : List Byte) : Option Nat :=
  if (sectionsOf x).isNone then some 8
  else if ((declared x).zip versions).any fun p => p.2 < p.1 then some 1
  else if 4 < nbVersion x then some 2
  else if hasTimed x && numAt x 0x0D 1 == 0 then some 8
  else none

/-- The timed regions an object declares. -/
def regionsOf (x : List Byte) (p : Parsed) : List (Nat × Nat) := if hasTimed x then Config.timedRanges p.map else []

/-- The statuses that a parsed object's timed regions and definitions give. -/
def contentStatus (s : State) (fn : Nat) (x : List Byte) (p : Parsed) : Option Nat :=
  let rs := regionsOf x p
  if rs.any (bannedIn p.code) then some 7
  else if rs.any fun r => !intervalsPass p.code r false then some 6
  else if p.syms.any fun y => y.binding != 0 && p.defines y && p.clash s fn y == .refused then some 3
  else none

/-- The symbols that a loaded object adds: its global and weak definitions that stand. -/
def Parsed.added (p : Parsed) (s : State) (fn handle : Nat) : List Sym :=
  (p.syms.filter fun y => y.binding != 0 && p.defines y && p.clash s fn y == .stands).map fun y =>
    { name := y.name, kind := y.kind, seg := y.seg, weak := y.binding == 2, value := y.value, size := y.size,
      hash := p.hash y, obj := handle }

/-- An object loaded: relocated, written, entered with a handle; the status where it is refused. -/
def loadParsed (s : State) (fn codeBase constBase : Nat) (x : List Byte) (p : Parsed) : Except Nat (Option State) :=
  let img := imageOf s x p.code
  let at_ (o : Nat) : Nat := if older x then Config.ezbiacMap p.code o else o
  let m0 : Image := { code := leNat img.1, consts := leNat p.consts, refs := [] }
  match p.relocs.foldlM (relocate p s fn codeBase at_) m0 with
  | .error k => .error k
  | .ok m =>
    let h := s.nextHandle
    let o : Obj :=
      { handle := h, fn := fn, codeBase := codeBase, codeSize := img.1.length, constBase := constBase,
        constSize := p.consts.length, refs := m.refs, timed := hasTimed x, virt := if older x then p.code else [],
        coreOnly := (regionsOf x p).any fun r => !intervalsPass p.code r true }
    let new := p.added s fn h
    .ok (do
      let u ← loaderPut img.2 fn codeBase (bytesOf img.1.length m.code)
      let u ← loaderPut u fn constBase (bytesOf p.consts.length m.consts)
      some { u with objs := o :: u.objs, syms := new ++ u.syms, nextHandle := h + 1, loadStatus := 0 })

/-- CODE_OBJECT_LOAD: the bytes of the event are loaded for function argument 0, its code at virtual address argument 1
and its constants at argument 2, at the alignments that its section table gives. A refused object leaves its status and nothing
else; memory that is not mapped or not so aligned leaves everything as it was, and so do Dusk (R412) and the want of firmware that
verifies (R416). -/
def execCodeObjectLoad (s : State) : Out :=
  let x := s.input.bytes
  let fn := s.arg 0
  let refuse (k : Nat) : Out := .next { s with loadStatus := k }
  if s.mgmt.dusk || !s.trust.verified then .next s else
  match headerStatus x with
  | some k => refuse k
  | none =>
    match parse x with
    | none => refuse 8
    | some p =>
      match contentStatus s fn x p with
      | some k => refuse k
      | none =>
        if s.arg 1 % p.codeAlign ≠ 0 ∨ s.arg 2 % p.constAlign ≠ 0 then .next s
        else match loadParsed s fn (s.arg 1) (s.arg 2) x p with
        | .error k => refuse k
        | .ok none => .next s
        | .ok (some u) => .next u

/-! ## Unloading (R306, R404) -/

/-- A launch refers to an object: its own, or one that references reach (R404). -/
def refersTo (s : State) (launch handle : Nat) : Bool := (s.launch launch).any fun l => (objectsOf s l).contains handle

/-- A running task or a saved frame refers to an object; for a forced unload, a forked command not complete. -/
def inUse (s : State) (o : Obj) : Bool :=
  (s.allTasks.any fun t => refersTo s t.launch o.handle) ||
  (if o.forced then s.launches.any fun l => refersTo s l.id o.handle && (cmdsOf s l.id).any fun d => !d.done
   else s.saved.any fun v => refersTo s v.task.launch o.handle)

/-- An object is gone, its symbols with it. -/
def removeObj (s : State) (handle : Nat) : State :=
  { s with objs := s.objs.filter fun o => o.handle != handle, syms := s.syms.filter fun y => y.obj != handle }

/-- Object o of a handle changes. -/
def changeObj (s : State) (handle : Nat) (f : Obj → Obj) : State :=
  { s with objs := s.objs.map fun o => if o.handle = handle then f o else o }

/-- CODE_OBJECT_UNLOAD: the unload of object argument 0 completes once nothing refers to it, and waits until then. -/
def execCodeObjectUnload (s : State) : Out :=
  let h := s.arg 0
  match s.objs.find? fun o => o.handle == h with
  | none => .next s
  | some o =>
    .next (if inUse s o then (changeObj s h fun o => { o with unloading := true }).post .codeObjectUnload [h] else removeObj s h)

/-- Queued records that name the handle are refused with code 3 (R404, Table 25-6). -/
def refuseQueued (s : State) (o : Obj) : State :=
  (s.candidates.filter fun c => c.fn == o.fn && (recOf c.bytes).handle == o.handle).foldl
    (fun s c => turnAway (dropCandidate s c) c 4 3 8) s

/-- A launch that refers to the object ends with cause 0x17: with record pointer 0 where one of its frames is saved or
none of its tasks runs, else by the trap of a running task, its others stopping at once. -/
def endForUnload (handle : Nat) (s : State) (l : Launch) : State :=
  let run := s.allTasks.find? fun t => t.launch == l.id
  let kept := s.saved.find? fun v => v.task.launch == l.id
  let drop (s : State) : State := { s with saved := s.saved.filter fun v => v.task.launch != l.id }
  match if kept.isSome then none else run with
  | some t => endTask359 { cause := 0x17, info := handle } s t
  | none => drop (endLaunch s (kept.elim { launch := l.id, core := l.domCore } Saved.task) 0x17 handle 0)

/-- FORCED_UNLOAD: queued records refused, launches that refer to object argument 0 ended; the unload completes when
their forked commands have (R404). -/
def execForcedUnload (s : State) : Out :=
  let h := s.arg 0
  match s.objs.find? fun o => o.handle == h with
  | none => .next s
  | some o =>
    let ls := s.launches.filter fun l => !l.stopped && !l.final && refersTo s l.id h
    let s := ls.foldl (endForUnload h) (refuseQueued s o)
    .next ((changeObj s h fun o => { o with unloading := true, forced := true }).post .codeObjectUnload [h])

end Sys2Proof.Machine
end

