-- ==== Sys2Proof/Machine/HostPort.lean ====
section
/-! DEFINITION. The host's side of the package: queues and doorbells (R273, R325, R326, R403), register writes and reads
(R10, R327, Tables 19-1, 19-4, 19-5, 21-2, 27-1), invalidations (R299), reduction engines (R333), time (R329, R330), and
attestation (R417). -/

namespace Sys2Proof.Machine

/-! ## Queues (R326, R403) -/

/-- Functions that own queues (R325). -/
def ownsQueues (fn : Nat) : Bool := 1 ≤ fn && fn ≤ 512

/-- Host queue q of a function. -/
def Func.queue (f : Func) (q : Nat) : HostQ := (f.queues.find? fun x => x.q == q).getD { q := q }

/-- Host queue x.q of a function becomes x. -/
def Func.setQueue (f : Func) (x : HostQ) : Func := { f with queues := x :: f.queues.filter fun y => y.q != x.q }

/-- Entry n of a ring of `size`-byte entries, whose base register holds the base and the size's logarithm. -/
def ringEntry (s : State) (fn reg n size : Nat) : Option Nat :=
  devRead s fn (reg / 64 * 64 % 2 ^ 55 + size * (n % 2 ^ (reg % 16))) size

/-- A record that cannot be read is consumed with an event of its own (R403). -/
def unreadable (s : State) (fn q ptr : Nat) : State :=
  let s := blackBox s 0 10 0 0xFFFF ptr (fn + q * 2 ^ 16)
  let f := s.func fn
  s.setFunc { f with recread := f.recread + 1 }

/-- One entry of a host queue is taken: an entry of 0 is skipped, a record is read and joins its queue. -/
def takeEntry (s : State) (fn q entry : Nat) : State :=
  if entry = 0 then s
  else if entry % 64 ≠ 0 then unreadable s fn q entry
  else
    match devRead s fn entry 1024 with
    | none => unreadable s fn q entry
    | some v => offer s { queue := 32 * (fn - 1) + q, fn := fn, bytes := bytesOf 1024 v }

/-- n entries of a host queue are taken in order, QHEAD rising with each. -/
def takeQueued (fn q : Nat) : Nat → State → State
  | 0, s => s
  | n + 1, s =>
    let f := s.func fn
    let x := f.queue q
    let s := s.setFunc (f.setQueue { x with head := (x.head + 1) % 2 ^ 32 })
    let s := match ringEntry s fn x.base x.head 8 with
      | none => unreadable s fn q 0
      | some e => takeEntry s fn q e
    takeQueued fn q n s

/-- HOST_QUEUE_DOORBELL: the host writes QTAIL of function argument 0, queue argument 1, argument 2; the device takes the
new entries, unless Dusk has begun (R412). -/
def execHostQueueDoorbell (s : State) : Out :=
  let fn := s.arg 0
  let q := s.arg 1 % 32
  if !ownsQueues fn || !s.trust.verified then .next s
  else
    let tail := s.arg 2 % 2 ^ 32
    let f := s.func fn
    let x := f.queue q
    let s := s.setFunc (f.setQueue { x with tail := tail })
    .next (if s.mgmt.dusk then s else takeQueued fn q ((tail + 2 ^ 32 - x.head) % 2 ^ 32) s)

/-! ## Invalidations (R299, R326) -/

/-- n requests of an administrative ring are taken in order (Table 17-6). -/
def takeRequests (fn : Nat) : Nat → State → State
  | 0, s => s
  | n + 1, s =>
    let f := s.func fn
    let v := (ringEntry s fn f.admBase f.admHead 32).getD 0
    let s := s.setFunc { f with admHead := (f.admHead + 1) % 2 ^ 16 }
    let s := { s with invalidations := s.invalidations ++ [(fn, field v 0 64, field v 64 64, field v 128 64)] }
    takeRequests fn n (s.post .invalidationComplete [])

/-- ADMIN_DOORBELL: the host writes ADMTAIL of function argument 0, argument 1. -/
def execAdminDoorbell (s : State) : Out :=
  let fn := s.arg 0
  let tail := s.arg 1 % 2 ^ 16
  if 512 < fn || !s.trust.verified then .next s
  else
    let f := s.func fn
    let s := s.setFunc { f with admTail := tail }
    .next (if s.mgmt.dusk then s else takeRequests fn ((tail + 2 ^ 16 - f.admHead) % 2 ^ 16) s)

/-- A TLB without the entries of a function that cover a page of a range; 0 pages mean the whole address space. -/
def dropRange (fn va pages : Nat) (l : List TlbEntry) : List TlbEntry :=
  l.filter fun e => !(e.fn == fn && (pages == 0 || overlaps e.va e.size va (pages * 2 ^ 16)))

/-- No TLB of the package holds the range. -/
def invalidate (s : State) (fn va pages : Nat) : State :=
  let f (c : Core) : Core := { c with tlb := dropRange fn va pages c.tlb, ladleTlb := dropRange fn va pages c.ladleTlb }
  { s with c := f s.c, cores := s.cores.map f,
           dies := s.dies.map fun d => { d with tlb := dropRange fn va pages d.tlb } }

/-- A task's stores to device memory that have not landed. -/
def Task.holdsStores (t : Task) : Bool :=
  let dev (w : Store) : Bool := decide (w.place < chip)
  t.deferred.any dev || t.engineLate.any dev || t.strip.any fun p => p.stores.any dev

/-- INVALIDATION_COMPLETE: no TLB holds the range of the oldest request; once every access of its function made through
such an entry has been performed, the completion word takes 1. -/
def execInvalidationComplete (s : State) : Out :=
  match s.invalidations with
  | [] => .next s
  | (fn, va, pages, word) :: r =>
    let s := invalidate s fn va pages
    let dev (w : Store) : Bool := decide (w.place < chip)
    let ended := s.domains.any fun d => (s.launch d.launch).any (fun l => l.fn == fn) && d.held.any dev
    if ended || (s.t :: s.tasks).any fun t => t.fn == fn && t.holdsStores then .next (s.post .invalidationComplete [])
    else .next { s with invalidations := r, mem := Memory.write s.mem word 8 1 }

/-! ## Register writes (R10) -/

/-- The bits of mask from v, the others of old. -/
def mask (old m v : Nat) : Nat := mergeBits old m v

/-- Ring-base registers hold bits 54:6 and 3:0. -/
def ringMask : Nat := 2 ^ 55 - 64 + 15

/-- A register of Table 19-1 that has no behaviour of its own takes its fields. -/
def writeFuncReg (s : State) (fn off v : Nat) : State :=
  let f := s.func fn
  if off = 0 then s.setFunc { f with ptroot := mask 0 ((2 ^ 37 - 1) * 2 ^ 16 + 1) v }
  else if off = 8 then s.setFunc { f with admBase := mask 0 ringMask v }
  else if 0x100 ≤ off ∧ off < 0x300 ∧ off % 16 = 0 ∧ ownsQueues fn then
    s.setFunc (f.setQueue { f.queue ((off - 0x100) / 16) with base := mask 0 ringMask v })
  else s

/-- The event that a write to a doorbell of Table 19-1 is. -/
def funcDoorbell (fn off v : Nat) : Option (Instr × List Nat) :=
  if off = 0x10 then some (.adminDoorbell, [fn, v])
  else if 0x1000 ≤ off ∧ off < 0x1100 ∧ off % 8 = 0 then some (.hostQueueDoorbell, [fn, (off - 0x1000) / 8, v])
  else none

/-- A register of Table 19-4 or Table 21-2 takes its fields, but for what a doorbell of it does: of ATTCTL the STATUS, since
GO reads 1 until its report is written; of DUSK both bits, the start of Dusk being an event. -/
def writeMgmtReg (s : State) (off v : Nat) : State :=
  let m := s.mgmt
  let die (k : Nat) (f : Die → Die) : State := s.setDie (Fin.ofNat 8 k) (f s.dies[Fin.ofNat 8 k])
  if off = 0 then { s with mgmt := { m with attStatus := v / 2 ^ 8 % 2 ^ 8 } }
  else if off = 0x300 then { s with mgmt := { m with dusk := m.dusk && v.testBit 0, duskDone := v.testBit 1 } }
  else if off = 8 then { s with mgmt := { m with attBuf := mask 0 (2 ^ 55 - 64) v } }
  else if 0x10 ≤ off ∧ off < 0x30 ∧ off % 8 = 0 then
    { s with mgmt := { m with attNonce := m.attNonce.take (off - 0x10) ++ bytesOf 8 v ++ m.attNonce.drop (off - 8) } }
  else if off = 0x100 then { s with mgmt := { m with freqBase := mask 0 ringMask v } }
  else if off = 0x118 then { s with mgmt := { m with frplBase := mask 0 ringMask v } }
  else if 0x400 ≤ off ∧ off < 0x1000 then { s with mgmt := { m with image := Memory.write m.image off 8 v } }
  else if 0x1000 ≤ off ∧ off < 0x1080 then
    if off % 16 = 0 then die ((off - 0x1000) / 16) fun d => { d with redBase := v % 2 ^ 55 }
    else if off % 16 = 8 then die ((off - 0x1000) / 16) fun d => { d with redShift := v % 64 }
    else s
  else s

/-- The event that a write to a register of the MGMT window is. -/
def mgmtDoorbell (s : State) (off v : Nat) : Option (Instr × List Nat) :=
  if off = 0 then (if v % 2 = 1 ∧ !s.mgmt.attGo then some (.attestation, []) else none)
  else if off = 0x110 then some (.freqheadWrite, [v])
  else if off = 0x120 then some (.pageFaultReplyDoorbell, [v])
  else if off = 0x130 then some (.saveretry, [v])
  else if off = 0x300 then (if v % 2 = 1 ∧ !s.mgmt.dusk then some (.dusk, []) else none)
  else if 0x1000 ≤ off ∧ off < 0x1080 ∧ off % 16 = 8 ∧ 2 ^ 63 ≤ v then some (.reductionClear, [(off - 0x1000) / 16])
  else none

/-- ATTCTL.GO starts an attestation: it reads 1, and STATUS busy, until the report is written. -/
def startAttestation (s : State) (off v : Nat) : State :=
  if off = 0 ∧ v % 2 = 1 ∧ !s.mgmt.attGo then { s with mgmt := { s.mgmt with attGo := true, attStatus := 1 } } else s

/-- HOST_REGISTER_WRITE: the host writes the doubleword of argument 2 at offset argument 1 of BAR 0 of function argument 0;
a register with a behaviour of its own makes that event due. With no verified firmware only the image window takes
writes (R416). -/
def execHostRegisterWrite (s : State) : Out :=
  let fn := s.arg 0
  let off := s.arg 1
  let v := s.arg 2 % 2 ^ 64
  if 512 < fn then .next s
  else if fn = 0 ∧ 0x8000 ≤ off then
    let o := off - 0x8000
    if s.trust.verified = false ∧ (o < 0x400 ∨ 0x1000 ≤ o) then .next s
    else
      let due := mgmtDoorbell s o v
      let u := startAttestation (writeMgmtReg s o v) o v
      .next (due.elim u fun e => u.post e.1 e.2)
  else if s.trust.verified = false then .next s
  else .next ((funcDoorbell fn off v).elim (writeFuncReg s fn off v) fun e => s.post e.1 e.2)

/-! ## Register reads -/

/-- Doubleword k of a black-box entry (Table 27-1). -/
def BoxEntry.dword (e : BoxEntry) : Nat → Nat
  | 0 => e.time % 2 ^ 64
  | 1 => e.seq % 2 ^ 32 + e.kind % 2 ^ 8 * 2 ^ 32 + e.port % 2 ^ 8 * 2 ^ 40 + e.core % 2 ^ 16 * 2 ^ 48
  | 2 => e.detail % 2 ^ 64
  | _ => e.ctx % 2 ^ 64

/-- Doubleword k of a reduction bin (Table 19-5). -/
def Bin.dword (b : Bin) (k : Nat) : Nat :=
  ([b.count, b.cycles, b.arith, b.memory, b.dross, b.throttled, b.sat] ++ b.byReason.toList).getD k 0 % 2 ^ 64

/-- The MGMT window as the host reads it (Tables 19-4, 21-2). -/
def readMgmt (s : State) (off : Nat) : Nat :=
  let m := s.mgmt
  let die (k : Nat) : Die := s.dies[Fin.ofNat 8 k]
  if off = 0 then m.attGo.toNat + m.attStatus * 2 ^ 8
  else if off = 8 then m.attBuf
  else if 0x10 ≤ off ∧ off < 0x30 then numAt m.attNonce (off - 0x10) 8
  else if off = 0x100 then m.freqBase
  else if off = 0x108 then m.freqTail
  else if off = 0x118 then m.frplBase
  else if off = 0x128 then m.frplHead
  else if 0x200 ≤ off ∧ off < 0x240 then (die ((off - 0x200) / 8)).bbseq % 2 ^ 64
  else if off = 0x300 then m.dusk.toNat + m.duskDone.toNat * 2
  else if 0x1000 ≤ off ∧ off < 0x1080 then
    let d := die ((off - 0x1000) / 16)
    if off % 16 = 0 then d.redBase else d.redShift
  else if 0x1100 ≤ off ∧ off < 0x1180 then
    let d := die ((off - 0x1100) / 16)
    (if off % 16 = 0 then d.corrected else d.uncorrected) % 2 ^ 64
  else if 0x1200 ≤ off ∧ off < 0x1300 then
    let p := s.ports[Fin.ofNat 16 ((off - 0x1200) / 16)]
    (if off % 16 = 0 then p.resent else p.failures) % 2 ^ 64
  else if 0x1400 ≤ off ∧ off < 0x1800 then (die ((off - 0x1400) / 128)).eccLoc.getD ((off - 0x1400) % 128 / 8) 0
  else if off = 0x1800 then m.rampViol % 2 ^ 64
  else if off = 0x1808 then m.peakEst % 2 ^ 64
  else if 0x1810 ≤ off ∧ off < 0x1850 then (die ((off - 0x1810) / 8)).runmiss % 2 ^ 64
  else if 0x1850 ≤ off ∧ off < 0x1890 then (die ((off - 0x1850) / 8)).split % 2 ^ 64
  else if 0x2000 ≤ off ∧ off < 0x2000 + 64 * 288 then
    let k := (s.coreAt ((off - 0x2000) / 64)).counters
    [k.drosscyc, k.thrcyc, k.rampwait, k.starts, k.estsum, k.tlbsplit].getD (off % 64 / 8) 0 % 2 ^ 64
  else if 0x6800 ≤ off ∧ off < 0x6800 + 8 * 513 then (s.func ((off - 0x6800) / 8)).recread % 2 ^ 64
  else if 0x10000 ≤ off ∧ off < 0x90000 then
    let d := die ((off - 0x10000) / 0x10000)
    (((d.box.find? fun e => e.seq % 2048 == off % 0x10000 / 32)).map fun e => e.dword (off % 32 / 8)).getD 0
  else if 0x100000 ≤ off ∧ off < 0x500000 then
    let d := die ((off - 0x100000) / 0x80000)
    let n := off % 0x80000 / 128
    (((d.bins.find? fun b => b.n == n)).map fun b => b.dword (off % 128 / 8)).getD 0
  else 0

/-- An offset of a function's BAR 0 is exposed: with no verified firmware the image window of function 0 alone (R416). -/
def exposed (s : State) (fn off : Nat) : Bool := s.trust.verified || fn == 0 && decide (0x8400 ≤ off ∧ off < 0x9000)

/-- The doubleword that the host reads at an offset of BAR 0 of a function; WO registers and offsets of no register read as
zero (R10, R325). -/
def hostRead (s : State) (fn off : Nat) : Nat :=
  let f := s.func fn
  if exposed s fn off = false then 0
  else if fn = 0 ∧ 0x8000 ≤ off then readMgmt s (off - 0x8000)
  else if off = 0 then f.ptroot
  else if off = 8 then f.admBase
  else if off = 0x18 then f.admHead
  else if off = 0x20 then f.ptmDev
  else if off = 0x28 then f.ptmHost
  else if 0x100 ≤ off ∧ off < 0x300 ∧ ownsQueues fn then
    let q := f.queue ((off - 0x100) / 16)
    if off % 16 = 0 then q.base else q.head
  else 0

/-! ## Reduction engines (R333) -/

/-- REDUCTION_CLEAR: every bin of die argument 0 is zeroed. -/
def execReductionClear (s : State) : Out :=
  let d := Fin.ofNat 8 (s.arg 0)
  .next (s.setDie d { s.dies[d] with bins := [] })

/-! ## TIME (R329, R330) -/

/-- The cycle of the front furthest behind: no TIME before it is read any more. -/
def leastCycle (s : State) : Nat := (s.allTasks.map Task.cycle).foldl Nat.min s.cycle

/-- The values of TIME back to the one that holds on a cycle. -/
def timeSince (n : Nat) : List (Nat × Nat × Nat) → List (Nat × Nat × Nat)
  | [] => []
  | p :: r => if p.2.1 ≤ n then [p] else p :: timeSince n r

/-- TIME goes on from here at another rate, at most 200 parts per million off (R329), and earlier cycles keep theirs; `rate` in
millionths, 0 for no change. -/
def slewTo (s : State) (rate : Nat) : State :=
  if rate = 0 then s
  else { s with timePast := timeSince (leastCycle s) ((s.timeBase, s.timeCycle, s.slew) :: s.timePast),
                timeBase := timeAt s s.cycle, timeCycle := s.cycle, slew := Nat.min 1000200 (Nat.max 999800 rate) }

/-- PTM_EXCHANGE: a Precision Time Measurement exchange of function argument 0 latches TIME and the host's time, argument
1; firmware disciplines TIME, argument 2 its rate. -/
def execPtmExchange (s : State) : Out :=
  let fn := s.arg 0
  if 512 < fn ∨ s.trust.verified = false then .next s
  else .next (slewTo (s.setFunc { s.func fn with ptmDev := timeAt s s.cycle % 2 ^ 64, ptmHost := s.arg 1 % 2 ^ 64 }) (s.arg 2))

/-- PTP_EVENT_MESSAGE: an event message is timestamped at a port; firmware's protocol gives the skew bound, argument 1, no
more than 640 while every package is synchronised (R330) and its ticks in phase with the fabric's (R406), and disciplines
TIME, argument 2 its rate. -/
def execPtpEventMessage (s : State) : Out :=
  let skew := if s.arg 1 ≤ 640 ∧ inPhase (timeAt s (s.slot * Config.tickCycles)) (s.arg 1) then s.arg 1 else 0xFFFFFFFF
  .next (slewTo { s with tskew := BitVec.ofNat 32 skew } (s.arg 2))

/-! ## Attestation (R417) -/

/-- The report up to its signature (Table 19-6). -/
def reportHead (s : State) : List Byte :=
  s.mgmt.attNonce.take 32 ++ sha512 s.trust.image ++ bytesOf 4 s.trust.microcode ++ bytesOf 4 s.trust.translator ++
    bytesOf 8 s.trust.features ++ bytesOf 4 s.trust.rollback ++ bytesOf 12 0

/-- ATTESTATION: a started request is answered: the report is written and signed under the identity key, or, with an unreadable
one, status 2 is returned. A buffer that cannot be written leaves the request busy. -/
def execAttestation (s : State) : Out :=
  let m := s.mgmt
  if m.attGo = false then .next s
  else if s.trust.keyReadable = false then .next { s with mgmt := { m with attGo := false, attStatus := 2 } }
  else
    let h := reportHead s
    match devWrite s 0 m.attBuf 256 (leNat (h ++ edSign s.trust.identityKey h)) with
    | .error _ => .next s
    | .ok s => .next { s with mgmt := { m with attGo := false, attStatus := 0 } }

end Sys2Proof.Machine
end

