-- ==== Sys2Proof/Machine/MatrixWords.lean ====
section
/-! DEFINITION. Tile and matrix words (chapter 10): each is decoded into its convoy (R40, R137); what it does when its convoy runs is its
effect in Convoy.effectOf. -/

namespace Sys2Proof.Machine

/-- Grants matrix sizes at decode and sets SHAPE and gA. (R200) -/
def execMshape (a : GReg) (b : GReg) (s : State) : Out := vecWord (.mshape a b) s

/-- Converts vector elements into tile rows. (R208) -/
def execTmvr (a : TReg) (rc : Fin 8) (b : VReg) (c : GReg) (s : State) : Out := vecWord (.tmvr a rc b c) s

/-- Reads tile columns into a vector, converting. (R209) -/
def execTmvc (a : VReg) (b : TReg) (rc : Fin 8) (c : GReg) (s : State) : Out := vecWord (.tmvc a b rc c) s

/-- Copies raw tile rows with their side-array rows. (R210) -/
def execTmvrr (a : TReg) (b : TReg) (c : GReg) (s : State) : Out := vecWord (.tmvrr a b c) s

/-- Zeroes all rows and the side array of a tile. (R211) -/
def execTzero (a : TReg) (s : State) : Out := vecWord (.tzero a) s

/-- Loads tile rows, metadata and scales from memory with an optional tag check. (R212) -/
def execTld (a : TReg) (b : GReg) (c : GReg) (s : State) : Out := vecWord (.tld a b c) s

/-- Stores tile rows in the TLD layout. (R213) -/
def execTst (a : TReg) (b : GReg) (s : State) : Out := vecWord (.tst a b) s

/-- Adds the product of tile A and B-store operand into the accumulator group. (R204) -/
def execMma (a : AReg) (b : TReg) (c : GReg) (s : State) : Out := vecWord (.mma a b c) s

/-- Asynchronous MMA run as an engine command in a batch. (R207) -/
def execMmaA (a : AReg) (n : Batch) (b : TReg) (c : GReg) (s : State) : Out := vecWord (.mmaA a n b c) s

/-- Sparse matrix product with compressed A. (R205) -/
def execMmas (a : AReg) (b : TReg) (c : GReg) (s : State) : Out := vecWord (.mmas a b c) s

/-- Asynchronous sparse product run as an engine command. (R207) -/
def execMmasA (a : AReg) (n : Batch) (b : TReg) (c : GReg) (s : State) : Out := vecWord (.mmasA a n b c) s

/-- Zeroes the accumulator group under SHAPE. (R214) -/
def execAzero (a : AReg) (s : State) : Out := vecWord (.azero a) s

/-- Converts one accumulator row into a vector register. (R216) -/
def execAmv (a : VReg) (b : GReg) (ty : Fin 16) (rc : Fin 8) (s : State) : Out := vecWord (.amv a b ty rc) s

/-- Loads accumulators of the group whole from memory. (R214) -/
def execAld (a : AReg) (b : GReg) (s : State) : Out := vecWord (.ald a b) s

/-- Stores accumulators of the group whole. (R214) -/
def execAst (a : AReg) (b : GReg) (s : State) : Out := vecWord (.ast a b) s

/-- Fills the core's B-store from memory in the slice layout. (R217) -/
def execBld (b : GReg) (c : GReg) (s : State) : Out := vecWord (.bld b c) s

/-- Quantises vector elements into tile rows with scales. (R218) -/
def execVquant (a : TReg) (b : VReg) (c : GReg) (s : State) : Out := vecWord (.vquant a b c) s

/-- Loads the permutation table and KPERM.LEN. (R219) -/
def execMperm (b : VReg) (s : State) : Out := vecWord (.mperm b) s

/-- Writes CODEBK entries from a vector. (R220) -/
def execMcode (b : VReg) (s : State) : Out := vecWord (.mcode b) s

end Sys2Proof.Machine
end

