-- ==== Sys2Proof/Machine/Recovery.lean ====
section
/-! DEFINITION. Links and failed packages (R386, R410, R411), memory errors (R388, R389), Dusk (R412), Dawn, warm reset and
the loss of power (R334, R413, R416). -/

namespace Sys2Proof.Machine

/-! ## Links (R328, R386, R410, R411) -/

/-- Port p becomes x. -/
def State.setPort (s : State) (p : Fin 16) (x : Port) : State := { s with ports := s.ports.set p.val x p.isLt }

/-- A package is within reach: by a port that is up, or by a route over other packages. -/
def wayTo (s : State) (pkg : Nat) : Bool :=
  (s.ports.toList.any fun x => x.peer == pkg && x.up) || (s.hops.any fun h => h.1 == pkg && h.2 != 1)

/-- A port leads to a package, and neither a port that is up nor a route does any more. -/
def cutOff (s : State) (pkg : Nat) : Bool := (s.ports.toList.any fun x => x.peer == pkg) && !wayTo s pkg

/-- One route as firmware installs it: a package and the links on the way; no links withdraw the route (R328, R410). -/
def State.installRoute (s : State) (r : Nat × Nat) : State :=
  let others := s.hops.filter fun h => h.1 != r.1
  if r.2 = 0 then { s with hops := others }
  else { s with hops := r :: others, noRoute := s.noRoute.filter (· != r.1), unrouted := s.unrouted.filter (·.1 != r.1) }

/-- Pairs of a package and its links, as an event brings them. -/
def routesOf : List Nat → List (Nat × Nat)
  | k :: l :: r => (k, l) :: routesOf r
  | _ => []

/-- Packages to which the routes just installed leave no way are without a route from here (R411). -/
def State.noteUnrouted (s : State) (pkgs : List Nat) : State :=
  pkgs.foldl (fun s k => if wayTo s k || k == s.package || (s.unrouted.any fun x => x.1 == k) then s
    else { s with unrouted := (k, s.cycle) :: s.unrouted }) s

/-- A package is declared failed: vector 0 is raised, and an event names it (R411). -/
def packageFailed (s : State) (port pkg : Nat) : State :=
  if s.failed.contains pkg then s
  else blackBox { s with failed := pkg :: s.failed, mgmt := { s.mgmt with msix := true } } 0 12 port 0xFFFF pkg 0

/-- Bytes of a flit land at a physical address. -/
def landFlit (s : State) (f : Nat × Nat × Nat) : State := if f.2.1 = 0 then s else putPlace s f.1 f.2.1 f.2.2

/-- LINK_PORT_FAILURE: port argument 0 is marked down and logged, and the routes that avoid it, the other arguments in pairs
(routesOf), are installed, in place of a direct one to its peer. What its replay buffer holds takes the new route, each flit
once; a package that no port and no route leads to any more is declared failed, and then they are lost. -/
def execLinkPortFailure (s : State) : Out :=
  let p := Fin.ofNat 16 (s.arg 0)
  let x := s.ports[p]
  if x.up = false then .next s
  else
    let s := s.setPort p { x with up := false, failures := x.failures + 1, tries := 0, replay := [] }
    let s := blackBox s 0 6 p.val 0xFFFF 0 0
    let routes := routesOf (s.input.n.drop 1)
    let s := { s with hops := s.hops.filter fun h => h.1 != x.peer || h.2 != 1 }
    let s := (routes.foldl State.installRoute s).noteUnrouted (x.peer :: routes.map Prod.fst)
    .next (if cutOff s x.peer then packageFailed s p.val x.peer else x.replay.foldl landFlit s)

/-- The flit of a link event: its bytes and the physical address, argument 2. -/
def flitOf (s : State) : Nat × Nat × Nat := (s.arg 2, Nat.min 256 s.input.bytes.length, leNat (s.input.bytes.take 256))

/-- LINK_FLIT_RECEIVE: a flit arrives on port argument 0; argument 1 is 0 where its CRC fails, and then it stays in the replay
buffer and is sent again, a ninth failure failing the port. A flit that passes leaves the buffer, and its bytes stand at the
physical address of argument 2: in this package those of a peer's store; in another package's memory, what stands there
from now on for this package's reads. -/
def execLinkFlitReceive (s : State) : Out :=
  let p := Fin.ofNat 16 (s.arg 0)
  let x := s.ports[p]
  if x.up = false then .next s
  else if s.arg 1 = 0 then
    if 8 ≤ x.tries then .next (s.post .linkPortFailure [p.val])
    else .next (s.setPort p { x with tries := x.tries + 1, resent := x.resent + 1, replay := [flitOf s] })
  else .next (landFlit (s.setPort p { x with tries := 0, replay := [] }) (flitOf s))

/-- LINK_HEARTBEAT: firmware exchanges a heartbeat on port argument 0, whose peer is package argument 1, and sets the routes
that the other arguments bring in pairs (routesOf). -/
def execLinkHeartbeat (s : State) : Out :=
  let p := Fin.ofNat 16 (s.arg 0)
  let routes := routesOf (s.input.n.drop 2)
  let s := s.setPort p { s.ports[p] with beat := s.cycle, peer := s.arg 1 }
  .next ((routes.foldl State.installRoute s).noteUnrouted (routes.map Prod.fst))

/-- Cycles of a millisecond. -/
def millisecond : Nat := 1700000

/-- HEARTBEAT_TIMEOUT: the peer's heartbeat on port argument 0 has been missing for 1 ms, and the port fails (R410). -/
def execHeartbeatTimeout (s : State) : Out :=
  let p := Fin.ofNat 16 (s.arg 0)
  let x := s.ports[p]
  .next (if x.up ∧ x.beat + millisecond ≤ s.cycle then s.post .linkPortFailure [p.val] else s)

/-- No route to a package has existed for 10 ms. -/
def routeLost (s : State) (pkg : Nat) : Bool := s.unrouted.any fun x => x.1 == pkg && x.2 + 10 * millisecond ≤ s.cycle

/-- ROUTE_TIMEOUT: where no route to package argument 0 has existed for 10 ms, accesses to it complete as uncorrectable errors
(R411). -/
def execRouteTimeout (s : State) : Out :=
  let pkg := s.arg 0
  .next (if routeLost s pkg && !s.noRoute.contains pkg then { s with noRoute := pkg :: s.noRoute } else s)

/-! ## Errors (R388, R389) -/

/-- ECCLOC's form of a place (Table 19-4). -/
def eccForm (p : Nat) : Nat := if p < chip then p % 2 ^ 53 else 2 ^ 63 + (p - chip) % 2 ^ 40

/-- MEMORY_SCRUB: the scrub of die argument 0 finds an error at a place, argument 1: uncorrectable where argument 2 is
not 0, and then the unit is bad until a write of it whole; corrected otherwise. -/
def execMemoryScrub (s : State) : Out :=
  let k := Fin.ofNat 8 (s.arg 0)
  let p := s.arg 1
  let d := s.dies[k]
  if s.arg 2 = 0 then
    .next (s.setDie k { d with corrected := d.corrected + 1, eccLoc := (eccForm p :: d.eccLoc).take 16 })
  else
    let s := s.setDie k { d with uncorrected := d.uncorrected + 1 }
    let s := blackBox s k 7 0 0xFFFF (trapDetail 0x15 (errorInfo p)) 0
    let u := errorUnit p
    .next { s with bad := if s.bad.contains u then s.bad else u :: s.bad }

/-! ## Dusk (R412) -/

/-- DUSK: no function takes further entries, no task is placed, and every loaded object is force-unloaded. -/
def execDusk (s : State) : Out :=
  let s := { s with mgmt := { s.mgmt with dusk := true, duskDone := false } }
  .next ((s.objs.foldl (fun s o => s.post .forcedUnload [o.handle]) s).post .duskdone [])

/-- Nothing is left to wait for: no task, no command, no object. -/
def quiet (s : State) : Bool :=
  s.allTasks == [] && s.objs == [] && (s.allCores.all fun c => c.cmds.all Cmd.done)

/-- DUSKDONE: once engines and buffered stores have drained, an event is written and DUSKDONE set. -/
def execDuskdone (s : State) : Out :=
  if s.mgmt.dusk = false ∨ s.mgmt.duskDone then .next s
  else if quiet s = false then .next (s.post .duskdone [])
  else
    let s := blackBox s 0 8 0 0xFFFF 0 0
    .next { s with mgmt := { s.mgmt with duskDone := true } }

/-! ## Dawn (R334, R413, R416) -/

/-- The firmware image that is to run: the one written to the image window, else the one that ran. -/
def nextImage (s : State) : List Byte :=
  if s.mgmt.image = [] then s.trust.image else (List.range 0xC00).map fun i => Memory.byte s.mgmt.image (0x400 + i)

/-- What firmware brings with it. The bytes are the image's signature under the fused public key. Arguments: 0 TIME from the
host, 1 nothing, 2 the image's rollback counter, 3 microcode revision, 4 translator version, 5 feature vector, 6 the start step in sixteenths of a
watt, 0 for the default (R284), from 7 on the governor's weights (R282). An image whose signature fails, or whose rollback counter lies below the fused one, does not run. -/
def bootTrust (s : State) : Trust :=
  if edVerify s.trust.publicKey (nextImage s) s.input.bytes ∧ s.trust.fused ≤ s.arg 2 then
    { s.trust with verified := true, image := nextImage s, rollback := s.arg 2, microcode := s.arg 3, translator := s.arg 4,
                   features := s.arg 5 }
  else { s.trust with verified := false }

/-- Cached images survive only while translator, features and microcode stay (R308). -/
def keptImages (old new : Trust) (l : List (List Byte × List Byte)) : List (List Byte × List Byte) :=
  if old.translator = new.translator ∧ old.features = new.features ∧ old.microcode = new.microcode then l else []

/-- The governor's weights: 16 for the operand formats of the matrix array, then those of the arithmetic, matrix, memory and
transfer columns, of bytes moved, of the Ladle's bytes and of dross (R282). -/
def weightsOf (l : List Nat) : Work :=
  { matrix := Vector.ofFn fun k => l.getD k.val 0, arith := l.getD 16 0, wide := l.getD 17 0, mem := l.getD 18 0,
    xfer := l.getD 19 0, bytes := l.getD 20 0, ladle := l.getD 21 0, dross := l.getD 22 0 }

/-- A die after Dawn keeps its black-box ring. -/
def Die.dawn (d : Die) : Die := { box := d.box, bbseq := d.bbseq }

/-- The package after Dawn: as State.reset, with device memory, the black-box rings, the image cache, the fuses and its
number kept, TIME and the governor's weights loaded, and an event of kind 9. -/
def dawn (s : State) : State :=
  let tr := bootTrust s
  let u : State :=
    { State.reset with
      mem := s.mem, bad := s.bad.filter fun b => b < chip, dies := s.dies.map Die.dawn, package := s.package, trust := tr,
      images := keptImages s.trust tr s.images, timeBase := s.arg 0, nextHandle := s.nextHandle, nextLaunch := s.nextLaunch,
      startStep := if s.arg 6 = 0 then 192 else s.arg 6, plan := s.plan, free := s.free,
      weights := weightsOf (s.input.n.drop 7),
      mgmt := { State.reset.mgmt with image := if tr.verified then [] else s.mgmt.image } }
  blackBox u 0 9 0 0xFFFF (if tr.verified then 0 else 1) 0

/-- DAWN: the package powers up. -/
def execDawn (s : State) : Out := .next (dawn { s with power := true })

/-- WARM_RESET: Dawn runs again and the black-box rings stay. -/
def execWarmReset (s : State) : Out := .next (dawn s)

/-- POWER_LOSS: everything but the fuses is lost, the black-box rings too (R413). -/
def execPowerLoss (s : State) : Out :=
  .next { State.reset with power := false, package := s.package, plan := s.plan, free := s.free,
                           trust := { fused := s.trust.fused, keyReadable := s.trust.keyReadable, publicKey := s.trust.publicKey,
                                      identityKey := s.trust.identityKey } }

end Sys2Proof.Machine
end

