-- ==== Sys2Proof/Machine/RiserWords.lean ====
section
/-! DEFINITION. Reversible words (chapter 12): each is decoded into its convoy (R40, R137); what it does when its convoy runs is its
effect in Convoy.effectOf. -/

namespace Sys2Proof.Machine

/-- Reversible multiply that pushes a riser record of the loss. (R250) -/
def execRmul (m : Bool) (a : VReg) (b : VReg) (c : VReg) (s : State) : Out := vecWord (.rmul m a b c) s

/-- Reversible fused multiply-add that pushes a riser record. (R250) -/
def execRfma (m : Bool) (a : VReg) (b : VReg) (c : VReg) (s : State) : Out := vecWord (.rfma m a b c) s

/-- Reversible right shift that pushes the shifted-out bits. (R250) -/
def execRshr (m : Bool) (a : VReg) (b : VReg) (c : GReg) (s : State) : Out := vecWord (.rshr m a b c) s

/-- Reversible leaky ReLU that pushes the loss. (R250) -/
def execRlrelu (m : Bool) (a : VReg) (b : VReg) (c : GReg) (s : State) : Out := vecWord (.rlrelu m a b c) s

/-- Reversible scaling by 2^n that pushes the loss. (R250) -/
def execRscale (m : Bool) (a : VReg) (b : VReg) (c : GReg) (s : State) : Out := vecWord (.rscale m a b c) s

/-- Reversible narrowing conversion that pushes the remainder. (R250) -/
def execRcvt (m : Bool) (a : VReg) (b : VReg) (ty : Fin 16) (rc : Fin 8) (s : State) : Out := vecWord (.rcvt m a b ty rc) s

/-- Undoes RMUL from the top riser record and pops it. (R251) -/
def execUmul (m : Bool) (a : VReg) (b : VReg) (c : VReg) (s : State) : Out := vecWord (.umul m a b c) s

/-- Undoes RFMA from the top riser record. (R251) -/
def execUfma (m : Bool) (a : VReg) (b : VReg) (c : VReg) (s : State) : Out := vecWord (.ufma m a b c) s

/-- Undoes RSHR from the top riser record. (R251) -/
def execUshr (m : Bool) (a : VReg) (b : VReg) (c : GReg) (s : State) : Out := vecWord (.ushr m a b c) s

/-- Undoes RLRELU from the top riser record. (R251) -/
def execUlrelu (m : Bool) (a : VReg) (b : VReg) (c : GReg) (s : State) : Out := vecWord (.ulrelu m a b c) s

/-- Undoes RSCALE from the top riser record. (R251) -/
def execUscale (m : Bool) (a : VReg) (b : VReg) (c : GReg) (s : State) : Out := vecWord (.uscale m a b c) s

/-- Undoes RCVT from the top riser record. (R251) -/
def execUcvt (m : Bool) (a : VReg) (b : VReg) (ty : Fin 16) (s : State) : Out := vecWord (.ucvt m a b ty) s

/-- Writes the riser depth D into gA. (R256) -/
def execRsdepth (a : GReg) (s : State) : Out := vecWord (.rsdepth a) s

/-- Pushes a marker record on the riser stack. (R256) -/
def execRsmark (s : State) : Out := vecWord .rsmark s

/-- Pops every record above the topmost marker and the marker. (R256) -/
def execRsdrop (s : State) : Out := vecWord .rsdrop s

/-- Completes when no spill or fill is in flight. (R256) -/
def execRssync (s : State) : Out := vecWord .rssync s

end Sys2Proof.Machine
end

