-- ==== Sys2Proof/Machine/Scratch.lean ====
section
/-! DEFINITION. The scratchpad words (R244, R245). -/

namespace Sys2Proof.Machine

/-- The tile that gB names, its access checked (R244): core and tile number. An address outside space 0 is cause 0x01
kind 5, behind its alignment (R337). -/
def tileAccess (i : Instr) (b : GReg) (k : Access) (s : State) (f : State → Core → Tile → Act) : Act :=
  let ptr := (s.g b).toNat
  let g := s.t.segs[ptrSeg ptr]
  let x := formed s.actor g (ptrOff ptr)
  if x % 4096 ≠ 0 then .trap s { cause := 0x11, info := memForm (ptrSeg ptr).val (ptrOff ptr) }
  else if g.desc.onChip = false ∨ mapSpace (x - chip) ≠ 0 then .trap s (illegal i 5 b.val)
  else
    match checkAccess s s.actor ptr 4096 4096 k with
    | .error t => .trap s t
    | .ok (place, s) => inOrder s k.writes (s.g b) 4096 place fun s =>
      let c := s.coreAt (mapNum (place - chip))
      f s c (c.tileAt (mapOff (place - chip) / 4096))

/-- TFREE [gB]: the tile becomes all zero with tag 0; in a timed domain its extents go at the restart point (R57). -/
def execTfree (b : GReg) (s : State) : Out :=
  scalarWord (.tfree b) (fun s => settled s [] [b] fun s => tileAccess (.tfree b) b .wr s fun s c t =>
    let first := chipPlace c.num 0 (4096 * t.n)
    let was : Store := { place := first, len := 4096, val := 0, hdr := s.t.pc.toNat, core := s.c.num, cycle := s.t.cycle }
    let s := if s.t.timed then (s.notePasts s.t.launch [was]).noteTag s.t.launch s.c.num s.t.cycle c.num t.n else s
    let s := { s with bad := s.bad.filter fun b => !unitWithin first 4096 b }
    let c' := (c.setTile { n := t.n, bytes := 0, tag := 0, checked := false })
    .done ((s.setCore (s.holdFor.elim c' fun l => c'.hold l t)).stall (tileLatency s first)).seq) s

/-- SPTAG [gB], gC: the tag becomes gC[15:0], the checked bit is cleared. The tile is written anew, in extents taken before
its own are released: cause 0x10 where they are not free (R381). -/
def execSptag (b c : GReg) (s : State) : Out :=
  scalarWord (.sptag b c) (fun s => settled s [] [b, c] fun s => tileAccess (.sptag b c) b .wr s fun s k t =>
    if k.freeExtents < t.cost then .trap s { cause := 0x10, info := fullInfo t.cost k.num t.n }
    else
      let s := if s.t.timed then s.noteTag s.t.launch s.c.num s.t.cycle k.num t.n else s
      let k' := k.setTile { t with tag := BitVec.ofNat 16 (s.g c).toNat, checked := false }
      .done (s.setCore (s.holdFor.elim k' fun l => k'.hold l t)).seq) s

/-- What SPSIZE writes: cost, stored sectors, free extents, tag, checked bit. -/
def sizeWord (c : Core) (t : Tile) : Nat :=
  t.cost + storedSectors t.bytes * 2 ^ 8 + c.freeExtents * 2 ^ 16 + t.tag.toNat * 2 ^ 32 + t.checked.toNat * 2 ^ 48

/-- SPSIZE gA, [gB]: the tag and checked bit as the task's domain sees them (R118). -/
def execSpsize (a b : GReg) (s : State) : Out :=
  scalarWord (.spsize a b) (fun s => settled s [a] [b] fun s => tileAccess (.spsize a b) b .rd s fun s c t =>
    let v := sizeWord c (s.tileSeen s.t.cycle c.num t)
    .done ((s.stall (tileLatency s (chipPlace c.num 0 (4096 * t.n)))).setG a (BitVec.ofNat 64 v)).seq) s

end Sys2Proof.Machine
end

