-- ==== Sys2Proof/Machine/Timed.lean ====
section
/-! DEFINITION. Timed domains: rollback to the restart point and resumption (R368 to R371). -/

namespace Sys2Proof.Machine

/-! ## Rollback (R368) -/

/-- What a core returns to: the lane registers, permutation table, tiles, batches and commands of its copy; its TLBs,
B-store, counters and governor state stay, and so does what belongs to other launches. -/
def Core.rolledBack (c old : Core) (launch : Nat) : Core :=
  { old with
    bstore := c.bstore, tlb := c.tlb, ladleTlb := c.ladleTlb, counters := c.counters, throttle := c.throttle, work := c.work,
    loads := c.loads,
    activity := c.activity, estimate := c.estimate, estimate0 := c.estimate0, dross := c.dross, admitted := c.admitted,
    waited := c.waited, waitedTo := c.waitedTo, nextCmd := c.nextCmd,
    heldExtents := c.heldExtents.filter fun h => h.1 != launch, heldTiles := c.heldTiles.filter fun h => h.1 != launch,
    cmds := (c.cmds.filter fun d => d.launch != launch) ++ old.cmds.filter fun d => d.launch == launch }

/-- The tiles of a core outside the domain that its tasks have changed since the restart point are as they were (R368). -/
def Core.returnTiles (c : Core) (launch : Nat) : Core :=
  (c.heldTiles.filter fun h => h.1 == launch).foldl (fun c h => c.setTile h.2) c

/-- What a task returns to; it stays stopped until its domain resumes. The groups that its
uncommitted strips took stand in their queues again (R193). What its trap wrote into TCAUSE, TINFO and TVCP stays (R354); TPC is one of the RW control registers that come from the copy. -/
def Task.rolledBack (t old : Task) : Task :=
  { old with tcause := t.tcause, tinfo := t.tinfo, tvcp := t.tvcp, owed := [], wait := some .timedRollback }

/-- A task that has ended since the restart point runs again: its launch counts it, and its frame is its own. -/
def revive (s : State) (old : Task) : State :=
  match s.launch old.launch with
  | none => s
  | some l =>
    let frames := l.frames.filter fun f => f.1 != old.frame
    let s := s.setLaunch { l with ended := l.ended - 1, frames := frames ++ [(old.frame, old.task)] }
    let s := writeComp s l.fn l.record.comp 0 8 (l.ended - 1)
    s.setTask { old with wait := some .timedRollback }

/-- Every core and task of a domain back at the restart point, its ended tasks among them. -/
def restoreDomain (s : State) (d : Domain) : State :=
  let s := (s.allTasks.filter fun t => t.launch == d.launch).foldl (fun s t => s.giveBack t.groupsTaken) (s.dropPasts d.launch)
  let s : State := { s with c := s.c.returnTiles d.launch, cores := s.cores.map fun c => c.returnTiles d.launch }
  let s := d.coreCopies.foldl (fun s old => s.setCore ((s.coreAt old.num).rolledBack old d.launch)) (s.dropExtents d.launch)
  let here (t : Task) : Bool := (s.taskAt t.core t.front).any fun u => u.launch == d.launch
  let s := d.tasks.foldl (fun s old =>
    if here old then s.setTask ((s.rawTask old.core old.front).rolledBack old) else revive s old) s
  { s with waiters := s.waiters.filter fun w => w.2.1 != d.launch,
           arrivals := s.arrivals.filter fun w => w.2.1 != d.launch,
           domains := s.domains.map fun x => if x.launch = d.launch then { x with held := [] } else x }

/-- The task whose trap a domain goes back for: the one stopped by it, else the least. -/
def trappedTask (s : State) (launch : Nat) : Option Task :=
  let ts := s.allTasks.filter fun t => t.launch == launch
  (ts.find? fun t => t.wait == some .timedRollback).or (leastBy Task.task ts)

/-- A second timing trap or schedule fault before the next restart point ends the launch (R370). -/
def endTimed (s : State) (launch cause info : Nat) : State :=
  match trappedTask s launch with
  | none => endLaunch s { launch := launch, core := (s.launch launch).elim 0 Launch.domCore } cause info 0
  | some t =>
    (s.setTask { t with tcause := BitVec.ofNat 8 cause, tinfo := BitVec.ofNat 64 info, wait := some .launchEndByTrap,
                        frozen := t.frozen ++ t.queue, queue := [], conv := none }).post .launchEndByTrap [t.core, t.front]

/-- TIMED_ROLLBACK: the launch of argument 0 has met a timing trap or schedule fault, cause argument 1 and TINFO
argument 2; its domain goes back to its restart point, or, the second time, ends. -/
def execTimedRollback (s : State) : Out :=
  let id := s.arg 0
  match s.launch id, s.domains.find? fun d => d.launch == id with
  | some l, some d =>
    if l.stopped || s.allTasks.any (fun t => t.launch == id && t.wait == some .launchEndByTrap) then .next s
    else if l.rolled then .next (endTimed s id (s.arg 1) (s.arg 2))
    else .next ((restoreDomain (s.setLaunch { l with rolled := true }) d).post .timedResume [id])
  | _, _ => .next s

/-! ## Resuming (R370, R371) -/

/-- A command's cycles moved by a number of cycles. -/
def Cmd.shift (d : Cmd) (k : Nat) : Cmd := { d with start := d.start + k, finish := d.finish + k }

/-- A task's cycles moved, and with them those on which the results it waits for stand ready. -/
def Task.shift (t : Task) (k : Nat) : Task :=
  { t with cycle := t.cycle + k, origin := t.origin + k, wait := none, late := t.late.map fun x => { x with ready := x.ready + k },
           strip := t.strip.map fun (p : Strip) => { p with opened := p.opened + k } }

/-- The whole number of ticks, in cycles, that takes a cycle past the present. -/
def ticksPast (s : State) (cycle : Nat) : Nat := (s.cycle / Config.tickCycles + 1 - cycle / Config.tickCycles) * Config.tickCycles

/-- A launch's commands on every core moved. -/
def shiftCmds (s : State) (launch k : Nat) : State :=
  let f (c : Core) : Core := { c with cmds := c.cmds.map fun d => if d.launch = launch then d.shift k else d }
  { s with c := f s.c, cores := s.cores.map f }

/-- A rolled-back domain goes on from its restart point, its copies with it. -/
def resumeDomain (s : State) (d : Domain) : State :=
  let k := ticksPast s d.restart
  let s := shiftCmds s d.launch k
  let s := (s.allTasks.filter fun t => t.launch == d.launch && t.wait == some .timedRollback).foldl
    (fun s t => s.setTask (t.shift k)) s
  let move (c : Core) : Core := { c with cmds := c.cmds.map fun e => if e.launch = d.launch then e.shift k else e }
  let d' := { d with restart := d.restart + k, tasks := d.tasks.map fun t => t.shift k, coreCopies := d.coreCopies.map move }
  { s with domains := s.domains.map fun x => if x.launch = d.launch then d' else x }

/-- One task of a domain saved at a REALIGN comes back to its front on the first cycle of a tick, its timing origin moved. -/
def placeAligned (k : Nat) (s : State) (v : Saved) : State :=
  onFront v.task.core v.task.front (fun s =>
    let u := restoreContext s v v.task.front
    let u := { u with t := { u.t with cycle := v.task.cycle + k, origin := v.task.origin + k, wait := none } }
    copyDomain u u.t) s

/-- A domain saved at a REALIGN comes back to its fronts on a common tick (R371). -/
def resumeAligned (s : State) (l : Launch) (vs : List Saved) : State :=
  let cores := unitCores l.record.domain (l.domCore / Nat.max 1 (domainCores l.record.domain))
  if cores.all fun n => frontFree s n 0 && frontFree s n 1 then
    let s := { s with domains := s.domains ++ [({ launch := l.id, cores := cores, tasks := [], coreCopies := [], restart := 0 } : Domain)] }
    vs.foldl (placeAligned (ticksPast s ((vs.map fun v => v.task.cycle).headD 0))) s
  else s

/-- TIMED_RESUME: the domain of launch argument 0 goes on, on a later domain tick, unless Dusk has begun (R412). -/
def execTimedResume (s : State) : Out :=
  let id := s.arg 0
  match s.launch id with
  | none => .next s
  | some l =>
    if l.stopped || s.mgmt.dusk then .next s
    else
      match s.domains.find? fun d => d.launch == id with
      | some d => .next (if s.allTasks.any fun t => t.launch == id && t.wait == some .timedRollback then resumeDomain s d else s)
      | none =>
        match s.saved.filter fun v => v.timed && v.task.launch == id with
        | [] => .next s
        | vs => .next (resumeAligned s l vs)

end Sys2Proof.Machine
end

