-- ==== Sys2Proof/Machine/VecWords.lean ====
section
/-! DEFINITION. Vector words (chapter 9): each is decoded into its convoy (R40, R137); what it does when its convoy runs is its
effect in Convoy.effectOf. -/

namespace Sys2Proof.Machine

/-- Element-wise integer add. (R176) -/
def execVadd (m : Bool) (a : VReg) (b : VReg) (c : VReg) (s : State) : Out := vecWord (.vadd m a b c) s

/-- Element-wise integer subtract. (R176) -/
def execVsub (m : Bool) (a : VReg) (b : VReg) (c : VReg) (s : State) : Out := vecWord (.vsub m a b c) s

/-- Element-wise bitwise AND. (R176) -/
def execVand (m : Bool) (a : VReg) (b : VReg) (c : VReg) (s : State) : Out := vecWord (.vand m a b c) s

/-- Element-wise bitwise OR. (R176) -/
def execVor (m : Bool) (a : VReg) (b : VReg) (c : VReg) (s : State) : Out := vecWord (.vor m a b c) s

/-- Element-wise bitwise XOR. (R176) -/
def execVxor (m : Bool) (a : VReg) (b : VReg) (c : VReg) (s : State) : Out := vecWord (.vxor m a b c) s

/-- Element-wise minimum by signedness. (R176) -/
def execVmin (m : Bool) (a : VReg) (b : VReg) (c : VReg) (s : State) : Out := vecWord (.vmin m a b c) s

/-- Element-wise maximum by signedness. (R176) -/
def execVmax (m : Bool) (a : VReg) (b : VReg) (c : VReg) (s : State) : Out := vecWord (.vmax m a b c) s

/-- Element-wise integer multiply, low bits. (R176) -/
def execVmul (m : Bool) (a : VReg) (b : VReg) (c : VReg) (s : State) : Out := vecWord (.vmul m a b c) s

/-- Element-wise left shift. (R176) -/
def execVsll (m : Bool) (a : VReg) (b : VReg) (c : VReg) (s : State) : Out := vecWord (.vsll m a b c) s

/-- Element-wise logical right shift. (R176) -/
def execVsrl (m : Bool) (a : VReg) (b : VReg) (c : VReg) (s : State) : Out := vecWord (.vsrl m a b c) s

/-- Element-wise arithmetic right shift. (R176) -/
def execVsra (m : Bool) (a : VReg) (b : VReg) (c : VReg) (s : State) : Out := vecWord (.vsra m a b c) s

/-- Element-wise saturating add. (R176) -/
def execVadds (m : Bool) (a : VReg) (b : VReg) (c : VReg) (s : State) : Out := vecWord (.vadds m a b c) s

/-- Element-wise saturating subtract. (R176) -/
def execVsubs (m : Bool) (a : VReg) (b : VReg) (c : VReg) (s : State) : Out := vecWord (.vsubs m a b c) s

/-- Element-wise high half of the exact product. (R176) -/
def execVmulh (m : Bool) (a : VReg) (b : VReg) (c : VReg) (s : State) : Out := vecWord (.vmulh m a b c) s

/-- Element-wise absolute value with clamping. (R176) -/
def execVabs (m : Bool) (a : VReg) (b : VReg) (s : State) : Out := vecWord (.vabs m a b) s

/-- Element-wise negation. (R176) -/
def execVneg (m : Bool) (a : VReg) (b : VReg) (s : State) : Out := vecWord (.vneg m a b) s

/-- Writes mask mA from an integer comparison selected by the condition field. (R177) -/
def execVcmp (m : Bool) (cc : Fin 8) (a : MReg) (b : VReg) (c : VReg) (s : State) : Out := vecWord (.vcmp m cc a b c) s

/-- Element-wise floating add rounded RNE. (R178) -/
def execVfadd (m : Bool) (a : VReg) (b : VReg) (c : VReg) (s : State) : Out := vecWord (.vfadd m a b c) s

/-- Element-wise floating subtract. (R178) -/
def execVfsub (m : Bool) (a : VReg) (b : VReg) (c : VReg) (s : State) : Out := vecWord (.vfsub m a b c) s

/-- Element-wise floating multiply. (R178) -/
def execVfmul (m : Bool) (a : VReg) (b : VReg) (c : VReg) (s : State) : Out := vecWord (.vfmul m a b c) s

/-- Element-wise minimumNumber. (R178) -/
def execVfmin (m : Bool) (a : VReg) (b : VReg) (c : VReg) (s : State) : Out := vecWord (.vfmin m a b c) s

/-- Element-wise maximumNumber. (R178) -/
def execVfmax (m : Bool) (a : VReg) (b : VReg) (c : VReg) (s : State) : Out := vecWord (.vfmax m a b c) s

/-- Element-wise floating divide. (R178) -/
def execVfdiv (m : Bool) (a : VReg) (b : VReg) (c : VReg) (s : State) : Out := vecWord (.vfdiv m a b c) s

/-- Element-wise floating square root. (R178) -/
def execVfsqrt (m : Bool) (a : VReg) (b : VReg) (s : State) : Out := vecWord (.vfsqrt m a b) s

/-- Element-wise fused multiply-add into vA. (R178) -/
def execVfma (m : Bool) (a : VReg) (b : VReg) (c : VReg) (s : State) : Out := vecWord (.vfma m a b c) s

/-- Element-wise fused multiply-subtract from vA. (R178) -/
def execVfms (m : Bool) (a : VReg) (b : VReg) (c : VReg) (s : State) : Out := vecWord (.vfms m a b c) s

/-- Element-wise fused multiply-add with the result negated. (R178) -/
def execVfnma (m : Bool) (a : VReg) (b : VReg) (c : VReg) (s : State) : Out := vecWord (.vfnma m a b c) s

/-- Inverts the sign bit of each element. (R178) -/
def execVfneg (m : Bool) (a : VReg) (b : VReg) (s : State) : Out := vecWord (.vfneg m a b) s

/-- Clears the sign bit of each element. (R178) -/
def execVfabs (m : Bool) (a : VReg) (b : VReg) (s : State) : Out := vecWord (.vfabs m a b) s

/-- Writes mask mA from a floating comparison selected by the condition field. (R178) -/
def execVfcmp (m : Bool) (cc : Fin 8) (a : MReg) (b : VReg) (c : VReg) (s : State) : Out := vecWord (.vfcmp m cc a b c) s

/-- Element-wise base-2 exponential. (R179) -/
def execVexp2 (m : Bool) (a : VReg) (b : VReg) (s : State) : Out := vecWord (.vexp2 m a b) s

/-- Element-wise base-2 logarithm. (R179) -/
def execVlog2 (m : Bool) (a : VReg) (b : VReg) (s : State) : Out := vecWord (.vlog2 m a b) s

/-- Element-wise reciprocal. (R179) -/
def execVrcp (m : Bool) (a : VReg) (b : VReg) (s : State) : Out := vecWord (.vrcp m a b) s

/-- Element-wise reciprocal square root. (R179) -/
def execVrsqrt (m : Bool) (a : VReg) (b : VReg) (s : State) : Out := vecWord (.vrsqrt m a b) s

/-- Element-wise hyperbolic tangent. (R179) -/
def execVtanh (m : Bool) (a : VReg) (b : VReg) (s : State) : Out := vecWord (.vtanh m a b) s

/-- Element-wise logistic sigmoid. (R179) -/
def execVsigm (m : Bool) (a : VReg) (b : VReg) (s : State) : Out := vecWord (.vsigm m a b) s

/-- Converts each element to the destination type under the rounding code. (R180) -/
def execVcvt (m : Bool) (a : VReg) (b : VReg) (ty : Fin 16) (rc : Fin 8) (s : State) : Out := vecWord (.vcvt m a b ty rc) s

/-- Copies elements of vB to vA. (R181) -/
def execVmv (m : Bool) (a : VReg) (b : VReg) (s : State) : Out := vecWord (.vmv m a b) s

/-- Broadcasts scalar gB to every element of vA. (R181) -/
def execVbcast (m : Bool) (a : VReg) (b : GReg) (s : State) : Out := vecWord (.vbcast m a b) s

/-- Extracts element gC of vB into gA. (R181) -/
def execVext (m : Bool) (a : GReg) (b : VReg) (c : GReg) (s : State) : Out := vecWord (.vext m a b c) s

/-- Inserts gB at element gC of vA. (R181) -/
def execVins (m : Bool) (a : VReg) (b : GReg) (c : GReg) (s : State) : Out := vecWord (.vins m a b c) s

/-- Writes each element with the count of active elements below it. (R181) -/
def execViota (m : Bool) (a : VReg) (s : State) : Out := vecWord (.viota m a) s

/-- Slides elements of vB up by gC. (R181) -/
def execVslideup (m : Bool) (a : VReg) (b : VReg) (c : GReg) (s : State) : Out := vecWord (.vslideup m a b c) s

/-- Slides elements of vB down by gC. (R181) -/
def execVslidedn (m : Bool) (a : VReg) (b : VReg) (c : GReg) (s : State) : Out := vecWord (.vslidedn m a b c) s

/-- Gathers elements of vB by the indices in vC. (R181) -/
def execVgatheri (m : Bool) (a : VReg) (b : VReg) (c : VReg) (s : State) : Out := vecWord (.vgatheri m a b c) s

/-- Reduces elements of vB to their integer sum in gA. (R182) -/
def execVredsum (m : Bool) (a : GReg) (b : VReg) (s : State) : Out := vecWord (.vredsum m a b) s

/-- Reduces to the unsigned minimum in gA. (R182) -/
def execVredmin (m : Bool) (a : GReg) (b : VReg) (s : State) : Out := vecWord (.vredmin m a b) s

/-- Reduces to the unsigned maximum in gA. (R182) -/
def execVredmax (m : Bool) (a : GReg) (b : VReg) (s : State) : Out := vecWord (.vredmax m a b) s

/-- Reduces to the signed minimum in gA. (R182) -/
def execVredmins (m : Bool) (a : GReg) (b : VReg) (s : State) : Out := vecWord (.vredmins m a b) s

/-- Reduces to the signed maximum in gA. (R182) -/
def execVredmaxs (m : Bool) (a : GReg) (b : VReg) (s : State) : Out := vecWord (.vredmaxs m a b) s

/-- Reduces to the pairwise-tree floating sum in gA. (R98) -/
def execVfredsum (m : Bool) (a : GReg) (b : VReg) (s : State) : Out := vecWord (.vfredsum m a b) s

/-- Reduces to the floating minimum in gA. (R182) -/
def execVfredmin (m : Bool) (a : GReg) (b : VReg) (s : State) : Out := vecWord (.vfredmin m a b) s

/-- Reduces to the floating maximum in gA. (R182) -/
def execVfredmax (m : Bool) (a : GReg) (b : VReg) (s : State) : Out := vecWord (.vfredmax m a b) s

/-- Inclusive running integer sum. (R183) -/
def execVscanAdd (m : Bool) (a : VReg) (b : VReg) (s : State) : Out := vecWord (.vscanAdd m a b) s

/-- Inclusive running minimum. (R183) -/
def execVscanMin (m : Bool) (a : VReg) (b : VReg) (s : State) : Out := vecWord (.vscanMin m a b) s

/-- Inclusive running maximum. (R183) -/
def execVscanMax (m : Bool) (a : VReg) (b : VReg) (s : State) : Out := vecWord (.vscanMax m a b) s

/-- Inclusive running floating sum, sequential. (R183) -/
def execVfscanAdd (m : Bool) (a : VReg) (b : VReg) (s : State) : Out := vecWord (.vfscanAdd m a b) s

/-- Inclusive running floating maximum. (R183) -/
def execVfscanMax (m : Bool) (a : VReg) (b : VReg) (s : State) : Out := vecWord (.vfscanMax m a b) s

/-- Mask AND. (R184) -/
def execMand (m : Bool) (a : MReg) (b : MReg) (c : MReg) (s : State) : Out := vecWord (.mand m a b c) s

/-- Mask OR. (R184) -/
def execMor (m : Bool) (a : MReg) (b : MReg) (c : MReg) (s : State) : Out := vecWord (.mor m a b c) s

/-- Mask XOR. (R184) -/
def execMxor (m : Bool) (a : MReg) (b : MReg) (c : MReg) (s : State) : Out := vecWord (.mxor m a b c) s

/-- Mask AND-NOT. (R184) -/
def execMandn (m : Bool) (a : MReg) (b : MReg) (c : MReg) (s : State) : Out := vecWord (.mandn m a b c) s

/-- Mask NOT. (R184) -/
def execMnot (m : Bool) (a : MReg) (b : MReg) (s : State) : Out := vecWord (.mnot m a b) s

/-- Counts set mask bits below VL into gA. (R184) -/
def execMpopc (m : Bool) (a : GReg) (b : MReg) (s : State) : Out := vecWord (.mpopc m a b) s

/-- Writes the index of the lowest set mask bit into gA. (R184) -/
def execMfirst (m : Bool) (a : GReg) (b : MReg) (s : State) : Out := vecWord (.mfirst m a b) s

/-- Packs the elements of vB selected by mC into vA. (R184) -/
def execVcompress (m : Bool) (a : VReg) (b : VReg) (c : MReg) (s : State) : Out := vecWord (.vcompress m a b c) s

/-- Packs NF elements per 64-bit lane under a field-layout plan. (R188) -/
def execVpack (m : Bool) (f : FReg) (a : VReg) (b : VReg) (s : State) : Out := vecWord (.vpack m f a b) s

/-- Closes the current strip, sets VTYPE and VL, and opens a new strip. (R174) -/
def execSetvl (a : GReg) (b : GReg) (ty : Fin 16) (s : State) : Out := vecWord (.setvl a b ty) s

/-- Sets VMASK to the named mask at decode. (R191) -/
def execVmsel (a : MReg) (s : State) : Out := vecWord (.vmsel a) s

/-- Binds vA to the queue of a STREAM segment. (R192) -/
def execVbind (a : VReg) (b : SReg) (s : State) : Out := vecWord (.vbind a b) s

/-- Ends the binding of vA. (R192) -/
def execVunbind (a : VReg) (s : State) : Out := vecWord (.vunbind a) s

/-- Appends gC + i for each active element to a queue or ATOMIC list at strip commit. (R194) -/
def execVappend (a : GReg) (b : SReg) (c : GReg) (s : State) : Out := vecWord (.vappend a b c) s

/-- Stores all 4,096 bytes of vA. (R195) -/
def execVspill (a : VReg) (b : GReg) (s : State) : Out := vecWord (.vspill a b) s

/-- Loads all 4,096 bytes into vA. (R195) -/
def execVfill (a : VReg) (b : GReg) (s : State) : Out := vecWord (.vfill a b) s

/-- Sets the task's mailbox range of physical vector registers. (R197) -/
def execVmbox (b : GReg) (c : GReg) (s : State) : Out := vecWord (.vmbox b c) s

/-- Loads contiguous elements into vA. (R185) -/
def execVld (m : Bool) (a : VReg) (b : GReg) (s : State) : Out := vecWord (.vld m a b) s

/-- Stores contiguous elements of vA into the strip store buffer. (R185) -/
def execVst (m : Bool) (a : VReg) (b : GReg) (s : State) : Out := vecWord (.vst m a b) s

/-- Loads strided elements into vA. (R185) -/
def execVlds (m : Bool) (a : VReg) (b : GReg) (c : GReg) (s : State) : Out := vecWord (.vlds m a b c) s

/-- Stores strided elements of vA. (R185) -/
def execVsts (m : Bool) (a : VReg) (b : GReg) (c : GReg) (s : State) : Out := vecWord (.vsts m a b c) s

/-- Loads indexed elements into vA. (R185) -/
def execVldx (m : Bool) (a : VReg) (b : GReg) (c : VReg) (s : State) : Out := vecWord (.vldx m a b c) s

/-- Stores indexed elements of vA. (R185) -/
def execVstx (m : Bool) (a : VReg) (b : GReg) (c : VReg) (s : State) : Out := vecWord (.vstx m a b c) s

/-- Loads from scratchpad tiles with an optional tag check. (R186) -/
def execVldt (m : Bool) (a : VReg) (b : GReg) (c : GReg) (s : State) : Out := vecWord (.vldt m a b c) s

/-- Forms the exact 128-bit product of packed lanes, with optional guard check. (R189) -/
def execVpmul (m : Bool) (f : FReg) (a : VReg) (b : VReg) (c : VReg) (s : State) : Out := vecWord (.vpmul m f a b c) s

/-- Adds the exact packed-lane product into the 128-bit pair. (R189) -/
def execVpmula (m : Bool) (f : FReg) (a : VReg) (b : VReg) (c : VReg) (s : State) : Out := vecWord (.vpmula m f a b c) s

/-- Extracts result windows from 128-bit lanes. (R190) -/
def execVpext (m : Bool) (f : FReg) (a : VReg) (b : VReg) (s : State) : Out := vecWord (.vpext m f a b) s

/-- Commits the strip, waits for asynchronous products, marks lane state dead and gives up the lanes. (R39) -/
def execVrelease (s : State) : Out := vecWord .vrelease s

end Sys2Proof.Machine
end

