-- ==== Sys2Proof/Machine/Dispatch.lean ====
section
/-! DEFINITION. The meaning of every instruction: one arm per constructor, each a call of its own meaning. -/

namespace Sys2Proof.Machine

def exec (i : Instr) (s : State) : Host.Outcome State Fault Refusal :=
  match i with
  | .add a b c => Sys2Proof.Machine.execAdd a b c s
  | .sub a b c => Sys2Proof.Machine.execSub a b c s
  | .and a b c => Sys2Proof.Machine.execAnd a b c s
  | .or a b c => Sys2Proof.Machine.execOr a b c s
  | .xor a b c => Sys2Proof.Machine.execXor a b c s
  | .sll a b c => Sys2Proof.Machine.execSll a b c s
  | .srl a b c => Sys2Proof.Machine.execSrl a b c s
  | .sra a b c => Sys2Proof.Machine.execSra a b c s
  | .min a b c => Sys2Proof.Machine.execMin a b c s
  | .max a b c => Sys2Proof.Machine.execMax a b c s
  | .mins a b c => Sys2Proof.Machine.execMins a b c s
  | .maxs a b c => Sys2Proof.Machine.execMaxs a b c s
  | .slt a b c => Sys2Proof.Machine.execSlt a b c s
  | .slts a b c => Sys2Proof.Machine.execSlts a b c s
  | .sel a b c => Sys2Proof.Machine.execSel a b c s
  | .mul a b c => Sys2Proof.Machine.execMul a b c s
  | .mulh a b c => Sys2Proof.Machine.execMulh a b c s
  | .mulhs a b c => Sys2Proof.Machine.execMulhs a b c s
  | .div a b c => Sys2Proof.Machine.execDiv a b c s
  | .divs a b c => Sys2Proof.Machine.execDivs a b c s
  | .rem a b c => Sys2Proof.Machine.execRem a b c s
  | .rems a b c => Sys2Proof.Machine.execRems a b c s
  | .clz a b => Sys2Proof.Machine.execClz a b s
  | .ctz a b => Sys2Proof.Machine.execCtz a b s
  | .popc a b => Sys2Proof.Machine.execPopc a b s
  | .brev a b => Sys2Proof.Machine.execBrev a b s
  | .bswap a b => Sys2Proof.Machine.execBswap a b s
  | .sext a b c => Sys2Proof.Machine.execSext a b c s
  | .zext a b c => Sys2Proof.Machine.execZext a b c s
  | .extr a b c => Sys2Proof.Machine.execExtr a b c s
  | .ins a b c => Sys2Proof.Machine.execIns a b c s
  | .addi a b imm => Sys2Proof.Machine.execAddi a b imm s
  | .andi a b imm => Sys2Proof.Machine.execAndi a b imm s
  | .ori a b imm => Sys2Proof.Machine.execOri a b imm s
  | .xori a b imm => Sys2Proof.Machine.execXori a b imm s
  | .slti a b imm => Sys2Proof.Machine.execSlti a b imm s
  | .sltis a b imm => Sys2Proof.Machine.execSltis a b imm s
  | .slli a b sh => Sys2Proof.Machine.execSlli a b sh s
  | .srli a b sh => Sys2Proof.Machine.execSrli a b sh s
  | .srai a b sh => Sys2Proof.Machine.execSrai a b sh s
  | .lui a imm => Sys2Proof.Machine.execLui a imm s
  | .lsh a imm => Sys2Proof.Machine.execLsh a imm s
  | .ldB a b imm => Sys2Proof.Machine.execLdB a b imm s
  | .ldBs a b imm => Sys2Proof.Machine.execLdBs a b imm s
  | .ldH a b imm => Sys2Proof.Machine.execLdH a b imm s
  | .ldHs a b imm => Sys2Proof.Machine.execLdHs a b imm s
  | .ldW a b imm => Sys2Proof.Machine.execLdW a b imm s
  | .ldWs a b imm => Sys2Proof.Machine.execLdWs a b imm s
  | .ldD a b imm => Sys2Proof.Machine.execLdD a b imm s
  | .stB a b imm => Sys2Proof.Machine.execStB a b imm s
  | .stH a b imm => Sys2Proof.Machine.execStH a b imm s
  | .stW a b imm => Sys2Proof.Machine.execStW a b imm s
  | .stD a b imm => Sys2Proof.Machine.execStD a b imm s
  | .beq a b imm => Sys2Proof.Machine.execBeq a b imm s
  | .bne a b imm => Sys2Proof.Machine.execBne a b imm s
  | .blt a b imm => Sys2Proof.Machine.execBlt a b imm s
  | .bge a b imm => Sys2Proof.Machine.execBge a b imm s
  | .blts a b imm => Sys2Proof.Machine.execBlts a b imm s
  | .bges a b imm => Sys2Proof.Machine.execBges a b imm s
  | .j imm => Sys2Proof.Machine.execJ imm s
  | .jal imm => Sys2Proof.Machine.execJal imm s
  | .jr b => Sys2Proof.Machine.execJr b s
  | .jalr a b => Sys2Proof.Machine.execJalr a b s
  | .loop k b len => Sys2Proof.Machine.execLoop k b len s
  | .lclr mask => Sys2Proof.Machine.execLclr mask s
  | .wbase b => Sys2Proof.Machine.execWbase b s
  | .flset f b => Sys2Proof.Machine.execFlset f b s
  | .flget a f => Sys2Proof.Machine.execFlget a f s
  | .dross b c => Sys2Proof.Machine.execDross b c s
  | .waitt b => Sys2Proof.Machine.execWaitt b s
  | .waitev b => Sys2Proof.Machine.execWaitev b s
  | .crr a n => Sys2Proof.Machine.execCrr a n s
  | .crw a n => Sys2Proof.Machine.execCrw a n s
  | .crs a n => Sys2Proof.Machine.execCrs a n s
  | .crc a n => Sys2Proof.Machine.execCrc a n s
  | .trap code => Sys2Proof.Machine.execTrap code s
  | .launch b n => Sys2Proof.Machine.execLaunch b n s
  | .padd a b c => Sys2Proof.Machine.execPadd a b c s
  | .pmk a b c => Sys2Proof.Machine.execPmk a b c s
  | .pseg a b => Sys2Proof.Machine.execPseg a b s
  | .poff a b => Sys2Proof.Machine.execPoff a b s
  | .paddi a b imm => Sys2Proof.Machine.execPaddi a b imm s
  | .convoyHeader t d3 d2 d1 d0 cnt => Sys2Proof.Machine.execConvoyHeader t d3 d2 d1 d0 cnt s
  | .vadd m a b c => Sys2Proof.Machine.execVadd m a b c s
  | .vsub m a b c => Sys2Proof.Machine.execVsub m a b c s
  | .vand m a b c => Sys2Proof.Machine.execVand m a b c s
  | .vor m a b c => Sys2Proof.Machine.execVor m a b c s
  | .vxor m a b c => Sys2Proof.Machine.execVxor m a b c s
  | .vmin m a b c => Sys2Proof.Machine.execVmin m a b c s
  | .vmax m a b c => Sys2Proof.Machine.execVmax m a b c s
  | .vmul m a b c => Sys2Proof.Machine.execVmul m a b c s
  | .vsll m a b c => Sys2Proof.Machine.execVsll m a b c s
  | .vsrl m a b c => Sys2Proof.Machine.execVsrl m a b c s
  | .vsra m a b c => Sys2Proof.Machine.execVsra m a b c s
  | .vadds m a b c => Sys2Proof.Machine.execVadds m a b c s
  | .vsubs m a b c => Sys2Proof.Machine.execVsubs m a b c s
  | .vmulh m a b c => Sys2Proof.Machine.execVmulh m a b c s
  | .vabs m a b => Sys2Proof.Machine.execVabs m a b s
  | .vneg m a b => Sys2Proof.Machine.execVneg m a b s
  | .vcmp m cc a b c => Sys2Proof.Machine.execVcmp m cc a b c s
  | .vfadd m a b c => Sys2Proof.Machine.execVfadd m a b c s
  | .vfsub m a b c => Sys2Proof.Machine.execVfsub m a b c s
  | .vfmul m a b c => Sys2Proof.Machine.execVfmul m a b c s
  | .vfmin m a b c => Sys2Proof.Machine.execVfmin m a b c s
  | .vfmax m a b c => Sys2Proof.Machine.execVfmax m a b c s
  | .vfdiv m a b c => Sys2Proof.Machine.execVfdiv m a b c s
  | .vfsqrt m a b => Sys2Proof.Machine.execVfsqrt m a b s
  | .vfma m a b c => Sys2Proof.Machine.execVfma m a b c s
  | .vfms m a b c => Sys2Proof.Machine.execVfms m a b c s
  | .vfnma m a b c => Sys2Proof.Machine.execVfnma m a b c s
  | .vfneg m a b => Sys2Proof.Machine.execVfneg m a b s
  | .vfabs m a b => Sys2Proof.Machine.execVfabs m a b s
  | .vfcmp m cc a b c => Sys2Proof.Machine.execVfcmp m cc a b c s
  | .vexp2 m a b => Sys2Proof.Machine.execVexp2 m a b s
  | .vlog2 m a b => Sys2Proof.Machine.execVlog2 m a b s
  | .vrcp m a b => Sys2Proof.Machine.execVrcp m a b s
  | .vrsqrt m a b => Sys2Proof.Machine.execVrsqrt m a b s
  | .vtanh m a b => Sys2Proof.Machine.execVtanh m a b s
  | .vsigm m a b => Sys2Proof.Machine.execVsigm m a b s
  | .vcvt m a b ty rc => Sys2Proof.Machine.execVcvt m a b ty rc s
  | .vmv m a b => Sys2Proof.Machine.execVmv m a b s
  | .vbcast m a b => Sys2Proof.Machine.execVbcast m a b s
  | .vext m a b c => Sys2Proof.Machine.execVext m a b c s
  | .vins m a b c => Sys2Proof.Machine.execVins m a b c s
  | .viota m a => Sys2Proof.Machine.execViota m a s
  | .vslideup m a b c => Sys2Proof.Machine.execVslideup m a b c s
  | .vslidedn m a b c => Sys2Proof.Machine.execVslidedn m a b c s
  | .vgatheri m a b c => Sys2Proof.Machine.execVgatheri m a b c s
  | .vredsum m a b => Sys2Proof.Machine.execVredsum m a b s
  | .vredmin m a b => Sys2Proof.Machine.execVredmin m a b s
  | .vredmax m a b => Sys2Proof.Machine.execVredmax m a b s
  | .vredmins m a b => Sys2Proof.Machine.execVredmins m a b s
  | .vredmaxs m a b => Sys2Proof.Machine.execVredmaxs m a b s
  | .vfredsum m a b => Sys2Proof.Machine.execVfredsum m a b s
  | .vfredmin m a b => Sys2Proof.Machine.execVfredmin m a b s
  | .vfredmax m a b => Sys2Proof.Machine.execVfredmax m a b s
  | .vscanAdd m a b => Sys2Proof.Machine.execVscanAdd m a b s
  | .vscanMin m a b => Sys2Proof.Machine.execVscanMin m a b s
  | .vscanMax m a b => Sys2Proof.Machine.execVscanMax m a b s
  | .vfscanAdd m a b => Sys2Proof.Machine.execVfscanAdd m a b s
  | .vfscanMax m a b => Sys2Proof.Machine.execVfscanMax m a b s
  | .mand m a b c => Sys2Proof.Machine.execMand m a b c s
  | .mor m a b c => Sys2Proof.Machine.execMor m a b c s
  | .mxor m a b c => Sys2Proof.Machine.execMxor m a b c s
  | .mandn m a b c => Sys2Proof.Machine.execMandn m a b c s
  | .mnot m a b => Sys2Proof.Machine.execMnot m a b s
  | .mpopc m a b => Sys2Proof.Machine.execMpopc m a b s
  | .mfirst m a b => Sys2Proof.Machine.execMfirst m a b s
  | .vcompress m a b c => Sys2Proof.Machine.execVcompress m a b c s
  | .vpack m f a b => Sys2Proof.Machine.execVpack m f a b s
  | .setvl a b ty => Sys2Proof.Machine.execSetvl a b ty s
  | .vmsel a => Sys2Proof.Machine.execVmsel a s
  | .vbind a b => Sys2Proof.Machine.execVbind a b s
  | .vunbind a => Sys2Proof.Machine.execVunbind a s
  | .vappend a b c => Sys2Proof.Machine.execVappend a b c s
  | .vspill a b => Sys2Proof.Machine.execVspill a b s
  | .vfill a b => Sys2Proof.Machine.execVfill a b s
  | .vmbox b c => Sys2Proof.Machine.execVmbox b c s
  | .vld m a b => Sys2Proof.Machine.execVld m a b s
  | .vst m a b => Sys2Proof.Machine.execVst m a b s
  | .vlds m a b c => Sys2Proof.Machine.execVlds m a b c s
  | .vsts m a b c => Sys2Proof.Machine.execVsts m a b c s
  | .vldx m a b c => Sys2Proof.Machine.execVldx m a b c s
  | .vstx m a b c => Sys2Proof.Machine.execVstx m a b c s
  | .vldt m a b c => Sys2Proof.Machine.execVldt m a b c s
  | .vpmul m f a b c => Sys2Proof.Machine.execVpmul m f a b c s
  | .vpmula m f a b c => Sys2Proof.Machine.execVpmula m f a b c s
  | .vpext m f a b => Sys2Proof.Machine.execVpext m f a b s
  | .mshape a b => Sys2Proof.Machine.execMshape a b s
  | .tmvr a rc b c => Sys2Proof.Machine.execTmvr a rc b c s
  | .tmvc a b rc c => Sys2Proof.Machine.execTmvc a b rc c s
  | .tmvrr a b c => Sys2Proof.Machine.execTmvrr a b c s
  | .tzero a => Sys2Proof.Machine.execTzero a s
  | .tld a b c => Sys2Proof.Machine.execTld a b c s
  | .tst a b => Sys2Proof.Machine.execTst a b s
  | .mma a b c => Sys2Proof.Machine.execMma a b c s
  | .mmaA a n b c => Sys2Proof.Machine.execMmaA a n b c s
  | .mmas a b c => Sys2Proof.Machine.execMmas a b c s
  | .mmasA a n b c => Sys2Proof.Machine.execMmasA a n b c s
  | .azero a => Sys2Proof.Machine.execAzero a s
  | .amv a b ty rc => Sys2Proof.Machine.execAmv a b ty rc s
  | .ald a b => Sys2Proof.Machine.execAld a b s
  | .ast a b => Sys2Proof.Machine.execAst a b s
  | .bld b c => Sys2Proof.Machine.execBld b c s
  | .vquant a b c => Sys2Proof.Machine.execVquant a b c s
  | .mperm b => Sys2Proof.Machine.execMperm b s
  | .mcode b => Sys2Proof.Machine.execMcode b s
  | .amoAdd a b c => Sys2Proof.Machine.execAmoAdd a b c s
  | .amoMin a b c => Sys2Proof.Machine.execAmoMin a b c s
  | .amoMax a b c => Sys2Proof.Machine.execAmoMax a b c s
  | .amoMins a b c => Sys2Proof.Machine.execAmoMins a b c s
  | .amoMaxs a b c => Sys2Proof.Machine.execAmoMaxs a b c s
  | .amoAnd a b c => Sys2Proof.Machine.execAmoAnd a b c s
  | .amoOr a b c => Sys2Proof.Machine.execAmoOr a b c s
  | .amoXor a b c => Sys2Proof.Machine.execAmoXor a b c s
  | .amoSwap a b c => Sys2Proof.Machine.execAmoSwap a b c s
  | .amoCas a b c => Sys2Proof.Machine.execAmoCas a b c s
  | .amoFaddF32 a b c => Sys2Proof.Machine.execAmoFaddF32 a b c s
  | .amoFaddF64 a b c => Sys2Proof.Machine.execAmoFaddF64 a b c s
  | .amoAddnr b c => Sys2Proof.Machine.execAmoAddnr b c s
  | .acq a b => Sys2Proof.Machine.execAcq a b s
  | .rel b c => Sys2Proof.Machine.execRel b c s
  | .segacq b => Sys2Proof.Machine.execSegacq b s
  | .segrel b c => Sys2Proof.Machine.execSegrel b c s
  | .segphase b => Sys2Proof.Machine.execSegphase b s
  | .fence sc => Sys2Proof.Machine.execFence sc s
  | .waiteq a b c => Sys2Proof.Machine.execWaiteq a b c s
  | .waitge a b c => Sys2Proof.Machine.execWaitge a b c s
  | .lcpy a b tr cv rc n => Sys2Proof.Machine.execLcpy a b tr cv rc n s
  | .bcommit n => Sys2Proof.Machine.execBcommit n s
  | .bwait n => Sys2Proof.Machine.execBwait n s
  | .btest a n => Sys2Proof.Machine.execBtest a n s
  | .istream b n => Sys2Proof.Machine.execIstream b n s
  | .txcfg a b => Sys2Proof.Machine.execTxcfg a b s
  | .txsub a b n => Sys2Proof.Machine.execTxsub a b n s
  | .qpush a b => Sys2Proof.Machine.execQpush a b s
  | .qpop a b => Sys2Proof.Machine.execQpop a b s
  | .qstat a b => Sys2Proof.Machine.execQstat a b s
  | .tfree b => Sys2Proof.Machine.execTfree b s
  | .sptag b c => Sys2Proof.Machine.execSptag b c s
  | .spsize a b => Sys2Proof.Machine.execSpsize a b s
  | .rmul m a b c => Sys2Proof.Machine.execRmul m a b c s
  | .rfma m a b c => Sys2Proof.Machine.execRfma m a b c s
  | .rshr m a b c => Sys2Proof.Machine.execRshr m a b c s
  | .rlrelu m a b c => Sys2Proof.Machine.execRlrelu m a b c s
  | .rscale m a b c => Sys2Proof.Machine.execRscale m a b c s
  | .rcvt m a b ty rc => Sys2Proof.Machine.execRcvt m a b ty rc s
  | .umul m a b c => Sys2Proof.Machine.execUmul m a b c s
  | .ufma m a b c => Sys2Proof.Machine.execUfma m a b c s
  | .ushr m a b c => Sys2Proof.Machine.execUshr m a b c s
  | .ulrelu m a b c => Sys2Proof.Machine.execUlrelu m a b c s
  | .uscale m a b c => Sys2Proof.Machine.execUscale m a b c s
  | .ucvt m a b ty => Sys2Proof.Machine.execUcvt m a b ty s
  | .rsdepth a => Sys2Proof.Machine.execRsdepth a s
  | .yield => Sys2Proof.Machine.execYield s
  | .exit => Sys2Proof.Machine.execExit s
  | .rpoint => Sys2Proof.Machine.execRpoint s
  | .realign => Sys2Proof.Machine.execRealign s
  | .fencei => Sys2Proof.Machine.execFencei s
  | .brk => Sys2Proof.Machine.execBrk s
  | .eret => Sys2Proof.Machine.execEret s
  | .vrelease => Sys2Proof.Machine.execVrelease s
  | .rsmark => Sys2Proof.Machine.execRsmark s
  | .rsdrop => Sys2Proof.Machine.execRsdrop s
  | .rssync => Sys2Proof.Machine.execRssync s
  | .vectorMemberIssue => Sys2Proof.Machine.execVectorMemberIssue s
  | .convoyRetire => Sys2Proof.Machine.execConvoyRetire s
  | .segphaseComplete => Sys2Proof.Machine.execSegphaseComplete s
  | .waitConditionMet => Sys2Proof.Machine.execWaitConditionMet s
  | .riserSpill => Sys2Proof.Machine.execRiserSpill s
  | .riserFill => Sys2Proof.Machine.execRiserFill s
  | .stripCommit => Sys2Proof.Machine.execStripCommit s
  | .engineCommandFork => Sys2Proof.Machine.execEngineCommandFork s
  | .ladleCopyComplete => Sys2Proof.Machine.execLadleCopyComplete s
  | .mailboxWriteLand => Sys2Proof.Machine.execMailboxWriteLand s
  | .matrixCommandComplete => Sys2Proof.Machine.execMatrixCommandComplete s
  | .istreamComplete => Sys2Proof.Machine.execIstreamComplete s
  | .textStageMessage => Sys2Proof.Machine.execTextStageMessage s
  | .decoderMemberCommit => Sys2Proof.Machine.execDecoderMemberCommit s
  | .txsubComplete => Sys2Proof.Machine.execTxsubComplete s
  | .launchCommandComplete => Sys2Proof.Machine.execLaunchCommandComplete s
  | .trapEntry => Sys2Proof.Machine.execTrapEntry s
  | .launchEndByTrap => Sys2Proof.Machine.execLaunchEndByTrap s
  | .pageFault => Sys2Proof.Machine.execPageFault s
  | .pageFaultReplyDoorbell => Sys2Proof.Machine.execPageFaultReplyDoorbell s
  | .pageFaultReply => Sys2Proof.Machine.execPageFaultReply s
  | .contextRestore => Sys2Proof.Machine.execContextRestore s
  | .preemption => Sys2Proof.Machine.execPreemption s
  | .contextSave => Sys2Proof.Machine.execContextSave s
  | .saveretry => Sys2Proof.Machine.execSaveretry s
  | .timedRollback => Sys2Proof.Machine.execTimedRollback s
  | .timedResume => Sys2Proof.Machine.execTimedResume s
  | .domainTick => Sys2Proof.Machine.execDomainTick s
  | .hostQueueDoorbell => Sys2Proof.Machine.execHostQueueDoorbell s
  | .adminDoorbell => Sys2Proof.Machine.execAdminDoorbell s
  | .invalidationComplete => Sys2Proof.Machine.execInvalidationComplete s
  | .launchSelection => Sys2Proof.Machine.execLaunchSelection s
  | .taskPlacement => Sys2Proof.Machine.execTaskPlacement s
  | .taskStart => Sys2Proof.Machine.execTaskStart s
  | .launchComplete => Sys2Proof.Machine.execLaunchComplete s
  | .rampSlot => Sys2Proof.Machine.execRampSlot s
  | .estimatePartial => Sys2Proof.Machine.execEstimatePartial s
  | .codeObjectLoad => Sys2Proof.Machine.execCodeObjectLoad s
  | .codeObjectUnload => Sys2Proof.Machine.execCodeObjectUnload s
  | .forcedUnload => Sys2Proof.Machine.execForcedUnload s
  | .dusk => Sys2Proof.Machine.execDusk s
  | .duskdone => Sys2Proof.Machine.execDuskdone s
  | .dawn => Sys2Proof.Machine.execDawn s
  | .warmReset => Sys2Proof.Machine.execWarmReset s
  | .attestation => Sys2Proof.Machine.execAttestation s
  | .reductionClear => Sys2Proof.Machine.execReductionClear s
  | .hostRegisterWrite => Sys2Proof.Machine.execHostRegisterWrite s
  | .ptmExchange => Sys2Proof.Machine.execPtmExchange s
  | .ptpEventMessage => Sys2Proof.Machine.execPtpEventMessage s
  | .linkFlitReceive => Sys2Proof.Machine.execLinkFlitReceive s
  | .linkHeartbeat => Sys2Proof.Machine.execLinkHeartbeat s
  | .heartbeatTimeout => Sys2Proof.Machine.execHeartbeatTimeout s
  | .linkPortFailure => Sys2Proof.Machine.execLinkPortFailure s
  | .routeTimeout => Sys2Proof.Machine.execRouteTimeout s
  | .memoryScrub => Sys2Proof.Machine.execMemoryScrub s
  | .freqheadWrite => Sys2Proof.Machine.execFreqheadWrite s
  | .powerLoss => Sys2Proof.Machine.execPowerLoss s
  | .preemptionDrainTimeout => Sys2Proof.Machine.execPreemptionDrainTimeout s

end Sys2Proof.Machine
end

