-- ==== Sys2Proof/Machine/Run.lean ====
section
/-! DEFINITION. One step of the machine, of which Step.lean makes `step`: the agent whose turn it is moves. A front
checks its breakpoints, fetches, decodes and executes the word at its pc; an event that is due happens; time passes. -/

namespace Sys2Proof.Machine

/-- The trap of a word that does not decode (R339, Table 20-1). -/
def decodeErrTrap (w : Nat) : DecodeErr → Trap
  | .reserved k => { cause := 0x01, info := w + k * 2 ^ 32 }
  | .nonzero b => { cause := 0x02, info := w + b * 2 ^ 40 }
  | .short => { cause := 0x01, info := w }

/-- A trap at the pc before any word has been decoded there: a breakpoint, a fetch, a word that is none. Inside a
convoy it belongs to the convoy (R335). -/
def stopHere (s : State) (tr : Trap) : State :=
  if s.t.conv.isSome then decodeTrap s tr
  else
    let u := scalarTrap .trapEntry s tr false
    if u.t.wait = some .trapEntry then { u with t := { u.t with wait := none } } else u

/-- The breakpoint that fires before the word at the pc (R331); a member word is never named. -/
def scalarBreak (s : State) : Option Trap :=
  if s.t.conv.isSome then none else (breakpoint s.t false s.t.pc.toNat).map (breakTrap false)

/-- The front decodes and executes the word at its pc. -/
def runWord (s : State) : Out :=
  match scalarBreak s with
  | some tr => .next (stopHere s tr)
  | none =>
    match fetch s s.t.pc with
    | .error tr => .next (stopHere s tr)
    | .ok (w, s') =>
      match decode w with
      | .ok i => exec i s'
      | .error e => .next (stopHere s' (decodeErrTrap w e))

/-- A front that is stopped until an event of its own lets it go on. -/
def stopped (t : Task) : Bool :=
  match t.wait with
  | some .launchEndByTrap | some .timedRollback | some .contextSave | some .preemption | some .taskStart => true
  | _ => false

/-- A front whose task can move. -/
def movable (t : Task) : Bool := t.live && !stopped t

/-- The current front goes on with the word it waits in: a stop that waits is tried again, a word runs anew. -/
def resumeWait (i : Instr) (s : State) : Out :=
  match i with
  | .trapEntry | .engineCommandFork => exec .trapEntry { s with input := { n := [s.t.core, s.t.front] } }
  | i => exec i s

/-- A front that still waits as it did has let a cycle pass. -/
def spent (s u : State) : State :=
  if u.t.wait.isSome ∧ u.t.cycle = s.t.cycle ∧ u.t.front2 = s.t.front2 then { u with t := { u.t with cycle := u.t.cycle + 1 } } else u

/-- A step of the current front: it goes on with the word it waits in, or runs the word at its pc, after what a single step has
still to run before it (R372). -/
def runFront (s : State) : Out :=
  match s.t.wait with
  | none => (stepQueue s).elim (runWord s) .next
  | some i =>
    match resumeWait i s with
    | .next u => .next (spent s u)
    | o => o

/-- A command of the current timed task's launch whose cycle has come: it is to fork, or it completes (R54, R57). -/
def timedDue (s : State) : Option (Instr × Input) :=
  if s.t.timed = false then none
  else
    s.allCores.findSome? fun c => c.cmds.findSome? fun d =>
      let x : Input := { n := [c.num, d.id] }
      if d.timed = false ∨ d.launch ≠ s.t.launch then none
      else if !d.forked && !d.done && (d.released && !engineFull s c.num d || decide (d.start < s.t.cycle)) then
        some (.engineCommandFork, x)
      else if d.ready && d.due s then some (doneEvent d.instr, x)
      else none

/-- An event happens, with what comes with it. -/
def eventTurn (i : Instr) (x : Input) (s : State) : Out := exec i { s with input := x }

/-- A step of the current front; in a timed domain the device's part of the cycle comes first. -/
def frontStep (s : State) : Out :=
  match timedDue s with
  | some e => eventTurn e.1 e.2 s
  | none => runFront s

/-- The task that is furthest behind among those that p picks, where it is behind the current one. -/
def behind (p : Task → Bool) (s : State) : Option Task :=
  leastBy Task.cycle (s.tasks.filter fun t => movable t && p t && (t.cycle < s.t.cycle || !movable s.t))

/-- Time passes: n cycles. -/
def passTime (n : Nat) (s : State) : State := { s with cycle := s.cycle + n, t := { s.t with cycle := s.t.cycle + n } }

/-- Time goes on for all fronts alike: the one furthest behind moves. Where none can, a cycle passes while steps are due,
and the next domain tick begins where none are. -/
def frontTurn (s : State) : Out :=
  match behind (fun _ => true) s with
  | some t => frontStep (s.select t.front2)
  | none =>
    if movable s.t then frontStep s
    else if s.agenda = [] then exec .domainTick s
    else .next (passTime 1 s)

/-- The front that the plan names moves; of a timed domain, the front furthest behind, so that its tasks keep step. -/
def namedTurn (s : State) : Out :=
  if !movable s.t then .next s
  else if s.t.timed then
    match behind (fun t => t.launch == s.t.launch) s with
    | some t => frontStep (s.select t.front2)
    | none => frontStep s
  else frontStep s

/-- A TLB drops one translation (R296). -/
def evictOne (n : Nat) (s : State) : State := { s with c := { s.c with tlb := s.c.tlb.eraseIdx n } }

/-- The agent that the plan names moves. -/
def pickTurn (p : Pick) (s : State) : Out :=
  match p with
  | .front k => namedTurn { s.select k with ahead := false }
  | .ahead k => namedTurn { s.select k with ahead := true }
  | .event i x => eventTurn i x s
  | .idle n => .next (passTime n s)
  | .evict n => .next (evictOne n s)

/-- A domain tick has begun that the package has not taken note of (R52). -/
def tickDue (s : State) : Bool := s.slot < tickAt s.cycle

/-- The master's next partial estimate has come: one every 256 cycles of a slot, the slot's end settling the last (R282). -/
def partialDue (s : State) : Bool :=
  s.partials < 15 && s.slot * Config.tickCycles + 256 * (s.partials + 1) ≤ s.cycle

/-- One step: the plan first; with no plan, a tick that has begun, a partial estimate, then what is due and the fronts take
turns. -/
def stepOnce (s : State) : Out :=
  if s.power = false then
    match s.plan with
    | .event .dawn x :: r => eventTurn .dawn x { s with plan := r }
    | _ => .fault .noPower
  else
    match s.plan with
    | p :: r => pickTurn p { s with plan := r }
    | [] =>
      if tickDue s then exec .domainTick s
      else if partialDue s then eventTurn .estimatePartial {} s
      else
        match s.agenda with
        | (i, x) :: r =>
          if s.turn then frontTurn { s with turn := false, ahead := false }
          else eventTurn i x { s with agenda := r, turn := true }
        | [] => frontTurn { s with ahead := false }

/-! ## A program for one word -/

/-- A page-table entry, and memory that leads code address 0x1000 of function 1 to physical address 0x2000_1000 by a
block: PTROOT names frame 1, the top table's entry 0 frame 2, the middle table's entry 0 the block (R290). -/
def probeMem (m : Memory) : Memory :=
  let m := Memory.write m 0x10000 8 (1 + 2 * 2 ^ 16)
  Memory.write m 0x20000 8 (0xF + 0x2000 * 2 ^ 16)

/-- The launch that the word belongs to, and the object that holds its code. -/
def probeLaunch : Launch :=
  { id := 1, fn := 1, total := 1, frames := [(0, 0)],
    record := { handle := 1, entry := 0, savePtr := 0x100000, saveSize := 0x106000, comp := 0x300000, slots := 1 } }

/-- See probeLaunch. -/
def probeObj : Obj := { handle := 1, fn := 1, codeBase := 0x1000, codeSize := 0x1000 }

/-- s with a task on core 0, front 0, and the word w where the front fetches next, at code address 0x1004. A word of
the vector class stands as the one member of a convoy whose header, at 0x1000, the front has decoded (R138). -/
def placeWord (s : State) (w : Nat) : State :=
  let member := vectorClass (w % 128)
  let s := s.select 0
  let before : Before := { g := s.t.g, modes := s.t.modes, count := s.t.count }
  let conv : Conv := { cv := { hdr := 0x1000, word := 0x7F, entries := [] }, next := 0, cnt := 0, before := before }
  { s with
    power := true, ahead := false, plan := [], agenda := [],
    mem := Memory.write (probeMem s.mem) 0x20001000 8 (0x7F + w * 2 ^ 32),
    funcs := { s.func 1 with ptroot := 1 + 1 * 2 ^ 16 } :: s.funcs.filter fun f => f.n != 1,
    launches := probeLaunch :: s.launches.filter fun l => l.id != 1,
    objs := probeObj :: s.objs.filter fun o => o.handle != 1,
    c := if member then { s.c with holder := some 0 } else s.c,
    t := { s.t with live := true, launch := 1, task := 0, fn := 1, pc := 0x1004, wait := none, queue := [],
                    inHandler := false, conv := if member then some conv else none } }

end Sys2Proof.Machine
end

