-- ==== Sys2Proof/Safety.lean ====
section
/-! DEFINITION. What counts as a safe run: every step answers a next state. A trap that a task takes is part of a safe
run (R354); a fault of the machine or a refusal is not. Then the states and results that the statements speak of. -/

namespace Sys2Proof.Machine

/-- The step from s answers a next state. -/
def Goes (s : State) : Prop := ∃ t, step s = .next t

/-- t follows s after n steps, each of which answered a next state. -/
def Reaches : Nat → State → State → Prop
  | 0, s, t => s = t
  | n + 1, s, t => ∃ u, step s = .next u ∧ Reaches n u t

/-- No run of n steps from s stops. -/
def SafeFor (n : Nat) (s : State) : Prop := ∀ k, k < n → ∀ t, Reaches k s t → Goes t

/-! ## Bytes of memory -/

/-- The byte at place p exists: a byte of device memory, or of one of the spaces of a core (Table 6-2). -/
def HasByte (p : Nat) : Prop :=
  p < chip ∨ (p - chip < 2 ^ 40 ∧ mapCore (p - chip) < 36 ∧ mapOff (p - chip) < spaceSize (mapSpace (p - chip)))

/-- The bytes of u are those of s, but for n bytes from place p. -/
def SameBytes (s u : State) (p n : Nat) : Prop := ∀ q, HasByte q → q < p ∨ p + n ≤ q → u.byteAt q = s.byteAt q

/-- u is s but for entries of translation buffers and the counts of their splits and misses (R294, R297). -/
def OnlyTlbs (s u : State) : Prop :=
  u = { s with c := u.c, cores := u.cores, dies := u.dies } ∧
  (∃ tl ll k, u.c = { s.c with tlb := tl, ladleTlb := ll, counters := { s.c.counters with tlbsplit := k } }) ∧
  (∀ n, ∃ tl ll k, u.coreAt n =
    { s.coreAt n with tlb := tl, ladleTlb := ll, counters := { (s.coreAt n).counters with tlbsplit := k } }) ∧
  ∀ d : Fin 8, ∃ tl sp rm, u.dies[d] = { s.dies[d] with tlb := tl, split := sp, runmiss := rm }

/-! ## Named updates, for statements -/

/-- s with its current task, or its current core, replaced. -/
def State.withTask (s : State) (t : Task) : State := { s with t := t }
def State.withCore (s : State) (c : Core) : State := { s with c := c }

/-! ## A front between words -/

/-- The front stands at a word of its own with nothing under way: it decodes no convoy, no decoded convoy or command has
still to run, no register awaits a latency (R61) or an append (R194), and no single step is set (R372). -/
def Quiet (s : State) : Prop :=
  s.t.conv = none ∧ s.t.queue = [] ∧ s.t.late = [] ∧ s.t.strip.elim [] Strip.apps = [] ∧ s.t.dbgctl.getLsbD 0 = false

/-- A quiet front whose strip is closed. -/
def Settled (s : State) : Prop := Quiet s ∧ s.t.strip = none

/-- A word has completed in one cycle: the front waits in no word, and its cycle is spent. -/
def State.wordDone (s : State) : State :=
  { s with t := { s.t with wait := none, cycle := s.t.cycle + 1 }, cycle := Nat.max s.cycle (s.t.cycle + 1) }

/-- A word has completed in one cycle and sequential flow goes on (R157). -/
def State.after (s : State) : State := s.seq.wordDone

/-- An atomic word at a place can act at once: the place lies outside the issuer's own lane state, or no strip is open that it
would have to close first (R154). s is the state before the access check, u after it. -/
def InReach (s u : State) (place : Nat) : Prop := ownLanes u place = false ∨ Settled s ∧ s.t.timed = false

/-- u is s but for the front's scalar registers, its pc and loops, and the passing of time. -/
def OnlyScalar (s u : State) : Prop :=
  u = { s with cycle := u.cycle,
               t := { s.t with g := u.t.g, pc := u.t.pc, loops := u.t.loops, cycle := u.t.cycle, late := u.t.late,
                               wait := u.t.wait } }

/-- The pointer a scalar load or store of n bytes forms: gB moved by n times the immediate, its segment kept (R153). -/
def pointerOf (s : State) (b : GReg) (imm : BitVec 11) (n : Nat) : Nat :=
  (s.g b).toNat / 2 ^ 60 * 2 ^ 60 + ((((s.g b).toNat % 2 ^ 60 : Nat) : Int) + imm.toInt * n).toNat % 2 ^ 60

/-- The task of w is that of s after a word that wrote no register and went on in sequence. -/
def TaskKept (s w : State) : Prop :=
  w.t = { s.t with pc := (nextWord s.t).pc, loops := (nextWord s.t).loops, cycle := w.t.cycle, wait := none }

/-- w is s but for the current task, bytes of memory, lane registers and scratchpads, translation buffers, and the
passing of time. -/
def OnlyBytes (s w : State) : Prop :=
  w = { s with cycle := w.cycle, t := w.t, mem := w.mem, c := w.c, cores := w.cores, dies := w.dies, bad := w.bad } ∧
  (∀ n, ∃ tl ll k, w.coreAt n = { s.coreAt n with
    tlb := tl, ladleTlb := ll, counters := { (s.coreAt n).counters with tlbsplit := k },
    lanes := (w.coreAt n).lanes, tiles := (w.coreAt n).tiles, bstore := (w.coreAt n).bstore }) ∧
  ∀ d : Fin 8, ∃ tl sp rm, w.dies[d] = { s.dies[d] with tlb := tl, split := sp, runmiss := rm }

/-- i completes, leaving v in register a, going on in sequence, and changing nothing else. -/
def Writes (s : State) (i : Instr) (a : GReg) (v : Word) : Prop :=
  ∃ u, exec i s = .next u ∧ (∀ r, u.g r = if r = a ∧ a ≠ 0 then v else s.g r) ∧ u.t.pc = (nextWord s.t).pc ∧
    u.t.loops = (nextWord s.t).loops ∧ u.t.wait = none ∧ OnlyScalar s u

/-! ## A vector-class word alone in its convoy -/

/-- The front past a convoy of one word that has been counted (R82, R136). -/
def State.lone (s : State) : State := s.counted.pastConvoy []

/-- A free front has decoded the header of a convoy of one member, its word next, with nothing else under way: no
convoy or command decoded or forked, no latency, no append, no queue bound, no debug stop set, no unit of memory bad, no
remote write landing in its registers, the lanes held, and a strip with room. -/
structure Lone (s : State) : Prop where
  /-- The convoy being decoded: its header's address and word alone. -/
  conv : s.t.conv.elim False fun c => c.next = 0 ∧ c.cnt = 0 ∧ c.cv.entries = [] ∧ c.cv.cmd = none ∧ c.cv.again = false
  queue : s.t.queue = []
  late : s.t.late = []
  free : s.t.timed = false
  handler : s.t.inHandler = false
  debug : s.t.dbgctl = 0
  single : s.t.single = false
  behind : s.ahead = false
  lanes : s.c.holder = some s.t.front
  good : s.bad = []
  here : s.c.num = s.t.core
  cmds : s.c.cmds = []
  landing : landing s.lone s.actor = []
  bind : s.c.lanes.bind = []
  apps : s.stripNow.apps = []
  shadow : s.stripNow.shadow = []
  stores : s.stripNow.stores = []
  bread : s.stripNow.bread = []
  undo : s.stripNow.undo = false
  room : s.stripNow.nins < 64
  depth : s.t.depth ≤ s.stripNow.depth

/-- Element k is active under the mask that a word with mask bit m takes (R67). -/
def State.active (s : State) (m : Bool) (k : Nat) : Bool := (s.activeMask s.t.modes m).testBit k

/-- Granted elements and element width (R174). -/
def State.vl (s : State) : Nat := s.t.modes.vl.toNat
def State.width (s : State) : Nat := typeBits s.t.modes.vtype.toNat

/-- Element k of vn at the element width, unsigned, and by the signedness of the type (R176). -/
def State.el (s : State) (n : VReg) (k : Nat) : Nat := elem (s.vr s.t.modes n.val) s.width k
def State.eli (s : State) (n : VReg) (k : Nat) : Int :=
  if isSigned s.t.modes.vtype.toNat then signed (s.el n k) s.width else (s.el n k : Int)

/-- In u, the active granted elements of vA are f k, and its other elements as in s (R172). -/
def ElemsOf (s u : State) (m : Bool) (a : VReg) (f : Nat → Nat) : Prop :=
  ∀ k, s.width * (k + 1) ≤ 32768 →
    elem (u.vr s.t.modes a.val) s.width k = if k < s.vl ∧ s.active m k then f k % 2 ^ s.width else s.el a k

/-- u is s but for vector registers and their bookkeeping, the strip, the counts of stalls and of work (R282, R332), and the
front's way through its code. -/
def OnlyVector (s u : State) : Prop :=
  u = { s with cycle := u.cycle,
               t := { s.t with pc := u.t.pc, loops := u.t.loops, cycle := u.t.cycle, wait := u.t.wait, conv := none,
                               count := u.t.count, strip := u.t.strip, stall := u.t.stall },
               c := { s.c with
                 loads := u.c.loads,
                 lanes := { s.c.lanes with v := u.c.lanes.v, vMark := u.c.lanes.vMark, progress := u.c.lanes.progress } } }

/-- The strip of u is that of s with flags of the elements fs raised, and stores and appends none that were not there. -/
def Raises (s u : State) (fs : Raised) : Prop :=
  u.stripNow.flags = s.stripNow.flags ||| BitVec.ofNat 6 fs.all ∧ u.stripNow.stores = [] ∧ u.stripNow.apps = [] ∧
    u.stripNow.fexc = if fs.all = 0 then s.stripNow.fexc else some (fexcWord0 fs, fexcWord1 fs)

/-- The word completes alone in its convoy: it writes elements f to vA and raises the flags fs; other registers, memory
and the task's other state stay. -/
def VecResult (s : State) (i : Instr) (m : Bool) (a : VReg) (f : Nat → Nat) (fs : Raised) : Prop :=
  ∃ u, exec i s = .next u ∧ ElemsOf s u m a f ∧ (∀ p, p ≠ phys s.t.modes a.val → u.c.lanes.v[p] = s.c.lanes.v[p]) ∧
    Raises s u fs ∧ u.t.pc = (nextWord s.t).pc ∧ OnlyVector s u

/-- The active granted elements, ascending. -/
def State.actives (s : State) (m : Bool) : List Nat := (List.range s.vl).filter (s.active m)

/-- The flags that element-wise results raise, each at its element (R80). -/
def State.flagsOf (s : State) (m : Bool) (r : Nat → Res) : Raised := (s.actives m).map fun k => (k, (r k).flags)

/-- Every check of the word passes at decode, alone in its convoy (R337). -/
def Accepted (s : State) (i : Instr) : Prop := ∀ hdr, memberTrap i (capture i s) hdr 0 1 s.t.vmax false = none

/-- The state on which the effect of a word alone in its convoy acts: the front has gone past the convoy, and the strip
has noted the word's reads and writes (R45, R47). -/
def State.acting (s : State) (i : Instr) : State := s.lone.noted (capture i s) (useOf (capture i s) s.lone)

/-- u is s but for lane registers and their marks, scalar registers, the strip, the counts of stalls and of work (R282, R332),
and the front's way through its code. -/
def OnlyMember (s u : State) : Prop :=
  u = { s with cycle := u.cycle,
               t := { s.t with g := u.t.g, pc := (nextWord s.t).pc, loops := (nextWord s.t).loops, cycle := s.t.cycle + 1,
                               wait := none, conv := none, count := s.t.count + 1, strip := u.t.strip,
                               stall := u.t.stall },
               c := { s.c with loads := u.c.loads, lanes := u.c.lanes } }

/-- The lane registers of u are those of s but for registers ws; bindings stay. -/
def LanesBut (s u : State) (ws : List LReg) : Prop :=
  (∀ p : Fin 256, LReg.v p.val ∉ ws → u.c.lanes.v[p] = s.c.lanes.v[p]) ∧
  (∀ k : Fin 16, LReg.m k.val ∉ ws → u.c.lanes.m[k] = s.c.lanes.m[k]) ∧
  (∀ k : Fin 8, LReg.t k.val ∉ ws → u.c.lanes.tile[k] = s.c.lanes.tile[k] ∧ u.c.lanes.side[k] = s.c.lanes.side[k]) ∧
  (∀ k : Fin 16, LReg.a k.val ∉ ws → u.c.lanes.acc[k] = s.c.lanes.acc[k]) ∧ u.c.lanes.bind = s.c.lanes.bind

/-- The word completes alone in its convoy, leaving v in the scalar register a and raising the flags fs. -/
def VecScalar (s : State) (i : Instr) (a : GReg) (v : Word) (fs : Raised) : Prop :=
  ∃ u, exec i s = .next u ∧ (∀ r, u.g r = if r = a ∧ a ≠ 0 then v else s.g r) ∧ LanesBut s u [] ∧ Raises s u fs ∧ OnlyMember s u

/-- The word completes alone in its convoy, making bits f of mask register a where active (R172). -/
def VecMask (s : State) (i : Instr) (m : Bool) (a : MReg) (f : Nat → Bool) (fs : Raised) : Prop :=
  ∃ u, exec i s = .next u ∧ (∀ k, k < 4096 → u.c.lanes.m[a].getLsbD k =
      if k < s.vl ∧ s.active m k then f k else s.c.lanes.m[a].getLsbD k) ∧
    LanesBut s u [.m a.val] ∧ Raises s u fs ∧ u.t.g = s.t.g ∧ OnlyMember s u

/-- 64-bit lane j of vn (R188), and the layout a packed word names (R72). -/
def State.lane (s : State) (n j : Nat) : Nat := elem (s.vr s.t.modes n) 64 j
def State.layout (s : State) (f : FReg) : Nat := s.t.f[f].toNat

/-- The accesses of the active elements at pointers f k: an element's bytes each, aligned to them (R185). -/
def State.accesses (s : State) (m : Bool) (f : Nat → Word) : List (Nat × Nat × Nat) :=
  let n := if s.width = 4 then 1 else s.width / 8
  (s.actives m).map fun k => ((f k).toNat, n, n)

/-- What the element of number k holds of the bytes read for it: a nibble where elements have four bits. -/
def State.nibble (s : State) (k v : Nat) : Nat := if s.width = 4 then v / 2 ^ (4 * (k % 2)) % 16 else v

/-- A header of a riser record in the 16 bytes below position d (Table 12-5): tag, type, auxiliary value, VL, length. -/
def Header (t : Task) (d tag type aux vl len : Nat) : Prop :=
  let h := Memory.read t.riser (d - 16) 16
  16 ≤ d ∧ field h 0 8 = tag ∧ field h 8 8 = type ∧ field h 16 16 = aux ∧ field h 32 16 = vl ∧ field h 64 32 = len

/-- The environment of a matrix product that the task's modes and tables give (R202, R204). -/
def State.matEnv (s : State) : MatEnv :=
  { mt := s.t.modes.mtype.toNat, shape := s.t.modes.shape.toNat, codebk := codebkNat s.t, perm := permNat s.c,
    permLen := if s.t.modes.kpermEn then s.t.kpermLen else 0 }

/-! ## Engine commands and events -/

/-- The word is captured as an engine command of batch n with registers rs (R49, R227): the newest of the core's commands,
unsealed, not forked, the batch owned by its task, its fork due. -/
def Captures (s : State) (i : Instr) (n : Batch) (rs : List Word) : Prop :=
  ∃ u d, exec i s = .next u ∧ u.c.cmds.getLast? = some d ∧ u.c.cmds.length = s.c.cmds.length + 1 ∧
    d.instr = i ∧ d.batch = n.val ∧ d.regs = rs ∧ d.launch = s.t.launch ∧ d.task = s.t.task ∧ d.modes = s.t.modes ∧
    d.segs = s.t.segs ∧ d.sealed = false ∧ d.forked = false ∧ d.done = false ∧
    (u.c.batches[n]).owner = some (s.t.launch, s.t.task) ∧ (.engineCommandFork, { n := [s.c.num, d.id] }) ∈ u.agenda ∧
    u.t.g = s.t.g ∧ u.t.pc = (nextWord s.t).pc ∧ u.t.wait = none ∧ u.mem = s.mem

/-- The held set has room, and batch n is nobody else's (R227, R231). -/
def HasRoom (s : State) (n : Batch) : Prop :=
  heldCount s.c < 16 ∧ ((s.c.batches[n]).owner = none ∨ (s.c.batches[n]).owner = some (s.t.launch, s.t.task))

/-- The event names the current front, where a task runs. -/
def Here (s : State) : Prop :=
  s.arg 0 = s.t.core ∧ s.arg 1 = s.t.front ∧ s.t.front < 2 ∧ s.c.num = s.t.core ∧ s.t.live = true

/-- In u the current front is that of s. -/
def SameFront (s u : State) : Prop := u.t.core = s.t.core ∧ u.t.front = s.t.front ∧ u.c.num = s.c.num

/-- The event names core and number of a command that a completion finds ready, of a free task, on or after its cycle (R61). -/
def CmdReady (s : State) (num : Nat) (d : Cmd) : Prop :=
  s.arg 0 = num ∧ s.cmdAt num (s.arg 1) = some d ∧ d.begun = true ∧ d.done = false ∧ d.pages = [] ∧ d.timed = false ∧ d.due s = true

end Sys2Proof.Machine
end

