-- ==== Sys2Proof/Certificates/Slice0/Obligations.lean ====
section
/-! DEFINITION. The statements for the provers. Their hypotheses are predicates of Safety.lean on the state, and the
answers of the access checks and reads of Machine/Place.lean; their conclusions name the next state or what it holds. -/

open Sys2Proof Sys2Proof.Machine

/-! ## Scalar words that only compute -/

/-- The ALU forms write gA as Table 8-1 gives and change nothing else (R147). -/
def Obligations.AluResults : Prop :=
  ∀ (s : State) (a b c : GReg), Quiet s →
    let x := s.g b
    let y := s.g c
    let n := y.toNat % 64
    Writes s (.add a b c) a (x + y) ∧ Writes s (.sub a b c) a (x - y) ∧ Writes s (.and a b c) a (x &&& y) ∧
    Writes s (.or a b c) a (x ||| y) ∧ Writes s (.xor a b c) a (x ^^^ y) ∧ Writes s (.sll a b c) a (x <<< n) ∧
    Writes s (.srl a b c) a (x >>> n) ∧ Writes s (.sra a b c) a (x.sshiftRight n) ∧
    Writes s (.min a b c) a (if y.toNat < x.toNat then y else x) ∧ Writes s (.max a b c) a (if x.toNat < y.toNat then y else x) ∧
    Writes s (.mins a b c) a (if y.toInt < x.toInt then y else x) ∧ Writes s (.maxs a b c) a (if x.toInt < y.toInt then y else x) ∧
    Writes s (.slt a b c) a (if x.toNat < y.toNat then 1 else 0) ∧ Writes s (.slts a b c) a (if x.toInt < y.toInt then 1 else 0) ∧
    Writes s (.sel a b c) a (if y = 0 then s.g a else x)

/-- Multiplication and division (R148): division by zero gives all ones, the one overflow wraps. -/
def Obligations.MulDivResults : Prop :=
  ∀ (s : State) (a b c : GReg), Quiet s →
    let x := s.g b
    let y := s.g c
    let ones : Word := BitVec.allOnes 64
    Writes s (.mul a b c) a (BitVec.ofNat 64 (x.toNat * y.toNat)) ∧
    Writes s (.mulh a b c) a (BitVec.ofNat 64 (x.toNat * y.toNat / 2 ^ 64)) ∧
    Writes s (.mulhs a b c) a (BitVec.ofInt 64 (x.toInt * y.toInt / 2 ^ 64)) ∧
    Writes s (.div a b c) a (if y = 0 then ones else BitVec.ofNat 64 (x.toNat / y.toNat)) ∧
    Writes s (.divs a b c) a (if y = 0 then ones else BitVec.ofInt 64 (x.toInt.tdiv y.toInt)) ∧
    Writes s (.rem a b c) a (if y = 0 then ones else BitVec.ofNat 64 (x.toNat - y.toNat * (x.toNat / y.toNat))) ∧
    Writes s (.rems a b c) a (if y = 0 then ones else BitVec.ofInt 64 (x.toInt - y.toInt * x.toInt.tdiv y.toInt))

/-- The bit forms, bit by bit (R149): a length field of 0 means 64. -/
def Obligations.BitResults : Prop :=
  ∀ (s : State) (a b c : GReg), Quiet s →
    let x := s.g b
    let pos := (s.g c).toNat % 64
    let n := if pos = 0 then 64 else pos
    let m := if (s.g c).toNat / 2 ^ 8 % 64 = 0 then 64 else (s.g c).toNat / 2 ^ 8 % 64
    (∃ k : Nat, Writes s (.clz a b) a (BitVec.ofNat 64 k) ∧ k ≤ 64 ∧ (∀ j, j < k → x.getLsbD (63 - j) = false) ∧
      (k < 64 → x.getLsbD (63 - k) = true)) ∧
    (∃ k : Nat, Writes s (.ctz a b) a (BitVec.ofNat 64 k) ∧ k ≤ 64 ∧ (∀ j, j < k → x.getLsbD j = false) ∧
      (k < 64 → x.getLsbD k = true)) ∧
    Writes s (.popc a b) a (BitVec.ofNat 64 ((List.range 64).filter x.getLsbD).length) ∧
    (∃ v : Word, Writes s (.brev a b) a v ∧ ∀ k, k < 64 → v.getLsbD k = x.getLsbD (63 - k)) ∧
    (∃ v : Word, Writes s (.bswap a b) a v ∧ ∀ k j, k < 8 → j < 8 → v.getLsbD (8 * k + j) = x.getLsbD (8 * (7 - k) + j)) ∧
    (∃ v : Word, Writes s (.sext a b c) a v ∧ ∀ k, k < 64 → v.getLsbD k = x.getLsbD (if k < n then k else n - 1)) ∧
    (∃ v : Word, Writes s (.zext a b c) a v ∧ ∀ k, v.getLsbD k = (decide (k < n) && x.getLsbD k)) ∧
    (∃ v : Word, Writes s (.extr a b c) a v ∧ ∀ k, v.getLsbD k = (decide (k < m) && x.getLsbD (pos + k))) ∧
    (∃ v : Word, Writes s (.ins a b c) a v ∧
      ∀ k, k < 64 → v.getLsbD k = if pos ≤ k ∧ k < pos + m then x.getLsbD (k - pos) else (s.g a).getLsbD k)

/-- The immediate forms (R150): ANDI, ORI and XORI extend imm11 with zeros, the others with its sign. LUI and LSH build
constants (R151). The pointer group computes offsets modulo 2^60; no carry enters bits 63:60 (R152). -/
def Obligations.ImmediateResults : Prop :=
  (∀ (s : State) (a b : GReg) (imm : BitVec 11) (sh : Fin 64), Quiet s →
     let x := s.g b
     Writes s (.addi a b imm) a (x + imm.signExtend 64) ∧ Writes s (.andi a b imm) a (x &&& imm.zeroExtend 64) ∧
     Writes s (.ori a b imm) a (x ||| imm.zeroExtend 64) ∧ Writes s (.xori a b imm) a (x ^^^ imm.zeroExtend 64) ∧
     Writes s (.slti a b imm) a (if x.toNat < (imm.signExtend 64).toNat then 1 else 0) ∧
     Writes s (.sltis a b imm) a (if x.toInt < imm.toInt then 1 else 0) ∧
     Writes s (.slli a b sh) a (x <<< sh.val) ∧ Writes s (.srli a b sh) a (x >>> sh.val) ∧
     Writes s (.srai a b sh) a (x.sshiftRight sh.val)) ∧
  (∀ (s : State) (a : GReg) (imm : BitVec 18), Quiet s →
     Writes s (.lui a imm) a (imm.signExtend 64 <<< 14) ∧ Writes s (.lsh a imm) a (s.g a <<< 18 ||| imm.zeroExtend 64)) ∧
  (∀ (s : State) (a b c : GReg) (imm : BitVec 11), Quiet s →
     let seg : Word → Nat := fun w => w.toNat / 2 ^ 60
     let off : Word → Nat := fun w => w.toNat % 2 ^ 60
     let ptr (g o : Nat) : Word := BitVec.ofNat 64 (g * 2 ^ 60 + o)
     Writes s (.padd a b c) a (ptr (seg (s.g b)) ((off (s.g b) + (s.g c).toNat) % 2 ^ 60)) ∧
     Writes s (.pmk a b c) a (ptr ((s.g b).toNat % 16) (off (s.g c))) ∧
     Writes s (.pseg a b) a (BitVec.ofNat 64 (seg (s.g b))) ∧
     Writes s (.poff a b) a (BitVec.ofNat 64 (off (s.g b))) ∧
     Writes s (.paddi a b imm) a (ptr (seg (s.g b)) (((off (s.g b) : Int) + imm.toInt) % 2 ^ 60).toNat))

/-! ## Branches, jumps and loops -/

/-- A branch goes to its own address plus four times its offset when its condition holds, else on in sequence; it
writes no register (R155, R135). Leaving a body disarms its level (LoopWords says how). -/
def Obligations.BranchResults : Prop :=
  ∀ (s : State) (a b : GReg) (imm : BitVec 11), Quiet s →
    let x := s.g a
    let y := s.g b
    let dst := s.t.pc + BitVec.ofInt 64 (4 * imm.toInt)
    let goes (i : Instr) (p : Prop) : Prop :=
      (p → exec i s = .next (s.withTask (jumpTo (leaveBodies s.t dst) dst)).wordDone) ∧ (¬ p → exec i s = .next s.after)
    goes (.beq a b imm) (x = y) ∧ goes (.bne a b imm) (x ≠ y) ∧ goes (.blt a b imm) (x.toNat < y.toNat) ∧
    goes (.bge a b imm) (y.toNat ≤ x.toNat) ∧ goes (.blts a b imm) (x.toInt < y.toInt) ∧
    goes (.bges a b imm) (y.toInt ≤ x.toInt)

/-- Jumps and links (R155): JAL leaves the address of the word after in g1, JALR in gA, after reading gB; neither
disarms a level. A register target that is not a multiple of four is cause 0x11 before the word. -/
def Obligations.JumpResults : Prop :=
  ∀ (s : State) (a b : GReg) (imm : BitVec 25), Quiet s →
    let dst := s.t.pc + BitVec.ofInt 64 (4 * imm.toInt)
    let reg := s.g b
    exec (.j imm) s = .next (s.withTask (jumpTo (leaveBodies s.t dst) dst)).wordDone ∧
    exec (.jal imm) s = .next (s.withTask (jumpTo (s.t.setG 1 (s.t.pc + 4)) dst)).wordDone ∧
    (reg.toNat % 4 = 0 →
      exec (.jr b) s = .next (s.withTask (jumpTo (leaveBodies s.t reg) reg)).wordDone ∧
      exec (.jalr a b) s = .next (s.withTask (jumpTo (s.t.setG a (s.t.pc + 4)) reg)).wordDone) ∧
    (reg.toNat % 4 ≠ 0 → Settled s → s.t.timed = false →
      exec (.jr b) s = .next (takeTrap s { cause := 0x11, info := reg.toNat } s.t.pc []) ∧
      exec (.jalr a b) s = .next (takeTrap s { cause := 0x11, info := reg.toNat } s.t.pc []))

/-- LOOP with a count of zero skips the body; else it arms its level and goes on in sequence (R156, R157). A length of zero is cause 0x01. LCLR clears
the armed bits its mask names (R158). A taken branch out of a body clears the armed bit of its level and leaves its count;
other levels stay (R158). That a LOOP with count zero ends no pass of another level whose body ends where its own does is the
model's choice, not R157's words: notes/assumptions/20.md. -/
def Obligations.LoopWords : Prop :=
  (∀ (s : State) (k : Fin 2) (b : GReg) (len : BitVec 11) (mask : Fin 4), Quiet s →
     let p := s.t.pc
     let last := p + 4 + BitVec.ofNat 64 (4 * len.toNat)
     (len ≠ 0 → s.g b = 0 → exec (.loop k b len) s = .next (s.withTask (jumpTo s.t last)).wordDone) ∧
     (len = 0 → Settled s → s.t.timed = false → exec (.loop k b len) s =
       .next (takeTrap s { cause := 0x01, info := wordNat (.loop k b len) + 5 * 2 ^ 32 + 0x7FF * 2 ^ 40 } s.t.pc [])) ∧
     (len ≠ 0 → s.g b ≠ 0 →
       exec (.loop k b len) s = .next (s.withTask (flowTo
         { s.t with loops := s.t.loops.set k.val { lb := p + 4, le := last ||| 1, lc := s.g b } k.isLt } (p + 4))).wordDone) ∧
     (∃ u : State, exec (.lclr mask) s = .next u.after ∧ u = s.withTask { s.t with loops := u.t.loops } ∧
       ∀ j : Fin 2, u.t.loops[j].lb = s.t.loops[j].lb ∧ u.t.loops[j].lc = s.t.loops[j].lc ∧
         ∀ n, u.t.loops[j].le.getLsbD n = (s.t.loops[j].le.getLsbD n && !(n == 0 && mask.val.testBit j.val)))) ∧
  (∀ (t : Task) (dst : Word) (k : Fin 2),
     let l := t.loops[k]
     let m := (leaveBodies t dst).loops[k]
     let stop := l.le.toNat / 4 * 4
     let inBody (a : Word) : Prop := l.lb.toNat ≤ a.toNat ∧ a.toNat < stop
     m.lb = l.lb ∧ m.lc = l.lc ∧ (∀ n, n ≠ 0 → m.le.getLsbD n = l.le.getLsbD n) ∧
     (l.le.getLsbD 0 = true → inBody t.pc → ¬ inBody dst → m.le.getLsbD 0 = false) ∧
     (l.le.getLsbD 0 = false ∨ ¬ inBody t.pc ∨ inBody dst → m = l))

/-- Sequential flow (R157): with no armed level ending at the next address the pc is that address; where one level ends
there, it makes its next pass or falls through; where both do, the shorter body ends its pass first, level 1 when they
are equal, and the other only if that one falls through. -/
def Obligations.LoopFlow : Prop :=
  ∀ (t : Task),
    let a := t.pc + 4
    let u := nextWord t
    let ends (k : Fin 2) : Prop := t.loops[k].le.getLsbD 0 = true ∧ t.loops[k].le.toNat / 4 * 4 = a.toNat
    let body (k : Fin 2) : Nat := t.loops[k].le.toNat / 4 * 4 - t.loops[k].lb.toNat
    let again (k : Fin 2) : Prop := 1 < t.loops[k].lc.toNat
    let passes (k : Fin 2) : Prop := u.pc = t.loops[k].lb ∧ u.loops[k] = { t.loops[k] with lc := t.loops[k].lc - 1 }
    let falls (k : Fin 2) : Prop := u.loops[k].lc = 0 ∧ u.loops[k].lb = t.loops[k].lb ∧ u.loops[k].le.getLsbD 0 = false ∧
      ∀ n, n ≠ 0 → u.loops[k].le.getLsbD n = t.loops[k].le.getLsbD n
    (¬ ends 0 → ¬ ends 1 → u.pc = a ∧ u.loops = t.loops) ∧
    (∀ k j : Fin 2, k ≠ j → ends k → ¬ ends j →
      u.loops[j] = t.loops[j] ∧ (again k → passes k) ∧ (¬ again k → falls k ∧ u.pc = a)) ∧
    (∀ k j : Fin 2, k ≠ j → ends k → ends j → (body k < body j ∨ body k = body j ∧ k = 1) →
      (again k → passes k ∧ u.loops[j] = t.loops[j]) ∧
      (¬ again k → falls k ∧ (again j → passes j) ∧ (¬ again j → falls j ∧ u.pc = a)))

/-! ## Loads and stores -/

/-- A load leaves the n bytes at its pointer, extended, in gA (R153); in a timed domain it sees them as its domain does
(R57, R60). Nothing else changes but what the access check leaves in the translation buffers (AccessFrame). What a core of
a domain sees of a write of another: nothing of it until 64 cycles after its issue on the same die, 192 on another, and of
its own from the next cycle on (R60). What other cores see of a store that its domain holds for a restart point, the same, and
the cycle from which its own core sees it are the model's reading of R57 and R60: notes/assumptions/5.md. -/
def Obligations.LoadResults : Prop :=
  (∀ (s s' : State) (a b : GReg) (imm : BitVec 11) (place v : Nat), Settled s →
    let loads (i : Instr) (n : Nat) (ext : Nat → Word) : Prop :=
      checkAccess s s.actor (pointerOf s b imm n) n n .rd = .ok (place, s') → readPlace s' place n = .ok v →
      (s.t.timed = true → ownLanes s' place = false) →
      exec i s = .next (((s'.setG a (ext (s'.sight s.t.cycle place n v))).lateBy a (loadLatency s' place)).after)
    loads (.ldB a b imm) 1 (fun x => BitVec.ofNat 64 x) ∧ loads (.ldH a b imm) 2 (fun x => BitVec.ofNat 64 x) ∧
    loads (.ldW a b imm) 4 (fun x => BitVec.ofNat 64 x) ∧ loads (.ldD a b imm) 8 (fun x => BitVec.ofNat 64 x) ∧
    loads (.ldBs a b imm) 1 (fun x => (BitVec.ofNat 8 x).signExtend 64) ∧
    loads (.ldHs a b imm) 2 (fun x => (BitVec.ofNat 16 x).signExtend 64) ∧
    loads (.ldWs a b imm) 4 (fun x => (BitVec.ofNat 32 x).signExtend 64)) ∧
  (∀ (s : State) (p : Past) (w : Store) (place n v : Nat), s.t.timed = true → v < 2 ^ (8 * n) →
     let me := s.c.num
     let seen (core cycle : Nat) : Prop :=
       if core = me then cycle < s.t.cycle else cycle + (if core / 36 = me / 36 then 64 else 192) ≤ s.t.cycle
     (s.pasts = [] → heldOf s s.t.launch = [] → s.sight s.t.cycle place n v = v) ∧
     (s.pasts = [p] → heldOf s s.t.launch = [] → p.launch = s.t.launch → p.engine = false → p.place = place → p.len = n → 0 < n →
       s.sight s.t.cycle place n v = if seen p.core p.cycle then v else p.old % 2 ^ (8 * n)) ∧
     (s.pasts = [] → heldOf s s.t.launch = [w] → w.engine = false → w.place = place → w.len = n → w.mask = 0 →
       s.sight s.t.cycle place n v = if seen w.core w.cycle then w.val % 2 ^ (8 * n) else v))

/-- A store of n bytes by a free task completes, leaves the low n bytes of gA at the place its pointer reaches and every
other byte as it was, and changes nothing else (R153, R4). A store of a timed task to device memory waits for the restart
point (R57): no byte changes yet. A store into another core's mailbox range lands there and raises the holder's MBCNT by
one (R115), where no unit of it is bad (R388). -/
def Obligations.StoreResults : Prop :=
  (∀ (s s' u : State) (a b : GReg) (imm : BitVec 11) (place : Nat), Settled s → s.t.timed = false →
     let stores (i : Instr) (n : Nat) : Prop :=
       checkAccess s s.actor (pointerOf s b imm n) n n .wr = .ok (place, s') → HasByte place → place % n = 0 →
       (chip ≤ place → mapSpace (place - chip) < 5 ∧ (mapSpace (place - chip) = 1 → mapNum (place - chip) = s.c.num)) →
       let now : Store := { place := place, len := n, val := (s.g a).toNat % 2 ^ (8 * n), hdr := s.t.pc.toNat,
                            core := s.c.num, cycle := s.t.cycle }
       landStores s' none [now] = .ok u →
       ∃ w, exec i s = .next w ∧ getPlace w place n = (s.g a).toNat % 2 ^ (8 * n) ∧ SameBytes s w place n ∧
         TaskKept s w ∧ OnlyBytes s w
     stores (.stB a b imm) 1 ∧ stores (.stH a b imm) 2 ∧ stores (.stW a b imm) 4 ∧ stores (.stD a b imm) 8) ∧
  (∀ (s s' : State) (a b : GReg) (imm : BitVec 11) (place : Nat), Settled s → s.t.timed = true → s.c.pipe = [] → place < chip →
     let stores (i : Instr) (n : Nat) : Prop :=
       checkAccess s s.actor (pointerOf s b imm n) n n .wr = .ok (place, s') →
       let late : Store := { place := place, len := n, val := (s.g a).toNat % 2 ^ (8 * n), hdr := s.t.pc.toNat,
                             core := s.c.num, cycle := s.t.cycle }
       exec i s = .next (s'.withTask { s'.t with deferred := s'.t.deferred ++ [late] }).after
     stores (.stB a b imm) 1 ∧ stores (.stH a b imm) 2 ∧ stores (.stW a b imm) 4 ∧ stores (.stD a b imm) 8) ∧
  (∀ (s s' : State) (a b : GReg) (imm : BitVec 11) (place : Nat), Settled s → s.t.timed = false → chip ≤ place →
     mapSpace (place - chip) = 1 → mapNum (place - chip) ≠ s'.c.num →
     (∀ n, mergesBad s' place n = none) → inMailbox s' (mapNum (place - chip)) (mapOff (place - chip) / 4096) = true →
     let stores (i : Instr) (n : Nat) : Prop :=
       checkAccess s s.actor (pointerOf s b imm n) n n .wr = .ok (place, s') →
       ∃ (h : Nat) (t : Task) (u : State), (s'.coreAt (mapNum (place - chip))).holder = some h ∧
         u = (putPlace s' place n ((s.g a).toNat % 2 ^ (8 * n))).fillMail (mapNum (place - chip)) [mapOff (place - chip) / 4096] ∧
         u.taskAt (mapNum (place - chip)) h = some t ∧
         exec i s = .next (u.setTask { t with mbcnt := t.mbcnt + 1 }).after
     stores (.stB a b imm) 1 ∧ stores (.stH a b imm) 2 ∧ stores (.stW a b imm) 4 ∧ stores (.stD a b imm) 8)

/-- A load or store whose access check stops is trapped before the word with the cause found, nothing of it in effect. The
order of an access's checks (R337): alignment 0x11, then the bound 0x06, then discipline 0x07; a store into a PRIVATE
segment that is not writable and any ordinary access to an ATOMIC one are breaches (R121). -/
def Obligations.AccessTraps : Prop :=
  (∀ (s : State) (a b : GReg) (imm : BitVec 11) (tr : Trap), Settled s → s.t.timed = false → tr.pages s.t = false →
     let traps (i : Instr) (n : Nat) (k : Access) : Prop :=
       checkAccess s s.actor (pointerOf s b imm n) n n k = .error tr → exec i s = .next (takeTrap s tr s.t.pc [])
     traps (.ldB a b imm) 1 .rd ∧ traps (.ldBs a b imm) 1 .rd ∧ traps (.ldH a b imm) 2 .rd ∧ traps (.ldHs a b imm) 2 .rd ∧
     traps (.ldW a b imm) 4 .rd ∧ traps (.ldWs a b imm) 4 .rd ∧ traps (.ldD a b imm) 8 .rd ∧
     traps (.stB a b imm) 1 .wr ∧ traps (.stH a b imm) 2 .wr ∧ traps (.stW a b imm) 4 .wr ∧ traps (.stD a b imm) 8 .wr) ∧
  (∀ (s : State) (a : Actor) (ptr n al : Nat) (k : Access),
     let seg := ptrSeg ptr
     let off := ptrOff ptr
     let g := a.segs[seg]
     (formed a g off % al ≠ 0 → checkAccess s a ptr n al k = .error { cause := 0x11, info := memForm seg.val off }) ∧
     (formed a g off % al = 0 → g.desc.limit < off + n →
       checkAccess s a ptr n al k = .error { cause := 0x06, info := memForm seg.val (Nat.max off g.desc.limit) }) ∧
     (formed a g off % al = 0 → off + n ≤ g.desc.limit →
       g.desc.disc = .priv ∧ k = .wr ∧ g.desc.writable = false ∨ g.desc.disc = .atomic ∧ (k = .rd ∨ k = .wr) ∨
         g.desc.disc = .unused ∨ g.desc.disc = .read ∧ k ≠ .rd ∨ g.desc.disc = .owned ∧ g.held = false ∧ (k = .rd ∨ k = .wr) →
       checkAccess s a ptr n al k = .error { cause := 0x07, info := memForm seg.val off }))

/-- A check that passes has changed nothing but translation buffers and their counts (R294, R297). -/
def Obligations.AccessFrame : Prop :=
  ∀ (s u : State) (a : Actor) (ptr n al place : Nat) (k : Access), checkAccess s a ptr n al k = .ok (place, u) →
    OnlyTlbs s u ∧ ∀ q, HasByte q → u.byteAt q = s.byteAt q

/-- Memory keeps its canonical form under a write; a read of the bytes written gives them, a read clear of them what was
there. The form is the model's (notes/assumptions/1.md). A store that lands leaves its bytes at its place and every other
byte as it was, and touches no task, queue, launch or record (R4, R381). -/
def Obligations.MemoryLaws : Prop :=
  (∀ (m : Memory) (a n v b k : Nat),
     (m.wf = true → (Memory.write m a n v).wf = true) ∧ Memory.read (Memory.write m a n v) a n = v % 2 ^ (8 * n) ∧
     (b + k ≤ a ∨ a + n ≤ b → Memory.read (Memory.write m a n v) b k = Memory.read m b k)) ∧
  (∀ (s u : State) (hold : Option Nat) (w : Store), HasByte w.place → 0 < w.len → w.place % 64 + w.len ≤ 64 → w.mask = 0 →
     (chip ≤ w.place → mapSpace (w.place - chip) < 5) → landStores s hold [w] = .ok u →
     getPlace u w.place w.len = w.val % 2 ^ (8 * w.len) ∧ SameBytes s u w.place w.len ∧ u.t = s.t ∧ u.tasks = s.tasks ∧
     u = { s with c := u.c, cores := u.cores, mem := u.mem, bad := u.bad } ∧
     (chip ≤ w.place → u.mem = s.mem) ∧ (w.place < chip → u.c = s.c ∧ u.cores = s.cores))

/-! ## Control registers -/

/-- CRR gives the register's value after a latency of two (R161); a register that no table has is cause 0x01 kind 7. -/
def Obligations.ControlReads : Prop :=
  ∀ (s : State) (a : GReg) (n : Fin 2048), Settled s → s.t.timed = false →
    (∀ v, crValue s n.val = some v → exec (.crr a n) s = .next ((s.setG a (BitVec.ofNat 64 v)).lateBy a 2).after) ∧
    (crValue s n.val = none → exec (.crr a n) s =
      .next (takeTrap s { cause := 0x01, info := wordNat (.crr a n) + 7 * 2 ^ 32 + n.val * 2 ^ 40 } s.t.pc []))

/-- CRW, CRS and CRC write the RW fields of their register by gA, by CR or gA, by CR and not gA (R161, R10): other fields
and every other control register keep their values, and no other state changes. TPC and TLOOP are the handler's. A write
that leaves DBGCTL's STEP set is followed by the step stop (R372); that the very CRW that sets it is so followed is the model's
reading: notes/assumptions/20.md. Outside the handler a write of TPC or TLOOP is cause
0x04 (Table 20-4), and so is ERET (R356). -/
def Obligations.ControlWrites : Prop :=
  (∀ (s : State) (a : GReg) (n : Fin 2048) (v : Nat), Settled s → s.t.timed = false → crValue s n.val = some v →
     let gA := s.g a
     let writes (i : Instr) (bit : Bool → Bool → Bool) : Prop :=
       ((n.val = 0x041 ∨ n.val = 0x044) → s.t.inHandler = true) →
       ∃ u : State, exec i s = .next (stepStop u.after) ∧ (u.t.dbgctl.getLsbD 0 = false → exec i s = .next u.after) ∧
         u = s.withTask u.t ∧
         (∃ w, crValue u n.val = some w ∧
           ∀ j, j < 64 → w.testBit j = if (crMask n.val).testBit j then bit (v.testBit j) (gA.getLsbD j) else v.testBit j) ∧
         (∀ m, m ≠ n.val → crValue u m = crValue s m) ∧
         u.t.g = s.t.g ∧ u.t.pc = s.t.pc ∧ u.t.f = s.t.f ∧ u.t.segs = s.t.segs ∧ u.t.queue = s.t.queue ∧
         u.t.tpcWritten = (s.t.tpcWritten || n.val == 0x041)
     writes (.crw a n) (fun _ y => y) ∧ writes (.crs a n) (fun x y => x || y) ∧ writes (.crc a n) (fun x y => x && !y)) ∧
  (∀ (s : State) (a : GReg) (n : Fin 2048), Settled s → s.t.timed = false → s.t.inHandler = false →
     let illegal (i : Instr) : Prop := exec i s = .next (takeTrap s { cause := 0x04, info := wordNat i } s.t.pc [])
     ((n.val = 0x041 ∨ n.val = 0x044) → illegal (.crw a n) ∧ illegal (.crs a n) ∧ illegal (.crc a n)) ∧
     (s.t.wait ≠ some .eret → illegal .eret))

/-- WBASE sets a window base that fits the task's registers, else cause 0x05 (R159); FLSET and FLGET write and read a
field layout, whose bits 63:36 must be zero (R160). TINFO's register field of that trap, B, is the model's reading
(notes/assumptions/18.md), and so is the demanded base's saturation at 255 (notes/assumptions/36.md). -/
def Obligations.WindowWords : Prop :=
  ∀ (s : State) (a b : GReg) (f : FReg), Quiet s →
    let v := (s.g b).toNat
    (v ≤ (s.t.vmax - 128) / 16 →
      exec (.wbase b) s = .next (s.withTask { s.t with modes := { s.t.modes with wb := BitVec.ofNat 4 v } }).after) ∧
    ((s.t.vmax - 128) / 16 < v → Settled s → s.t.timed = false → exec (.wbase b) s =
      .next (takeTrap s { cause := 0x05, info := b.val + Nat.min v 255 % 256 * 2 ^ 8 + s.t.vmax % 512 * 2 ^ 16 } s.t.pc [])) ∧
    (v < 2 ^ 36 → exec (.flset f b) s = .next (s.withTask { s.t with f := s.t.f.set f.val (s.g b) f.isLt }).after) ∧
    Writes s (.flget a f) a s.t.f[f]

/-! ## Traps, waits and the end of a task -/

/-- Entry to the task's handler, whatever the cause (R354, R77): TCAUSE, TINFO and the pointer pair are written, the armed
bits go to TLOOP and are cleared, the next word is THVEC's, on the next cycle, with no strip open; no register, mode, segment, byte or other front changes. -/
def Obligations.HandlerEntry : Prop :=
  ∀ (s : State) (tr : Trap) (tpc : Word) (frozen : List Convoy), s.t.inHandler = false → s.t.timed = false →
    tr.pages s.t = false → handlerCause tr.cause = true → s.t.thvec.getLsbD 0 = true →
    let u := takeTrap s tr tpc frozen
    u.t.tcause = BitVec.ofNat 8 tr.cause ∧ (tr.cause ≠ 0x09 → u.t.tinfo = BitVec.ofNat 64 tr.info) ∧
    u.t.tpc.toNat = tpc.toNat / 4 * 4 ∧
    (∀ cv l, frozen = cv :: l → u.t.tvcp = BitVec.ofNat 64 cv.hdr) ∧ (frozen = [] → u.t.tvcp = tpc) ∧
    (∀ k : Fin 2, u.t.tloop.getLsbD k.val = s.t.loops[k].le.getLsbD 0 ∧ u.t.loops[k].le.getLsbD 0 = false ∧
      u.t.loops[k].lb = s.t.loops[k].lb ∧ u.t.loops[k].lc = s.t.loops[k].lc ∧
      ∀ n, n ≠ 0 → u.t.loops[k].le.getLsbD n = s.t.loops[k].le.getLsbD n) ∧
    u.t.pc.toNat = s.t.thvec.toNat / 4 * 4 ∧ u.t.inHandler = true ∧ u.t.tpcWritten = false ∧ u.t.frozen = frozen ∧
    u.t.queue = [] ∧ u.t.conv = none ∧ u.t.g = s.t.g ∧ u.t.modes = s.t.modes ∧ u.t.segs = s.t.segs ∧
    u.t.fflags = s.t.fflags ∧ u.t.strip = none ∧ u.t.cycle = s.t.cycle + 1 ∧
    u = { s with cycle := Nat.max s.cycle (s.t.cycle + 1), t := u.t }

/-- TRAP and BRK trap at the word after themselves, with causes 0x13 and 0x12 (R164). -/
def Obligations.SoftwareTraps : Prop :=
  ∀ (s : State) (code : BitVec 18), Settled s → s.t.timed = false →
    let u : State := s.seq
    exec (.trap code) s = .next (takeTrap u { cause := 0x13, info := code.toNat } (nextWord s.t).pc []) ∧
    exec .brk s = .next (takeTrap u { cause := 0x12, info := 0 } (nextWord s.t).pc [])

/-- ERET leaves the handler (R356): the pc is TPC, the armed bits are TLOOP's, and the frozen entries are decoded again
unless TPC was written, when the commands that they would have forked are gone. -/
def Obligations.HandlerReturn : Prop :=
  ∀ (s : State), Quiet s → s.t.inHandler = true → memberAt s.leave s.t.tpc 4 1 = none →
    let base := if s.t.tpcWritten then dropFrozen s else s
    ∃ u : State, exec .eret s = .next u.wordDone ∧ u.t.pc = s.t.tpc ∧ u.t.inHandler = false ∧ u.t.frozen = [] ∧
      u.t.queue = (if s.t.tpcWritten then [] else s.t.frozen) ∧
      (∀ k : Fin 2, u.t.loops[k].le.getLsbD 0 = s.t.tloop.getLsbD k.val ∧ u.t.loops[k].lb = s.t.loops[k].lb ∧
        u.t.loops[k].lc = s.t.loops[k].lc ∧ ∀ n, n ≠ 0 → u.t.loops[k].le.getLsbD n = s.t.loops[k].le.getLsbD n) ∧
      u.t.g = s.t.g ∧ u.t.modes = s.t.modes ∧ u.mem = s.mem ∧
      u = base.withTask { base.t with pc := u.t.pc, loops := u.t.loops, inHandler := false, queue := u.t.queue, frozen := [] }

/-- WAITT, WAITEV, REALIGN, RPOINT, DROSS and YIELD of a free task (R162, R166 to R169) complete once what they wait
for holds, and then only pass time; DROSS counts dross in the cycles of its stall in which the matrix array and the
vector unit are idle, none at level 0 (R167); WAITEV joins other tasks' complete Ladle commands whose writes into
the task's mailbox it has seen (R129). A wait whose condition does not hold leaves the front where it is, with its registers, for the next cycle
(R171). A YIELD that gives its front away saves the task at the word after, once its held commands have been forked (R162,
R364). FENCE and FENCEI (R165, R226): with the strip committed, a free FENCE passes the cycles of its scope's bound, FENCEI
discards the words fetched ahead; FENCE in a timed domain takes one cycle. The model's are: which cycles of a DROSS count as
idle (notes/assumptions/6.md), the YIELD that waits for held commands (notes/assumptions/33.md), and FENCE SYS's bound by the
longest route of State.hops, one hop where firmware has named none (notes/assumptions/3.md and 13.md). -/
def Obligations.WaitWords : Prop :=
  (∀ (s : State) (b c : GReg), Quiet s → s.t.timed = false →
     let n := (s.g b).toNat % 2 ^ 16
     ((s.g b).toNat ≤ timeAt s (s.t.cycle + 1) → exec (.waitt b) s = .next s.after) ∧
     ((s.g b).toNat % 2 ^ 32 ≤ s.t.mbcnt.toNat →
       let joined (d : Cmd) : Cmd :=
         if d.done = true ∧ (s.t.core, s.t.launch, s.t.task) ∈ d.mailFor ∧ engineOf d.instr = 0 ∧
             d.ofTask s.t.launch s.t.task = false then { d with reads := [], writes := [] } else d
       let seen : State := { s with c := { s.c with cmds := s.c.cmds.map joined },
                                    cores := s.cores.map fun x => { x with cmds := x.cmds.map joined } }
       exec (.waitev b) s = .next seen.after) ∧
     (tickAt (issueCycle s.t) < tickAt (s.t.cycle + 1) → exec .realign s = .next s.after) ∧
     exec .rpoint s = .next s.after ∧
     (s.t.inHandler = true ∨ yieldsTo s = false → exec .yield s = .next s.after) ∧
     (issueCycle s.t + n ≤ s.t.cycle + 1 →
       let idle (j : Nat) : Bool := !s.c.busyAt (issueCycle s.t + j)
       let k := if (s.g c).toNat % 8 = 0 then 0 else ((List.range n).filter idle).length
       let counted : State := s.withCore { s.c with work := { s.c.work with dross := s.c.work.dross + k },
                                                    counters := { s.c.counters with drosscyc := s.c.counters.drosscyc + k } }
       (s.t.strip = none → exec (.dross b c) s = .next counted.after) ∧
       (∀ p, s.t.strip = some p → exec (.dross b c) s = .next (counted.setStrip { p with dross := p.dross + k }).after))) ∧
  (∀ (s : State) (b : GReg), Quiet s → s.t.timed = false →
     let waits (i : Instr) : Prop := ∃ u, exec i s = .next u ∧ u.t.wait = some i ∧ u.t.pc = s.t.pc ∧ u.t.g = s.t.g ∧
       u.t.cycle = s.t.cycle + 1 ∧
       u = { s with cycle := u.cycle, t := { s.t with wait := some i, cycle := u.t.cycle, issued := u.t.issued },
                    c := { s.c with waited := u.c.waited, waitedTo := u.c.waitedTo } }
     (timeAt s (s.t.cycle + 1) < (s.g b).toNat → waits (.waitt b)) ∧
     (s.t.mbcnt.toNat < (s.g b).toNat % 2 ^ 32 → waits (.waitev b)) ∧
     (tickAt (s.t.cycle + 1) ≤ tickAt (issueCycle s.t) → waits .realign)) ∧
  (∀ (s : State), Settled s → s.t.timed = false → s.t.inHandler = false → yieldsTo s = true →
     (unforked s.c s.t.launch s.t.task = 0 →
       ∃ u, exec .yield s = .next u ∧ u.t.wait = some .contextSave ∧ u.t.tpc = (nextWord s.t).pc ∧ u.t.g = s.t.g ∧
         u.agenda = s.agenda ++ [(.contextSave, { n := [s.t.core, s.t.front, 0] })] ∧ u = { s with t := u.t, agenda := u.agenda }) ∧
     (unforked s.c s.t.launch s.t.task ≠ 0 →
       ∃ u, exec .yield s = .next u ∧ u.t.wait = some .preemption ∧ u.t.pc = (nextWord s.t).pc ∧ u.t.g = s.t.g ∧
         u.agenda = s.agenda ++ [(.preemption, { n := [s.t.core, s.t.front] })] ∧ u = { s with t := u.t, agenda := u.agenda })) ∧
  (∀ (s : State) (sc : Fin 8), Settled s →
     (s.t.timed = true → exec (.fence sc) s = .next s.after) ∧
     (s.t.timed = false → exec (.fence sc) s = .next (s.stall (if sc.val ≤ 2 then 64 else if sc.val = 3 then 192
           else 192 + 1536 * (s.hops.map Prod.snd).foldl Nat.max 1)).after ∧
       exec .fencei s = .next (s.withTask { s.t with fetched := [] }).after))

/-- A restart point of a core domain (R56, R57, R166, R368): once everything has retired, and nothing is deferred, the
domain's copy of the task is the task as it goes on, and the copy of the core is the core. The domains that run go on. -/
def Obligations.RestartPoints : Prop :=
  ∀ (s : State), Settled s → s.t.timed = true → s.t.domain = 4 → s.c.pipe = [] → s.t.deferred = [] → s.t.engineLate = [] →
    heldOf s s.t.launch = [] →
    ∃ u, exec .rpoint s = .next u ∧ u.t.pc = (nextWord s.t).pc ∧ u.t.g = s.t.g ∧ u.t.wait = none ∧
      (∀ h ∈ u.c.heldExtents, h.1 ≠ s.t.launch) ∧ u.domains.map Domain.launch = s.domains.map Domain.launch ∧
      ∀ d ∈ u.domains, d.launch = s.t.launch → d.restart = u.t.cycle ∧ u.t ∈ d.tasks ∧ u.c ∈ d.coreCopies

/-- EXIT of an instance that is not the last begins the next (R30, R163): g0 to g127 and the loops are cleared, the pc is
the launch's entry, the innermost SEQ index advances, the riser stack is empty, and every other part of the task's state
carries over; of the last, the front holds no task. A trap with no handler to take
it, or inside one, is reported on the front and ends the launch (R355, R359): the end is the machine's next own step. -/
def Obligations.TaskExit : Prop :=
  (∀ (s : State) (l : Launch), Settled s → s.t.timed = false → s.c.holder ≠ some s.t.front → s.launch s.t.launch = some l →
     let ix := (s.t.idx.toList.map BitVec.toNat).take l.record.levels.length
     (∀ r, nextIndices l.record.levels ix = some r → ∃ u, exec .exit s = .next u ∧ (∀ a, u.g a = 0) ∧
       u.t.loops = Vector.replicate 2 {} ∧ u.t.pc = BitVec.ofNat 64 (entryOf s l) ∧ u.t.depth = 0 ∧
       (∀ k : Fin 8, u.t.idx[k] = BitVec.ofNat 64 (r.getD k.val 0)) ∧ u.mem = s.mem ∧ u.c = s.c ∧
       u.t = { s.t with g := u.t.g, loops := u.t.loops, pc := u.t.pc, idx := u.t.idx, cycle := s.t.cycle + 1, wait := none,
                        depth := 0, spill := 0, riser := [], pushes := [], popTop := 0 }) ∧
     (nextIndices l.record.levels ix = none → s.t.deferred = [] → s.t.engineLate = [] → heldOf s s.t.launch = [] →
       ∃ u, exec .exit s = .next u ∧ u.t.live = false ∧ (∃ e, e ∈ u.agenda ∧ e.1 = .launchComplete ∧ e.2.n = [l.id]) ∧
         ∀ m, u.launch l.id = some m → m.ended = l.ended + 1)) ∧
  (∀ (s : State) (tr : Trap) (tpc : Word), s.t.timed = false → tr.pages s.t = false →
     (s.t.inHandler = true ∨ s.t.thvec.getLsbD 0 = false ∨ handlerCause tr.cause = false) →
     let u := takeTrap s tr tpc []
     u.t.wait = some .launchEndByTrap ∧ u.t.tcause = BitVec.ofNat 8 tr.cause ∧ u.t.tpc.toNat = tpc.toNat / 4 * 4 ∧
     u.agenda = s.agenda ++ [(.launchEndByTrap, { n := [s.t.core, s.t.front] })] ∧ u.t.g = s.t.g ∧
     u = { s with t := u.t, agenda := u.agenda })

/-! ## Atomic and synchronising words -/

/-- The atomic operations (R221, R222): the old value comes back in gA, the word becomes the operation's result, the
core is noted as the last releaser of the word, and the front stalls for the latency of Table 11-2; AMO.ADDNR returns
nothing and does not stall. What the word's store leaves is in MemoryLaws. The floating atomic sums round as an
addition of their format does (R98), and raise its flags at once. Where the rules leave a reading open it is the
model's: notes/assumptions/21.md. -/
def Obligations.AmoResults : Prop :=
  (∀ (s s' u : State) (a b c : GReg) (place old : Nat), Quiet s →
     let y := (s.g c).toNat
     let so := signed old 64
     let sy := (s.g c).toInt
     let done (n v : Nat) : Prop := checkAccess s s.actor (s.g b).toNat n n .atomicWr = .ok (place, s') ∧
       InReach s s' place ∧ readWord s' place n = .ok old ∧ putWord s' place n v = .ok u
     let stalled (r : GReg) : State := ((noteReleaser u place).stall (wordLatency u place)).setG r (BitVec.ofNat 64 old)
     (done 8 ((old + y) % 2 ^ 64) → exec (.amoAdd a b c) s = .next (stalled a).after) ∧
     (done 8 ((if y < old then y else old) % 2 ^ 64) → exec (.amoMin a b c) s = .next (stalled a).after) ∧
     (done 8 ((if old < y then y else old) % 2 ^ 64) → exec (.amoMax a b c) s = .next (stalled a).after) ∧
     (done 8 ((if sy < so then y else old) % 2 ^ 64) → exec (.amoMins a b c) s = .next (stalled a).after) ∧
     (done 8 ((if so < sy then y else old) % 2 ^ 64) → exec (.amoMaxs a b c) s = .next (stalled a).after) ∧
     (done 8 (Nat.land old y % 2 ^ 64) → exec (.amoAnd a b c) s = .next (stalled a).after) ∧
     (done 8 (Nat.lor old y % 2 ^ 64) → exec (.amoOr a b c) s = .next (stalled a).after) ∧
     (done 8 (Nat.xor old y % 2 ^ 64) → exec (.amoXor a b c) s = .next (stalled a).after) ∧
     (done 8 y → exec (.amoSwap a b c) s = .next (stalled a).after) ∧
     (done 8 ((if old = (s.g a).toNat then y else old) % 2 ^ 64) → exec (.amoCas a b c) s = .next (stalled a).after) ∧
     (done 8 ((old + y) % 2 ^ 64) → exec (.amoAddnr b c) s = .next (noteReleaser u place).after)) ∧
  (∀ (s s' u : State) (a b c : GReg) (place old : Nat), Quiet s →
     let done (n v : Nat) : Prop := checkAccess s s.actor (s.g b).toNat n n .atomicWr = .ok (place, s') ∧
       InReach s s' place ∧ readWord s' place n = .ok old ∧ putWord s' place n v = .ok u
     let x := addBits 9 old ((s.g c).toNat % 2 ^ 32)
     let y := addBits 8 old (s.g c).toNat
     let stalled (flags : Nat) : State :=
       let v := (noteReleaser u place).stall (wordLatency u place)
       (v.withTask { v.t with fflags := v.t.fflags ||| BitVec.ofNat 6 flags }).setG a (BitVec.ofNat 64 old)
     (done 4 (x.bits % 2 ^ 32) → exec (.amoFaddF32 a b c) s = .next (stalled x.flags).after) ∧
     (done 8 (y.bits % 2 ^ 64) → exec (.amoFaddF64 a b c) s = .next (stalled y.flags).after))

/-- ACQ, WAITEQ and WAITGE complete when the doubleword meets their condition and its releaser lies in the segment's
scope (R224, R378): the value comes back, and ACQ clears the word in the same step. Else a free task waits, with
nothing changed but the translation buffers. An acquire that observes a release of a core outside the unit that the
segment's scope names is cause 0x08 (R128). REL writes gC to its word with the strip committed, and the core becomes
the word's releaser (R224). Where the rules leave a reading open it is the model's: notes/assumptions/21.md. -/
def Obligations.AcquireWords : Prop :=
  (∀ (s s' u : State) (a b c : GReg) (place v : Nat), Quiet s →
     let ptr := (s.g b).toNat
     let reads (k : Access) : Prop := checkAccess s s.actor ptr 8 8 k = .ok (place, s') ∧ InReach s s' place ∧ readWord s' place 8 = .ok v
     let fits : Prop := scopeTrap s' (ptrSeg ptr).val (ptrOff ptr) (releaserOf s' place) = none
     let got (x : State) : State := (x.stall (wordLatency x place)).setG a (BitVec.ofNat 64 v)
     let waits (i : Instr) : Prop := s.t.timed = false → ∃ w, exec i s = .next w ∧ w.t.wait = some i ∧ w.t.pc = s.t.pc ∧
       w.t.g = s.t.g ∧ w.mem = s.mem
     (reads .atomicWr → v ≠ 0 → fits → putWord s' place 8 0 = .ok u → exec (.acq a b) s = .next (got (dropReleaser u place)).after) ∧
     (reads .atomicWr → v = 0 → waits (.acq a b)) ∧
     (reads .atomicRd → v = (s.g c).toNat → fits → exec (.waiteq a b c) s = .next (got s').after) ∧
     (reads .atomicRd → v ≠ (s.g c).toNat → waits (.waiteq a b c)) ∧
     (reads .atomicRd → (s.g c).toNat ≤ v → fits → exec (.waitge a b c) s = .next (got s').after) ∧
     (reads .atomicRd → v < (s.g c).toNat → waits (.waitge a b c))) ∧
  (∀ (s : State) (seg off core : Nat), sameDomain s core = false → seg < 16 → core < 288 ∨ 3 < s.t.segs[Fin.ofNat 16 seg].desc.scope →
     let scope := s.t.segs[Fin.ofNat 16 seg].desc.scope
     let same : Prop :=
       match scope with
       | 0 => s.t.core = core
       | 1 => s.t.core / 36 = core / 36 ∧ s.t.core % 36 / 4 = core % 36 / 4
       | 2 => s.t.core / 36 = core / 36
       | _ => True
     (same → scopeTrap s seg off (some core) = none) ∧
     (¬ same → scopeTrap s seg off (some core) = some { cause := 0x08, info := memForm seg off }) ∧
     scopeTrap s seg off none = none) ∧
  (∀ (s s' u : State) (b c : GReg) (place : Nat), Settled s → s.t.timed = false →
     checkAccess s s.actor (s.g b).toNat 8 8 .atomicWr = .ok (place, s') → putWord s' place 8 (s.g c).toNat = .ok u →
     exec (.rel b c) s = .next (noteReleaser u place).after)

/-- SEGACQ takes a token that is free, or its own, in the order of waiting, and the segment becomes held; SEGREL frees
it or hands it to a task, naming this core as its releaser, and the segment is held no longer (R124). SEGPHASE waits
until the phase has been switched, then the segment is in the other phase (R123); the switch inverts PHASE, raises the
generation by one, and lets every participant's SEGPHASE complete. Where the rules leave a reading open it is the
model's: notes/assumptions/21.md. -/
def Obligations.TokenWords : Prop :=
  (∀ (s s' u : State) (b : SReg) (c : GReg) (place v : Nat), Settled s → s.t.timed = false → (s.t.segs[b]).desc.disc = .owned →
     segWord s b .token = .ok (place, s') →
     let me := s.t.task + 1
     let next := (s.g c).toNat % 2 ^ 32
     (readPlace s' place 8 = .ok v → (v % 2 ^ 32 = 0 ∧ waitedLonger s' place = false ∨ v % 2 ^ 32 = me) →
       scopeTrap s' b.val (s.t.segs[b]).desc.word (tokenReleaser s' v) = none →
       putWord s' place 8 (v / 2 ^ 32 * 2 ^ 32 + me) = .ok u →
       ∃ w, exec (.segacq b) s = .next w ∧ w.t.segs[b] = { s.t.segs[b] with held := true } ∧
         (∀ d : SReg, d ≠ b → w.t.segs[d] = s.t.segs[d]) ∧ w.t.g = s.t.g ∧ w.t.pc = (nextWord s.t).pc ∧ w.mem = u.mem ∧
         (place, s.t.launch, s.t.task) ∉ w.waiters) ∧
     (readPlace s' place 8 = .ok v → v % 2 ^ 32 ≠ 0 → v % 2 ^ 32 ≠ me →
       ∃ w, exec (.segacq b) s = .next w ∧ w.t.wait = some (.segacq b) ∧ w.t.pc = s.t.pc ∧ w.t.segs = s.t.segs ∧ w.mem = s.mem ∧
         (place, s.t.launch, s.t.task) ∈ w.waiters) ∧
     ((s.t.segs[b]).held = true → (c ≠ 0 → next < taskCount s) → engineUses s' b = false →
       putWord s' place 8 (2 ^ 63 + s'.package * 2 ^ 41 + s'.t.core * 2 ^ 32 + (if c = 0 then 0 else next + 1) % 2 ^ 32) = .ok u →
       exec (.segrel b c) s = .next (u.setSeg b fun g => { g with held := false }).after)) ∧
  (∀ (s : State) (b : SReg), Settled s → s.t.timed = false → (s.t.segs[b]).desc.disc = .sliced →
     (∀ s' place, s.t.arrived = 0 → segWord s b .phase = .ok (place, s') → engineUses s' b = false →
       ∃ w, exec (.segphase b) s = .next w ∧ w.t.wait = some (.segphase b) ∧ w.t.arrived = 1 ∧ w.t.pc = s.t.pc ∧
         w.t.segs = s.t.segs ∧ w.arrivals = s.arrivals ++ [(place, s.t.launch, s.t.task)]) ∧
     (s.t.arrived = 2 → s.t.issued + 200 ≤ s.t.cycle + 1 →
       let u := s.setSeg b fun g => { g with readPhase := !g.readPhase }
       exec (.segphase b) s = .next (u.withTask { u.t with arrived := 0 }).after) ∧
     (let place := s.arg 0
      let v := getPlace s place 8
      (∃ x ∈ s.arrivals, x.1 = place) → s.t.arrived = 1 → (place, s.t.launch, s.t.task) ∈ s.arrivals →
       ∃ w, exec .segphaseComplete s = .next w ∧ w.t = { s.t with arrived := 2, issued := w.t.issued } ∧
         (s.t.live = true → s.t.issued ≤ w.t.issued) ∧
         w.mem = (putPlace s place 8 ((v / 2 ^ 32 + 1) % 2 ^ 32 * 2 ^ 32 + (1 - v % 2))).mem ∧
         ∀ x ∈ w.arrivals, x.1 ≠ place))

/-- The scratchpad words (R244, R116, R117): TFREE leaves the tile all zero and untagged, SPTAG sets its tag and clears its
checked bit, SPSIZE reads its cost, stored sectors, the pool's free extents, tag and checked bit. SPTAG writes its tile anew:
where the pool's free extents cannot meet its cost it is cause 0x10 (R381). -/
def Obligations.ScratchWords : Prop :=
  ∀ (s s' : State) (a b c : GReg) (place : Nat), Settled s → s.t.timed = false → chip ≤ place → mapSpace (place - chip) = 0 →
    let ptr := (s.g b).toNat
    let g := s.t.segs[ptrSeg ptr]
    let core := mapNum (place - chip)
    let n := mapOff (place - chip) / 4096
    let tile := (s.coreAt core).tileAt n
    let at_ (k : Access) : Prop := checkAccess s s.actor ptr 4096 4096 k = .ok (place, s')
    g.desc.onChip = true → mapSpace (formed s.actor g (ptrOff ptr) - chip) = 0 →
    (at_ .wr → ∃ w, exec (.tfree b) s = .next w ∧ (w.coreAt core).tileAt n = { n := n, bytes := 0, tag := 0, checked := false } ∧
      (∀ k, k ≠ n → (w.coreAt core).tileAt k = (s.coreAt core).tileAt k) ∧ TaskKept s w ∧ OnlyBytes s w) ∧
    (at_ .wr → (s.coreAt core).freeExtents < tile.cost →
      exec (.sptag b c) s = .next (takeTrap s' { cause := 0x10, info := fullInfo tile.cost core n } s.t.pc [])) ∧
    (at_ .wr → tile.cost ≤ (s.coreAt core).freeExtents → ∃ w, exec (.sptag b c) s = .next w ∧
      (w.coreAt core).tileAt n = { tile with tag := BitVec.ofNat 16 (s.g c).toNat, checked := false } ∧
      (∀ k, k ≠ n → (w.coreAt core).tileAt k = (s.coreAt core).tileAt k) ∧ TaskKept s w ∧ OnlyBytes s w) ∧
    (at_ .rd → ∃ w, exec (.spsize a b) s = .next w ∧ (∀ r, w.g r = if r = a ∧ a ≠ 0 then
        BitVec.ofNat 64 (tile.cost + storedSectors tile.bytes * 2 ^ 8 + (s.coreAt core).freeExtents * 2 ^ 16 +
          tile.tag.toNat * 2 ^ 32 + tile.checked.toNat * 2 ^ 48) else s.g r) ∧ w.t.pc = (nextWord s.t).pc ∧ w.mem = s.mem)

/-! ## Vector words: element-wise results -/

/-- The integer element-wise forms of Table 9-3 without saturation, by the type's signedness (R176). The saturating
integer forms clamp the exact result to the type's range and raise SA where they clamp (R176). -/
def Obligations.IntegerLanes : Prop :=
  (∀ (s : State) (m : Bool) (a b c : VReg), Lone s → s.t.modes.vtype.toNat < 8 →
     let w := s.width
     let low (x : Int) : Nat := (x % 2 ^ w).toNat
     let sh (k : Nat) : Nat := s.el c k % w
     VecResult s (.vadd m a b c) m a (fun k => low (s.eli b k + s.eli c k)) [] ∧
     VecResult s (.vsub m a b c) m a (fun k => low (s.eli b k - s.eli c k)) [] ∧
     VecResult s (.vmul m a b c) m a (fun k => low (s.eli b k * s.eli c k)) [] ∧
     VecResult s (.vand m a b c) m a (fun k => Nat.land (s.el b k) (s.el c k)) [] ∧
     VecResult s (.vor m a b c) m a (fun k => Nat.lor (s.el b k) (s.el c k)) [] ∧
     VecResult s (.vxor m a b c) m a (fun k => Nat.xor (s.el b k) (s.el c k)) [] ∧
     VecResult s (.vmin m a b c) m a (fun k => if s.eli c k < s.eli b k then s.el c k else s.el b k) [] ∧
     VecResult s (.vmax m a b c) m a (fun k => if s.eli b k < s.eli c k then s.el c k else s.el b k) [] ∧
     VecResult s (.vsll m a b c) m a (fun k => s.el b k * 2 ^ sh k) [] ∧
     VecResult s (.vsrl m a b c) m a (fun k => s.el b k / 2 ^ sh k) [] ∧
     VecResult s (.vsra m a b c) m a (fun k => low (signed (s.el b k) w / 2 ^ sh k)) [] ∧
     VecResult s (.vmulh m a b c) m a (fun k => low (s.eli b k * s.eli c k / 2 ^ w)) [] ∧
     VecResult s (.vneg m a b) m a (fun k => low (-(s.eli b k))) []) ∧
  (∀ (s : State) (m : Bool) (a b c : VReg), Lone s → s.t.modes.vtype.toNat < 8 →
     let w := s.width
     let i := isSigned s.t.modes.vtype.toNat
     let lo : Int := if i then -2 ^ (w - 1) else 0
     let hi : Int := if i then 2 ^ (w - 1) - 1 else 2 ^ w - 1
     let clamp (x : Int) : Int := if x < lo then lo else if hi < x then hi else x
     let r (f : Nat → Int) (k : Nat) : Res := ⟨(clamp (f k) % 2 ^ w).toNat, if f k = clamp (f k) then 0 else 1⟩
     let done (i : Instr) (f : Nat → Int) : Prop := VecResult s i m a (fun k => (r f k).bits) (s.flagsOf m (r f))
     done (.vadds m a b c) (fun k => s.eli b k + s.eli c k) ∧ done (.vsubs m a b c) (fun k => s.eli b k - s.eli c k) ∧
     done (.vabs m a b) (fun k => |s.eli b k|))

/-- The floating element-wise forms round the exact result once to nearest even (R97, R178); sign forms raise no flag. The
approximations of R179 are their functions rounded by the model's reading of that rule (notes/assumptions/12.md); they
accept the 32-bit and 16-bit float types. -/
def Obligations.FloatLanes : Prop :=
  (∀ (s : State) (m : Bool) (a b c : VReg), Lone s → 8 ≤ s.t.modes.vtype.toNat → s.t.modes.vtype.toNat < 12 →
     let ty := s.t.modes.vtype.toNat
     let x (n : VReg) (k : Nat) : FVal := decodeVal ty (s.el n k)
     let sign : Nat := 2 ^ (s.width - 1)
     let done (i : Instr) (r : Nat → Res) : Prop := VecResult s i m a (fun k => (r k).bits) (s.flagsOf m r)
     let fused (neg : Bool) (k : Nat) : Res :=
       let p := mulV (x b k) (x c k)
       let q := addV (x a k) (if neg then p.1.negate else p.1)
       finish ty (q.1, Nat.lor (Nat.lor p.2 q.2) (x a k).sig)
     done (.vfadd m a b c) (fun k => finish ty (addV (x b k) (x c k))) ∧
     done (.vfsub m a b c) (fun k => finish ty (addV (x b k) (x c k).negate)) ∧
     done (.vfmul m a b c) (fun k => finish ty (mulV (x b k) (x c k))) ∧
     done (.vfdiv m a b c) (fun k => finish ty (divV (x b k) (x c k))) ∧
     done (.vfsqrt m a b) (fun k => finish ty (sqrtV (x b k))) ∧
     done (.vfmin m a b c) (fun k => minMaxF ty false (s.el b k) (s.el c k)) ∧
     done (.vfmax m a b c) (fun k => minMaxF ty true (s.el b k) (s.el c k)) ∧
     done (.vfma m a b c) (fused false) ∧ done (.vfms m a b c) (fused true) ∧
     done (.vfnma m a b c) (fun k => if (fused false k).bits = nanBits ty then fused false k
       else ⟨Nat.xor (fused false k).bits sign, (fused false k).flags⟩) ∧
     VecResult s (.vfneg m a b) m a (fun k => Nat.xor (s.el b k) sign) [] ∧
     VecResult s (.vfabs m a b) m a (fun k => s.el b k % sign) []) ∧
  (∀ (s : State) (m : Bool) (a b : VReg), Lone s → 9 ≤ s.t.modes.vtype.toNat → s.t.modes.vtype.toNat < 12 →
     let ty := s.t.modes.vtype.toNat
     let done (i : Instr) (f : FVal → Exact) : Prop :=
       let r (k : Nat) : Res := finish ty (f (decodeVal ty (s.el b k)))
       VecResult s i m a (fun k => (r k).bits) (s.flagsOf m r)
     done (.vexp2 m a b) exp2V ∧ done (.vlog2 m a b) log2V ∧ done (.vrcp m a b) rcpV ∧ done (.vrsqrt m a b) rsqrtV ∧
     done (.vtanh m a b) tanhV ∧ done (.vsigm m a b) sigmV)

/-- The moves and permutes that write a vector register element by element (R181), for the types each accepts. VINS writes
one element where its index is granted and active, and nothing else (R181); VCOMPRESS writes the selected elements densely
from element 0 (R184). -/
def Obligations.MoveLanes : Prop :=
  (∀ (s : State) (m : Bool) (a b c : VReg) (g : GReg), Lone s →
     let n := (s.g g).toNat
     let ty := s.t.modes.vtype.toNat
     VecResult s (.vmv m a b) m a (s.el b) [] ∧
     (ty < 8 → VecResult s (.viota m a) m a (fun k => ((List.range k).filter (s.active m)).length) []) ∧
     (ty < 14 →
       VecResult s (.vbcast m a g) m a (fun _ => (s.g g).toNat) [] ∧
       VecResult s (.vslideup m a b g) m a (fun k => if k < n then s.el a k else s.el b (k - n)) [] ∧
       VecResult s (.vslidedn m a b g) m a (fun k => if k + n < s.vl then s.el b (k + n) else 0) [] ∧
       VecResult s (.vgatheri m a b c) m a (fun k => if s.el c k < s.vl then s.el b (s.el c k) else 0) [])) ∧
  (∀ (s : State) (m : Bool) (a b : VReg) (g c : GReg) (n : MReg), Lone s → s.t.modes.vtype.toNat < 14 →
     let k := (s.g c).toNat
     let bits (n : MReg) (j : Nat) : Bool := (s.c.lanes.getM n).toNat.testBit j
     let l := (s.actives m).filter (bits n)
     (∃ u, exec (.vins m a g c) s = .next u ∧ LanesBut s u [.v (phys s.t.modes a.val).val] ∧ Raises s u [] ∧ OnlyMember s u ∧
       u.t.g = s.t.g ∧ ∀ j, s.width * (j + 1) ≤ 32768 → elem (u.vr s.t.modes a.val) s.width j =
         if j = k ∧ k < s.vl ∧ s.active m k then (s.g g).toNat % 2 ^ s.width else s.el a j) ∧
     (∃ u, exec (.vcompress m a b n) s = .next u ∧ LanesBut s u [.v (phys s.t.modes a.val).val] ∧ Raises s u [] ∧ OnlyMember s u ∧
       u.t.g = s.t.g ∧ ∀ j, s.width * (j + 1) ≤ 32768 → elem (u.vr s.t.modes a.val) s.width j =
         if j < l.length then s.el b (l.getD j 0) else s.el a j))

/-- Scans give each active element the running value of the active elements up to it (R183). -/
def Obligations.ScanLanes : Prop :=
  ∀ (s : State) (m : Bool) (a b : VReg), Lone s →
    let ty := s.t.modes.vtype.toNat
    let w := s.width
    let int (x : Nat) : Int := if isSigned ty then signed x w else x
    let run (op : Nat → Nat → Nat) (start k : Nat) : Nat :=
      (((s.actives m).filter (· ≤ k)).map (s.el b)).foldl op start
    let fl (op : Nat → Nat → Res) (start : Nat) : List (Nat × Res) := scanRun op (s.el b) (s.actives m) start
    let done (i : Instr) (op : Nat → Nat → Res) (start : Nat) : Prop :=
      VecResult s i m a (run (fun x y => (op x y).bits) start) ((fl op start).map fun p => (p.1, p.2.flags))
    (ty < 8 →
      VecResult s (.vscanAdd m a b) m a (run (fun x y => (x + y) % 2 ^ w) 0) [] ∧
      VecResult s (.vscanMin m a b) m a (run (fun x y => if int y < int x then y else x) (wrap (intMax ty) w)) [] ∧
      VecResult s (.vscanMax m a b) m a (run (fun x y => if int x < int y then y else x) (wrap (intMin ty) w)) []) ∧
    (8 ≤ ty → ty < 12 → done (.vfscanAdd m a b) (addBits ty) 0 ∧
      done (.vfscanMax m a b) (minMaxF ty true) (infBits ty + signBits ty true))

/-! ## Vector words: scalar and mask results -/

/-- VEXT, the integer reductions and the mask counts leave their result in gA (R181, R182, R184), an empty one with
its empty result. The float reductions combine the active elements by the tree of R98, with the empty results of R182.
Where the rules leave a reading open it is the model's: notes/assumptions/16.md. -/
def Obligations.ScalarResults : Prop :=
  (∀ (s : State) (m : Bool) (a c : GReg) (b : VReg) (n : MReg), Lone s →
     let ty := s.t.modes.vtype.toNat
     let is := s.actives m
     let w := s.width
     let k := (s.g c).toNat
     let hits := is.filter fun j => (s.c.lanes.getM n).toNat.testBit j
     let least (d : Int) (f : Nat → Int) : Int := ((is.map f).min?).getD d
     let most (d : Int) (f : Nat → Int) : Int := ((is.map f).max?).getD d
     let si (j : Nat) : Int := signed (s.el b j) w
     (ty < 14 → VecScalar s (.vext m a b c) a (if k < s.vl then BitVec.ofInt 64 (s.eli b k) else 0) []) ∧
     (ty < 8 →
       VecScalar s (.vredsum m a b) a (BitVec.ofInt 64 ((is.map (s.eli b)).sum)) [] ∧
       VecScalar s (.vredmin m a b) a (BitVec.ofInt 64 (least (2 ^ 64 - 1) fun j => s.el b j)) [] ∧
       VecScalar s (.vredmax m a b) a (BitVec.ofInt 64 (most 0 fun j => s.el b j)) [] ∧
       VecScalar s (.vredmins m a b) a (BitVec.ofInt 64 (least (2 ^ (w - 1) - 1) si)) [] ∧
       VecScalar s (.vredmaxs m a b) a (BitVec.ofInt 64 (most (-2 ^ (w - 1)) si)) []) ∧
     VecScalar s (.mpopc m a n) a (BitVec.ofNat 64 hits.length) [] ∧
     VecScalar s (.mfirst m a n) a (match hits.head? with | some j => BitVec.ofNat 64 j | none => BitVec.allOnes 64) []) ∧
  (∀ (s : State) (m : Bool) (a : GReg) (b : VReg), Lone s → 8 ≤ s.t.modes.vtype.toNat → s.t.modes.vtype.toNat < 12 →
     let ty := s.t.modes.vtype.toNat
     let leaves : List Node := (List.range s.vl).map fun i => if s.active m i then some (s.el b i, i) else none
     let done (i : Instr) (op : Nat → Nat → Res) (empty : Nat) : Prop :=
       let r := treeRun op 13 leaves
       VecScalar s i a (BitVec.ofNat 64 (match r.1 with | none => empty | some x => canonical ty x.1)) r.2
     done (.vfredsum m a b) (addBits ty) 0 ∧ done (.vfredmin m a b) (minMaxF ty false) (infBits ty) ∧
     done (.vfredmax m a b) (minMaxF ty true) (infBits ty + signBits ty true))

/-- The comparisons and the mask words make bits of a mask register other than m0 (R177, R178, R184). -/
def Obligations.MaskResults : Prop :=
  ∀ (s : State) (m : Bool) (cc : Fin 8) (a b c : MReg) (x y : VReg), Lone s → a ≠ 0 →
    let ty := s.t.modes.vtype.toNat
    let bit (n : MReg) (k : Nat) : Bool := (s.c.lanes.getM n).toNat.testBit k
    let fl (n : VReg) (k : Nat) : FVal := decodeVal ty (s.el n k)
    (ty < 8 → cc.val < 6 → VecMask s (.vcmp m cc a x y) m a (fun k =>
      match cc.val with
      | 0 => decide (s.eli x k = s.eli y k)
      | 1 => decide (s.eli x k ≠ s.eli y k)
      | 2 => decide (s.eli x k < s.eli y k)
      | 3 => decide (s.eli x k ≤ s.eli y k)
      | 4 => decide (s.eli y k < s.eli x k)
      | _ => decide (s.eli y k ≤ s.eli x k)) []) ∧
    (8 ≤ ty → ty < 12 → VecMask s (.vfcmp m cc a x y) m a (fun k => (cmpV cc.val (fl x k) (fl y k)).1)
      ((s.actives m).map fun k => (k, (cmpV cc.val (fl x k) (fl y k)).2))) ∧
    VecMask s (.mand m a b c) m a (fun k => bit b k && bit c k) [] ∧
    VecMask s (.mor m a b c) m a (fun k => bit b k || bit c k) [] ∧
    VecMask s (.mxor m a b c) m a (fun k => xor (bit b k) (bit c k)) [] ∧
    VecMask s (.mandn m a b c) m a (fun k => bit b k && !bit c k) [] ∧
    VecMask s (.mnot m a b) m a (fun k => !bit b k) []

/-! ## Vector words: conversions and packed products -/

/-- VCVT writes the group of registers that its converted elements fill, each rounded by its rounding code (R172, R180).
The packed words under a well-formed plan (R188 to R190): VPACK sums the fields of each lane's elements, VPMUL and VPMULA
make 128-bit products in a pair of registers, VPEXT takes windows out of such a pair. A lane is written when its first
element is active; every other lane keeps its value. -/
def Obligations.ConversionResults : Prop :=
  (∀ (s : State) (m : Bool) (a b : VReg) (to_ : Fin 16) (rc : Fin 8), Lone s → s.vl ≤ vlMax s.t.modes.vtype.toNat →
     let ty := s.t.modes.vtype.toNat
     let w := typeBits to_.val
     let per := 32768 / w
     let regs := (List.range ((s.vl * w + 32767) / 32768)).map fun j => LReg.v (phys s.t.modes (a.val + j)).val
     let r (k : Nat) : Res := roundVal ty to_.val rc.val (draw s.t.modes.seed.toNat s.t.count k) (decodeVal ty (s.el b k))
     a.val + regs.length ≤ 128 →
     ∃ u, exec (.vcvt m a b to_ rc) s = .next u ∧ LanesBut s u regs ∧ Raises s u (s.flagsOf m r) ∧ OnlyMember s u ∧
       u.t.g = s.t.g ∧ ∀ k, k < s.vl → elem (u.vr s.t.modes (a.val + k / per)) w (k % per) =
         if s.active m k then (r k).bits % 2 ^ w else elem (s.vr s.t.modes (a.val + k / per)) w (k % per)) ∧
  (∀ (s : State) (m : Bool) (f : FReg) (a b c : VReg), Lone s → s.vl ≠ 0 →
     let x := s.layout f
     let nf := planNf x
     let n := (s.vl + nf - 1) / nf
     let on (j : Nat) : Prop := j < n ∧ s.active m (nf * j)
     let num (w v : Nat) : Int := if planS x then signed v w else v
     let term (j i : Nat) : Int :=
       num (planWid x) (if nf * j + i < s.vl then s.el b (nf * j + i) % 2 ^ planWid x else 0) *
         2 ^ (planP x * (if planRv x then nf - 1 - i else i))
     let prod (j : Nat) : Int := num 64 (s.lane b.val j) * num 64 (s.lane c.val j)
     let old (j : Nat) : Nat := s.lane a.val j + s.lane (a.val + 1) j * 2 ^ 64
     let one : List LReg := [.v (phys s.t.modes a.val).val]
     let two : List LReg := one ++ [.v (phys s.t.modes (a.val + 1)).val]
     let kept (u : State) (ws : List LReg) : Prop := LanesBut s u ws ∧ Raises s u [] ∧ OnlyMember s u ∧ u.t.g = s.t.g
     let pair (i : Instr) (v : Nat → Int) : Prop := Accepted s i →
       (planChk x = true → ∀ j, on j → guardOk x (num 64 (s.lane b.val j)) (num 64 (s.lane c.val j)) = true) →
       ∃ u, exec i s = .next u ∧ kept u two ∧ ∀ j, j < 512 →
         (on j → u.lane a.val j = (v j % 2 ^ 64).toNat ∧ u.lane (a.val + 1) j = (v j / 2 ^ 64 % 2 ^ 64).toNat) ∧
         (¬ on j → u.lane a.val j = s.lane a.val j ∧ u.lane (a.val + 1) j = s.lane (a.val + 1) j)
     (Accepted s (.vpack m f a b) → ∃ u, exec (.vpack m f a b) s = .next u ∧ kept u one ∧ ∀ j, j < 512 →
       u.lane a.val j = if on j then ((((List.range nf).map (term j)).sum) % 2 ^ 64).toNat else s.lane a.val j) ∧
     pair (.vpmul m f a b c) prod ∧ pair (.vpmula m f a b c) (fun j => (old j : Int) + prod j) ∧
     (Accepted s (.vpext m f a b) → ∃ u, exec (.vpext m f a b) s = .next u ∧ kept u one ∧
       (∀ j k, on j → k < planWcnt x → u.lane a.val (planWcnt x * j + k) =
         (windows x (s.lane b.val j + s.lane (b.val + 1) j * 2 ^ 64)).getD k 0 % 2 ^ 64) ∧
       ∀ q, q < 512 → (∀ j k, on j → k < planWcnt x → q ≠ planWcnt x * j + k) → u.lane a.val q = s.lane a.val q))

/-! ## Vector words: modes, lanes and bindings -/

/-- SETVL closes the strip, sets the type, grants the smaller of its request and VLMAX, and opens a strip (R174, R45).
VMSEL and MSHAPE set mode registers at decode (R191, R200); MSHAPE grants the smaller of each extent requested and
what the tiles hold, K in whole groups of 12 where MTYPE is sparse. Where the rules leave a reading open it is the
model's: notes/assumptions/19.md. -/
def Obligations.SetvlResults : Prop :=
  (∀ (s : State) (a b : GReg) (ty : Fin 16), Lone s → s.t.mbFault = none →
     let max := if typeBits ty.val = 4 then 4096 else 32768 / typeBits ty.val
     let n := Nat.min (s.g b).toNat max
     ∃ u p, exec (.setvl a b ty) s = .next u ∧
       u.t.modes = { s.t.modes with vtype := BitVec.ofNat 4 ty.val, vl := BitVec.ofNat 13 n } ∧
       (∀ r, u.g r = if r = a ∧ a ≠ 0 then BitVec.ofNat 64 n else s.g r) ∧ u.t.strip = some p ∧ p.req = s.g b ∧
       p.ty = BitVec.ofNat 4 ty.val ∧ p.nins = 1 ∧ p.stores = [] ∧ p.shadow = [] ∧
       u.t.fflags = s.t.fflags ||| s.stripNow.flags ∧ u.c.lanes = s.c.lanes ∧ u.t.pc = (nextWord s.t).pc ∧ u.mem = s.mem) ∧
  (∀ (s : State) (n : MReg) (a b : GReg), Lone s →
     let m := s.t.modes
     let x := (s.g b).toNat
     let cap := 2048 / typeBits (m.mtype.toNat % 16)
     let spn := m.mtype.toNat / 2 ^ 14 % 4
     let k := Nat.min (Nat.min (x / 2 ^ 32 % 2 ^ 16) 256) cap
     let num := match spn with | 1 => 3 | 2 => 4 | _ => 6
     let ks := if spn = 0 then k else Nat.min k (cap * 12 / num) / 12 * 12
     let sh := ks * 2 ^ 32 + Nat.min (x / 2 ^ 16 % 2 ^ 16) 128 * 2 ^ 16 + Nat.min (x % 2 ^ 16) 64
     (∃ u, exec (.vmsel n) s = .next u ∧ OnlyMember (s.withTask { s.t with modes := { m with vmask := BitVec.ofNat 4 n.val } }) u ∧
       u.c.lanes = s.c.lanes ∧ u.t.g = s.t.g) ∧
     (∃ u, exec (.mshape a b) s = .next u ∧ OnlyMember (s.withTask { s.t with modes := { m with shape := BitVec.ofNat 48 sh } }) u ∧
       u.c.lanes = s.c.lanes ∧ ∀ r, u.g r = if r = a ∧ a ≠ 0 then BitVec.ofNat 64 sh else s.g r))

/-- VBIND, VUNBIND and VMBOX (R192, R197): a register is bound to one queue segment at most; the mailbox range lies in
the task's registers. VRELEASE commits the strip and gives the lanes up (R39). VAPPEND to a queue or to an ATOMIC
segment is noted in the strip to take effect at its commit (R194). Where the rules leave a reading open it is the
model's: notes/assumptions/19.md. -/
def Obligations.LaneWords : Prop :=
  (∀ (s : State) (a : VReg) (b : SReg) (g h : GReg), Lone s →
     let p := (phys s.t.modes a.val).val
     let others := s.c.lanes.bind.filter fun x => x.1 != p
     let bound (l : List (Nat × Nat)) : State := s.withCore { s.c with lanes := { s.c.lanes with bind := l } }
     (s.t.segs[b].desc.disc = .stream → ∃ u, exec (.vbind a b) s = .next u ∧ OnlyMember s u ∧
       u.c.lanes = (bound ((p, b.val) :: others)).c.lanes ∧ u.t.g = s.t.g) ∧
     (∃ u, exec (.vunbind a) s = .next u ∧ OnlyMember s u ∧ u.c.lanes = (bound others).c.lanes ∧ u.t.g = s.t.g) ∧
     ((s.g g).toNat + (s.g h).toNat ≤ s.t.vmax → ∃ u, exec (.vmbox g h) s = .next u ∧ u.c.lanes = s.c.lanes ∧ u.t.g = s.t.g ∧
       OnlyMember (s.withTask { s.t with mbFirst := if s.g h = 0 then 0 else (s.g g).toNat, mbCount := (s.g h).toNat }) u) ∧
     (s.t.mbFault = none → ∃ u, exec .vrelease s = .next u ∧
       u.c = { s.c with holder := none, lanes := {}, pipe := [], work := u.c.work, counters := u.c.counters, loads := u.c.loads } ∧
       u.t.g = s.t.g ∧ u.t.pc = (nextWord s.t).pc ∧ u.mem = s.mem ∧ u.t.fflags = s.t.fflags ||| s.stripNow.flags)) ∧
  (∀ (s y : State) (a c : GReg) (b : SReg) (places : List (Nat × Nat)) (n : Nat), Lone s →
     let vals := (s.actives false).map fun k => ((s.g c).toNat + k) % 2 ^ 32
     let g := s.t.segs[b]
     let dq := queueOf s.actor g
     let noted : Prop := ∃ u p, exec (.vappend a b c) s = .next u ∧ u.stripNow.apps = [p] ∧ p.seg = b.val ∧ p.dest = a.val ∧
       p.vals = vals ∧ p.vl = s.vl ∧ LanesBut s u [] ∧ u.t.g = s.t.g ∧ u.t.pc = (nextWord s.t).pc ∧ u.mem = s.mem
     (g.desc.disc = .stream → g.desc.writable = true → (s.queue dq.1 dq.2).isOut = false → noted) ∧
     (g.desc.disc = .atomic → s.vl = 0 ∨ (∃ place z, checkAccess (s.acting (.vappend a b c)) s.actor (mkPtr b.val 0) 8 8 .atomicWr = .ok (place, z) ∧
       readPlace z place 8 = .ok n ∧
       checkAll s.actor .atomicWr z ((List.range vals.length).map fun k => (mkPtr b.val (8 + 4 * (n + k)), 4, 4)) = .ok (y, places)) →
       noted))

/-! ## Vector words: memory -/

/-- The vector loads read each active element from its own address, ascending, as the strip sees memory (R185 to R187), and
leave memory as it is. VLDT's tiles carry the tag it names. -/
def Obligations.VectorLoads : Prop :=
  ∀ (s y z : State) (m : Bool) (a c : VReg) (g h : GReg) (places : List (Nat × Nat)) (vs : List Nat), Lone s →
    let base := s.g g
    let n := if s.width = 4 then 1 else s.width / 8
    let row (k : Nat) : Word := ptrAdd base ((k * s.width / 8 : Nat) : Int)
    let reads (i : Instr) (f : Nat → Word) (y : State) : Prop :=
      checkAll s.actor .rd (s.acting i) (s.accesses m f) = .ok (y, places)
    let done (i : Instr) : Prop := ∃ u, exec i s = .next u ∧
      ElemsOf s u m a (fun k => s.nibble k (vs.getD ((s.actives m).idxOf k) 0)) ∧
      (∀ p, p ≠ phys s.t.modes a.val → u.c.lanes.v[p] = s.c.lanes.v[p]) ∧ u.t.g = s.t.g ∧ u.t.pc = (nextWord s.t).pc ∧
      u.mem = s.mem ∧ u.stripNow.stores = []
    let loads (i : Instr) (f : Nat → Word) : Prop := Accepted s i → reads i f y → readAll y places = .ok vs → done i
    loads (.vld m a g) row ∧ loads (.vlds m a g h) (fun k => ptrAdd base (k * (s.g h).toInt)) ∧
    loads (.vldx m a g c) (fun k => ptrAdd base ((s.el c k * n : Nat) : Int)) ∧
    (reads (.vldt m a g h) row y → taggedRead (.vldt m a g h) g.val ((s.g h).toNat % 65536) y places = .ok z →
      readAll z places = .ok vs → done (.vldt m a g h))

/-- The vector stores put each active element into the strip's store buffer, ascending (R46, R185, R187): no byte of
memory changes before the strip commits. VSPILL stores a whole register through the strip and VFILL loads one, whatever VL
is (R195). -/
def Obligations.VectorStores : Prop :=
  (∀ (s y : State) (m : Bool) (a c : VReg) (g h : GReg) (places : List (Nat × Nat)), Lone s →
     let base := s.g g
     let n := if s.width = 4 then 1 else s.width / 8
     let entry (k : Nat) (q : Nat × Nat) : Nat × Nat × Nat × Nat :=
       if s.width = 4 then (q.1, 1, s.el a k * 2 ^ (4 * (k % 2)), 15 * 2 ^ (4 * (k % 2))) else (q.1, q.2, s.el a k, 0)
     let stores (i : Instr) (f : Nat → Word) : Prop :=
       Accepted s i → checkAll s.actor .wr (s.acting i) (s.accesses m f) = .ok (y, places) →
       ∃ u, exec i s = .next u ∧
         (u.stripNow.stores.map fun w => (w.place, w.len, w.val, w.mask)) = ((s.actives m).zip places).map (fun x => entry x.1 x.2) ∧
         LanesBut s u [] ∧ u.t.g = s.t.g ∧ u.t.pc = (nextWord s.t).pc ∧ u.mem = s.mem ∧
         ∀ q, HasByte q → u.byteAt q = s.byteAt q
     stores (.vst m a g) (fun k => ptrAdd base ((k * s.width / 8 : Nat) : Int)) ∧
     stores (.vsts m a g h) (fun k => ptrAdd base (k * (s.g h).toInt)) ∧
     stores (.vstx m a g c) (fun k => ptrAdd base ((s.el c k * n : Nat) : Int))) ∧
  (∀ (s y : State) (a : VReg) (g : GReg) (places : List (Nat × Nat)) (x : Nat), Lone s →
     let lines : List (Nat × Nat × Nat) := (List.range 64).map fun k => ((ptrAdd (s.g g) ((64 * k : Nat) : Int)).toNat, 64, 64)
     (checkAll s.actor .wr (s.acting (.vspill a g)) lines = .ok (y, places) →
       ∃ u, exec (.vspill a g) s = .next u ∧ (u.stripNow.stores.map fun w => (w.place, w.len, w.val)) =
           (places.zipIdx.map fun q => (q.1.1, q.1.2, s.vr s.t.modes a.val / 2 ^ (512 * q.2) % 2 ^ (8 * q.1.2))) ∧
         LanesBut s u [] ∧ u.t.g = s.t.g ∧ u.t.pc = (nextWord s.t).pc ∧ u.mem = s.mem) ∧
     (loadBlock (s.g g) 4096 (s.acting (.vfill a g)) = .ok (y, places, x) →
       ∃ u, exec (.vfill a g) s = .next u ∧ u.vr s.t.modes a.val = x % 2 ^ 32768 ∧
         LanesBut s u [.v (phys s.t.modes a.val).val] ∧ u.t.g = s.t.g ∧ u.t.pc = (nextWord s.t).pc ∧ u.mem = s.mem))

/-! ## Tile and matrix words -/

/-- TMVR and TMVC convert between a vector register and rows or columns of a tile (R208, R209); TMVRR copies rows with
their side-array rows (R210); TZERO clears a tile (R211). Each completes where its type is accepted and its rows or columns
lie in the tile (Table 20-6). TLD fills the rows of a tile, its metadata rows and its side array from memory in the layout of
R212, checking tags where it names one; TST stores them, byte for byte, through the strip (R213); both where a row has at most
256 bytes and the access is granted. Where the rules leave a reading open it is the model's: notes/assumptions/16.md. -/
def Obligations.TileMoves : Prop :=
  (∀ (s : State) (a b : TReg) (v : VReg) (rc : Fin 8) (g : GReg), Lone s →
     let ty := s.t.modes.vtype.toNat
     let tt := s.t.modes.ttype.toNat
     let w := typeBits tt
     let cap := 2048 / w
     let x := (s.g g).toNat
     let at_ (u : State) (t : TReg) (r c : Nat) : Nat := elem (u.c.lanes.row t r) w c
     let into (k : Nat) : Res :=
       roundVal ty tt rc.val (draw s.t.modes.seed.toNat s.t.count (512 * (x % 64 + k / cap) + k % cap)) (decodeVal ty (s.el v k))
     let outOf (k : Nat) : Res :=
       roundVal tt ty rc.val (draw s.t.modes.seed.toNat s.t.count k) (decodeVal tt (at_ s b (k % 64) (x % 512 + k / 64)))
     let n := if x / 2 ^ 16 % 64 = 0 then 64 else x / 2 ^ 16 % 64
     let from_ := x % 64
     let to_ := x / 2 ^ 8 % 64
     (from_ + (s.vl * w + 2047) / 2048 ≤ 64 → ∃ u, exec (.tmvr a rc v g) s = .next u ∧ LanesBut s u [.t a.val] ∧ u.t.g = s.t.g ∧
       Raises s u ((List.range s.vl).map fun k => (k, (into k).flags)) ∧ OnlyMember s u ∧ u.c.lanes.side = s.c.lanes.side ∧
       ∀ r c, r < 64 → c < cap → at_ u a r c =
         if x % 64 ≤ r ∧ cap * (r - x % 64) + c < s.vl then (into (cap * (r - x % 64) + c)).bits % 2 ^ w else at_ s a r c) ∧
     (s.vl = 0 ∨ x % 512 + (s.vl - 1) / 64 < cap →
       VecResult s (.tmvc v b rc g) false v (fun k => (outOf k).bits) (s.flagsOf false outOf)) ∧
     (from_ + n ≤ 64 → to_ + n ≤ 64 → ∃ u, exec (.tmvrr a b g) s = .next u ∧ LanesBut s u [.t a.val] ∧ u.t.g = s.t.g ∧
       OnlyMember s u ∧ Raises s u [] ∧ ∀ r, r < 64 →
         u.c.lanes.row a r = (if to_ ≤ r ∧ r < to_ + n then s.c.lanes.row b (from_ + (r - to_)) else s.c.lanes.row a r) ∧
         u.c.lanes.sideRow a r = (if to_ ≤ r ∧ r < to_ + n then s.c.lanes.sideRow b (from_ + (r - to_)) else s.c.lanes.sideRow a r)) ∧
     (∃ u, exec (.tzero a) s = .next u ∧ LanesBut s u [.t a.val] ∧ u.t.g = s.t.g ∧ OnlyMember s u ∧ Raises s u [] ∧
       ∀ r, r < 64 → u.c.lanes.row a r = 0 ∧ u.c.lanes.sideRow a r = 0)) ∧
  (∀ (s y z : State) (a : TReg) (g h : GReg) (places : List (Nat × Nat)) (vs : List Nat), Lone s →
     let mt := s.t.modes.mtype.toNat
     let sh := s.t.modes.shape.toNat
     let rb := rowBytes mt sh s.t.modes.ttype.toNat
     let mb := metaBytes mt sh
     let sb := sideBytes mt
     let m := shM sh
     let total := m * (rb + mb + sb)
     let x := vs.zipIdx.foldl (fun acc q => acc + q.1 * 2 ^ (512 * q.2)) 0
     let meta_ : TReg := Fin.ofNat 8 (a.val + 1)
     let part (v k : Nat) : Nat := v / 2 ^ (8 * k) % 256
     let byte (o : Nat) : Nat :=
       if o < m * rb then part (s.c.lanes.row a (o / rb)) (o % rb)
       else if o < m * (rb + mb) then part (s.c.lanes.row meta_ ((o - m * rb) / mb)) ((o - m * rb) % mb)
       else part (s.c.lanes.sideRow a ((o - m * (rb + mb)) / 16)) ((o - m * (rb + mb)) % 16)
     shK sh ≠ 0 → shK sh ≤ 256 → shN sh ≠ 0 → m ≤ 64 → total ≠ 0 → rb ≤ 256 → (mtSpn mt ≠ 0 → a.val ≠ 7) →
     (checkAll s.actor .rd (s.acting (.tld a g h)) (pieces (s.g g) total) = .ok (y, places) →
       taggedRead (.tld a g h) g.val ((s.g h).toNat % 65536) y places = .ok z → readAll z places = .ok vs →
       ∃ u, exec (.tld a g h) s = .next u ∧ LanesBut s u [.t a.val, .t meta_.val] ∧ u.t.g = s.t.g ∧ u.t.pc = (nextWord s.t).pc ∧
         u.mem = s.mem ∧ (mb = 0 → u.c.lanes.tile[meta_] = s.c.lanes.tile[meta_]) ∧ (sb = 0 → u.c.lanes.side = s.c.lanes.side) ∧
         ∀ r, r < m → u.c.lanes.row a r = field x (8 * (rb * r)) (8 * rb) ∧
           (mb ≠ 0 → u.c.lanes.row meta_ r = field x (8 * (m * rb + mb * r)) (8 * mb)) ∧
           (sb ≠ 0 → u.c.lanes.sideRow a r = field x (8 * (m * (rb + mb) + 16 * r)) 128)) ∧
     (checkAll s.actor .wr (s.acting (.tst a g)) (pieces (s.g g) total) = .ok (y, places) →
       ∃ u, exec (.tst a g) s = .next u ∧ LanesBut s u [] ∧ u.t.g = s.t.g ∧ u.t.pc = (nextWord s.t).pc ∧ u.mem = s.mem ∧
         u.stripNow.stores.map (fun w => (w.place, w.len)) = places ∧
         ∀ o, o < total → ∃ w, u.stripNow.stores[o / 64]? = some w ∧ part w.val (o % 64) = byte o))

/-- The products C = C + A·B over the granted shape (R204, R205): the accumulators and flags are those of the sums of
R99 to R105, in the order of R203; other registers stay. They complete where MTYPE is a combination of Table 10-3, dense for
MMA and sparse for MMAS with metadata in order (R205, R347), and gC is an offset of R204 whose columns end within their slices.
Where a granted size is 0 a word that uses SHAPE does nothing (R200). AZERO, ALD and AST clear, load and store the
accumulators of the shape's group, byte for byte (R214); AMV converts a row of one into a vector register (R216). Where the
rules leave a reading open it is the model's: notes/assumptions/15.md. -/
def Obligations.MatrixProducts : Prop :=
  (∀ (s : State) (a : AReg) (b : TReg) (g h : GReg) (v : VReg), Lone s →
     let mt := s.t.modes.mtype.toNat
     let sh := s.t.modes.shape.toNat
     let q := (s.g g).toNat
     let o := q % 2 ^ 17
     let offset : Prop := (∀ k, 17 ≤ k → k < 32 → q.testBit k = false) ∧ o % 64 = 0 ∧ o + bUsed mt (shN sh) (shK sh) ≤ 0x20000
     let done (i : Instr) (sparse : Bool) : Prop :=
       let p := matProduct s.c a.val b.val o sparse s.matEnv
       ∃ u, exec i s = .next u ∧ u.c.lanes.acc = p.1.acc ∧ u.c.lanes.v = s.c.lanes.v ∧ u.c.lanes.m = s.c.lanes.m ∧
         u.c.lanes.tile = s.c.lanes.tile ∧ u.c.lanes.side = s.c.lanes.side ∧ Raises s u p.2 ∧ OnlyMember s u ∧ u.t.g = s.t.g
     (mtypeOk mt = true → mtSpn mt = 0 → offset → shM sh ≠ 0 → shN sh ≠ 0 → shK sh ≠ 0 → done (.mma a b g) false) ∧
     (mtypeOk mt = true → mtSpn mt ≠ 0 → offset → b.val ≠ 7 → metaCheck s.c.lanes b.val s.matEnv = none →
       shM sh ≠ 0 → shN sh ≠ 0 → shK sh ≠ 0 → done (.mmas a b g) true) ∧
     (∀ i ∈ [.mma a b g, .mmas a b g, .tld b g h, .tst b g, .azero a, .ald a g, .ast a g, .bld g h, .vquant b v g],
       shM sh = 0 ∨ shN sh = 0 ∨ shK sh = 0 → Accepted s i → ∃ u, exec i s = .next u ∧ u.c.lanes = s.c.lanes ∧
         OnlyMember s u ∧ u.t.g = s.t.g)) ∧
  (∀ (s y : State) (a : AReg) (v : VReg) (g : GReg) (ty : Fin 16) (rc : Fin 8) (places : List (Nat × Nat)) (x : Nat), Lone s →
     let mt := s.t.modes.mtype.toNat
     let n := groupCount mt s.t.modes.shape.toNat
     let group := (List.range n).map fun k => LReg.a ((a.val + k) % 16)
     let src := if mtSlices mt ≠ 0 then 8 else if mtAcc mt then 4 else 9
     let cols := if mtSlices mt = 0 then 64 else 32
     let k := (s.g g).toNat
     let row := ((s.c.lanes.acc[Fin.ofNat 16 k])[Fin.ofNat 32 (k / 256)]).toNat
     let r (j : Nat) : Res :=
       roundVal src ty.val rc.val (draw s.t.modes.seed.toNat s.t.count j) (decodeVal src (elem row (typeBits src) j))
     let byte (o : Nat) : Nat :=
       ((s.c.lanes.acc[Fin.ofNat 16 (a.val + o / 8192)])[Fin.ofNat 32 (o % 8192 / 256)]).toNat / 2 ^ (8 * (o % 256)) % 256
     let sh := s.t.modes.shape.toNat
     (∃ u, exec (.amv v g ty rc) s = .next u ∧ LanesBut s u [.v (phys s.t.modes v.val).val] ∧ u.t.g = s.t.g ∧ OnlyMember s u ∧
       Raises s u ((List.range cols).map fun j => (j, (r j).flags)) ∧
       ∀ j, j < cols → elem (u.vr s.t.modes v.val) (typeBits ty.val) j = (r j).bits % 2 ^ typeBits ty.val) ∧
     (shM sh ≠ 0 → shM sh ≤ 64 → shN sh ≠ 0 → shN sh ≤ 128 → shK sh ≠ 0 →
       (∃ u, exec (.azero a) s = .next u ∧ LanesBut s u group ∧ Raises s u [] ∧ OnlyMember s u ∧ u.t.g = s.t.g ∧
         ∀ j, j < n → ∀ q : Fin 32, (u.c.lanes.acc[Fin.ofNat 16 (a.val + j)])[q] = 0) ∧
       (loadBlock (s.g g) (8192 * n) (s.acting (.ald a g)) = .ok (y, places, x) →
         ∃ u, exec (.ald a g) s = .next u ∧ LanesBut s u group ∧ u.t.g = s.t.g ∧ u.t.pc = (nextWord s.t).pc ∧ u.mem = s.mem ∧
           ∀ j, j < n → ∀ q : Fin 32, ((u.c.lanes.acc[Fin.ofNat 16 (a.val + j)])[q]).toNat = field x (65536 * j + 2048 * q.val) 2048) ∧
       (checkAll s.actor .wr (s.acting (.ast a g)) (pieces (s.g g) (8192 * n)) = .ok (y, places) →
         ∃ u, exec (.ast a g) s = .next u ∧ LanesBut s u [] ∧ u.t.g = s.t.g ∧ u.t.pc = (nextWord s.t).pc ∧ u.mem = s.mem ∧
           u.stripNow.stores.map (fun w => (w.place, w.len)) = places ∧
           ∀ o, o < 8192 * n → ∃ w, u.stripNow.stores[o / 64]? = some w ∧ w.val / 2 ^ (8 * (o % 64)) % 256 = byte o)))

/-- BLD fills the B-store columns of the shape from memory (R217); VQUANT quantises rows by unit into a tile, each unit's
scale into the side array (R218, R104); MPERM and MCODE load the permutation and the codebook (R219, R220). Each completes
where its types are accepted and its operands are in range (Table 20-6). Where the rules leave a reading open it is the
model's: notes/assumptions/15.md and 16.md. -/
def Obligations.TableWords : Prop :=
  ∀ (s y : State) (a : TReg) (v : VReg) (g h : GReg) (places : List (Nat × Nat)) (x : Nat), Lone s →
    let mt := s.t.modes.mtype.toNat
    let sh := s.t.modes.shape.toNat
    let ty := s.t.modes.vtype.toNat
    let k := shK sh
    let n := bRegion mt k
    let tt := s.t.modes.ttype.toNat
    let w := typeBits tt
    let q := (s.g h).toNat
    let zero (lo hi : Nat) : Prop := ∀ j, lo ≤ j → j < hi → q.testBit j = false
    let shaped : Prop := shM sh ≠ 0 ∧ shN sh ≠ 0 ∧ k ≠ 0
    let unit := match mtScale mt with | 2 => 128 | 1 => 32 | _ => k
    let xs (r : Nat) : List FVal := (List.range k).map fun c =>
      if k * r + c < s.vl then decodeVal ty (s.el v (k * r + c)) else .fin false 0 0
    let quant (r u : Nat) : Nat × List Res :=
      quantUnit tt (if q.testBit 7 then some (q / 2 ^ 32) else none) (((xs r).drop (unit * u)).take unit)
    let quantised (r c : Nat) : Res := (quant r (c / unit)).2.getD (c % unit) ⟨0, 0⟩
    let codes := (List.range s.vl).map fun j => s.el v j % 256
    (shaped → zero 17 32 → q % 2 ^ 17 % 64 = 0 → q % 2 ^ 17 + n ≤ 0x20000 →
      loadBlock (s.g g) (64 * n) (s.acting (.bld g h)) = .ok (y, places, x) →
      ∃ u, exec (.bld g h) s = .next u ∧ LanesBut s u [] ∧ u.t.g = s.t.g ∧ u.t.pc = (nextWord s.t).pc ∧ u.mem = s.mem ∧
        ∀ j, j < 64 → Memory.read u.c.bstore (j * 0x20000 + q % 2 ^ 17) n = field x (8 * (n * j)) (8 * n)) ∧
    (shaped → s.vl ≠ 0 → 9 ≤ ty → ty < 12 → tt ∈ [12, 13, 14, 0] → (q.testBit 7 = true → zero 6 7 ∧ zero 8 32) →
      q % 64 + (s.vl + k - 1) / k ≤ 64 → ∃ u, exec (.vquant a v h) s = .next u ∧ LanesBut s u [.t a.val] ∧
      u.t.g = s.t.g ∧ OnlyMember s u ∧
      Raises s u ((List.range ((s.vl + k - 1) / k)).flatMap fun r => (List.range k).map fun c => (k * r + c, (quantised r c).flags)) ∧
      (∀ r c, k * r < s.vl → c < k → w * (c + 1) ≤ 2048 →
        elem (u.c.lanes.row a (q % 64 + r)) w c = (quantised r c).bits % 2 ^ w) ∧
      ∀ r j, k * r < s.vl → unit * j < k →
        (mtScale mt = 1 → 8 * (j + 1) ≤ 128 → elem (u.c.lanes.sideRow a (q % 64 + r)) 8 j = (quant r j).1 / 2 ^ 23 % 256) ∧
        (mtScale mt ≠ 1 → 32 * (j + 1) ≤ 128 → elem (u.c.lanes.sideRow a (q % 64 + r)) 32 j = (quant r j).1 % 2 ^ 32)) ∧
    (ty = 1 → s.vl ≤ 256 → codes.Nodup → ∃ u, exec (.mperm v) s = .next u ∧ u.c.lanes = s.c.lanes ∧ u.t.g = s.t.g ∧
      u.t.kpermLen = s.vl ∧ u.t.pc = (nextWord s.t).pc ∧ u.mem = s.mem ∧ ∀ j : Fin 256, u.c.perm[j] =
        if j.val < s.vl then BitVec.ofNat 8 (s.el v j.val) else s.c.perm[j]) ∧
    (ty = 11 → ∃ u, exec (.mcode v) s = .next u ∧ u.c = s.c ∧ u.t.g = s.t.g ∧ u.t.pc = (nextWord s.t).pc ∧
      u.mem = s.mem ∧ ∀ j : Fin 16, u.t.codebk[j] = if j.val < s.vl then BitVec.ofNat 16 (s.el v j.val) else s.t.codebk[j])

/-! ## Reversible words -/

/-- A pushing word writes its result and pushes one record, whose header names its kind, type, parameter, VL and
length (R250, R252); the record lies above what the stack held. It holds an entry for each active element that zero does not
rebuild: the remainder where that rebuilds the operand, else the operand itself, marked in ESCAPE (R249, R250). Where the
rules leave a reading open it is the model's: notes/assumptions/17.md, and 34.md for a NaN of sign 0 in RLRELU. -/
def Obligations.PushingWords : Prop :=
  ∀ (s : State) (m : Bool) (a b c : VReg) (g : GReg) (to_ : Fin 16) (rc : Fin 8), Lone s →
    let ty := s.t.modes.vtype.toNat
    let w := s.width
    let x (n : VReg) (k : Nat) : FVal := decodeVal ty (s.el n k)
    let sh := (s.g g).toNat % 64
    let sc : Int := signed (s.g g).toNat 16
    let worst := 16 * ((16 * ((s.vl + 63) / 64) + s.vl * (w / 8) + 16 + 15) / 16)
    let pos (k : Nat) : Bool := (isInt ty && !isSigned ty) || !(s.el b k).testBit (w - 1)
    let fma (k : Nat) : Res :=
      let p := mulV (x b k) (x c k)
      let q := addV (x a k) p.1
      finish ty (q.1, Nat.lor (Nat.lor p.2 q.2) (x a k).sig)
    let low (v : Int) : Nat := (v % 2 ^ w).toNat
    let relu (k : Nat) : Res :=
      if pos k then ⟨s.el b k, 0⟩
      else if isInt ty then ⟨low (s.eli b k / 2 ^ sh), 0⟩
      else finish ty (scaleV (-(sh : Int)) (x b k, 0))
    let loss (xb : Nat) (r : FVal) (recon : FVal → Nat) : Option (Nat × Bool) :=
      if recon (.fin false 0 0) = xb then none
      else match exactBits ty r with
        | some v => if recon r = xb then some (v, false) else some (xb, true)
        | none => some (xb, true)
    let cut (v : Nat) : Option (Nat × Bool) := if v = 0 then none else some (v, false)
    let holds (u : State) (n : Nat) (l : Nat → Option (Nat × Bool)) : Prop :=
      let rec_ := Memory.read u.t.riser s.t.depth n
      let words := (s.vl + 63) / 64
      let present (k : Nat) : Bool := s.active m k && (l k).isSome
      let rank (k : Nat) : Nat := ((List.range k).filter present).length
      n = 16 * ((16 * words + w / 8 * rank s.vl + 16 + 15) / 16) ∧
      ∀ k, k < s.vl → rec_.testBit k = present k ∧
        ∀ v e, s.active m k = true → l k = some (v, e) →
          rec_.testBit (64 * words + k) = e ∧ field rec_ (128 * words + w * rank k) w = v
    let pushes (i : Instr) (tag type aux : Nat) (els : State → Prop) (fs : Raised) (l : Nat → Option (Nat × Bool)) : Prop := Accepted s i →
      s.t.depth + worst ≤ s.t.segs[(14 : Fin 16)].desc.limit → s.t.depth - s.t.spill + worst ≤ 262144 → s.t.spill ≤ s.t.depth →
      ∃ u n, exec i s = .next u ∧ els u ∧ 0 < n ∧ n % 16 = 0 ∧ n ≤ worst ∧ u.t.depth = s.t.depth + n ∧
        Header u.t u.t.depth tag type aux s.vl n ∧ holds u n l ∧ (∀ q, q < s.t.depth → Memory.byte u.t.riser q = Memory.byte s.t.riser q) ∧
        LanesBut s u [.v (phys s.t.modes a.val).val] ∧ Raises s u fs ∧ u.t.g = s.t.g ∧ u.t.pc = (nextWord s.t).pc ∧ u.mem = s.mem
    let lanes (r : Nat → Res) (u : State) : Prop := ElemsOf s u m a fun k => (r k).bits
    let into (k : Nat) : Res := roundVal ty to_.val rc.val (draw s.t.modes.seed.toNat s.t.count k) (x b k)
    let cvt (u : State) : Prop := ∀ k, k < s.vl → typeBits to_.val * (k + 1) ≤ 32768 → s.active m k = true →
      elem (u.vr s.t.modes a.val) (typeBits to_.val) k = (into k).bits % 2 ^ typeBits to_.val
    (let r (k : Nat) : Res := finish ty (mulV (x b k) (x c k))
     let y (k : Nat) : FVal := decodeF ty (r k).bits
     pushes (.rmul m a b c) 1 ty 0 (lanes r) (s.flagsOf m r) fun k =>
       loss (s.el b k) (addV (mulV (x b k) (x c k)).1 (y k).negate).1 fun z => (finish ty (reconMul (y k) z (x c k))).bits) ∧
    (let y (k : Nat) : FVal := decodeF ty (fma k).bits
     pushes (.rfma m a b c) 2 ty 0 (lanes fma) (s.flagsOf m fma) fun k =>
       loss (s.el a k) (addV (addV (x a k) (mulV (x b k) (x c k)).1).1 (y k).negate).1
         fun z => (finish ty (reconFma (y k) z (x b k) (x c k))).bits) ∧
    (let r (k : Nat) : Res := ⟨low (s.eli b k / 2 ^ sh), 0⟩
     pushes (.rshr m a b g) 3 ty sh (lanes r) [] fun k => cut (s.el b k % 2 ^ sh)) ∧
    (let y (k : Nat) : FVal := decodeF ty (relu k).bits
     let neg (v : Nat) : Bool := v.testBit (w - 1)
     pushes (.rlrelu m a b g) 4 ty sh (lanes relu) (s.flagsOf m relu) fun k =>
       if pos k then none
       else if isInt ty then cut (s.el b k % 2 ^ sh)
       else loss (s.el b k) (addV ((x b k).scale (-(sh : Int))) (y k).negate).1 fun z =>
         if neg (relu k).bits then (finish ty (reconScale (-(sh : Int)) (y k) z)).bits else (relu k).bits) ∧
    (let r (k : Nat) : Res := finish ty (scaleV sc (x b k, 0))
     let y (k : Nat) : FVal := decodeF ty (r k).bits
     pushes (.rscale m a b g) 5 ty (sc % 2 ^ 16).toNat (lanes r) (s.flagsOf m r) fun k =>
       loss (s.el b k) (addV ((x b k).scale sc) (y k).negate).1 fun z => (finish ty (reconScale sc (y k) z)).bits) ∧
    (let y (k : Nat) : FVal := decodeF to_.val (into k).bits
     pushes (.rcvt m a b to_ rc) 6 (ty + 16 * to_.val) 0 cvt (s.flagsOf m into) fun k =>
       loss (s.el b k) (addV (x b k) (y k).negate).1 fun z => (finish ty (reconCvt (y k) z)).bits)

/-- An undo whose record lies on top pops it and rebuilds each active element from it (R251): an escaped element is
the record's entry, another is rebuilt from the result and its remainder. The RS group (R256): RSMARK pushes a marker,
RSDROP pops down to below the topmost marker (here one on top), RSDEPTH reads the depth, RSSYNC completes with spills
and fills at rest. Where the rules leave a reading open it is the model's: notes/assumptions/17.md. -/
def Obligations.UndoWords : Prop :=
  (∀ (s : State) (m : Bool) (a b c : VReg) (g : GReg) (to_ : Fin 16) (len : Nat), Lone s →
     let ty := s.t.modes.vtype.toNat
     let w := s.width
     let x (n : VReg) (k : Nat) : FVal := decodeVal ty (s.el n k)
     let sh := (s.g g).toNat % 64
     let sc : Int := signed (s.g g).toNat 16
     let rec_ := Memory.read s.t.riser (s.t.depth - len) len
     let maps := 64 * ((s.vl + 63) / 64)
     let has (k : Nat) : Bool := rec_.testBit k
     let esc (k : Nat) : Bool := rec_.testBit (maps + k)
     let entry (tb k : Nat) : Nat := field rec_ (2 * maps + tb * ((List.range k).filter has).length) tb
     let rem (ty v : Nat) : FVal := if v = 0 then .fin false 0 0 else decodeF ty v
     let built (tb : Nat) (f : Nat → Nat → Nat) (k : Nat) : Nat :=
       if has k then (if esc k then entry tb k else f k (entry tb k)) else f k 0
     let undoes (i : Instr) (tag type aux tb : Nat) (f : Nat → Nat → Nat) : Prop := Accepted s i →
       Header s.t s.t.depth tag type aux s.vl len → s.t.spill < s.t.depth → len ≤ s.t.depth →
       ∃ u, exec i s = .next u ∧ u.t.depth = s.t.depth - len ∧ LanesBut s u [.v (phys s.t.modes a.val).val] ∧ u.t.g = s.t.g ∧
         u.t.pc = (nextWord s.t).pc ∧ u.mem = s.mem ∧ u.t.riser = s.t.riser ∧ u.t.pushes = s.t.pushes ∧
         ∀ k, k < s.vl → tb * (k + 1) ≤ 32768 → elem (u.vr s.t.modes a.val) tb k =
           if s.active m k then built tb f k % 2 ^ tb else elem (s.vr s.t.modes a.val) tb k
     undoes (.umul m a b c) 1 ty 0 w (fun k e => (finish ty (reconMul (x b k) (rem ty e) (x c k))).bits) ∧
     undoes (.ufma m a b c) 2 ty 0 w (fun k e => (finish ty (reconFma (x a k) (rem ty e) (x b k) (x c k))).bits) ∧
     undoes (.ushr m a b g) 3 ty sh w (fun k e => Nat.lor (s.el b k * 2 ^ sh) e % 2 ^ w) ∧
     undoes (.ulrelu m a b g) 4 ty sh w (fun k e =>
       if (isInt ty && !isSigned ty) || !(s.el b k).testBit (w - 1) then s.el b k
       else if isInt ty then Nat.lor (s.el b k * 2 ^ sh) e % 2 ^ w
       else (finish ty (reconScale (-(sh : Int)) (x b k) (rem ty e))).bits) ∧
     undoes (.uscale m a b g) 5 ty (sc % 2 ^ 16).toNat w (fun k e => (finish ty (reconScale sc (x b k) (rem ty e))).bits) ∧
     undoes (.ucvt m a b to_) 6 (to_.val + 16 * ty) 0 (typeBits to_.val)
       (fun k e => (finish to_.val (reconCvt (x b k) (rem to_.val e))).bits)) ∧
  (∀ (s : State) (a : GReg), Lone s →
     (s.t.depth + 16 ≤ s.t.segs[(14 : Fin 16)].desc.limit → s.t.depth - s.t.spill + 16 ≤ 262144 → s.t.spill ≤ s.t.depth →
       ∃ u, exec .rsmark s = .next u ∧ u.t.depth = s.t.depth + 16 ∧ Header u.t u.t.depth 0x80 0 0 0 16 ∧ LanesBut s u [] ∧
         (∀ q, q < s.t.depth → Memory.byte u.t.riser q = Memory.byte s.t.riser q) ∧ u.t.g = s.t.g ∧ u.mem = s.mem) ∧
     (Header s.t s.t.depth 0x80 0 0 0 16 → s.t.spill + 16 ≤ s.t.depth → ∃ u, exec .rsdrop s = .next u ∧
       u.t.depth = s.t.depth - 16 ∧ LanesBut s u [] ∧ u.t.g = s.t.g ∧ u.mem = s.mem) ∧
     VecScalar s (.rsdepth a) a (BitVec.ofNat 64 s.t.depth) [] ∧
     (riserBusy s s.t = false → ∃ u, exec .rssync s = .next u ∧ u.c.lanes = s.c.lanes ∧ u.t.g = s.t.g ∧ OnlyMember s u))

/-! ## Convoys -/

/-- A convoy header opens a convoy (R136): the front stands at its first member, and nothing else changes. It traps where
LE0 or LE1 names a member, the lowest of which TINFO gives (R337, R340), and waits while the other front holds the lanes (R37) or its members would pass
the 64 entries of a frame (R41). Which words stand in a convoy (R138, R340): a word of the vector class outside one is
cause 0x03 kind 3, a word of the scalar class inside one takes the front back to the header with cause 0x03 kind 0. -/
def Obligations.ConvoyHeaders : Prop :=
  (∀ (s : State) (t : Bool) (d3 d2 d1 d0 : Fin 32) (cnt : Fin 4), Quiet s →
     let i : Instr := .convoyHeader t d3 d2 d1 d0 cnt
     let p := s.t.pc.toNat
     let stop (k : Fin 2) : Nat := s.t.loops[k].le.toNat / 4 * 4
     let names (k : Fin 2) : Prop := p + 4 ≤ stop k ∧ stop k ≤ p + 4 + 4 * cnt.val
     let inside : Prop := names 0 ∨ names 1
     let named (k : Fin 2) : Prop := exec i s =
       .next (takeTrap s { cause := 0x03, info := wordNat i + 4 * 2 ^ 32 + (stop k - (p + 4)) / 4 * 2 ^ 36 } s.t.pc [])
     let free : Prop := s.c.holder = none ∨ s.c.holder = some s.t.front
     let opened : Conv :=
       { cv := { hdr := p, word := wordNat i, entries := [] }, next := 0, cnt := cnt.val,
         before := { g := s.t.g, modes := s.t.modes, count := s.t.count }, start := s.t.cycle }
     (¬ inside → decodedCount s + cnt.val + 1 ≤ 64 → free →
       exec i s = .next (s.withTask { s.t with conv := some opened, pc := s.t.pc + 4 }).wordDone) ∧
     (Settled s → s.t.timed = false → ∀ k, names k → (∀ j, names j → stop k ≤ stop j) → named k) ∧
     (¬ inside → s.t.timed = false → 64 < decodedCount s + cnt.val + 1 ∨ ¬ free → ∃ w, exec i s = .next w ∧
       w.t.wait = some i ∧ w.t.pc = s.t.pc ∧ w.t.conv = none ∧ w.t.g = s.t.g)) ∧
  (∀ (s : State) (i : Instr) (r : Raw), encodeRaw i = some r →
     (vectorClass r.opc = true → Settled s → s.t.timed = false →
       exec i s = .next (takeTrap s { cause := 0x03, info := wordOf r + 3 * 2 ^ 32 } s.t.pc [])) ∧
     (∀ c, vectorClass r.opc = false → s.t.conv = some c →
       exec i s = .next (decodeTrap s { cause := 0x03, info := c.cv.word + c.next * 2 ^ 36 })))

/-! ## Engine words, batches and queues -/

/-- The engine words are captured with their registers (R49, R170, R207, R227, R233, R239, R241), where the held set
has room and the batch is nobody else's; ISTREAM, TXSUB and LAUNCH of a timed task are timing reason 8 (R54). BCOMMIT
seals the task's open group of a batch; BWAIT joins once every sealed command has completed, and waits until then;
BTEST reads the status word of Table 11-5, and with DONE joins and clears LFLAGS and FAULT (R228, R229). Where the
rules leave a reading open it is the model's: notes/assumptions/22.md. -/
def Obligations.EngineWords : Prop :=
  (∀ (s : State) (a b : GReg) (x : AReg) (t : TReg) (n : Batch) (tr : Bool) (cv : Fin 16) (rc : Fin 8),
     let regs := ((List.range 8).map fun k => s.g (regAfter a k)) ++ [s.g b]
     let lcpy : Instr := .lcpy a b tr cv rc n
     (Settled s → s.t.timed = false → s.ahead = false → s.t.refused = [] → HasRoom s n →
       (lcpyTrap s lcpy a (copyOf regs tr cv.val rc.val) regs = none → Captures s lcpy n regs) ∧
       Captures s (.istream b n) n [s.g b] ∧ Captures s (.launch b n) n [s.g b] ∧
       ((∃ c ∈ s.dies[dieOf s.t.core].chains, c.handle = (s.g a).toNat % 16 ∧ c.launch = s.t.launch) →
         Captures s (.txsub a b n) n [s.g a, s.g b])) ∧
     (Lone s → s.t.mbFault = none → s.t.refused = [] → HasRoom s n →
       (Accepted s (.mmaA x n t b) → Captures s (.mmaA x n t b) n [s.g b]) ∧
       (Accepted s (.mmasA x n t b) → Captures s (.mmasA x n t b) n [s.g b])) ∧
     (Settled s → s.t.timed = true → s.c.pipe = [] →
       let traps (i : Instr) : Prop := exec i s = .next (takeTrap s (timingTrap s.t.cycle s.t.origin 8) s.t.pc [])
       traps (.istream b n) ∧ traps (.launch b n) ∧ traps (.txsub a b n))) ∧
  (∀ (s : State) (a : GReg) (n : Batch), Quiet s → s.t.timed = false →
     let mine (d : Cmd) : Bool := d.batch == n.val && d.launch == s.t.launch && d.task == s.t.task
     let b := s.c.batches[n]
     let own : Bool := b.owner == some (s.t.launch, s.t.task)
     let pend := (s.c.cmds.filter fun d => mine d && d.sealed && !d.done).length
     let isOpen : Bool := s.c.cmds.any fun d => mine d && !d.sealed
     let status := isOpen.toNat * 2 ^ 24 + Nat.min pend 255 * 2 ^ 16 +
       (if own then b.lflags.toNat * 2 ^ 8 + b.fault.toNat * 2 else 0) + (if pend = 0 then 1 else 0)
     let joins (u : State) : Prop := (∀ d ∈ u.c.cmds, d ∈ s.c.cmds ∧ (mine d && d.sealed) = false) ∧
       u.t.fflags = (s.c.cmds.filter fun d => mine d && d.sealed).foldl
         (fun f d => if d.matrix && !d.faulted then f ||| d.flags else f) s.t.fflags ∧
       u.t.pc = (nextWord s.t).pc ∧ u.mem = s.mem
     exec (.bcommit n) s = .next (s.withCore { s.c with
       cmds := s.c.cmds.map fun d => if mine d then { d with sealed := true } else d }).after ∧
     (pend = 0 → ∃ u, exec (.bwait n) s = .next u ∧ joins u ∧ u.t.g = s.t.g) ∧
     (pend ≠ 0 → ∃ w, exec (.bwait n) s = .next w ∧ w.t.wait = some (.bwait n) ∧ w.t.pc = s.t.pc ∧ w.t.g = s.t.g ∧
       w.c = { s.c with waited := w.c.waited, waitedTo := w.c.waitedTo }) ∧
     (pend = 0 → ∃ u, exec (.btest a n) s = .next u ∧ joins u ∧
       (∀ r, u.g r = if r = a ∧ a ≠ 0 then BitVec.ofNat 64 status else s.g r) ∧
       (own = true → (u.c.batches[n]).lflags = 0 ∧ (u.c.batches[n]).fault = false)) ∧
     (pend ≠ 0 → Writes s (.btest a n) a (BitVec.ofNat 64 status)))

/-- The queue words (R241, R243, R265) push gA's low word where the segment is writable (R121), pop the oldest entry, and
read the count beside the capacity of 8,192; a full or an empty queue makes them wait, and a unit of the queue's SRAM that cannot be
read, or that a push would have to merge with, is cause 0x15 (R388). TXCFG checks its block and builds a chain of the lowest free
handle (R242). In which bytes of the SRAM an entry stands is the model's choice (notes/assumptions/36.md). Where the rules leave a reading open it is the model's: notes/assumptions/32.md. -/
def Obligations.QueueWords : Prop :=
  ∀ (s : State) (a b : GReg) (g : SReg), Settled s → s.t.timed = false →
    let dq := queueOf s.actor s.t.segs[g]
    let q := s.queue dq.1 dq.2
    let waits (i : Instr) : Prop := ∃ w, exec i s = .next w ∧ w.t.wait = some i ∧ w.t.pc = s.t.pc ∧ w.t.g = s.t.g ∧ w.dies = s.dies
    let runs (i : Instr) (x : Queue) (u : State) : Prop := exec i s = .next u ∧ u.queue dq.1 dq.2 = x ∧
      (∀ d k, (d, k) ≠ dq → u.queue d k = s.queue d k) ∧ u.t.pc = (nextWord s.t).pc ∧ u.c = s.c ∧ u.mem = s.mem
    let traps (i : Instr) (kind : Nat) : Prop := exec i s =
      .next (takeTrap s { cause := 0x18, info := dq.2 + dq.1.val * 2 ^ 8 + kind * 2 ^ 16 } s.t.pc [])
    (s.t.segs[g].desc.disc = .stream →
      (s.t.segs[g].desc.writable = true →
        (q.isOut = false → s.queueRoom dq.1 dq.2 ≠ 0 → queueMerge s dq.1 dq.2 1 = none →
          ∃ u, runs (.qpush a g) { q with entries := q.entries ++ [(s.g a).toNat % 2 ^ 32] } u ∧ u.t.g = s.t.g) ∧
        (∀ tr, q.isOut = false → s.queueRoom dq.1 dq.2 ≠ 0 → queueMerge s dq.1 dq.2 1 = some tr →
          exec (.qpush a g) s = .next (takeTrap s tr s.t.pc [])) ∧
        (q.isOut = false → s.queueRoom dq.1 dq.2 = 0 → waits (.qpush a g)) ∧ (q.isOut = true → traps (.qpush a g) 4)) ∧
      (s.t.segs[g].desc.writable = false →
        exec (.qpush a g) s = .next (takeTrap s { cause := 0x07, info := memForm g.val 0 } s.t.pc [])) ∧
      (∀ v r, q.isIn = false → q.entries = v :: r → queueBad s dq.1 dq.2 1 = none →
        ∃ u, runs (.qpop a g) { q with entries := r, head := (q.head + 1) % 8192 } u ∧
        ∀ k, u.g k = if k = a ∧ a ≠ 0 then BitVec.ofNat 64 (v % 2 ^ 32) else s.g k) ∧
      (∀ v r tr, q.isIn = false → q.entries = v :: r → queueBad s dq.1 dq.2 1 = some tr →
        exec (.qpop a g) s = .next (takeTrap s tr s.t.pc [])) ∧
      (q.isIn = false → q.entries = [] → waits (.qpop a g)) ∧ (q.isIn = true → traps (.qpop a g) 5) ∧
      (∃ u, runs (.qstat a g) q u ∧
        ∀ k, u.g k = if k = a ∧ a ≠ 0 then BitVec.ofNat 64 (q.entries.length + 8192 * 2 ^ 32) else s.g k)) ∧
    (∀ (x v h : Nat) (y z w : State) (ps : List (Nat × Nat)), checkRights s s.actor (s.g b).toNat 64 1 .rd = .ok x →
      reachAll s s.actor x 64 false = .ok (y, ps) → engineRead y y.actor sightNow (s.g b) 64 1 = .ok (z, v) →
      chainOk z v = true → (z.dies[dieOf z.t.core]).handle = some h → readHeaders z (blockStages v) = .ok w →
      ∃ u, exec (.txcfg a b) s = .next u ∧ (∀ k, u.g k = if k = a ∧ a ≠ 0 then BitVec.ofNat 64 h else s.g k) ∧
        (∃ c ∈ u.dies[dieOf s.t.core].chains, c.handle = h ∧ c.launch = s.t.launch ∧ c.fn = s.t.fn ∧
          c.quarantine = v / 2 ^ 8 % 2 ^ 8 ∧ c.stages.length = (blockStages v).length) ∧
        u.t.pc = (nextWord s.t).pc ∧ u.mem = s.mem)

/-! ## Events of the engines -/

/-- A held command forks with its issuer's rights of that moment once it is released and its engine takes it, and its
engine starts, unless a throttle level withholds the fork on this cycle, which counts as withheld (R49, R129, R231, R285, R289,
R376). None completes before the cycle of Table 3-4 (R61). A command that completes is done, its batch takes its flags and faults, and its
launch is looked at (R227, R229, R391). The completion events run their command to its end and complete it (R238,
R207, R239, R242, R170): a copy converts and lands its rows and tags the tiles it wrote, a product leaves the
accumulators and its flags, a stream moves its elements, a message and a launch complete with their status. A command
that is not ready is left alone. Mailbox writes that waited land once the holder of the target's lanes has the range,
which counts them once (R115). A stage of a chain writes what it has to write as far as its queue has room, a
decompress stage in DECODER_MEMBER_COMMIT (R264, R270). Where the rules leave a reading open it is the model's:
notes/assumptions/14.md and 22.md. -/
def Obligations.CommandForks : Prop :=
  ((∀ (s y : State) (num : Nat) (d : Cmd) (ts : List Touch) (go : State → State), s.arg 0 = num → s.cmdAt num (s.arg 1) = some d →
     d.done = false → d.begun = false → d.pages = [] → d.forked = false → d.timed = false →
     let f0 : Cmd := { d with forked := true, segs := (issuerOf s d).elim d.segs Task.segs }
     let f : Cmd := { f0 with start := s.cycle }
     let g : Cmd := { f.begin ts with finish := f.finishCycle }
     let again : Instr × Input := (.engineCommandFork, { n := [num, d.id] })
     (d.released = false → exec .engineCommandFork s = .next s) ∧
     (d.released = true → engineFull s num d = true →
       exec .engineCommandFork s = .next { s with agenda := s.agenda ++ [again] }) ∧
     (d.released = true → engineFull s num d = false → forkThrottled s num d = true →
       let n := throttled (s.coreAt num).throttle s.cycle
       ∃ u, exec .engineCommandFork s = .next u ∧ u.agenda = s.agenda ++ [again] ∧
         u.cmdAt num d.id = some { d with withheld := Nat.max n d.withheld } ∧
         (u.coreAt num).counters.thrcyc = (s.coreAt num).counters.thrcyc + (n - Nat.max d.withheld s.cycle)) ∧
     (d.released = true → engineFull s num d = false → forkThrottled s num d = false →
       prepare (enlist (s.setCmd num f0) num f0) num f = .ok (y, ts, go) →
       (∀ tr, forkConflict y num f (ts.filter fun t => !t.later) = some tr →
         exec .engineCommandFork s = .next (stopCmd y num f tr)) ∧
       (forkConflict y num f (ts.filter fun t => !t.later) = none → laterConflicts y num g = [] →
         exec .engineCommandFork s = .next (go (productLoad (y.setCmd num g) num g))))) ∧
   (∀ (s : State) (num : Nat) (d : Cmd), s.arg 0 = num → s.cmdAt num (s.arg 1) = some d → d.begun = true → d.done = false →
     d.pages = [] → d.due s = false →
     exec (doneEvent d.instr) s = .next { s with agenda := s.agenda ++ [(doneEvent d.instr, { n := [num, d.id] })] }) ∧
   (∀ (s : State) (num : Nat) (d e : Cmd), s.cmdAt num d.id = some e → d.batch < 8 → d.timed = false →
     ((s.coreAt num).batches[Fin.ofNat 8 d.batch]).owner = some (d.launch, d.task) →
     (∃ t ∈ s.allTasks, t.launch = d.launch ∧ t.task = d.task) →
     let b := (s.coreAt num).batches[Fin.ofNat 8 d.batch]
     let u := completeCmd s num d
     let c := (u.coreAt num).batches[Fin.ofNat 8 d.batch]
     u.cmdAt num d.id = some { d with done := true } ∧ c.owner = b.owner ∧
     c.lflags = (if engineOf d.instr = 0 then b.lflags ||| d.flags else b.lflags) ∧ c.fault = (b.fault || d.faulted) ∧
     (.launchComplete, { n := [d.launch] }) ∈ u.agenda ∧ (∀ x ∈ s.agenda, x ∈ u.agenda) ∧ u.mem = s.mem ∧ u.t = s.t)) ∧
  (∀ (s y z : State) (num : Nat) (d e : Cmd), CmdReady s num d →
     (engineOf d.instr = 0 → ∀ c, d.copy = some c → mailStop s d = .lands →
       c.run num (if c.dstRows = [] then 0 else c.drows - d.progress) s (d.aim s) = (y, e, none) →
       exec .ladleCopyComplete s = .next (completeCmd (countMail (tagTiles y num e c.tag) e) num e)) ∧
     (engineOf d.instr = 1 → arrayBusy s num d = false → productTrap s num d = none →
       let c := s.coreAt num
       let p := productOf c d
       let lanes := (accWrites d.instr d.entry).foldl (fun l k => l.advance (.a k) 32) p.1
       exec .matrixCommandComplete s = .next (completeCmd (s.setCore { c with lanes := lanes }) num
         { d with flags := BitVec.ofNat 6 p.2.all, fexc0 := fexcWord0 p.2, fexc1 := fexcWord1 p.2 })) ∧
     (engineOf d.instr = 2 → ∀ v, d.block = some v → mailStop s d = .lands →
       let b := blockOf v
       b.run num (b.count - d.progress) s (d.aim s) = (z, e, none) → e.progress = b.count →
       exec .istreamComplete s = .next (completeCmd (fillMails (z.setCmd num e) e) num e)) ∧
     (engineOf d.instr = 3 → s.arg 2 = 0 → exec .txsubComplete s = .next (completeCmd s num { d with progress := 1 })) ∧
     (engineOf d.instr = 4 → s.arg 2 = 1 → exec .launchCommandComplete s = .next (completeCmd s num d)) ∧
     (engineOf d.instr = 4 → 2 ≤ s.arg 2 → s.arg 2 ≤ 5 →
       exec .launchCommandComplete s = .next (faultCmd s num d { cause := 0, info := s.arg 3 })) ∧
     (engineOf d.instr ≠ 0 → exec .ladleCopyComplete s = .next s)) ∧
  (∀ (s : State),
     (let num := s.arg 0
      ∀ (h : Nat) (t : Task) (ws : List Store), (s.coreAt num).mailbox = [ws] → (s.coreAt num).holder = some h →
       s.taskAt num h = some t → (∀ w ∈ ws, chip ≤ w.place ∧ mapSpace (w.place - chip) = 1 ∧ mapNum (w.place - chip) = num ∧
         t.mbFirst ≤ mapOff (w.place - chip) / 4096 ∧ mapOff (w.place - chip) / 4096 < t.mbFirst + t.mbCount ∧
         (w.target = none ∨ w.target = some (t.launch, t.task))) →
       ∃ u, exec .mailboxWriteLand s = .next u ∧ (u.coreAt num).mailbox = [] ∧ u.taskAt num h = some { t with mbcnt := t.mbcnt + 1 }) ∧
     (let k := Fin.ofNat 8 (s.arg 0)
      ∀ (c : Chain) (st : Stage), s.chainAt k (s.arg 1) = some c → c.stages[s.arg 2]? = some st → st.pending ≠ [] →
       st.records = [] → st.pending.length ≤ s.queueRoom k st.outq →
       let written (i : Instr) : Prop := ∃ u d, exec i s = .next u ∧
         (u.queue k st.outq).entries = (s.queue k st.outq).entries ++ st.pending ∧
         u.chainAt k (s.arg 1) = some d ∧ d.stages[s.arg 2]? = some { st with pending := [], ending := false } ∧ u.mem = s.mem
       written .decoderMemberCommit ∧ (st.kind ≠ 0 → written .textStageMessage)) ∧
     (s.chainAt (Fin.ofNat 8 (s.arg 0)) (s.arg 1) = none →
       exec .textStageMessage s = .next s ∧ exec .decoderMemberCommit s = .next s))

/-! ## Events of a front -/

/-- The columns' own steps (R40, R42, R45): the oldest convoy takes its turn, and a word decoded ahead of the columns has there the
effect that it has where the front does not run ahead; a command closes the strip before it, whose flags join FFLAGS, and its fork
is due; a single-stepped task stops once a convoy has retired (R372). A spill moves S up past whole committed records until at most
131,072 bytes of the stack are buffered, and the bytes below it stand in sg14; a fill brings whole records back until 98,304 are
(R254). A step stop that comes due (R372), the end of a launch by a trap (R359), and a word that waits and whose condition now
holds (R171, R225). Where the rules leave a reading open it is the model's: notes/assumptions/14.md. -/
def Obligations.FrontEvents : Prop :=
  ∀ (s u : State), Here s →
    (∀ cv rest, s.t.queue = cv :: rest → runConvoy (s.withQueue rest) cv = (u, none) → SameFront s u →
      (cv.cmd = none → (stepping s.t = false → exec .vectorMemberIssue s = .next u ∧ exec .convoyRetire s = .next u) ∧
        (∀ v, stepping s.t = true → s.t.conv = none → closeStrip u = (v, none) → SameFront s v →
          let w := takeTrap (v.withQueue []) { cause := 0x12, info := 16 } v.t.pc rest
          exec .vectorMemberIssue s = .next w ∧ exec .convoyRetire s = .next w)) ∧
      (cv.cmd.isSome = true → exec .stripCommit s = .next u)) ∧
    (∀ (m : Bool) (a b c : VReg) (x : GReg) (i : Instr) (cv : Convoy) (v w : State),
      i ∈ [.vadd m a b c, .vredsum m x a, .vst m a x, .rmul m a b c] → Lone s → exec i { s with ahead := true } = .next v →
      let y : State := { v with ahead := false }
      v.t.queue = [cv] → runConvoy (y.withQueue []) cv = (w, none) → SameFront s w → w.t.queue = [] →
      w.t.dbgctl.getLsbD 0 = false →
      exec i s = .next w ∧ exec .vectorMemberIssue y = .next w ∧ exec .convoyRetire y = .next w) ∧
    (∀ (cv : Convoy) (rest : List Convoy) (d : Cmd) (p : Strip), s.t.queue = cv :: rest → cv.cmd = some d.id → cv.entries = [] →
      s.t.strip = some p → p.stores = [] → p.apps = [] → s.t.mbFault = none → s.t.refused = [] → s.c.cmds = [d] →
      ∃ w e, exec .stripCommit s = .next w ∧ w.t.queue = rest ∧ w.t.fflags = s.t.fflags ||| p.flags ∧ w.t.g = s.t.g ∧
        w.mem = s.mem ∧ (∃ q, w.t.strip = some q ∧ q.nins = 0 ∧ q.flags = 0 ∧ q.stores = [] ∧ q.shadow = []) ∧
        w.c.cmds = [e] ∧ e.id = d.id ∧ e.released = true ∧ e.forked = d.forked ∧
        (.engineCommandFork, { n := [s.c.num, d.id] }) ∈ w.agenda) ∧
    (s.t.queue = [] → exec .vectorMemberIssue s = .next s ∧ exec .convoyRetire s = .next s ∧ exec .stripCommit s = .next s) ∧
    (spillOver s = .ok u → SameFront s u → exec .riserSpill s = .next u) ∧
    (s.t.depth - s.t.spill ≤ 131072 → exec .riserSpill s = .next s) ∧
    (∀ (top : Nat) (v : State) (ps : List (Nat × Nat × Nat)),
      let ends := recEnds s.t 16384 s.t.depth []
      let n := top - s.t.spill
      131072 < s.t.depth - s.t.spill → top ∈ ends → top ≤ s.stripNow.depth → s.t.spill < top → s.t.depth - top ≤ 131072 →
      (∀ p ∈ ends, p < top → 131072 < s.t.depth - p) → s.bad = [] →
      riserPlaces true s.t.spill s (linesOf s.t.spill n) = .ok (v, ps) →
      (∀ q ∈ ps, q.1 + q.2.1 ≤ chip ∧ q.1 % 64 + q.2.1 ≤ 64 ∧ 0 < q.2.1) →
      ps.Pairwise (fun p q => p.1 + p.2.1 ≤ q.1 ∨ q.1 + q.2.1 ≤ p.1) →
      ∃ w, exec .riserSpill s = .next w ∧ w.t.spill = top ∧ w.t.depth = s.t.depth ∧
        w.t.riser = s.t.riser.filter (fun c => top ≤ c.1) ∧
        ∀ q ∈ ps, Memory.read w.mem q.1 q.2.1 = Memory.read s.t.riser s.t.spill n / 2 ^ (8 * q.2.2) % 2 ^ (8 * q.2.1)) ∧
    (s.t.timed = false → s.t.spill ≠ 0 → fillUp 16384 s = .ok u → SameFront s u →
      exec .riserFill s = .next u ∧ u.t.depth = s.t.depth ∧ u.t.spill ≤ s.t.spill ∧
      (98304 ≤ s.t.depth - s.t.spill → u = s)) ∧
    (s.t.wait = some .trapEntry → s.t.conv = none → s.t.queue = [] → s.t.strip = none → s.t.timed = false →
      s.t.inHandler = false → s.t.dbgctl.getLsbD 0 = true → exec .trapEntry s =
        .next (takeTrap (s.withTask { s.t with wait := none }) { cause := 0x12, info := 16 } s.t.pc [])) ∧
    (∀ l, s.t.wait = some .launchEndByTrap → s.c.holder ≠ some s.t.front → riserBusy s s.t = false → s.launch s.t.launch = some l →
      l.stopped = false → (saveContext s s.t.frozen [] true false).t.wait ≠ some .contextSave →
      ∃ w m, exec .launchEndByTrap s = .next w ∧ w.launch l.id = some m ∧ m.stopped = true ∧
        m.fault = some (s.t.tcause.toNat, l.frameAt s.t.frame) ∧ (.launchComplete, { n := [s.t.launch] }) ∈ w.agenda) ∧
    (s.t.wait = none → exec .waitConditionMet s = .next s) ∧
    (∀ b, Quiet s → s.t.timed = false → s.t.wait = some (.waitev b) → (s.g b).toNat % 2 ^ 32 ≤ s.t.mbcnt.toNat →
      exec .waitConditionMet s = .next (joinMail s).after) ∧
    (∀ (a b c : GReg) (g : SReg) (n : Batch) (i : Instr), s.t.wait = some i →
      i ∈ [.acq a b, .segacq g, .waiteq a b c, .waitge a b c, .waitt b, .bwait n] → exec .waitConditionMet s = exec i s)

/-- A context leaves its front and comes back (R361, R364 to R367): a page fault or a pre-emption has it saved at its
pc, never at a convoy's header (R138), a pre-emption that waits once 4,096 cycles have run out; the save leaves it in its frame and
the front without a task, or meets a fault and waits for SAVERETRY, and a restore puts it where it was, unless Dusk has begun (R412). The page-fault ring
and its replies (R362, R363): the host's heads and tails are taken, and a reply lowers the count of the frame it
names, noting a refusal. Where the rules leave a reading open it is the model's: notes/assumptions/33.md. -/
def Obligations.ContextEvents : Prop :=
  (∀ (s : State),
     let asks (i : Instr) (pages : List Nat) (frozen : List Convoy) : Prop := ∃ u, exec i s = .next u ∧
       u.t.wait = some .contextSave ∧ u.t.tpc = s.t.pc ∧ u.t.frozen = frozen ∧ u.t.queue = [] ∧ u.t.g = s.t.g ∧ u.mem = s.mem ∧
       (frozen = [] → u.t.tvcp = s.t.pc) ∧ (∀ cv l, frozen = cv :: l → u.t.tvcp = BitVec.ofNat 64 cv.hdr) ∧
       u.agenda = s.agenda ++ [(.contextSave, { n := [s.t.core, s.t.front, 0] ++ pages })]
     (∀ tr, Here s → Settled s → (recallHeld s).2 = [] → s.t.wait = none → fetch s s.t.pc = .error tr → tr.pages s.t = true →
       asks .pageFault [tr.info % 2 ^ 55 + tr.write.toNat + 2 * tr.fetch.toNat] []) ∧
     (Here s → Settled s → unforked s.c s.t.launch s.t.task = 0 → s.t.wait = none → s.t.timed = false → s.t.inHandler = false →
       atHeader s = false → asks .preemption [] []) ∧
     (∀ w v, Here s → s.t.wait = none → s.t.timed = false → s.t.inHandler = false → fetch s s.t.pc = .ok (w, v) → w % 128 = 0x7F →
       exec .preemption s = .next { s with agenda := s.agenda ++ [(.preemption, { n := [s.t.core, s.t.front] })] }) ∧
     (Here s → s.t.inHandler = true → exec .preemption s = .next s) ∧
     (Here s → s.t.wait = some .preemption →
       (s.cycle < s.t.issued + 4096 → exec .preemptionDrainTimeout s = .next s) ∧
       (s.t.issued + 4096 ≤ s.cycle → newerStrip s.t.queue = false → (recallHeld s).2 = [] → s.t.strip = none →
         asks .preemptionDrainTimeout [] s.t.queue)) ∧
     (∀ y, let t0 : Task := { s.t with queue := [], strip := none, conv := none }
       let pages := s.input.n.drop 3
       Here s → s.t.wait = some .contextSave → saveFrozen s = false → s.c.holder ≠ some s.t.front → riserBusy s s.t = false →
       (∀ off, saveBad (s.withTask t0) none = some off → ∃ u v, exec .contextSave s = .next u ∧ u.t.wait = some .contextSave ∧
         u.t.tinfo = BitVec.ofNat 64 off ∧ v ∈ u.saved ∧ v.ctx = s.t.ctx ∧ v.frozen = true) ∧
       (saveBad (s.withTask t0) none = none →
         writePieces (s.withTask t0) s.t.fn (frameOf s s.t) (framePieces (s.withTask t0) none s.t.frozen pages.length false) = .ok y →
         ∃ u v, exec .contextSave s = .next u ∧ u.t.live = false ∧ v ∈ u.saved ∧ v.task = t0 ∧ v.pages = pages ∧
           v.outstanding = pages.length ∧ v.lanes = none)) ∧
     (∀ v, (s.saved.find? fun v => v.frozen && v.ctx == s.arg 0) = some v → v.task.core = s.t.core → v.task.front = s.t.front →
       s.t.front < 2 → s.c.num = s.t.core → s.t.wait = some .contextSave → s.t.ctx = v.ctx → v.ended = false →
       let y := saveContext (s.withTask v.task) v.task.frozen v.pages false v.timed
       y.t.wait ≠ some .contextSave →
       ∃ u, exec .saveretry s = .next u ∧ u.t.live = false ∧ ∃ w ∈ u.saved, w.ctx = v.task.ctx ∧ w.frozen = false) ∧
     (∀ v, (s.saved.find? fun v => v.ready && v.ctx == s.arg 0) = some v → v.task.core = s.t.core → s.t.front = 0 →
       s.c.num = s.t.core → s.t.live = false → s.domains = [] → (v.lanes = none ∨ s.c.holder = none) → frameBad s v = none →
       s.mgmt.dusk = false → ∃ u, exec .contextRestore s = .next u ∧ u.t.live = true ∧ u.t.launch = v.task.launch ∧ u.t.task = v.task.task ∧
         u.t.wait = some .taskStart ∧ u.t.pc = u.t.tpc ∧ u.t.queue = v.task.frozen ∧ ∀ x ∈ u.saved, x.ctx ≠ v.ctx)) ∧
  (∀ (s : State),
     let m := s.mgmt
     let n := s.arg 0 % 2 ^ 32
     (exec .pageFaultReplyDoorbell s = .next { s with
       mgmt := { m with frplTail := n },
       agenda := s.agenda ++ if (n + 2 ^ 32 - m.frplHead) % 2 ^ 32 = 0 then [] else [(.pageFaultReply, {})] }) ∧
     (∃ u, exec .freqheadWrite s = .next u ∧ u.mgmt.freqHead = n ∧ (s.requests = [] → u = { s with mgmt := { m with freqHead := n } })) ∧
     ((m.frplTail + 2 ^ 32 - m.frplHead) % 2 ^ 32 = 0 → exec .pageFaultReply s = .next s) ∧
     (∀ w x k, (m.frplTail + 2 ^ 32 - m.frplHead) % 2 ^ 32 ≠ 0 → (∀ c ∈ s.allCores, c.cmds = []) →
       (∀ t ∈ s.allTasks, t.riserPages = []) → s.saved = [w] → w.task.riserPages = [] →
       devRead s 0 (m.frplBase / 64 * 64 % 2 ^ 55 + 16 * (m.frplHead % 2 ^ (m.frplBase % 16))) 16 = some x →
       w.ctx = x % 2 ^ 64 → w.outstanding = k + 1 →
       ∃ u, exec .pageFaultReply s = .next u ∧ u.mgmt = { m with frplHead := (m.frplHead + 1) % 2 ^ 32 } ∧
         u.saved = [{ w with outstanding := k, since := s.cycle,
                             refused := if x.testBit 64 then w.refused ++ [x / 2 ^ 64 % 2 ^ 55 / 2 ^ 16 * 2 ^ 16] else w.refused }]))

/-! ## Events of the scheduler and the governor -/

/-- A launch record is refused or accepted, its tasks are placed in frames of their own and started, and its completion is
written with its status, cause and pointer, which a LAUNCH that placed it learns (R30, R35, R75, R170, R276 to R278, R284, R391,
R401). Where the rules leave a reading open it is the
model's: notes/assumptions/26.md and 28.md. -/
def Obligations.LaunchEvents : Prop :=
  ∀ (s : State),
    (∀ c, s.candidates = [c] → failedWait s c = none → isReady s c = true → s.mgmt.dusk = false →
      let r := recOf c.bytes
      (∀ b, refusal s c.fn c.bytes = some b → ∃ u, exec .launchSelection s = .next u ∧ u.candidates = [] ∧
        u.launches = s.launches ∧ u.lastQueue = c.queue ∧ (.launchSelection, {}) ∈ u.agenda) ∧
      (refusal s c.fn c.bytes = none → canAccept s r = true → ∃ u l, exec .launchSelection s = .next u ∧ u.candidates = [] ∧
        l ∈ u.launches ∧ l.id = s.nextLaunch ∧ l.fn = c.fn ∧ l.record = r ∧ l.total = r.tasks ∧ u.nextLaunch = s.nextLaunch + 1 ∧
        (r.regime = 0 → u.readyTasks = s.readyTasks ++
          (List.range r.tasks).map fun t => { launch := s.nextLaunch, task := t, since := s.cycle }))) ∧
    (s.candidates = [] → exec .launchSelection s = .next s) ∧
    (∀ r l f, nextPlacement s = some (.fresh r, s.t.core) → s.mgmt.dusk = false → s.launch r.launch = some l →
      freeFrame l = some f → s.t.front = 0 → s.t.live = false → s.c.num = s.t.core → s.domains = [] →
      ∃ u m, exec .taskPlacement s = .next u ∧ u.t = newTask s l r.task f s.t.core 0 ∧ u.launch l.id = some m ∧
        m.frames = l.frames ++ [(f, r.task)] ∧ ∀ x ∈ u.readyTasks, ¬ (x.launch = l.id ∧ x.task = r.task)) ∧
    (s.saved = [] → s.readyTasks = [] → s.domains = [] → exec .taskPlacement s = .next s) ∧
    (let cycle := if s.arg 2 = 0 then s.cycle else s.arg 2
     Here s → s.t.wait = some .taskStart → s.t.timed = false →
      ((s.t.ready = true ∨ ∀ k : Fin 16, s.t.segs[k].desc.disc ≠ .owned ∧ s.t.segs[k].desc.disc ≠ .sliced) →
        ∃ u, exec .taskStart s = .next u ∧
          u.t = (if s.t.ready then { s.t with wait := none, cycle := cycle }
                 else { s.t with wait := none, cycle := cycle, tstart := BitVec.ofNat 64 (timeAt s cycle), origin := cycle, ready := true }) ∧
          u = { s with t := u.t, c := { s.c with waited := u.c.waited, waitedTo := u.c.waitedTo } })) ∧
    (∀ l, s.launch (s.arg 0) = some l →
      (launchOver s l = false → exec .launchComplete s = .next s) ∧
      (launchOver s l = true → ∃ u m, exec .launchComplete s = .next u ∧ u.launch l.id = some m ∧ m.final = true ∧
        u.mem = (if l.stopped then s.mem else
          (writeFinal s l.fn l.record.comp (if l.fault.isSome then 2 else 1) (l.fault.getD (0, 0)).1 (l.fault.getD (0, 0)).2).mem) ∧
        (∀ num id, l.stopped = false → l.parent = some (num, id) →
          (.launchCommandComplete, { n := [num, id, if l.fault.isSome then 2 else 1, l.record.comp] }) ∈ u.agenda) ∧
        (.launchSelection, {}) ∈ u.agenda ∧ (.taskPlacement, {}) ∈ u.agenda))

/-- A timed domain goes back to its restart point once, and ends at the second time (R368, R370); it resumes a whole
number of ticks later, unless Dusk has begun (R412). The domain tick (R52), at which a package out of phase with the fabric loses
its skew bound (R406; the reading is the model's, notes/assumptions/37.md), and the governor's slot with its claims and estimates (R282 to R285).
Where the rules leave a reading open it is the model's: notes/assumptions/25.md and 27.md. -/
def Obligations.DomainEvents : Prop :=
  ∀ (s : State),
    (∀ l d, s.launch (s.arg 0) = some l → (s.domains.find? fun d => d.launch == s.arg 0) = some d → l.stopped = false →
      (l.rolled = false → (∀ t ∈ s.allTasks, t.launch = s.arg 0 → t.wait ≠ some .launchEndByTrap) → ∃ u m, exec .timedRollback s = .next u ∧ u.launch (s.arg 0) = some m ∧ m.rolled = true ∧
        (.timedResume, { n := [s.arg 0] }) ∈ u.agenda ∧
        ∀ old, d.tasks = [old] → s.tasks = [] → s.t.live = true → s.t.launch = s.arg 0 → old.core = s.t.core → old.front = s.t.front →
          u.t = { old with
            tcause := s.t.tcause, tinfo := s.t.tinfo, tvcp := s.t.tvcp, owed := [], wait := some .timedRollback }) ∧
      (l.rolled = true → s.tasks = [] → s.t.live = true → s.t.launch = s.arg 0 → s.t.wait ≠ some .launchEndByTrap → ∃ u, exec .timedRollback s = .next u ∧
        u.t.wait = some .launchEndByTrap ∧ u.t.tcause = BitVec.ofNat 8 (s.arg 1) ∧
        (.launchEndByTrap, { n := [s.t.core, s.t.front] }) ∈ u.agenda) ∧
      (s.tasks = [] → s.t.live = true → s.t.launch = s.arg 0 → s.t.wait = some .timedRollback → s.mgmt.dusk = false →
        let k := (s.cycle / 4096 + 1 - d.restart / 4096) * 4096
        ∃ u, exec .timedResume s = .next u ∧
          u.t = { s.t with
            cycle := s.t.cycle + k, origin := s.t.origin + k, wait := none,
            late := s.t.late.map fun x => { x with ready := x.ready + k },
            strip := s.t.strip.map fun (p : Strip) => { p with opened := p.opened + k } } ∧
          ∃ e ∈ u.domains, e.launch = d.launch ∧ e.restart = d.restart + k)) ∧
    (s.launch (s.arg 0) = none → exec .timedRollback s = .next s ∧ exec .timedResume s = .next s) ∧
    (s.mgmt.dusk = true → exec .timedResume s = .next s) ∧
    (let cycle := (s.slot + 1) * 4096
     exec .domainTick s = .next { s with
      slot := s.slot + 1, cycle := Nat.max s.cycle cycle, turn := false,
      tskew := if inPhase (timeAt s cycle) s.tskew.toNat then s.tskew else 0xFFFFFFFF,
      agenda := (.rampSlot, {}) :: s.agenda ++ [(.launchSelection, {}), (.taskPlacement, {})] }) ∧
    (∀ c, s.launches = [] → s.claims = [c] → ∃ u, exec .rampSlot s = .next u ∧ u.slot = s.slot ∧ u.partials = 0 ∧
      u.mgmt.peakEst = Nat.max s.mgmt.peakEst u.pLast ∧
      (s.startStep ≤ 1536 → (u.coreAt c.core).admitted = true ∧ u.claims = []) ∧
      (1536 < s.startStep → u.claims = [c] ∧
        (u.coreAt c.core).counters.rampwait = (s.coreAt c.core).counters.rampwait + 1)) ∧
    (let b := s.slot * 4096 + 256 * (s.partials + 1)
     let y := weighCores { s with partials := s.partials + 1, otherNow := s.input.n.headD s.otherNow } b
     let now := ((freeCores y).map fun n => (y.coreAt n).activity).sum * 16 / y.partials + y.otherNow
     (∀ n ∈ coreNums s, (y.coreAt n).activity = ((s.coreAt n).workUpTo b).weigh s.weights) ∧
     (now + reservedRise y y.slot ≤ freeEstimate y + y.otherLast + 1536 → exec .estimatePartial s = .next y) ∧
     ∃ u, exec .estimatePartial s = .next u ∧ u.partials = s.partials + 1 ∧ u.mem = s.mem ∧ u.t = s.t)

/-! ## Events of the host, the loader and the package -/

/-- Doorbells and register writes (R10, R325, R326, R403), invalidations (R299), reduction engines (R333), time, whose new
rate leaves earlier cycles their TIME (R329, R330), and attestation, signed under the identity key (R417). With no verified
firmware only the image window is exposed (R416). That a skew bound stands only while the ticks are in phase with the fabric's is
the model's reading of R406 (notes/assumptions/37.md). Where the rules leave a reading open it is the
model's: notes/assumptions/30.md. -/
def Obligations.HostEvents : Prop :=
  ∀ (s : State),
    let fn := s.arg 0
    (let q := s.arg 1 % 32
     let tail := s.arg 2 % 2 ^ 32
     let x := (s.func fn).queue q
     1 ≤ fn → fn ≤ 512 → s.trust.verified = true → s.mgmt.dusk = false →
      (tail = x.head → ∃ u, exec .hostQueueDoorbell s = .next u ∧ (u.func fn).queue q = { x with tail := tail } ∧
        u.candidates = s.candidates) ∧
      (∀ e v, tail = (x.head + 1) % 2 ^ 32 → x.head < 2 ^ 32 → ringEntry s fn x.base x.head 8 = some e → e ≠ 0 → e % 64 = 0 →
        devRead s fn e 1024 = some v → ∃ u, exec .hostQueueDoorbell s = .next u ∧
          (u.func fn).queue q = { x with tail := tail, head := tail } ∧
          u.candidates = s.candidates ++ [{ queue := 32 * (fn - 1) + q, fn := fn, bytes := bytesOf 1024 v }])) ∧
    (let f := s.func fn
     let tail := s.arg 1 % 2 ^ 16
     ∀ v, fn ≤ 512 → s.trust.verified = true → s.mgmt.dusk = false → tail = (f.admHead + 1) % 2 ^ 16 → f.admHead < 2 ^ 16 →
      ringEntry s fn f.admBase f.admHead 32 = some v → ∃ u, exec .adminDoorbell s = .next u ∧ (u.func fn).admHead = tail ∧
        u.invalidations = s.invalidations ++ [(fn, v % 2 ^ 64, v / 2 ^ 64 % 2 ^ 64, v / 2 ^ 128 % 2 ^ 64)]) ∧
    (s.invalidations = [] → exec .invalidationComplete s = .next s) ∧
    (∀ f va pages word r, s.invalidations = (f, va, pages, word) :: r → s.domains = [] →
      (∀ t ∈ s.t :: s.tasks, t.deferred = [] ∧ t.engineLate = [] ∧ t.strip = none) →
      ∃ u, exec .invalidationComplete s = .next u ∧ u.invalidations = r ∧ u.mem = Memory.write s.mem word 8 1 ∧
        ∀ e ∈ u.c.tlb, e ∈ s.c.tlb ∧ ¬ (e.fn = f ∧ (pages = 0 ∨ overlaps e.va e.size va (pages * 2 ^ 16) = true))) ∧
    (let d := Fin.ofNat 8 fn
     exec .reductionClear s = .next { s with dies := s.dies.set d.val { s.dies[d] with bins := [] } d.isLt }) ∧
    (fn ≤ 512 → s.arg 1 = 0 → s.trust.verified = true → ∃ u, exec .hostRegisterWrite s = .next u ∧
      (∀ k, (u.func fn).ptroot.testBit k = ((s.arg 2).testBit k && (k == 0 || (16 ≤ k && k < 53)))) ∧ u.mem = s.mem) ∧
    (fn ≤ 512 → s.arg 1 = 0x10 → s.trust.verified = true →
      exec .hostRegisterWrite s = .next { s with agenda := s.agenda ++ [(.adminDoorbell, { n := [fn, s.arg 2 % 2 ^ 64] })] }) ∧
    (s.trust.verified = false → ¬(fn = 0 ∧ 0x8400 ≤ s.arg 1 ∧ s.arg 1 < 0x9000) → hostRead s fn (s.arg 1) = 0) ∧
    (fn ≤ 512 → s.arg 2 = 0 → s.trust.verified = true → ∃ u, exec .ptmExchange s = .next u ∧ u = { s with funcs := u.funcs } ∧
      (u.func fn).ptmDev = timeAt s s.cycle % 2 ^ 64 ∧ (u.func fn).ptmHost = s.arg 1 % 2 ^ 64) ∧
    (let skew := if s.arg 1 ≤ 640 ∧ inPhase (timeAt s (s.slot * 4096)) (s.arg 1) = true then s.arg 1 else 0xFFFFFFFF
     (s.arg 2 = 0 → exec .ptpEventMessage s = .next { s with tskew := BitVec.ofNat 32 skew }) ∧
     (s.arg 2 ≠ 0 → ∃ u, exec .ptpEventMessage s = .next u ∧ u = { s with
      tskew := BitVec.ofNat 32 skew, timeBase := timeAt s s.cycle,
      timeCycle := s.cycle, slew := Nat.min 1000200 (Nat.max 999800 (s.arg 2)), timePast := u.timePast } ∧
      ∀ c, leastCycle s ≤ c → c < s.cycle → (∃ p ∈ (s.timeBase, s.timeCycle, s.slew) :: s.timePast, p.2.1 ≤ c) →
        timeAt u c = timeAt s c)) ∧
    (let m := s.mgmt
     (m.attGo = false → exec .attestation s = .next s) ∧
     (m.attGo = true → s.trust.keyReadable = false →
      exec .attestation s = .next { s with mgmt := { m with attGo := false, attStatus := 2 } }) ∧
     (∀ y, m.attGo = true → s.trust.keyReadable = true →
      devWrite s 0 m.attBuf 256 (leNat (reportHead s ++ edSign s.trust.identityKey (reportHead s))) = .ok y →
      exec .attestation s = .next { y with mgmt := { m with attGo := false, attStatus := 0 } }))

/-- Code objects are loaded, their bytes where the event says, or refused with a status that leaves all else as it was, but not under
Dusk (R412) nor without firmware that verifies (R416); they are unloaded once nothing refers to them, or forced out (R305, R306, R404); Dusk stops entries and placement, forces every
object out, and is done once nothing is left (R412). Where the rules leave a reading open it is the model's:
notes/assumptions/29.md. -/
def Obligations.ObjectEvents : Prop :=
  ∀ (s v w : State),
    let x := s.input.bytes
    let fn := s.arg 0
    let opens : Prop := s.mgmt.dusk = false ∧ s.trust.verified = true
    (¬ opens → exec .codeObjectLoad s = .next s) ∧
    (∀ k, opens → headerStatus x = some k → exec .codeObjectLoad s = .next { s with loadStatus := k }) ∧
    (opens → headerStatus x = none → parse x = none → exec .codeObjectLoad s = .next { s with loadStatus := 8 }) ∧
    (∀ p k, opens → headerStatus x = none → parse x = some p → contentStatus s fn x p = some k →
      exec .codeObjectLoad s = .next { s with loadStatus := k }) ∧
    (∀ p, opens → headerStatus x = none → parse x = some p → contentStatus s fn x p = none →
      s.arg 1 % p.codeAlign = 0 → s.arg 2 % p.constAlign = 0 →
      let img := imageOf s x p.code
      let at_ (o : Nat) : Nat := if older x then Config.ezbiacMap p.code o else o
      let patched := p.relocs.foldlM (relocate p s fn (s.arg 1) at_) { code := leNat img.1, consts := leNat p.consts, refs := [] }
      (∀ k, patched = .error k → exec .codeObjectLoad s = .next { s with loadStatus := k }) ∧
      (∀ m, patched = .ok m → loaderPut img.2 fn (s.arg 1) (bytesOf img.1.length m.code) = some v →
        loaderPut v fn (s.arg 2) (bytesOf p.consts.length m.consts) = some w →
        exec .codeObjectLoad s = .next { w with
          objs := ({ handle := s.nextHandle, fn := fn, codeBase := s.arg 1, codeSize := img.1.length, constBase := s.arg 2,
                     constSize := p.consts.length, refs := m.refs, timed := hasTimed x,
                     virt := if older x then p.code else [],
                     coreOnly := (regionsOf x p).any fun r => !intervalsPass p.code r true } : Obj) :: w.objs,
          syms := p.added s fn s.nextHandle ++ w.syms, nextHandle := s.nextHandle + 1, loadStatus := 0 })) ∧
    (∀ va bytes pa pin, linesOf va bytes.length = [(va, bytes.length)] → vaToPa s fn va = some (pa, pin) →
      loaderPut s fn va bytes = some { s with mem := Memory.write s.mem pa bytes.length (leNat bytes) }) ∧
    (∀ o, (s.objs.find? fun o => o.handle == s.arg 0) = some o →
      (inUse s o = false → exec .codeObjectUnload s = .next { s with
        objs := s.objs.filter fun o => o.handle != s.arg 0, syms := s.syms.filter fun y => y.obj != s.arg 0 }) ∧
      (inUse s o = true → exec .codeObjectUnload s = .next { s with
        objs := s.objs.map fun o => if o.handle = s.arg 0 then { o with unloading := true } else o,
        agenda := s.agenda ++ [(.codeObjectUnload, { n := [s.arg 0] })] }) ∧
      (let goes (y : State) : State := { y with
         objs := y.objs.map fun o => if o.handle = s.arg 0 then { o with unloading := true, forced := true } else o,
         agenda := y.agenda ++ [(.codeObjectUnload, { n := [s.arg 0] })] }
       (s.candidates = [] → s.launches = [] → exec .forcedUnload s = .next (goes s)) ∧
       (∀ c, s.candidates = [c] → c.fn = o.fn → (recOf c.bytes).handle = s.arg 0 → s.launches = [] →
         exec .forcedUnload s = .next (goes (turnAway { s with candidates := [] } c 4 3 8))) ∧
       (∀ l, s.candidates = [] → s.launches = [l] → l.stopped = false → l.final = false → refersTo s l.id (s.arg 0) = true →
         s.allTasks = [] → s.saved = [] →
         exec .forcedUnload s = .next (goes (endLaunch s { launch := l.id, core := l.domCore } 0x17 (s.arg 0) 0))) ∧
       (∀ l, s.candidates = [] → s.launches = [l] → l.stopped = false → l.final = false → refersTo s l.id (s.arg 0) = true →
         s.t.live = true → s.t.launch = l.id → s.t.front < 2 → s.c.num = s.t.core → s.saved = [] → s.tasks = [] →
         s.t.conv = none → s.t.strip = none → newerStrip s.t.queue = false → s.t.wait ≠ some .launchEndByTrap →
         ∃ u, exec .forcedUnload s = .next u ∧ u.t.wait = some .launchEndByTrap ∧ u.t.tcause = 0x17 ∧
           u.t.tinfo = BitVec.ofNat 64 (s.arg 0) ∧ (.launchEndByTrap, { n := [s.t.core, s.t.front] }) ∈ u.agenda))) ∧
    ((s.objs.find? fun o => o.handle == s.arg 0) = none →
      exec .codeObjectUnload s = .next s ∧ exec .forcedUnload s = .next s) ∧
    (exec .dusk s = .next { s with
      mgmt := { s.mgmt with dusk := true, duskDone := false },
      agenda := s.agenda ++ s.objs.map (fun o => (Instr.forcedUnload, ({ n := [o.handle] } : Input))) ++ [(.duskdone, {})] }) ∧
    (s.mgmt.dusk = true → s.mgmt.duskDone = false →
      (s.allTasks = [] → s.objs = [] → (∀ c ∈ s.allCores, ∀ d ∈ c.cmds, d.done = true) → ∃ u, exec .duskdone s = .next u ∧
        u.mgmt = { s.mgmt with duskDone := true } ∧ u = { s with mgmt := u.mgmt, dies := u.dies } ∧
        ∃ e, u.dies[(0 : Fin 8)].box.head? = some e ∧ e.kind = 8) ∧
      (s.objs ≠ [] → exec .duskdone s = .next { s with agenda := s.agenda ++ [(.duskdone, {})] }))

/-- Dawn, warm reset and the loss of power (R334, R413, R416): firmware runs whose signature the fused key verifies and whose
rollback counter is not below the fused one. Links and routes that fail (R328, R386, R410, R411): a flit that fails its check is
kept and sent again, one that passes stands at its address; a port that fails leaves its flits to the route installed in its
place, and where none is left its peer is declared failed. Errors the scrub finds (R388, R389). Where the rules leave a reading open it is the model's: notes/assumptions/31.md. -/
def Obligations.PackageEvents : Prop :=
  ∀ (s : State),
    let p := Fin.ofNat 16 (s.arg 0)
    let x := s.ports[p]
    let risen (i : Instr) : Prop := ∃ u, exec i s = .next u ∧ u.mem = s.mem ∧ u.t = State.reset.t ∧ u.tasks = [] ∧ u.launches = [] ∧
      u.objs = [] ∧ u.timeBase = s.arg 0 ∧ u.weights = weightsOf (s.input.n.drop 7) ∧ u.trust.fused = s.trust.fused ∧
      u.trust.verified = (edVerify s.trust.publicKey (nextImage s) s.input.bytes && decide (s.trust.fused ≤ s.arg 2)) ∧
      (u.trust.verified = false → u.trust.image = s.trust.image) ∧
      ∀ d : Fin 8, (∀ e ∈ s.dies[d].box.take 2047, e ∈ u.dies[d].box) ∧ u.dies[d].tlb = []
    risen .dawn ∧ risen .warmReset ∧
    (∃ u, exec .powerLoss s = .next u ∧ u.power = false ∧ u.mem = [] ∧ u.trust.fused = s.trust.fused ∧ u.trust.publicKey = s.trust.publicKey ∧
      ∀ d : Fin 8, u.dies[d].box = []) ∧
    (x.up = true → ∃ u, exec .linkPortFailure s = .next u ∧ u.ports[p].up = false ∧ u.ports[p].failures = x.failures + 1 ∧
      u.ports[p].replay = [] ∧ (∃ e ∈ u.dies[(0 : Fin 8)].box, e.kind = 6 ∧ e.port = p.val) ∧
      (∀ links pa n v, s.input.n.drop 1 = [x.peer, links] → 2 ≤ links → x.replay = [(pa, n, v)] → 0 < n → pa % 64 + n ≤ 64 →
        pa + n ≤ chip → (x.peer, links) ∈ u.hops ∧ u.failed = s.failed ∧ Memory.read u.mem pa n = v % 2 ^ (8 * n)) ∧
      (s.input.n.drop 1 = [] → (∀ q : Fin 16, q ≠ p → s.ports[q].peer = x.peer → s.ports[q].up = false) →
        (∀ h ∈ s.hops, h.1 = x.peer → h.2 = 1) → x.peer ∈ u.failed)) ∧
    (x.up = true → s.arg 1 = 0 → x.tries < 8 → exec .linkFlitReceive s =
      .next { s with
        ports := s.ports.set p.val { x with tries := x.tries + 1, resent := x.resent + 1, replay := [flitOf s] } p.isLt }) ∧
    (let pa := s.arg 2
     let n := Nat.min 256 s.input.bytes.length
     x.up = true → s.arg 1 ≠ 0 → ∃ u, exec .linkFlitReceive s = .next u ∧ u.ports[p] = { x with tries := 0, replay := [] } ∧
      u.t = s.t ∧ (pa + n ≤ chip →
        (∀ k, k < n → u.byteAt (pa + k) = field (leNat s.input.bytes) (8 * k) 8) ∧ SameBytes s u pa n)) ∧
    (x.up = false → exec .linkFlitReceive s = .next s ∧ exec .linkPortFailure s = .next s) ∧
    (x.up = true → s.arg 1 = 0 → 8 ≤ x.tries → exec .linkFlitReceive s =
      .next { s with agenda := s.agenda ++ [(.linkPortFailure, { n := [p.val] })] }) ∧
    (s.input.n.drop 2 = [] → exec .linkHeartbeat s = .next { s with ports := s.ports.set p.val { x with beat := s.cycle, peer := s.arg 1 } p.isLt }) ∧
    (∀ pkg links, s.input.n.drop 2 = [pkg, links] → ∃ u, exec .linkHeartbeat s = .next u ∧ u.ports[p].beat = s.cycle ∧ u.mem = s.mem ∧
      (links ≠ 0 → (pkg, links) ∈ u.hops ∧ pkg ∉ u.noRoute) ∧ (links = 0 → ∀ h ∈ u.hops, h.1 ≠ pkg)) ∧
    (exec .heartbeatTimeout s = .next { s with
      agenda := s.agenda ++ if x.up = true ∧ x.beat + 1700000 ≤ s.cycle then [(.linkPortFailure, { n := [p.val] })] else [] }) ∧
    (∀ c, (s.arg 0, c) ∈ s.unrouted → c + 17000000 ≤ s.cycle →
      ∃ u, exec .routeTimeout s = .next u ∧ s.arg 0 ∈ u.noRoute ∧ u.mem = s.mem) ∧
    ((∀ c, (s.arg 0, c) ∈ s.unrouted → s.cycle < c + 17000000) → exec .routeTimeout s = .next s) ∧
    (let k := Fin.ofNat 8 (s.arg 0)
     let d := s.dies[k]
     (s.arg 2 = 0 → ∃ u, exec .memoryScrub s = .next u ∧ u.dies[k].corrected = d.corrected + 1 ∧ u.bad = s.bad) ∧
     (s.arg 2 ≠ 0 → ∃ u, exec .memoryScrub s = .next u ∧ u.dies[k].uncorrected = d.uncorrected + 1 ∧
      errorUnit (s.arg 1) ∈ u.bad ∧ ∃ e ∈ u.dies[k].box, e.kind = 7))

/-! ## The step, reset and the encoding -/

/-- A step runs the decoded instruction. With nothing planned and nothing due, the current front, furthest behind, fetches at
its pc (R132): the word that decodes is executed there, a word that does not is trapped (R339). Else a tick that has begun, a
partial estimate of the slot (R282), or the oldest step that is due comes first. Where the rules leave a reading open it is
the model's: notes/assumptions/2.md. -/
def Obligations.StepRuns : Prop :=
  ∀ (s u : State) (w : Nat), s.power = true → s.plan = [] →
    (s.agenda = [] → s.cycle / 4096 ≤ s.slot → partialDue s = false → s.ahead = false → s.t.live = true → s.t.wait = none → s.t.timed = false →
      s.t.dbgctl = 0 → (∀ t ∈ s.tasks, t.live = true → s.t.cycle ≤ t.cycle) → fetch s s.t.pc = .ok (w, u) →
      (∀ i, decode w = .ok i → step s = exec i u) ∧
      (∀ k, decode w = .error (.reserved k) → Settled s → step s = .next (takeTrap u { cause := 0x01, info := w + k * 2 ^ 32 } s.t.pc [])) ∧
      (∀ n, decode w = .error (.nonzero n) → Settled s → step s = .next (takeTrap u { cause := 0x02, info := w + n * 2 ^ 40 } s.t.pc []))) ∧
    (s.slot < s.cycle / 4096 → step s = exec .domainTick s) ∧
    (s.cycle / 4096 ≤ s.slot → s.partials < 15 → s.slot * 4096 + 256 * (s.partials + 1) ≤ s.cycle →
      step s = exec .estimatePartial { s with input := {} }) ∧
    (∀ i x r, s.cycle / 4096 ≤ s.slot → partialDue s = false → s.agenda = (i, x) :: r → s.turn = false →
      step s = exec i { s with input := x, agenda := r, turn := true })

/-- Nothing that can be executed is refused: every instruction and every event answers a next state, whatever the state,
and so does every step of a package that has power. Without power only Dawn, where the outside world has it planned, is a
step; anything else is the fault that says so (notes/assumptions/4.md). -/
def Obligations.AlwaysGoes : Prop :=
  (∀ (i : Instr) (s : State), ∃ u, exec i s = .next u) ∧
  (∀ s : State, s.power = true → Goes s) ∧
  (∀ s : State, s.power = false →
    (∀ x r, s.plan = .event .dawn x :: r → step s = exec .dawn { s with plan := r, input := x }) ∧
    ((∀ x r, s.plan ≠ .event .dawn x :: r) → step s = .fault .noPower))

/-- Every step keeps the canonical form of memory: addresses rising, no entry equal to what an unlisted byte reads as. It is
the form that the model gives memory (notes/assumptions/1.md), in which equal memories are equal data; State.reset has it
(ResetState). -/
def Obligations.MemoryForm : Prop :=
  ∀ s t : State, Memory.wf s.mem = true → step s = .next t → Memory.wf t.mem = true

/-- After Dawn (R334) no front holds a task, nothing is launched or loaded, no segment is used, no flag is set, no translation is
held, and memory has nothing listed, which is its canonical form. The zeros of registers that the spec gives no value are
the model's (notes/assumptions/3.md). -/
def Obligations.ResetState : Prop :=
  let s := State.reset
  s.t.live = false ∧ s.tasks = [] ∧ s.launches = [] ∧ s.objs = [] ∧ s.candidates = [] ∧ s.c.holder = none ∧ s.cores = [] ∧
  (∀ k : Fin 16, s.t.segs[k].desc.disc = .unused) ∧ s.t.fflags = 0 ∧ s.c.tlb = [] ∧ (∀ a, s.g a = 0) ∧
  s.mem = [] ∧ Memory.wf s.mem ∧ s.trust.verified = true ∧ s.cycle = 0

/-- Words written out from the encoding tables (Tables 7-1 to 7-5) decode to what they stand for: ADD g1, g2, g3; ADDI with
-1; LUI; BEQ back one word; LD.D; a header of four members; VADD under a mask; MMA; AMO.ADD; LCPY; CRW; EXIT. -/
def Obligations.DecodedWords : Prop :=
  let at_ (c b a opc : Nat) : Nat := c * 2 ^ 21 + b * 2 ^ 14 + a * 2 ^ 7 + opc
  decode (at_ 3 2 1 0x01) = .ok (.add 1 2 3) ∧
  decode (at_ 0x7FF 5 4 0x04) = .ok (.addi 4 5 0x7FF) ∧
  decode (5 * 2 ^ 14 + 7 * 2 ^ 7 + 0x0B) = .ok (.lui 7 5) ∧
  decode (at_ 3 2 1 0x13) = .ok (.ldD 1 2 3) ∧
  decode (at_ 0x7FF 0 0 0x18) = .ok (.beq 0 0 0x7FF) ∧
  decode (at_ 0x041 0 5 0x24) = .ok (.crw 5 0x041) ∧
  decode 0x50000022 = .ok .exit ∧
  decode (2 ^ 29 + 5 * 2 ^ 24 + 4 * 2 ^ 19 + 3 * 2 ^ 14 + 2 * 2 ^ 9 + 3 * 2 ^ 7 + 0x7F) = .ok (.convoyHeader true 5 4 3 2 3) ∧
  decode (2 ^ 31 + at_ 3 2 1 0x30) = .ok (.vadd true 1 2 3) ∧
  decode (at_ 9 2 1 0x3D) = .ok (.setvl 1 2 9) ∧
  decode (at_ 3 2 1 0x52) = .ok (.mma 1 2 3) ∧
  decode (at_ 3 2 1 0x60) = .ok (.amoAdd 1 2 3) ∧
  decode (2 ^ 31 + 7 * 2 ^ 27 + 1 * 2 ^ 24 + at_ 3 2 1 0x62) = .ok (.lcpy 1 2 true 7 1 3) ∧
  decode (at_ 3 2 1 0x70) = .ok (.rmul false 1 2 3) ∧
  decode (15 * 2 ^ 28 + at_ 3 2 1 0x01) = .error (.reserved 1) ∧
  decode (at_ 0x041 1 5 0x24) = .error (.nonzero 14)

/-- Every instruction with an encoding decodes back from its word, all operands kept (Tables 7-1 to 7-5). -/
def Obligations.EncodeDecode : Prop :=
  ∀ (i : Instr) (w : Nat), i.wf = true → encode i = some w → w < 2 ^ 32 ∧ decode w = .ok i

/-- Every word that decodes is the encoding of the instruction it decodes to: no bit of a word is ignored (R133). -/
def Obligations.DecodeEncode : Prop :=
  ∀ (w : Nat) (i : Instr), w < 2 ^ 32 → decode w = .ok i → i.wf = true ∧ encode i = some w
end

