-- ==== Sys2Proof/Laws/Elems.lean ====
section
/-! SUPPORT. Bit fields and elements of wide values: what a field reads after another has been replaced. -/

namespace Sys2Proof.Machine

/-- A bit of a value whose bits p to p + l - 1 were replaced. -/
theorem testBit_splice (x p l v j : Nat) :
    (splice x p l v).testBit j = if p ≤ j ∧ j < p + l then v.testBit (j - p) else x.testBit j := by
  have e : splice x p l v = 2 ^ p * (2 ^ l * (x / 2 ^ (p + l)) + v % 2 ^ l) + x % 2 ^ p := by
    unfold splice; rw [pow_add]; ring
  rw [e, Nat.testBit_two_pow_mul_add _ (Nat.mod_lt _ (by positivity)),
    Nat.testBit_two_pow_mul_add _ (Nat.mod_lt _ (by positivity))]
  by_cases h : j < p
  · simp [h, Nat.testBit_mod_two_pow, Nat.not_le.2 h]
  · have hp : p ≤ j := Nat.not_lt.1 h
    by_cases h2 : j < p + l
    · have : j - p < l := by omega
      simp [h, hp, h2, this, Nat.testBit_mod_two_pow]
    · have h3 : ¬ j - p < l := by omega
      simp [h, h2, h3, Nat.testBit_div_two_pow]
      congr 1
      omega

/-- A bit of an element. -/
theorem testBit_elem (x b i j : Nat) : (elem x b i).testBit j = (decide (j < b) && x.testBit (b * i + j)) := by
  simp [elem, Nat.testBit_mod_two_pow, Nat.testBit_div_two_pow, Nat.add_comm]

theorem elem_lt (x b i : Nat) : elem x b i < 2 ^ b := Nat.mod_lt _ (by positivity)

/-- An element after one of the same width was replaced. -/
theorem elem_splice (x b i k v : Nat) :
    elem (splice x (b * i) b v) b k = if k = i then v % 2 ^ b else elem x b k := by
  apply Nat.eq_of_testBit_eq
  intro j
  rw [testBit_elem, testBit_splice]
  by_cases hj : j < b
  · by_cases hk : k = i
    · subst hk
      simp [hj, Nat.testBit_mod_two_pow]
    · have : ¬ (b * i ≤ b * k + j ∧ b * k + j < b * i + b) := by
        rintro ⟨h1, h2⟩
        rcases Nat.lt_or_gt_of_ne hk with h | h
        · have := Nat.mul_le_mul_left b (Nat.succ_le_of_lt h)
          rw [Nat.mul_succ] at this; omega
        · have := Nat.mul_le_mul_left b (Nat.succ_le_of_lt h)
          rw [Nat.mul_succ] at this; omega
      rw [if_neg this, if_neg hk, testBit_elem]
  · by_cases hk : k = i <;> simp [hj, hk, Nat.testBit_mod_two_pow, testBit_elem]

/-- An element of a value whose elements below n have been replaced where the mask is set (R172). -/
theorem elem_mapElems (b n mask x k : Nat) (f : Nat → Nat) :
    elem (mapElems b n mask x f) b k = if k < n ∧ mask.testBit k then f k % 2 ^ b else elem x b k := by
  unfold mapElems
  induction n with
  | zero => simp
  | succ n ih =>
    rw [List.range_succ, List.foldl_append, List.foldl_cons, List.foldl_nil]
    by_cases hm : mask.testBit n
    · rw [if_pos hm, elem_splice]
      by_cases hk : k = n
      · subst hk; simp [hm]
      · rw [if_neg hk, ih]
        have : k < n + 1 ↔ k < n := by omega
        simp [this]
    · rw [if_neg hm, ih]
      by_cases hk : k = n
      · subst hk; simp [hm]
      · have : k < n + 1 ↔ k < n := by omega
        simp [this]

/-- An element that lies below bit w is an element of the low w bits. -/
theorem elem_mod (x b k w : Nat) (h : b * (k + 1) ≤ w) : elem (x % 2 ^ w) b k = elem x b k := by
  apply Nat.eq_of_testBit_eq
  intro j
  rw [testBit_elem, testBit_elem, Nat.testBit_mod_two_pow]
  by_cases hj : j < b
  · have : b * k + j < w := by rw [Nat.mul_succ] at h; omega
    simp [hj, this]
  · simp [hj]

end Sys2Proof.Machine
end

