-- ==== Sys2Proof/Laws/Memory.lean ====
section
/-! SUPPORT. Byte memories: a write keeps the canonical form, reads back, and leaves every other byte alone. -/

namespace Sys2Proof.Machine

/-! ## The canonical form -/

theorem Memory.wfFrom_iff (m : Memory) (lo : Nat) :
    Memory.wfFrom lo m = true ↔ m.Pairwise (fun x y => x.1 < y.1) ∧ ∀ c ∈ m, lo ≤ c.1 ∧ c.2 ≠ 0 := by
  induction m generalizing lo with
  | nil => simp [Memory.wfFrom]
  | cons c r ih =>
    simp only [Memory.wfFrom, Bool.and_eq_true, decide_eq_true_eq, bne_iff_ne, ne_eq, ih, List.pairwise_cons,
      List.forall_mem_cons]
    constructor
    · rintro ⟨⟨h1, h2⟩, h3, h4⟩
      exact ⟨⟨fun d hd => (h4 d hd).1, h3⟩, ⟨h1, h2⟩, fun d hd => ⟨by have := (h4 d hd).1; omega, (h4 d hd).2⟩⟩
    · rintro ⟨⟨h1, h2⟩, ⟨h3, h4⟩, h5⟩
      exact ⟨⟨h3, h4⟩, h2, fun d hd => ⟨h1 d hd, (h5 d hd).2⟩⟩

theorem cellsOf_wf (a n v : Nat) :
    (cellsOf a n v).Pairwise (fun x y => x.1 < y.1) ∧ ∀ c ∈ cellsOf a n v, (a ≤ c.1 ∧ c.1 < a + n) ∧ c.2 ≠ 0 := by
  induction n generalizing a v with
  | zero => simp [cellsOf]
  | succ n ih =>
    unfold cellsOf
    obtain ⟨h1, h2⟩ := ih (a + 1) (v / 256)
    split
    · simp
    · split
      · exact ⟨h1, fun c hc => ⟨by have := (h2 c hc).1; omega, (h2 c hc).2⟩⟩
      next h =>
        refine ⟨List.pairwise_cons.2 ⟨fun c hc => ?_, h1⟩, ?_⟩
        · have := (h2 c hc).1; simp only; omega
        · rintro c (_ | ⟨_, hc⟩)
          · refine ⟨by simp, fun hz => h ?_⟩
            have := congrArg BitVec.toNat hz
            simpa using this
          · exact ⟨by have := (h2 c hc).1; omega, (h2 c hc).2⟩

/-- A write keeps the canonical form. -/
theorem Memory.wf_write {m : Memory} (h : m.wf = true) (a n v : Nat) : (Memory.write m a n v).wf = true := by
  unfold Memory.wf at *
  rw [Memory.wfFrom_iff] at *
  obtain ⟨hs, hz⟩ := h
  obtain ⟨cs, cz⟩ := cellsOf_wf a n v
  refine ⟨?_, ?_⟩
  · unfold Memory.write
    rw [List.pairwise_append, List.pairwise_append]
    refine ⟨⟨hs.filter _, cs, ?_⟩, hs.filter _, ?_⟩
    · intro x hx y hy
      have := (cz y hy).1
      simp at hx; omega
    · intro x hx y hy
      rcases List.mem_append.1 hx with hx | hx
      · simp at hx hy; omega
      · have := (cz x hx).1
        simp at hy; omega
  · intro c hc
    unfold Memory.write at hc
    simp only [List.mem_append, List.mem_filter] at hc
    rcases hc with (hc | hc) | hc
    · exact hz c hc.1
    · exact ⟨Nat.zero_le _, (cz c hc).2⟩
    · exact hz c hc.1

/-! ## Reading after a write -/

theorem foldl_add_shift (l : Memory) (f : Host.Cell → Nat) (x : Nat) :
    l.foldl (fun acc c => acc + f c) x = x + l.foldl (fun acc c => acc + f c) 0 := by
  induction l generalizing x with
  | nil => simp
  | cons c r ih => simp only [List.foldl_cons]; rw [ih, ih (0 + f c)]; omega

/-- The cells of a value are worth the value. -/
theorem cellsOf_value (b a n v : Nat) (h : b ≤ a) :
    (cellsOf a n v).foldl (fun acc c => acc + c.2.toNat * 2 ^ (8 * (c.1 - b))) 0 = v % 2 ^ (8 * n) * 2 ^ (8 * (a - b)) := by
  induction n generalizing a v with
  | zero => simp [cellsOf, Nat.mod_one]
  | succ n ih =>
    have e := ih (a + 1) (v / 256) (by omega)
    have hm : v % 2 ^ (8 * (n + 1)) = v % 256 + 256 * (v / 256 % 2 ^ (8 * n)) := by
      rw [show 2 ^ (8 * (n + 1)) = 256 * 2 ^ (8 * n) by rw [Nat.mul_succ, pow_add]; ring, Nat.mod_mul]
    have hp : 2 ^ (8 * (a + 1 - b)) = 256 * 2 ^ (8 * (a - b)) := by
      rw [show 8 * (a + 1 - b) = 8 + 8 * (a - b) by omega, pow_add]; norm_num
    unfold cellsOf
    split
    next h0 => simp [h0]
    next h0 =>
      split
      next h1 => rw [e, hm, h1, hp]; ring
      next h1 =>
        rw [List.foldl_cons, foldl_add_shift, e, hm, hp]
        have : (BitVec.ofNat 8 v).toNat = v % 256 := by simp
        simp only [this]
        ring

theorem filter_cells (a n v : Nat) : (cellsOf a n v).filter (fun c => decide (a ≤ c.1) && decide (c.1 < a + n)) = cellsOf a n v := by
  refine List.filter_eq_self.2 fun c hc => ?_
  have := ((cellsOf_wf a n v).2 c hc).1
  simp [this]

/-- A write reads back. -/
theorem Memory.read_write (m : Memory) (a n v : Nat) : Memory.read (Memory.write m a n v) a n = v % 2 ^ (8 * n) := by
  unfold Memory.read Memory.write
  rw [List.filter_append, List.filter_append, filter_cells, List.filter_filter, List.filter_filter]
  have h1 : m.filter (fun c => (decide (a ≤ c.1) && decide (c.1 < a + n)) && decide (c.1 < a)) = [] := by
    refine List.filter_eq_nil_iff.2 fun c _ => ?_
    simp; omega
  have h2 : m.filter (fun c => (decide (a ≤ c.1) && decide (c.1 < a + n)) && decide (a + n ≤ c.1)) = [] := by
    refine List.filter_eq_nil_iff.2 fun c _ => ?_
    simp
  rw [h1, h2, List.nil_append, List.append_nil, cellsOf_value a a n v (Nat.le_refl a)]
  simp

/-- A write leaves every other byte alone. -/
theorem Memory.read_write_other (m : Memory) (a n v b k : Nat) (h : b + k ≤ a ∨ a + n ≤ b) :
    Memory.read (Memory.write m a n v) b k = Memory.read m b k := by
  unfold Memory.read Memory.write
  have hc : (cellsOf a n v).filter (fun c => decide (b ≤ c.1) && decide (c.1 < b + k)) = [] := by
    refine List.filter_eq_nil_iff.2 fun c hc => ?_
    have := ((cellsOf_wf a n v).2 c hc).1
    simp; omega
  rw [List.filter_append, List.filter_append, hc, List.append_nil, List.filter_filter, List.filter_filter]
  congr 1
  rcases h with h | h
  · have h2 : m.filter (fun c => (decide (b ≤ c.1) && decide (c.1 < b + k)) && decide (a + n ≤ c.1)) = [] := by
      refine List.filter_eq_nil_iff.2 fun c _ => ?_
      simp; omega
    rw [h2, List.append_nil]
    refine List.filter_congr fun c _ => ?_
    by_cases h : b ≤ c.1 ∧ c.1 < b + k
    · have : c.1 < a := by omega
      simp [this]
    · have : (decide (b ≤ c.1) && decide (c.1 < b + k)) = false := by simp; omega
      simp [this]
  · have h2 : m.filter (fun c => (decide (b ≤ c.1) && decide (c.1 < b + k)) && decide (c.1 < a)) = [] := by
      refine List.filter_eq_nil_iff.2 fun c _ => ?_
      simp; omega
    rw [h2, List.nil_append]
    refine List.filter_congr fun c _ => ?_
    by_cases h : b ≤ c.1 ∧ c.1 < b + k
    · have : a + n ≤ c.1 := by omega
      simp [this]
    · have : (decide (b ≤ c.1) && decide (c.1 < b + k)) = false := by simp; omega
      simp [this]

end Sys2Proof.Machine
end

