-- ==== Sys2Proof/Laws/State.lean ====
section
/-! SUPPORT. What each named update of the state leaves: one lemma per field per update. -/

namespace Sys2Proof.Machine

/-! ## Tasks -/

@[simp] theorem Task.setG_live (t : Task) (r : GReg) (v : Word) : (t.setG r v).live = t.live := by unfold Task.setG; split <;> rfl
@[simp] theorem Task.setG_launch (t : Task) (r : GReg) (v : Word) : (t.setG r v).launch = t.launch := by unfold Task.setG; split <;> rfl
@[simp] theorem Task.setG_task (t : Task) (r : GReg) (v : Word) : (t.setG r v).task = t.task := by unfold Task.setG; split <;> rfl
@[simp] theorem Task.setG_frame (t : Task) (r : GReg) (v : Word) : (t.setG r v).frame = t.frame := by unfold Task.setG; split <;> rfl
@[simp] theorem Task.setG_fn (t : Task) (r : GReg) (v : Word) : (t.setG r v).fn = t.fn := by unfold Task.setG; split <;> rfl
@[simp] theorem Task.setG_core (t : Task) (r : GReg) (v : Word) : (t.setG r v).core = t.core := by unfold Task.setG; split <;> rfl
@[simp] theorem Task.setG_front (t : Task) (r : GReg) (v : Word) : (t.setG r v).front = t.front := by unfold Task.setG; split <;> rfl
@[simp] theorem Task.setG_vmax (t : Task) (r : GReg) (v : Word) : (t.setG r v).vmax = t.vmax := by unfold Task.setG; split <;> rfl
@[simp] theorem Task.setG_timed (t : Task) (r : GReg) (v : Word) : (t.setG r v).timed = t.timed := by unfold Task.setG; split <;> rfl
@[simp] theorem Task.setG_domain (t : Task) (r : GReg) (v : Word) : (t.setG r v).domain = t.domain := by unfold Task.setG; split <;> rfl
@[simp] theorem Task.setG_pc (t : Task) (r : GReg) (v : Word) : (t.setG r v).pc = t.pc := by unfold Task.setG; split <;> rfl
@[simp] theorem Task.setG_f (t : Task) (r : GReg) (v : Word) : (t.setG r v).f = t.f := by unfold Task.setG; split <;> rfl
@[simp] theorem Task.setG_loops (t : Task) (r : GReg) (v : Word) : (t.setG r v).loops = t.loops := by unfold Task.setG; split <;> rfl
@[simp] theorem Task.setG_segs (t : Task) (r : GReg) (v : Word) : (t.setG r v).segs = t.segs := by unfold Task.setG; split <;> rfl
@[simp] theorem Task.setG_modes (t : Task) (r : GReg) (v : Word) : (t.setG r v).modes = t.modes := by unfold Task.setG; split <;> rfl
@[simp] theorem Task.setG_kpermLen (t : Task) (r : GReg) (v : Word) : (t.setG r v).kpermLen = t.kpermLen := by unfold Task.setG; split <;> rfl
@[simp] theorem Task.setG_fflags (t : Task) (r : GReg) (v : Word) : (t.setG r v).fflags = t.fflags := by unfold Task.setG; split <;> rfl
@[simp] theorem Task.setG_fexc0 (t : Task) (r : GReg) (v : Word) : (t.setG r v).fexc0 = t.fexc0 := by unfold Task.setG; split <;> rfl
@[simp] theorem Task.setG_fexc1 (t : Task) (r : GReg) (v : Word) : (t.setG r v).fexc1 = t.fexc1 := by unfold Task.setG; split <;> rfl
@[simp] theorem Task.setG_codebk (t : Task) (r : GReg) (v : Word) : (t.setG r v).codebk = t.codebk := by unfold Task.setG; split <;> rfl
@[simp] theorem Task.setG_tstart (t : Task) (r : GReg) (v : Word) : (t.setG r v).tstart = t.tstart := by unfold Task.setG; split <;> rfl
@[simp] theorem Task.setG_taskid (t : Task) (r : GReg) (v : Word) : (t.setG r v).taskid = t.taskid := by unfold Task.setG; split <;> rfl
@[simp] theorem Task.setG_idx (t : Task) (r : GReg) (v : Word) : (t.setG r v).idx = t.idx := by unfold Task.setG; split <;> rfl
@[simp] theorem Task.setG_ext (t : Task) (r : GReg) (v : Word) : (t.setG r v).ext = t.ext := by unfold Task.setG; split <;> rfl
@[simp] theorem Task.setG_tcause (t : Task) (r : GReg) (v : Word) : (t.setG r v).tcause = t.tcause := by unfold Task.setG; split <;> rfl
@[simp] theorem Task.setG_tpc (t : Task) (r : GReg) (v : Word) : (t.setG r v).tpc = t.tpc := by unfold Task.setG; split <;> rfl
@[simp] theorem Task.setG_tvcp (t : Task) (r : GReg) (v : Word) : (t.setG r v).tvcp = t.tvcp := by unfold Task.setG; split <;> rfl
@[simp] theorem Task.setG_tinfo (t : Task) (r : GReg) (v : Word) : (t.setG r v).tinfo = t.tinfo := by unfold Task.setG; split <;> rfl
@[simp] theorem Task.setG_tloop (t : Task) (r : GReg) (v : Word) : (t.setG r v).tloop = t.tloop := by unfold Task.setG; split <;> rfl
@[simp] theorem Task.setG_thvec (t : Task) (r : GReg) (v : Word) : (t.setG r v).thvec = t.thvec := by unfold Task.setG; split <;> rfl
@[simp] theorem Task.setG_dbgctl (t : Task) (r : GReg) (v : Word) : (t.setG r v).dbgctl = t.dbgctl := by unfold Task.setG; split <;> rfl
@[simp] theorem Task.setG_bpc (t : Task) (r : GReg) (v : Word) : (t.setG r v).bpc = t.bpc := by unfold Task.setG; split <;> rfl
@[simp] theorem Task.setG_srec (t : Task) (r : GReg) (v : Word) : (t.setG r v).srec = t.srec := by unfold Task.setG; split <;> rfl
@[simp] theorem Task.setG_single (t : Task) (r : GReg) (v : Word) : (t.setG r v).single = t.single := by unfold Task.setG; split <;> rfl
@[simp] theorem Task.setG_mbcnt (t : Task) (r : GReg) (v : Word) : (t.setG r v).mbcnt = t.mbcnt := by unfold Task.setG; split <;> rfl
@[simp] theorem Task.setG_vbcnt (t : Task) (r : GReg) (v : Word) : (t.setG r v).vbcnt = t.vbcnt := by unfold Task.setG; split <;> rfl
@[simp] theorem Task.setG_vbmark (t : Task) (r : GReg) (v : Word) : (t.setG r v).vbmark = t.vbmark := by unfold Task.setG; split <;> rfl
@[simp] theorem Task.setG_depth (t : Task) (r : GReg) (v : Word) : (t.setG r v).depth = t.depth := by unfold Task.setG; split <;> rfl
@[simp] theorem Task.setG_spill (t : Task) (r : GReg) (v : Word) : (t.setG r v).spill = t.spill := by unfold Task.setG; split <;> rfl
@[simp] theorem Task.setG_riser (t : Task) (r : GReg) (v : Word) : (t.setG r v).riser = t.riser := by unfold Task.setG; split <;> rfl
@[simp] theorem Task.setG_pushes (t : Task) (r : GReg) (v : Word) : (t.setG r v).pushes = t.pushes := by unfold Task.setG; split <;> rfl
@[simp] theorem Task.setG_popTop (t : Task) (r : GReg) (v : Word) : (t.setG r v).popTop = t.popTop := by unfold Task.setG; split <;> rfl
@[simp] theorem Task.setG_riserPages (t : Task) (r : GReg) (v : Word) : (t.setG r v).riserPages = t.riserPages := by unfold Task.setG; split <;> rfl
@[simp] theorem Task.setG_riserRefused (t : Task) (r : GReg) (v : Word) : (t.setG r v).riserRefused = t.riserRefused := by unfold Task.setG; split <;> rfl
@[simp] theorem Task.setG_mbFirst (t : Task) (r : GReg) (v : Word) : (t.setG r v).mbFirst = t.mbFirst := by unfold Task.setG; split <;> rfl
@[simp] theorem Task.setG_mbCount (t : Task) (r : GReg) (v : Word) : (t.setG r v).mbCount = t.mbCount := by unfold Task.setG; split <;> rfl
@[simp] theorem Task.setG_inHandler (t : Task) (r : GReg) (v : Word) : (t.setG r v).inHandler = t.inHandler := by unfold Task.setG; split <;> rfl
@[simp] theorem Task.setG_tpcWritten (t : Task) (r : GReg) (v : Word) : (t.setG r v).tpcWritten = t.tpcWritten := by unfold Task.setG; split <;> rfl
@[simp] theorem Task.setG_frozen (t : Task) (r : GReg) (v : Word) : (t.setG r v).frozen = t.frozen := by unfold Task.setG; split <;> rfl
@[simp] theorem Task.setG_count (t : Task) (r : GReg) (v : Word) : (t.setG r v).count = t.count := by unfold Task.setG; split <;> rfl
@[simp] theorem Task.setG_conv (t : Task) (r : GReg) (v : Word) : (t.setG r v).conv = t.conv := by unfold Task.setG; split <;> rfl
@[simp] theorem Task.setG_queue (t : Task) (r : GReg) (v : Word) : (t.setG r v).queue = t.queue := by unfold Task.setG; split <;> rfl
@[simp] theorem Task.setG_strip (t : Task) (r : GReg) (v : Word) : (t.setG r v).strip = t.strip := by unfold Task.setG; split <;> rfl
@[simp] theorem Task.setG_wait (t : Task) (r : GReg) (v : Word) : (t.setG r v).wait = t.wait := by unfold Task.setG; split <;> rfl
@[simp] theorem Task.setG_arrived (t : Task) (r : GReg) (v : Word) : (t.setG r v).arrived = t.arrived := by unfold Task.setG; split <;> rfl
@[simp] theorem Task.setG_mbFault (t : Task) (r : GReg) (v : Word) : (t.setG r v).mbFault = t.mbFault := by unfold Task.setG; split <;> rfl
@[simp] theorem Task.setG_cycle (t : Task) (r : GReg) (v : Word) : (t.setG r v).cycle = t.cycle := by unfold Task.setG; split <;> rfl
@[simp] theorem Task.setG_origin (t : Task) (r : GReg) (v : Word) : (t.setG r v).origin = t.origin := by unfold Task.setG; split <;> rfl
@[simp] theorem Task.setG_deferred (t : Task) (r : GReg) (v : Word) : (t.setG r v).deferred = t.deferred := by unfold Task.setG; split <;> rfl
@[simp] theorem Task.setG_ready (t : Task) (r : GReg) (v : Word) : (t.setG r v).ready = t.ready := by unfold Task.setG; split <;> rfl
@[simp] theorem Task.setG_engineLate (t : Task) (r : GReg) (v : Word) : (t.setG r v).engineLate = t.engineLate := by unfold Task.setG; split <;> rfl
@[simp] theorem Task.setG_issued (t : Task) (r : GReg) (v : Word) : (t.setG r v).issued = t.issued := by unfold Task.setG; split <;> rfl
@[simp] theorem Task.setG_stall (t : Task) (r : GReg) (v : Word) : (t.setG r v).stall = t.stall := by unfold Task.setG; split <;> rfl
@[simp] theorem Task.setG_born (t : Task) (r : GReg) (v : Word) : (t.setG r v).born = t.born := by unfold Task.setG; split <;> rfl
@[simp] theorem Task.setG_fetched (t : Task) (r : GReg) (v : Word) : (t.setG r v).fetched = t.fetched := by unfold Task.setG; split <;> rfl
@[simp] theorem Task.setG_refused (t : Task) (r : GReg) (v : Word) : (t.setG r v).refused = t.refused := by unfold Task.setG; split <;> rfl
@[simp] theorem Task.setG_collected (t : Task) (r : GReg) (v : Word) : (t.setG r v).collected = t.collected := by unfold Task.setG; split <;> rfl
@[simp] theorem Task.setG_owed (t : Task) (r : GReg) (v : Word) : (t.setG r v).owed = t.owed := by unfold Task.setG; split <;> rfl
@[simp] theorem Task.setG_ivRead (t : Task) (r : GReg) (v : Word) : (t.setG r v).ivRead = t.ivRead := by unfold Task.setG; split <;> rfl
@[simp] theorem Task.setG_ivWritten (t : Task) (r : GReg) (v : Word) : (t.setG r v).ivWritten = t.ivWritten := by unfold Task.setG; split <;> rfl
@[simp] theorem Task.setG_ivShadow (t : Task) (r : GReg) (v : Word) : (t.setG r v).ivShadow = t.ivShadow := by unfold Task.setG; split <;> rfl

@[simp] theorem Task.setLoop_loops (t : Task) (k : Fin 2) (l : Loop) : (t.setLoop k l).loops = t.loops.set k.val l k.isLt := rfl
@[simp] theorem Task.setLoop_live (t : Task) (k : Fin 2) (l : Loop) : (t.setLoop k l).live = t.live := rfl
@[simp] theorem Task.setLoop_launch (t : Task) (k : Fin 2) (l : Loop) : (t.setLoop k l).launch = t.launch := rfl
@[simp] theorem Task.setLoop_task (t : Task) (k : Fin 2) (l : Loop) : (t.setLoop k l).task = t.task := rfl
@[simp] theorem Task.setLoop_frame (t : Task) (k : Fin 2) (l : Loop) : (t.setLoop k l).frame = t.frame := rfl
@[simp] theorem Task.setLoop_fn (t : Task) (k : Fin 2) (l : Loop) : (t.setLoop k l).fn = t.fn := rfl
@[simp] theorem Task.setLoop_core (t : Task) (k : Fin 2) (l : Loop) : (t.setLoop k l).core = t.core := rfl
@[simp] theorem Task.setLoop_front (t : Task) (k : Fin 2) (l : Loop) : (t.setLoop k l).front = t.front := rfl
@[simp] theorem Task.setLoop_vmax (t : Task) (k : Fin 2) (l : Loop) : (t.setLoop k l).vmax = t.vmax := rfl
@[simp] theorem Task.setLoop_timed (t : Task) (k : Fin 2) (l : Loop) : (t.setLoop k l).timed = t.timed := rfl
@[simp] theorem Task.setLoop_domain (t : Task) (k : Fin 2) (l : Loop) : (t.setLoop k l).domain = t.domain := rfl
@[simp] theorem Task.setLoop_g (t : Task) (k : Fin 2) (l : Loop) : (t.setLoop k l).g = t.g := rfl
@[simp] theorem Task.setLoop_pc (t : Task) (k : Fin 2) (l : Loop) : (t.setLoop k l).pc = t.pc := rfl
@[simp] theorem Task.setLoop_f (t : Task) (k : Fin 2) (l : Loop) : (t.setLoop k l).f = t.f := rfl
@[simp] theorem Task.setLoop_segs (t : Task) (k : Fin 2) (l : Loop) : (t.setLoop k l).segs = t.segs := rfl
@[simp] theorem Task.setLoop_modes (t : Task) (k : Fin 2) (l : Loop) : (t.setLoop k l).modes = t.modes := rfl
@[simp] theorem Task.setLoop_kpermLen (t : Task) (k : Fin 2) (l : Loop) : (t.setLoop k l).kpermLen = t.kpermLen := rfl
@[simp] theorem Task.setLoop_fflags (t : Task) (k : Fin 2) (l : Loop) : (t.setLoop k l).fflags = t.fflags := rfl
@[simp] theorem Task.setLoop_fexc0 (t : Task) (k : Fin 2) (l : Loop) : (t.setLoop k l).fexc0 = t.fexc0 := rfl
@[simp] theorem Task.setLoop_fexc1 (t : Task) (k : Fin 2) (l : Loop) : (t.setLoop k l).fexc1 = t.fexc1 := rfl
@[simp] theorem Task.setLoop_codebk (t : Task) (k : Fin 2) (l : Loop) : (t.setLoop k l).codebk = t.codebk := rfl
@[simp] theorem Task.setLoop_tstart (t : Task) (k : Fin 2) (l : Loop) : (t.setLoop k l).tstart = t.tstart := rfl
@[simp] theorem Task.setLoop_taskid (t : Task) (k : Fin 2) (l : Loop) : (t.setLoop k l).taskid = t.taskid := rfl
@[simp] theorem Task.setLoop_idx (t : Task) (k : Fin 2) (l : Loop) : (t.setLoop k l).idx = t.idx := rfl
@[simp] theorem Task.setLoop_ext (t : Task) (k : Fin 2) (l : Loop) : (t.setLoop k l).ext = t.ext := rfl
@[simp] theorem Task.setLoop_tcause (t : Task) (k : Fin 2) (l : Loop) : (t.setLoop k l).tcause = t.tcause := rfl
@[simp] theorem Task.setLoop_tpc (t : Task) (k : Fin 2) (l : Loop) : (t.setLoop k l).tpc = t.tpc := rfl
@[simp] theorem Task.setLoop_tvcp (t : Task) (k : Fin 2) (l : Loop) : (t.setLoop k l).tvcp = t.tvcp := rfl
@[simp] theorem Task.setLoop_tinfo (t : Task) (k : Fin 2) (l : Loop) : (t.setLoop k l).tinfo = t.tinfo := rfl
@[simp] theorem Task.setLoop_tloop (t : Task) (k : Fin 2) (l : Loop) : (t.setLoop k l).tloop = t.tloop := rfl
@[simp] theorem Task.setLoop_thvec (t : Task) (k : Fin 2) (l : Loop) : (t.setLoop k l).thvec = t.thvec := rfl
@[simp] theorem Task.setLoop_dbgctl (t : Task) (k : Fin 2) (l : Loop) : (t.setLoop k l).dbgctl = t.dbgctl := rfl
@[simp] theorem Task.setLoop_bpc (t : Task) (k : Fin 2) (l : Loop) : (t.setLoop k l).bpc = t.bpc := rfl
@[simp] theorem Task.setLoop_srec (t : Task) (k : Fin 2) (l : Loop) : (t.setLoop k l).srec = t.srec := rfl
@[simp] theorem Task.setLoop_single (t : Task) (k : Fin 2) (l : Loop) : (t.setLoop k l).single = t.single := rfl
@[simp] theorem Task.setLoop_mbcnt (t : Task) (k : Fin 2) (l : Loop) : (t.setLoop k l).mbcnt = t.mbcnt := rfl
@[simp] theorem Task.setLoop_vbcnt (t : Task) (k : Fin 2) (l : Loop) : (t.setLoop k l).vbcnt = t.vbcnt := rfl
@[simp] theorem Task.setLoop_vbmark (t : Task) (k : Fin 2) (l : Loop) : (t.setLoop k l).vbmark = t.vbmark := rfl
@[simp] theorem Task.setLoop_depth (t : Task) (k : Fin 2) (l : Loop) : (t.setLoop k l).depth = t.depth := rfl
@[simp] theorem Task.setLoop_spill (t : Task) (k : Fin 2) (l : Loop) : (t.setLoop k l).spill = t.spill := rfl
@[simp] theorem Task.setLoop_riser (t : Task) (k : Fin 2) (l : Loop) : (t.setLoop k l).riser = t.riser := rfl
@[simp] theorem Task.setLoop_pushes (t : Task) (k : Fin 2) (l : Loop) : (t.setLoop k l).pushes = t.pushes := rfl
@[simp] theorem Task.setLoop_popTop (t : Task) (k : Fin 2) (l : Loop) : (t.setLoop k l).popTop = t.popTop := rfl
@[simp] theorem Task.setLoop_riserPages (t : Task) (k : Fin 2) (l : Loop) : (t.setLoop k l).riserPages = t.riserPages := rfl
@[simp] theorem Task.setLoop_riserRefused (t : Task) (k : Fin 2) (l : Loop) : (t.setLoop k l).riserRefused = t.riserRefused := rfl
@[simp] theorem Task.setLoop_mbFirst (t : Task) (k : Fin 2) (l : Loop) : (t.setLoop k l).mbFirst = t.mbFirst := rfl
@[simp] theorem Task.setLoop_mbCount (t : Task) (k : Fin 2) (l : Loop) : (t.setLoop k l).mbCount = t.mbCount := rfl
@[simp] theorem Task.setLoop_inHandler (t : Task) (k : Fin 2) (l : Loop) : (t.setLoop k l).inHandler = t.inHandler := rfl
@[simp] theorem Task.setLoop_tpcWritten (t : Task) (k : Fin 2) (l : Loop) : (t.setLoop k l).tpcWritten = t.tpcWritten := rfl
@[simp] theorem Task.setLoop_frozen (t : Task) (k : Fin 2) (l : Loop) : (t.setLoop k l).frozen = t.frozen := rfl
@[simp] theorem Task.setLoop_count (t : Task) (k : Fin 2) (l : Loop) : (t.setLoop k l).count = t.count := rfl
@[simp] theorem Task.setLoop_conv (t : Task) (k : Fin 2) (l : Loop) : (t.setLoop k l).conv = t.conv := rfl
@[simp] theorem Task.setLoop_queue (t : Task) (k : Fin 2) (l : Loop) : (t.setLoop k l).queue = t.queue := rfl
@[simp] theorem Task.setLoop_strip (t : Task) (k : Fin 2) (l : Loop) : (t.setLoop k l).strip = t.strip := rfl
@[simp] theorem Task.setLoop_wait (t : Task) (k : Fin 2) (l : Loop) : (t.setLoop k l).wait = t.wait := rfl
@[simp] theorem Task.setLoop_arrived (t : Task) (k : Fin 2) (l : Loop) : (t.setLoop k l).arrived = t.arrived := rfl
@[simp] theorem Task.setLoop_mbFault (t : Task) (k : Fin 2) (l : Loop) : (t.setLoop k l).mbFault = t.mbFault := rfl
@[simp] theorem Task.setLoop_cycle (t : Task) (k : Fin 2) (l : Loop) : (t.setLoop k l).cycle = t.cycle := rfl
@[simp] theorem Task.setLoop_origin (t : Task) (k : Fin 2) (l : Loop) : (t.setLoop k l).origin = t.origin := rfl
@[simp] theorem Task.setLoop_deferred (t : Task) (k : Fin 2) (l : Loop) : (t.setLoop k l).deferred = t.deferred := rfl
@[simp] theorem Task.setLoop_ready (t : Task) (k : Fin 2) (l : Loop) : (t.setLoop k l).ready = t.ready := rfl
@[simp] theorem Task.setLoop_engineLate (t : Task) (k : Fin 2) (l : Loop) : (t.setLoop k l).engineLate = t.engineLate := rfl
@[simp] theorem Task.setLoop_issued (t : Task) (k : Fin 2) (l : Loop) : (t.setLoop k l).issued = t.issued := rfl
@[simp] theorem Task.setLoop_stall (t : Task) (k : Fin 2) (l : Loop) : (t.setLoop k l).stall = t.stall := rfl
@[simp] theorem Task.setLoop_born (t : Task) (k : Fin 2) (l : Loop) : (t.setLoop k l).born = t.born := rfl
@[simp] theorem Task.setLoop_fetched (t : Task) (k : Fin 2) (l : Loop) : (t.setLoop k l).fetched = t.fetched := rfl
@[simp] theorem Task.setLoop_refused (t : Task) (k : Fin 2) (l : Loop) : (t.setLoop k l).refused = t.refused := rfl
@[simp] theorem Task.setLoop_collected (t : Task) (k : Fin 2) (l : Loop) : (t.setLoop k l).collected = t.collected := rfl
@[simp] theorem Task.setLoop_late (t : Task) (k : Fin 2) (l : Loop) : (t.setLoop k l).late = t.late := rfl
@[simp] theorem Task.setLoop_owed (t : Task) (k : Fin 2) (l : Loop) : (t.setLoop k l).owed = t.owed := rfl
@[simp] theorem Task.setLoop_ivRead (t : Task) (k : Fin 2) (l : Loop) : (t.setLoop k l).ivRead = t.ivRead := rfl
@[simp] theorem Task.setLoop_ivWritten (t : Task) (k : Fin 2) (l : Loop) : (t.setLoop k l).ivWritten = t.ivWritten := rfl
@[simp] theorem Task.setLoop_ivShadow (t : Task) (k : Fin 2) (l : Loop) : (t.setLoop k l).ivShadow = t.ivShadow := rfl

@[simp] theorem Task.orFlags_fflags (t : Task) (x : Nat) : (t.orFlags x).fflags = t.fflags ||| BitVec.ofNat 6 x := rfl
@[simp] theorem Task.orFlags_live (t : Task) (x : Nat) : (t.orFlags x).live = t.live := rfl
@[simp] theorem Task.orFlags_launch (t : Task) (x : Nat) : (t.orFlags x).launch = t.launch := rfl
@[simp] theorem Task.orFlags_task (t : Task) (x : Nat) : (t.orFlags x).task = t.task := rfl
@[simp] theorem Task.orFlags_frame (t : Task) (x : Nat) : (t.orFlags x).frame = t.frame := rfl
@[simp] theorem Task.orFlags_fn (t : Task) (x : Nat) : (t.orFlags x).fn = t.fn := rfl
@[simp] theorem Task.orFlags_core (t : Task) (x : Nat) : (t.orFlags x).core = t.core := rfl
@[simp] theorem Task.orFlags_front (t : Task) (x : Nat) : (t.orFlags x).front = t.front := rfl
@[simp] theorem Task.orFlags_vmax (t : Task) (x : Nat) : (t.orFlags x).vmax = t.vmax := rfl
@[simp] theorem Task.orFlags_timed (t : Task) (x : Nat) : (t.orFlags x).timed = t.timed := rfl
@[simp] theorem Task.orFlags_domain (t : Task) (x : Nat) : (t.orFlags x).domain = t.domain := rfl
@[simp] theorem Task.orFlags_g (t : Task) (x : Nat) : (t.orFlags x).g = t.g := rfl
@[simp] theorem Task.orFlags_pc (t : Task) (x : Nat) : (t.orFlags x).pc = t.pc := rfl
@[simp] theorem Task.orFlags_f (t : Task) (x : Nat) : (t.orFlags x).f = t.f := rfl
@[simp] theorem Task.orFlags_loops (t : Task) (x : Nat) : (t.orFlags x).loops = t.loops := rfl
@[simp] theorem Task.orFlags_segs (t : Task) (x : Nat) : (t.orFlags x).segs = t.segs := rfl
@[simp] theorem Task.orFlags_modes (t : Task) (x : Nat) : (t.orFlags x).modes = t.modes := rfl
@[simp] theorem Task.orFlags_kpermLen (t : Task) (x : Nat) : (t.orFlags x).kpermLen = t.kpermLen := rfl
@[simp] theorem Task.orFlags_fexc0 (t : Task) (x : Nat) : (t.orFlags x).fexc0 = t.fexc0 := rfl
@[simp] theorem Task.orFlags_fexc1 (t : Task) (x : Nat) : (t.orFlags x).fexc1 = t.fexc1 := rfl
@[simp] theorem Task.orFlags_codebk (t : Task) (x : Nat) : (t.orFlags x).codebk = t.codebk := rfl
@[simp] theorem Task.orFlags_tstart (t : Task) (x : Nat) : (t.orFlags x).tstart = t.tstart := rfl
@[simp] theorem Task.orFlags_taskid (t : Task) (x : Nat) : (t.orFlags x).taskid = t.taskid := rfl
@[simp] theorem Task.orFlags_idx (t : Task) (x : Nat) : (t.orFlags x).idx = t.idx := rfl
@[simp] theorem Task.orFlags_ext (t : Task) (x : Nat) : (t.orFlags x).ext = t.ext := rfl
@[simp] theorem Task.orFlags_tcause (t : Task) (x : Nat) : (t.orFlags x).tcause = t.tcause := rfl
@[simp] theorem Task.orFlags_tpc (t : Task) (x : Nat) : (t.orFlags x).tpc = t.tpc := rfl
@[simp] theorem Task.orFlags_tvcp (t : Task) (x : Nat) : (t.orFlags x).tvcp = t.tvcp := rfl
@[simp] theorem Task.orFlags_tinfo (t : Task) (x : Nat) : (t.orFlags x).tinfo = t.tinfo := rfl
@[simp] theorem Task.orFlags_tloop (t : Task) (x : Nat) : (t.orFlags x).tloop = t.tloop := rfl
@[simp] theorem Task.orFlags_thvec (t : Task) (x : Nat) : (t.orFlags x).thvec = t.thvec := rfl
@[simp] theorem Task.orFlags_dbgctl (t : Task) (x : Nat) : (t.orFlags x).dbgctl = t.dbgctl := rfl
@[simp] theorem Task.orFlags_bpc (t : Task) (x : Nat) : (t.orFlags x).bpc = t.bpc := rfl
@[simp] theorem Task.orFlags_srec (t : Task) (x : Nat) : (t.orFlags x).srec = t.srec := rfl
@[simp] theorem Task.orFlags_single (t : Task) (x : Nat) : (t.orFlags x).single = t.single := rfl
@[simp] theorem Task.orFlags_mbcnt (t : Task) (x : Nat) : (t.orFlags x).mbcnt = t.mbcnt := rfl
@[simp] theorem Task.orFlags_vbcnt (t : Task) (x : Nat) : (t.orFlags x).vbcnt = t.vbcnt := rfl
@[simp] theorem Task.orFlags_vbmark (t : Task) (x : Nat) : (t.orFlags x).vbmark = t.vbmark := rfl
@[simp] theorem Task.orFlags_depth (t : Task) (x : Nat) : (t.orFlags x).depth = t.depth := rfl
@[simp] theorem Task.orFlags_spill (t : Task) (x : Nat) : (t.orFlags x).spill = t.spill := rfl
@[simp] theorem Task.orFlags_riser (t : Task) (x : Nat) : (t.orFlags x).riser = t.riser := rfl
@[simp] theorem Task.orFlags_pushes (t : Task) (x : Nat) : (t.orFlags x).pushes = t.pushes := rfl
@[simp] theorem Task.orFlags_popTop (t : Task) (x : Nat) : (t.orFlags x).popTop = t.popTop := rfl
@[simp] theorem Task.orFlags_riserPages (t : Task) (x : Nat) : (t.orFlags x).riserPages = t.riserPages := rfl
@[simp] theorem Task.orFlags_riserRefused (t : Task) (x : Nat) : (t.orFlags x).riserRefused = t.riserRefused := rfl
@[simp] theorem Task.orFlags_mbFirst (t : Task) (x : Nat) : (t.orFlags x).mbFirst = t.mbFirst := rfl
@[simp] theorem Task.orFlags_mbCount (t : Task) (x : Nat) : (t.orFlags x).mbCount = t.mbCount := rfl
@[simp] theorem Task.orFlags_inHandler (t : Task) (x : Nat) : (t.orFlags x).inHandler = t.inHandler := rfl
@[simp] theorem Task.orFlags_tpcWritten (t : Task) (x : Nat) : (t.orFlags x).tpcWritten = t.tpcWritten := rfl
@[simp] theorem Task.orFlags_frozen (t : Task) (x : Nat) : (t.orFlags x).frozen = t.frozen := rfl
@[simp] theorem Task.orFlags_count (t : Task) (x : Nat) : (t.orFlags x).count = t.count := rfl
@[simp] theorem Task.orFlags_conv (t : Task) (x : Nat) : (t.orFlags x).conv = t.conv := rfl
@[simp] theorem Task.orFlags_queue (t : Task) (x : Nat) : (t.orFlags x).queue = t.queue := rfl
@[simp] theorem Task.orFlags_strip (t : Task) (x : Nat) : (t.orFlags x).strip = t.strip := rfl
@[simp] theorem Task.orFlags_wait (t : Task) (x : Nat) : (t.orFlags x).wait = t.wait := rfl
@[simp] theorem Task.orFlags_arrived (t : Task) (x : Nat) : (t.orFlags x).arrived = t.arrived := rfl
@[simp] theorem Task.orFlags_mbFault (t : Task) (x : Nat) : (t.orFlags x).mbFault = t.mbFault := rfl
@[simp] theorem Task.orFlags_cycle (t : Task) (x : Nat) : (t.orFlags x).cycle = t.cycle := rfl
@[simp] theorem Task.orFlags_origin (t : Task) (x : Nat) : (t.orFlags x).origin = t.origin := rfl
@[simp] theorem Task.orFlags_deferred (t : Task) (x : Nat) : (t.orFlags x).deferred = t.deferred := rfl
@[simp] theorem Task.orFlags_ready (t : Task) (x : Nat) : (t.orFlags x).ready = t.ready := rfl
@[simp] theorem Task.orFlags_engineLate (t : Task) (x : Nat) : (t.orFlags x).engineLate = t.engineLate := rfl
@[simp] theorem Task.orFlags_issued (t : Task) (x : Nat) : (t.orFlags x).issued = t.issued := rfl
@[simp] theorem Task.orFlags_stall (t : Task) (x : Nat) : (t.orFlags x).stall = t.stall := rfl
@[simp] theorem Task.orFlags_born (t : Task) (x : Nat) : (t.orFlags x).born = t.born := rfl
@[simp] theorem Task.orFlags_fetched (t : Task) (x : Nat) : (t.orFlags x).fetched = t.fetched := rfl
@[simp] theorem Task.orFlags_refused (t : Task) (x : Nat) : (t.orFlags x).refused = t.refused := rfl
@[simp] theorem Task.orFlags_collected (t : Task) (x : Nat) : (t.orFlags x).collected = t.collected := rfl
@[simp] theorem Task.orFlags_late (t : Task) (x : Nat) : (t.orFlags x).late = t.late := rfl
@[simp] theorem Task.orFlags_owed (t : Task) (x : Nat) : (t.orFlags x).owed = t.owed := rfl
@[simp] theorem Task.orFlags_ivRead (t : Task) (x : Nat) : (t.orFlags x).ivRead = t.ivRead := rfl
@[simp] theorem Task.orFlags_ivWritten (t : Task) (x : Nat) : (t.orFlags x).ivWritten = t.ivWritten := rfl
@[simp] theorem Task.orFlags_ivShadow (t : Task) (x : Nat) : (t.orFlags x).ivShadow = t.ivShadow := rfl

/-- Sequential flow changes the loops and the pc alone (R157). -/
theorem flowTo_eq (t : Task) (a : Word) : ∃ ls p, flowTo t a = { t with loops := ls, pc := p } := by
  have pass (u : Task) (k : Fin 2) : ∃ ls, (endPass u k a).1 = { u with loops := ls } := by
    unfold endPass; dsimp only; split <;> exact ⟨_, rfl⟩
  have go (k : Fin 2) (both : Option (Fin 2)) : ∃ ls p, (let r := endPass t k a
      if r.2.2 then
        match both with
        | none => { r.1 with pc := a }
        | some j =>
          let q := endPass r.1 j a
          { q.1 with pc := q.2.1 }
      else { r.1 with pc := r.2.1 }) = ({ t with loops := ls, pc := p } : Task) := by
    obtain ⟨ls, h⟩ := pass t k
    dsimp only
    split
    · cases both with
      | none => exact ⟨ls, a, by rw [h]⟩
      | some j =>
        obtain ⟨ms, g⟩ := pass (endPass t k a).1 j
        exact ⟨ms, (endPass (endPass t k a).1 j a).2.1, by dsimp only; rw [g, h]⟩
    · exact ⟨ls, (endPass t k a).2.1, by rw [h]⟩
  unfold flowTo
  dsimp only
  split
  · split
    · exact go 0 (some 1)
    · exact go 1 (some 0)
  · split
    · exact go 0 none
    · split
      · exact go 1 none
      · exact ⟨t.loops, a, rfl⟩

@[simp] theorem nextWord_live (t : Task)  : (nextWord t).live = t.live := by obtain ⟨_, _, h⟩ := flowTo_eq t (t.pc + 4); rw [nextWord, h]
@[simp] theorem nextWord_launch (t : Task)  : (nextWord t).launch = t.launch := by obtain ⟨_, _, h⟩ := flowTo_eq t (t.pc + 4); rw [nextWord, h]
@[simp] theorem nextWord_task (t : Task)  : (nextWord t).task = t.task := by obtain ⟨_, _, h⟩ := flowTo_eq t (t.pc + 4); rw [nextWord, h]
@[simp] theorem nextWord_frame (t : Task)  : (nextWord t).frame = t.frame := by obtain ⟨_, _, h⟩ := flowTo_eq t (t.pc + 4); rw [nextWord, h]
@[simp] theorem nextWord_fn (t : Task)  : (nextWord t).fn = t.fn := by obtain ⟨_, _, h⟩ := flowTo_eq t (t.pc + 4); rw [nextWord, h]
@[simp] theorem nextWord_core (t : Task)  : (nextWord t).core = t.core := by obtain ⟨_, _, h⟩ := flowTo_eq t (t.pc + 4); rw [nextWord, h]
@[simp] theorem nextWord_front (t : Task)  : (nextWord t).front = t.front := by obtain ⟨_, _, h⟩ := flowTo_eq t (t.pc + 4); rw [nextWord, h]
@[simp] theorem nextWord_vmax (t : Task)  : (nextWord t).vmax = t.vmax := by obtain ⟨_, _, h⟩ := flowTo_eq t (t.pc + 4); rw [nextWord, h]
@[simp] theorem nextWord_timed (t : Task)  : (nextWord t).timed = t.timed := by obtain ⟨_, _, h⟩ := flowTo_eq t (t.pc + 4); rw [nextWord, h]
@[simp] theorem nextWord_domain (t : Task)  : (nextWord t).domain = t.domain := by obtain ⟨_, _, h⟩ := flowTo_eq t (t.pc + 4); rw [nextWord, h]
@[simp] theorem nextWord_g (t : Task)  : (nextWord t).g = t.g := by obtain ⟨_, _, h⟩ := flowTo_eq t (t.pc + 4); rw [nextWord, h]
@[simp] theorem nextWord_f (t : Task)  : (nextWord t).f = t.f := by obtain ⟨_, _, h⟩ := flowTo_eq t (t.pc + 4); rw [nextWord, h]
@[simp] theorem nextWord_segs (t : Task)  : (nextWord t).segs = t.segs := by obtain ⟨_, _, h⟩ := flowTo_eq t (t.pc + 4); rw [nextWord, h]
@[simp] theorem nextWord_modes (t : Task)  : (nextWord t).modes = t.modes := by obtain ⟨_, _, h⟩ := flowTo_eq t (t.pc + 4); rw [nextWord, h]
@[simp] theorem nextWord_kpermLen (t : Task)  : (nextWord t).kpermLen = t.kpermLen := by obtain ⟨_, _, h⟩ := flowTo_eq t (t.pc + 4); rw [nextWord, h]
@[simp] theorem nextWord_fflags (t : Task)  : (nextWord t).fflags = t.fflags := by obtain ⟨_, _, h⟩ := flowTo_eq t (t.pc + 4); rw [nextWord, h]
@[simp] theorem nextWord_fexc0 (t : Task)  : (nextWord t).fexc0 = t.fexc0 := by obtain ⟨_, _, h⟩ := flowTo_eq t (t.pc + 4); rw [nextWord, h]
@[simp] theorem nextWord_fexc1 (t : Task)  : (nextWord t).fexc1 = t.fexc1 := by obtain ⟨_, _, h⟩ := flowTo_eq t (t.pc + 4); rw [nextWord, h]
@[simp] theorem nextWord_codebk (t : Task)  : (nextWord t).codebk = t.codebk := by obtain ⟨_, _, h⟩ := flowTo_eq t (t.pc + 4); rw [nextWord, h]
@[simp] theorem nextWord_tstart (t : Task)  : (nextWord t).tstart = t.tstart := by obtain ⟨_, _, h⟩ := flowTo_eq t (t.pc + 4); rw [nextWord, h]
@[simp] theorem nextWord_taskid (t : Task)  : (nextWord t).taskid = t.taskid := by obtain ⟨_, _, h⟩ := flowTo_eq t (t.pc + 4); rw [nextWord, h]
@[simp] theorem nextWord_idx (t : Task)  : (nextWord t).idx = t.idx := by obtain ⟨_, _, h⟩ := flowTo_eq t (t.pc + 4); rw [nextWord, h]
@[simp] theorem nextWord_ext (t : Task)  : (nextWord t).ext = t.ext := by obtain ⟨_, _, h⟩ := flowTo_eq t (t.pc + 4); rw [nextWord, h]
@[simp] theorem nextWord_tcause (t : Task)  : (nextWord t).tcause = t.tcause := by obtain ⟨_, _, h⟩ := flowTo_eq t (t.pc + 4); rw [nextWord, h]
@[simp] theorem nextWord_tpc (t : Task)  : (nextWord t).tpc = t.tpc := by obtain ⟨_, _, h⟩ := flowTo_eq t (t.pc + 4); rw [nextWord, h]
@[simp] theorem nextWord_tvcp (t : Task)  : (nextWord t).tvcp = t.tvcp := by obtain ⟨_, _, h⟩ := flowTo_eq t (t.pc + 4); rw [nextWord, h]
@[simp] theorem nextWord_tinfo (t : Task)  : (nextWord t).tinfo = t.tinfo := by obtain ⟨_, _, h⟩ := flowTo_eq t (t.pc + 4); rw [nextWord, h]
@[simp] theorem nextWord_tloop (t : Task)  : (nextWord t).tloop = t.tloop := by obtain ⟨_, _, h⟩ := flowTo_eq t (t.pc + 4); rw [nextWord, h]
@[simp] theorem nextWord_thvec (t : Task)  : (nextWord t).thvec = t.thvec := by obtain ⟨_, _, h⟩ := flowTo_eq t (t.pc + 4); rw [nextWord, h]
@[simp] theorem nextWord_dbgctl (t : Task)  : (nextWord t).dbgctl = t.dbgctl := by obtain ⟨_, _, h⟩ := flowTo_eq t (t.pc + 4); rw [nextWord, h]
@[simp] theorem nextWord_bpc (t : Task)  : (nextWord t).bpc = t.bpc := by obtain ⟨_, _, h⟩ := flowTo_eq t (t.pc + 4); rw [nextWord, h]
@[simp] theorem nextWord_srec (t : Task)  : (nextWord t).srec = t.srec := by obtain ⟨_, _, h⟩ := flowTo_eq t (t.pc + 4); rw [nextWord, h]
@[simp] theorem nextWord_single (t : Task)  : (nextWord t).single = t.single := by obtain ⟨_, _, h⟩ := flowTo_eq t (t.pc + 4); rw [nextWord, h]
@[simp] theorem nextWord_mbcnt (t : Task)  : (nextWord t).mbcnt = t.mbcnt := by obtain ⟨_, _, h⟩ := flowTo_eq t (t.pc + 4); rw [nextWord, h]
@[simp] theorem nextWord_vbcnt (t : Task)  : (nextWord t).vbcnt = t.vbcnt := by obtain ⟨_, _, h⟩ := flowTo_eq t (t.pc + 4); rw [nextWord, h]
@[simp] theorem nextWord_vbmark (t : Task)  : (nextWord t).vbmark = t.vbmark := by obtain ⟨_, _, h⟩ := flowTo_eq t (t.pc + 4); rw [nextWord, h]
@[simp] theorem nextWord_depth (t : Task)  : (nextWord t).depth = t.depth := by obtain ⟨_, _, h⟩ := flowTo_eq t (t.pc + 4); rw [nextWord, h]
@[simp] theorem nextWord_spill (t : Task)  : (nextWord t).spill = t.spill := by obtain ⟨_, _, h⟩ := flowTo_eq t (t.pc + 4); rw [nextWord, h]
@[simp] theorem nextWord_riser (t : Task)  : (nextWord t).riser = t.riser := by obtain ⟨_, _, h⟩ := flowTo_eq t (t.pc + 4); rw [nextWord, h]
@[simp] theorem nextWord_pushes (t : Task)  : (nextWord t).pushes = t.pushes := by obtain ⟨_, _, h⟩ := flowTo_eq t (t.pc + 4); rw [nextWord, h]
@[simp] theorem nextWord_popTop (t : Task)  : (nextWord t).popTop = t.popTop := by obtain ⟨_, _, h⟩ := flowTo_eq t (t.pc + 4); rw [nextWord, h]
@[simp] theorem nextWord_riserPages (t : Task)  : (nextWord t).riserPages = t.riserPages := by obtain ⟨_, _, h⟩ := flowTo_eq t (t.pc + 4); rw [nextWord, h]
@[simp] theorem nextWord_riserRefused (t : Task)  : (nextWord t).riserRefused = t.riserRefused := by obtain ⟨_, _, h⟩ := flowTo_eq t (t.pc + 4); rw [nextWord, h]
@[simp] theorem nextWord_mbFirst (t : Task)  : (nextWord t).mbFirst = t.mbFirst := by obtain ⟨_, _, h⟩ := flowTo_eq t (t.pc + 4); rw [nextWord, h]
@[simp] theorem nextWord_mbCount (t : Task)  : (nextWord t).mbCount = t.mbCount := by obtain ⟨_, _, h⟩ := flowTo_eq t (t.pc + 4); rw [nextWord, h]
@[simp] theorem nextWord_inHandler (t : Task)  : (nextWord t).inHandler = t.inHandler := by obtain ⟨_, _, h⟩ := flowTo_eq t (t.pc + 4); rw [nextWord, h]
@[simp] theorem nextWord_tpcWritten (t : Task)  : (nextWord t).tpcWritten = t.tpcWritten := by obtain ⟨_, _, h⟩ := flowTo_eq t (t.pc + 4); rw [nextWord, h]
@[simp] theorem nextWord_frozen (t : Task)  : (nextWord t).frozen = t.frozen := by obtain ⟨_, _, h⟩ := flowTo_eq t (t.pc + 4); rw [nextWord, h]
@[simp] theorem nextWord_count (t : Task)  : (nextWord t).count = t.count := by obtain ⟨_, _, h⟩ := flowTo_eq t (t.pc + 4); rw [nextWord, h]
@[simp] theorem nextWord_conv (t : Task)  : (nextWord t).conv = t.conv := by obtain ⟨_, _, h⟩ := flowTo_eq t (t.pc + 4); rw [nextWord, h]
@[simp] theorem nextWord_queue (t : Task)  : (nextWord t).queue = t.queue := by obtain ⟨_, _, h⟩ := flowTo_eq t (t.pc + 4); rw [nextWord, h]
@[simp] theorem nextWord_strip (t : Task)  : (nextWord t).strip = t.strip := by obtain ⟨_, _, h⟩ := flowTo_eq t (t.pc + 4); rw [nextWord, h]
@[simp] theorem nextWord_wait (t : Task)  : (nextWord t).wait = t.wait := by obtain ⟨_, _, h⟩ := flowTo_eq t (t.pc + 4); rw [nextWord, h]
@[simp] theorem nextWord_arrived (t : Task)  : (nextWord t).arrived = t.arrived := by obtain ⟨_, _, h⟩ := flowTo_eq t (t.pc + 4); rw [nextWord, h]
@[simp] theorem nextWord_mbFault (t : Task)  : (nextWord t).mbFault = t.mbFault := by obtain ⟨_, _, h⟩ := flowTo_eq t (t.pc + 4); rw [nextWord, h]
@[simp] theorem nextWord_cycle (t : Task)  : (nextWord t).cycle = t.cycle := by obtain ⟨_, _, h⟩ := flowTo_eq t (t.pc + 4); rw [nextWord, h]
@[simp] theorem nextWord_origin (t : Task)  : (nextWord t).origin = t.origin := by obtain ⟨_, _, h⟩ := flowTo_eq t (t.pc + 4); rw [nextWord, h]
@[simp] theorem nextWord_deferred (t : Task)  : (nextWord t).deferred = t.deferred := by obtain ⟨_, _, h⟩ := flowTo_eq t (t.pc + 4); rw [nextWord, h]
@[simp] theorem nextWord_ready (t : Task)  : (nextWord t).ready = t.ready := by obtain ⟨_, _, h⟩ := flowTo_eq t (t.pc + 4); rw [nextWord, h]
@[simp] theorem nextWord_engineLate (t : Task)  : (nextWord t).engineLate = t.engineLate := by obtain ⟨_, _, h⟩ := flowTo_eq t (t.pc + 4); rw [nextWord, h]
@[simp] theorem nextWord_issued (t : Task)  : (nextWord t).issued = t.issued := by obtain ⟨_, _, h⟩ := flowTo_eq t (t.pc + 4); rw [nextWord, h]
@[simp] theorem nextWord_stall (t : Task)  : (nextWord t).stall = t.stall := by obtain ⟨_, _, h⟩ := flowTo_eq t (t.pc + 4); rw [nextWord, h]
@[simp] theorem nextWord_born (t : Task)  : (nextWord t).born = t.born := by obtain ⟨_, _, h⟩ := flowTo_eq t (t.pc + 4); rw [nextWord, h]
@[simp] theorem nextWord_fetched (t : Task)  : (nextWord t).fetched = t.fetched := by obtain ⟨_, _, h⟩ := flowTo_eq t (t.pc + 4); rw [nextWord, h]
@[simp] theorem nextWord_refused (t : Task)  : (nextWord t).refused = t.refused := by obtain ⟨_, _, h⟩ := flowTo_eq t (t.pc + 4); rw [nextWord, h]
@[simp] theorem nextWord_collected (t : Task)  : (nextWord t).collected = t.collected := by obtain ⟨_, _, h⟩ := flowTo_eq t (t.pc + 4); rw [nextWord, h]
@[simp] theorem nextWord_late (t : Task)  : (nextWord t).late = t.late := by obtain ⟨_, _, h⟩ := flowTo_eq t (t.pc + 4); rw [nextWord, h]
@[simp] theorem nextWord_owed (t : Task)  : (nextWord t).owed = t.owed := by obtain ⟨_, _, h⟩ := flowTo_eq t (t.pc + 4); rw [nextWord, h]
@[simp] theorem nextWord_ivRead (t : Task)  : (nextWord t).ivRead = t.ivRead := by obtain ⟨_, _, h⟩ := flowTo_eq t (t.pc + 4); rw [nextWord, h]
@[simp] theorem nextWord_ivWritten (t : Task)  : (nextWord t).ivWritten = t.ivWritten := by obtain ⟨_, _, h⟩ := flowTo_eq t (t.pc + 4); rw [nextWord, h]
@[simp] theorem nextWord_ivShadow (t : Task)  : (nextWord t).ivShadow = t.ivShadow := by obtain ⟨_, _, h⟩ := flowTo_eq t (t.pc + 4); rw [nextWord, h]

/-! ## The state -/

@[simp] theorem State.setG_t (s : State) (r : GReg) (v : Word) : (s.setG r v).t = s.t.setG r v := rfl
@[simp] theorem State.setG_power (s : State) (r : GReg) (v : Word) : (s.setG r v).power = s.power := rfl
@[simp] theorem State.setG_cur (s : State) (r : GReg) (v : Word) : (s.setG r v).cur = s.cur := rfl
@[simp] theorem State.setG_ahead (s : State) (r : GReg) (v : Word) : (s.setG r v).ahead = s.ahead := rfl
@[simp] theorem State.setG_c (s : State) (r : GReg) (v : Word) : (s.setG r v).c = s.c := rfl
@[simp] theorem State.setG_tasks (s : State) (r : GReg) (v : Word) : (s.setG r v).tasks = s.tasks := rfl
@[simp] theorem State.setG_cores (s : State) (r : GReg) (v : Word) : (s.setG r v).cores = s.cores := rfl
@[simp] theorem State.setG_mem (s : State) (r : GReg) (v : Word) : (s.setG r v).mem = s.mem := rfl
@[simp] theorem State.setG_bad (s : State) (r : GReg) (v : Word) : (s.setG r v).bad = s.bad := rfl
@[simp] theorem State.setG_dies (s : State) (r : GReg) (v : Word) : (s.setG r v).dies = s.dies := rfl
@[simp] theorem State.setG_package (s : State) (r : GReg) (v : Word) : (s.setG r v).package = s.package := rfl
@[simp] theorem State.setG_funcs (s : State) (r : GReg) (v : Word) : (s.setG r v).funcs = s.funcs := rfl
@[simp] theorem State.setG_objs (s : State) (r : GReg) (v : Word) : (s.setG r v).objs = s.objs := rfl
@[simp] theorem State.setG_syms (s : State) (r : GReg) (v : Word) : (s.setG r v).syms = s.syms := rfl
@[simp] theorem State.setG_nextHandle (s : State) (r : GReg) (v : Word) : (s.setG r v).nextHandle = s.nextHandle := rfl
@[simp] theorem State.setG_loadStatus (s : State) (r : GReg) (v : Word) : (s.setG r v).loadStatus = s.loadStatus := rfl
@[simp] theorem State.setG_images (s : State) (r : GReg) (v : Word) : (s.setG r v).images = s.images := rfl
@[simp] theorem State.setG_candidates (s : State) (r : GReg) (v : Word) : (s.setG r v).candidates = s.candidates := rfl
@[simp] theorem State.setG_launches (s : State) (r : GReg) (v : Word) : (s.setG r v).launches = s.launches := rfl
@[simp] theorem State.setG_readyTasks (s : State) (r : GReg) (v : Word) : (s.setG r v).readyTasks = s.readyTasks := rfl
@[simp] theorem State.setG_nextLaunch (s : State) (r : GReg) (v : Word) : (s.setG r v).nextLaunch = s.nextLaunch := rfl
@[simp] theorem State.setG_lastQueue (s : State) (r : GReg) (v : Word) : (s.setG r v).lastQueue = s.lastQueue := rfl
@[simp] theorem State.setG_saved (s : State) (r : GReg) (v : Word) : (s.setG r v).saved = s.saved := rfl
@[simp] theorem State.setG_domains (s : State) (r : GReg) (v : Word) : (s.setG r v).domains = s.domains := rfl
@[simp] theorem State.setG_pasts (s : State) (r : GReg) (v : Word) : (s.setG r v).pasts = s.pasts := rfl
@[simp] theorem State.setG_tagPasts (s : State) (r : GReg) (v : Word) : (s.setG r v).tagPasts = s.tagPasts := rfl
@[simp] theorem State.setG_waiters (s : State) (r : GReg) (v : Word) : (s.setG r v).waiters = s.waiters := rfl
@[simp] theorem State.setG_arrivals (s : State) (r : GReg) (v : Word) : (s.setG r v).arrivals = s.arrivals := rfl
@[simp] theorem State.setG_releasers (s : State) (r : GReg) (v : Word) : (s.setG r v).releasers = s.releasers := rfl
@[simp] theorem State.setG_ports (s : State) (r : GReg) (v : Word) : (s.setG r v).ports = s.ports := rfl
@[simp] theorem State.setG_failed (s : State) (r : GReg) (v : Word) : (s.setG r v).failed = s.failed := rfl
@[simp] theorem State.setG_noRoute (s : State) (r : GReg) (v : Word) : (s.setG r v).noRoute = s.noRoute := rfl
@[simp] theorem State.setG_hops (s : State) (r : GReg) (v : Word) : (s.setG r v).hops = s.hops := rfl
@[simp] theorem State.setG_unrouted (s : State) (r : GReg) (v : Word) : (s.setG r v).unrouted = s.unrouted := rfl
@[simp] theorem State.setG_mgmt (s : State) (r : GReg) (v : Word) : (s.setG r v).mgmt = s.mgmt := rfl
@[simp] theorem State.setG_trust (s : State) (r : GReg) (v : Word) : (s.setG r v).trust = s.trust := rfl
@[simp] theorem State.setG_cycle (s : State) (r : GReg) (v : Word) : (s.setG r v).cycle = s.cycle := rfl
@[simp] theorem State.setG_timeBase (s : State) (r : GReg) (v : Word) : (s.setG r v).timeBase = s.timeBase := rfl
@[simp] theorem State.setG_timeCycle (s : State) (r : GReg) (v : Word) : (s.setG r v).timeCycle = s.timeCycle := rfl
@[simp] theorem State.setG_slew (s : State) (r : GReg) (v : Word) : (s.setG r v).slew = s.slew := rfl
@[simp] theorem State.setG_timePast (s : State) (r : GReg) (v : Word) : (s.setG r v).timePast = s.timePast := rfl
@[simp] theorem State.setG_tskew (s : State) (r : GReg) (v : Word) : (s.setG r v).tskew = s.tskew := rfl
@[simp] theorem State.setG_slot (s : State) (r : GReg) (v : Word) : (s.setG r v).slot = s.slot := rfl
@[simp] theorem State.setG_pLast (s : State) (r : GReg) (v : Word) : (s.setG r v).pLast = s.pLast := rfl
@[simp] theorem State.setG_partials (s : State) (r : GReg) (v : Word) : (s.setG r v).partials = s.partials := rfl
@[simp] theorem State.setG_otherNow (s : State) (r : GReg) (v : Word) : (s.setG r v).otherNow = s.otherNow := rfl
@[simp] theorem State.setG_otherLast (s : State) (r : GReg) (v : Word) : (s.setG r v).otherLast = s.otherLast := rfl
@[simp] theorem State.setG_weights (s : State) (r : GReg) (v : Word) : (s.setG r v).weights = s.weights := rfl
@[simp] theorem State.setG_claims (s : State) (r : GReg) (v : Word) : (s.setG r v).claims = s.claims := rfl
@[simp] theorem State.setG_startStep (s : State) (r : GReg) (v : Word) : (s.setG r v).startStep = s.startStep := rfl
@[simp] theorem State.setG_invalidations (s : State) (r : GReg) (v : Word) : (s.setG r v).invalidations = s.invalidations := rfl
@[simp] theorem State.setG_lost (s : State) (r : GReg) (v : Word) : (s.setG r v).lost = s.lost := rfl
@[simp] theorem State.setG_requests (s : State) (r : GReg) (v : Word) : (s.setG r v).requests = s.requests := rfl
@[simp] theorem State.setG_input (s : State) (r : GReg) (v : Word) : (s.setG r v).input = s.input := rfl
@[simp] theorem State.setG_plan (s : State) (r : GReg) (v : Word) : (s.setG r v).plan = s.plan := rfl
@[simp] theorem State.setG_agenda (s : State) (r : GReg) (v : Word) : (s.setG r v).agenda = s.agenda := rfl
@[simp] theorem State.setG_turn (s : State) (r : GReg) (v : Word) : (s.setG r v).turn = s.turn := rfl
@[simp] theorem State.setG_free (s : State) (r : GReg) (v : Word) : (s.setG r v).free = s.free := rfl

@[simp] theorem State.seq_t (s : State)  : (s.seq).t = nextWord s.t := rfl
@[simp] theorem State.seq_power (s : State)  : (s.seq).power = s.power := rfl
@[simp] theorem State.seq_cur (s : State)  : (s.seq).cur = s.cur := rfl
@[simp] theorem State.seq_ahead (s : State)  : (s.seq).ahead = s.ahead := rfl
@[simp] theorem State.seq_c (s : State)  : (s.seq).c = s.c := rfl
@[simp] theorem State.seq_tasks (s : State)  : (s.seq).tasks = s.tasks := rfl
@[simp] theorem State.seq_cores (s : State)  : (s.seq).cores = s.cores := rfl
@[simp] theorem State.seq_mem (s : State)  : (s.seq).mem = s.mem := rfl
@[simp] theorem State.seq_bad (s : State)  : (s.seq).bad = s.bad := rfl
@[simp] theorem State.seq_dies (s : State)  : (s.seq).dies = s.dies := rfl
@[simp] theorem State.seq_package (s : State)  : (s.seq).package = s.package := rfl
@[simp] theorem State.seq_funcs (s : State)  : (s.seq).funcs = s.funcs := rfl
@[simp] theorem State.seq_objs (s : State)  : (s.seq).objs = s.objs := rfl
@[simp] theorem State.seq_syms (s : State)  : (s.seq).syms = s.syms := rfl
@[simp] theorem State.seq_nextHandle (s : State)  : (s.seq).nextHandle = s.nextHandle := rfl
@[simp] theorem State.seq_loadStatus (s : State)  : (s.seq).loadStatus = s.loadStatus := rfl
@[simp] theorem State.seq_images (s : State)  : (s.seq).images = s.images := rfl
@[simp] theorem State.seq_candidates (s : State)  : (s.seq).candidates = s.candidates := rfl
@[simp] theorem State.seq_launches (s : State)  : (s.seq).launches = s.launches := rfl
@[simp] theorem State.seq_readyTasks (s : State)  : (s.seq).readyTasks = s.readyTasks := rfl
@[simp] theorem State.seq_nextLaunch (s : State)  : (s.seq).nextLaunch = s.nextLaunch := rfl
@[simp] theorem State.seq_lastQueue (s : State)  : (s.seq).lastQueue = s.lastQueue := rfl
@[simp] theorem State.seq_saved (s : State)  : (s.seq).saved = s.saved := rfl
@[simp] theorem State.seq_domains (s : State)  : (s.seq).domains = s.domains := rfl
@[simp] theorem State.seq_pasts (s : State)  : (s.seq).pasts = s.pasts := rfl
@[simp] theorem State.seq_tagPasts (s : State)  : (s.seq).tagPasts = s.tagPasts := rfl
@[simp] theorem State.seq_waiters (s : State)  : (s.seq).waiters = s.waiters := rfl
@[simp] theorem State.seq_arrivals (s : State)  : (s.seq).arrivals = s.arrivals := rfl
@[simp] theorem State.seq_releasers (s : State)  : (s.seq).releasers = s.releasers := rfl
@[simp] theorem State.seq_ports (s : State)  : (s.seq).ports = s.ports := rfl
@[simp] theorem State.seq_failed (s : State)  : (s.seq).failed = s.failed := rfl
@[simp] theorem State.seq_noRoute (s : State)  : (s.seq).noRoute = s.noRoute := rfl
@[simp] theorem State.seq_hops (s : State)  : (s.seq).hops = s.hops := rfl
@[simp] theorem State.seq_unrouted (s : State)  : (s.seq).unrouted = s.unrouted := rfl
@[simp] theorem State.seq_mgmt (s : State)  : (s.seq).mgmt = s.mgmt := rfl
@[simp] theorem State.seq_trust (s : State)  : (s.seq).trust = s.trust := rfl
@[simp] theorem State.seq_cycle (s : State)  : (s.seq).cycle = s.cycle := rfl
@[simp] theorem State.seq_timeBase (s : State)  : (s.seq).timeBase = s.timeBase := rfl
@[simp] theorem State.seq_timeCycle (s : State)  : (s.seq).timeCycle = s.timeCycle := rfl
@[simp] theorem State.seq_slew (s : State)  : (s.seq).slew = s.slew := rfl
@[simp] theorem State.seq_timePast (s : State)  : (s.seq).timePast = s.timePast := rfl
@[simp] theorem State.seq_tskew (s : State)  : (s.seq).tskew = s.tskew := rfl
@[simp] theorem State.seq_slot (s : State)  : (s.seq).slot = s.slot := rfl
@[simp] theorem State.seq_pLast (s : State)  : (s.seq).pLast = s.pLast := rfl
@[simp] theorem State.seq_partials (s : State)  : (s.seq).partials = s.partials := rfl
@[simp] theorem State.seq_otherNow (s : State)  : (s.seq).otherNow = s.otherNow := rfl
@[simp] theorem State.seq_otherLast (s : State)  : (s.seq).otherLast = s.otherLast := rfl
@[simp] theorem State.seq_weights (s : State)  : (s.seq).weights = s.weights := rfl
@[simp] theorem State.seq_claims (s : State)  : (s.seq).claims = s.claims := rfl
@[simp] theorem State.seq_startStep (s : State)  : (s.seq).startStep = s.startStep := rfl
@[simp] theorem State.seq_invalidations (s : State)  : (s.seq).invalidations = s.invalidations := rfl
@[simp] theorem State.seq_lost (s : State)  : (s.seq).lost = s.lost := rfl
@[simp] theorem State.seq_requests (s : State)  : (s.seq).requests = s.requests := rfl
@[simp] theorem State.seq_input (s : State)  : (s.seq).input = s.input := rfl
@[simp] theorem State.seq_plan (s : State)  : (s.seq).plan = s.plan := rfl
@[simp] theorem State.seq_agenda (s : State)  : (s.seq).agenda = s.agenda := rfl
@[simp] theorem State.seq_turn (s : State)  : (s.seq).turn = s.turn := rfl
@[simp] theorem State.seq_free (s : State)  : (s.seq).free = s.free := rfl

@[simp] theorem State.setStrip_t (s : State) (p : Strip) : (s.setStrip p).t = { s.t with strip := some p } := rfl
@[simp] theorem State.setStrip_power (s : State) (p : Strip) : (s.setStrip p).power = s.power := rfl
@[simp] theorem State.setStrip_cur (s : State) (p : Strip) : (s.setStrip p).cur = s.cur := rfl
@[simp] theorem State.setStrip_ahead (s : State) (p : Strip) : (s.setStrip p).ahead = s.ahead := rfl
@[simp] theorem State.setStrip_c (s : State) (p : Strip) : (s.setStrip p).c = s.c := rfl
@[simp] theorem State.setStrip_tasks (s : State) (p : Strip) : (s.setStrip p).tasks = s.tasks := rfl
@[simp] theorem State.setStrip_cores (s : State) (p : Strip) : (s.setStrip p).cores = s.cores := rfl
@[simp] theorem State.setStrip_mem (s : State) (p : Strip) : (s.setStrip p).mem = s.mem := rfl
@[simp] theorem State.setStrip_bad (s : State) (p : Strip) : (s.setStrip p).bad = s.bad := rfl
@[simp] theorem State.setStrip_dies (s : State) (p : Strip) : (s.setStrip p).dies = s.dies := rfl
@[simp] theorem State.setStrip_package (s : State) (p : Strip) : (s.setStrip p).package = s.package := rfl
@[simp] theorem State.setStrip_funcs (s : State) (p : Strip) : (s.setStrip p).funcs = s.funcs := rfl
@[simp] theorem State.setStrip_objs (s : State) (p : Strip) : (s.setStrip p).objs = s.objs := rfl
@[simp] theorem State.setStrip_syms (s : State) (p : Strip) : (s.setStrip p).syms = s.syms := rfl
@[simp] theorem State.setStrip_nextHandle (s : State) (p : Strip) : (s.setStrip p).nextHandle = s.nextHandle := rfl
@[simp] theorem State.setStrip_loadStatus (s : State) (p : Strip) : (s.setStrip p).loadStatus = s.loadStatus := rfl
@[simp] theorem State.setStrip_images (s : State) (p : Strip) : (s.setStrip p).images = s.images := rfl
@[simp] theorem State.setStrip_candidates (s : State) (p : Strip) : (s.setStrip p).candidates = s.candidates := rfl
@[simp] theorem State.setStrip_launches (s : State) (p : Strip) : (s.setStrip p).launches = s.launches := rfl
@[simp] theorem State.setStrip_readyTasks (s : State) (p : Strip) : (s.setStrip p).readyTasks = s.readyTasks := rfl
@[simp] theorem State.setStrip_nextLaunch (s : State) (p : Strip) : (s.setStrip p).nextLaunch = s.nextLaunch := rfl
@[simp] theorem State.setStrip_lastQueue (s : State) (p : Strip) : (s.setStrip p).lastQueue = s.lastQueue := rfl
@[simp] theorem State.setStrip_saved (s : State) (p : Strip) : (s.setStrip p).saved = s.saved := rfl
@[simp] theorem State.setStrip_domains (s : State) (p : Strip) : (s.setStrip p).domains = s.domains := rfl
@[simp] theorem State.setStrip_pasts (s : State) (p : Strip) : (s.setStrip p).pasts = s.pasts := rfl
@[simp] theorem State.setStrip_tagPasts (s : State) (p : Strip) : (s.setStrip p).tagPasts = s.tagPasts := rfl
@[simp] theorem State.setStrip_waiters (s : State) (p : Strip) : (s.setStrip p).waiters = s.waiters := rfl
@[simp] theorem State.setStrip_arrivals (s : State) (p : Strip) : (s.setStrip p).arrivals = s.arrivals := rfl
@[simp] theorem State.setStrip_releasers (s : State) (p : Strip) : (s.setStrip p).releasers = s.releasers := rfl
@[simp] theorem State.setStrip_ports (s : State) (p : Strip) : (s.setStrip p).ports = s.ports := rfl
@[simp] theorem State.setStrip_failed (s : State) (p : Strip) : (s.setStrip p).failed = s.failed := rfl
@[simp] theorem State.setStrip_noRoute (s : State) (p : Strip) : (s.setStrip p).noRoute = s.noRoute := rfl
@[simp] theorem State.setStrip_hops (s : State) (p : Strip) : (s.setStrip p).hops = s.hops := rfl
@[simp] theorem State.setStrip_unrouted (s : State) (p : Strip) : (s.setStrip p).unrouted = s.unrouted := rfl
@[simp] theorem State.setStrip_mgmt (s : State) (p : Strip) : (s.setStrip p).mgmt = s.mgmt := rfl
@[simp] theorem State.setStrip_trust (s : State) (p : Strip) : (s.setStrip p).trust = s.trust := rfl
@[simp] theorem State.setStrip_cycle (s : State) (p : Strip) : (s.setStrip p).cycle = s.cycle := rfl
@[simp] theorem State.setStrip_timeBase (s : State) (p : Strip) : (s.setStrip p).timeBase = s.timeBase := rfl
@[simp] theorem State.setStrip_timeCycle (s : State) (p : Strip) : (s.setStrip p).timeCycle = s.timeCycle := rfl
@[simp] theorem State.setStrip_slew (s : State) (p : Strip) : (s.setStrip p).slew = s.slew := rfl
@[simp] theorem State.setStrip_timePast (s : State) (p : Strip) : (s.setStrip p).timePast = s.timePast := rfl
@[simp] theorem State.setStrip_tskew (s : State) (p : Strip) : (s.setStrip p).tskew = s.tskew := rfl
@[simp] theorem State.setStrip_slot (s : State) (p : Strip) : (s.setStrip p).slot = s.slot := rfl
@[simp] theorem State.setStrip_pLast (s : State) (p : Strip) : (s.setStrip p).pLast = s.pLast := rfl
@[simp] theorem State.setStrip_partials (s : State) (p : Strip) : (s.setStrip p).partials = s.partials := rfl
@[simp] theorem State.setStrip_otherNow (s : State) (p : Strip) : (s.setStrip p).otherNow = s.otherNow := rfl
@[simp] theorem State.setStrip_otherLast (s : State) (p : Strip) : (s.setStrip p).otherLast = s.otherLast := rfl
@[simp] theorem State.setStrip_weights (s : State) (p : Strip) : (s.setStrip p).weights = s.weights := rfl
@[simp] theorem State.setStrip_claims (s : State) (p : Strip) : (s.setStrip p).claims = s.claims := rfl
@[simp] theorem State.setStrip_startStep (s : State) (p : Strip) : (s.setStrip p).startStep = s.startStep := rfl
@[simp] theorem State.setStrip_invalidations (s : State) (p : Strip) : (s.setStrip p).invalidations = s.invalidations := rfl
@[simp] theorem State.setStrip_lost (s : State) (p : Strip) : (s.setStrip p).lost = s.lost := rfl
@[simp] theorem State.setStrip_requests (s : State) (p : Strip) : (s.setStrip p).requests = s.requests := rfl
@[simp] theorem State.setStrip_input (s : State) (p : Strip) : (s.setStrip p).input = s.input := rfl
@[simp] theorem State.setStrip_plan (s : State) (p : Strip) : (s.setStrip p).plan = s.plan := rfl
@[simp] theorem State.setStrip_agenda (s : State) (p : Strip) : (s.setStrip p).agenda = s.agenda := rfl
@[simp] theorem State.setStrip_turn (s : State) (p : Strip) : (s.setStrip p).turn = s.turn := rfl
@[simp] theorem State.setStrip_free (s : State) (p : Strip) : (s.setStrip p).free = s.free := rfl

@[simp] theorem State.setLanes_c (s : State) (l : Lanes) : (s.setLanes l).c = { s.c with lanes := l } := rfl
@[simp] theorem State.setLanes_power (s : State) (l : Lanes) : (s.setLanes l).power = s.power := rfl
@[simp] theorem State.setLanes_cur (s : State) (l : Lanes) : (s.setLanes l).cur = s.cur := rfl
@[simp] theorem State.setLanes_ahead (s : State) (l : Lanes) : (s.setLanes l).ahead = s.ahead := rfl
@[simp] theorem State.setLanes_t (s : State) (l : Lanes) : (s.setLanes l).t = s.t := rfl
@[simp] theorem State.setLanes_tasks (s : State) (l : Lanes) : (s.setLanes l).tasks = s.tasks := rfl
@[simp] theorem State.setLanes_cores (s : State) (l : Lanes) : (s.setLanes l).cores = s.cores := rfl
@[simp] theorem State.setLanes_mem (s : State) (l : Lanes) : (s.setLanes l).mem = s.mem := rfl
@[simp] theorem State.setLanes_bad (s : State) (l : Lanes) : (s.setLanes l).bad = s.bad := rfl
@[simp] theorem State.setLanes_dies (s : State) (l : Lanes) : (s.setLanes l).dies = s.dies := rfl
@[simp] theorem State.setLanes_package (s : State) (l : Lanes) : (s.setLanes l).package = s.package := rfl
@[simp] theorem State.setLanes_funcs (s : State) (l : Lanes) : (s.setLanes l).funcs = s.funcs := rfl
@[simp] theorem State.setLanes_objs (s : State) (l : Lanes) : (s.setLanes l).objs = s.objs := rfl
@[simp] theorem State.setLanes_syms (s : State) (l : Lanes) : (s.setLanes l).syms = s.syms := rfl
@[simp] theorem State.setLanes_nextHandle (s : State) (l : Lanes) : (s.setLanes l).nextHandle = s.nextHandle := rfl
@[simp] theorem State.setLanes_loadStatus (s : State) (l : Lanes) : (s.setLanes l).loadStatus = s.loadStatus := rfl
@[simp] theorem State.setLanes_images (s : State) (l : Lanes) : (s.setLanes l).images = s.images := rfl
@[simp] theorem State.setLanes_candidates (s : State) (l : Lanes) : (s.setLanes l).candidates = s.candidates := rfl
@[simp] theorem State.setLanes_launches (s : State) (l : Lanes) : (s.setLanes l).launches = s.launches := rfl
@[simp] theorem State.setLanes_readyTasks (s : State) (l : Lanes) : (s.setLanes l).readyTasks = s.readyTasks := rfl
@[simp] theorem State.setLanes_nextLaunch (s : State) (l : Lanes) : (s.setLanes l).nextLaunch = s.nextLaunch := rfl
@[simp] theorem State.setLanes_lastQueue (s : State) (l : Lanes) : (s.setLanes l).lastQueue = s.lastQueue := rfl
@[simp] theorem State.setLanes_saved (s : State) (l : Lanes) : (s.setLanes l).saved = s.saved := rfl
@[simp] theorem State.setLanes_domains (s : State) (l : Lanes) : (s.setLanes l).domains = s.domains := rfl
@[simp] theorem State.setLanes_pasts (s : State) (l : Lanes) : (s.setLanes l).pasts = s.pasts := rfl
@[simp] theorem State.setLanes_tagPasts (s : State) (l : Lanes) : (s.setLanes l).tagPasts = s.tagPasts := rfl
@[simp] theorem State.setLanes_waiters (s : State) (l : Lanes) : (s.setLanes l).waiters = s.waiters := rfl
@[simp] theorem State.setLanes_arrivals (s : State) (l : Lanes) : (s.setLanes l).arrivals = s.arrivals := rfl
@[simp] theorem State.setLanes_releasers (s : State) (l : Lanes) : (s.setLanes l).releasers = s.releasers := rfl
@[simp] theorem State.setLanes_ports (s : State) (l : Lanes) : (s.setLanes l).ports = s.ports := rfl
@[simp] theorem State.setLanes_failed (s : State) (l : Lanes) : (s.setLanes l).failed = s.failed := rfl
@[simp] theorem State.setLanes_noRoute (s : State) (l : Lanes) : (s.setLanes l).noRoute = s.noRoute := rfl
@[simp] theorem State.setLanes_hops (s : State) (l : Lanes) : (s.setLanes l).hops = s.hops := rfl
@[simp] theorem State.setLanes_unrouted (s : State) (l : Lanes) : (s.setLanes l).unrouted = s.unrouted := rfl
@[simp] theorem State.setLanes_mgmt (s : State) (l : Lanes) : (s.setLanes l).mgmt = s.mgmt := rfl
@[simp] theorem State.setLanes_trust (s : State) (l : Lanes) : (s.setLanes l).trust = s.trust := rfl
@[simp] theorem State.setLanes_cycle (s : State) (l : Lanes) : (s.setLanes l).cycle = s.cycle := rfl
@[simp] theorem State.setLanes_timeBase (s : State) (l : Lanes) : (s.setLanes l).timeBase = s.timeBase := rfl
@[simp] theorem State.setLanes_timeCycle (s : State) (l : Lanes) : (s.setLanes l).timeCycle = s.timeCycle := rfl
@[simp] theorem State.setLanes_slew (s : State) (l : Lanes) : (s.setLanes l).slew = s.slew := rfl
@[simp] theorem State.setLanes_timePast (s : State) (l : Lanes) : (s.setLanes l).timePast = s.timePast := rfl
@[simp] theorem State.setLanes_tskew (s : State) (l : Lanes) : (s.setLanes l).tskew = s.tskew := rfl
@[simp] theorem State.setLanes_slot (s : State) (l : Lanes) : (s.setLanes l).slot = s.slot := rfl
@[simp] theorem State.setLanes_pLast (s : State) (l : Lanes) : (s.setLanes l).pLast = s.pLast := rfl
@[simp] theorem State.setLanes_partials (s : State) (l : Lanes) : (s.setLanes l).partials = s.partials := rfl
@[simp] theorem State.setLanes_otherNow (s : State) (l : Lanes) : (s.setLanes l).otherNow = s.otherNow := rfl
@[simp] theorem State.setLanes_otherLast (s : State) (l : Lanes) : (s.setLanes l).otherLast = s.otherLast := rfl
@[simp] theorem State.setLanes_weights (s : State) (l : Lanes) : (s.setLanes l).weights = s.weights := rfl
@[simp] theorem State.setLanes_claims (s : State) (l : Lanes) : (s.setLanes l).claims = s.claims := rfl
@[simp] theorem State.setLanes_startStep (s : State) (l : Lanes) : (s.setLanes l).startStep = s.startStep := rfl
@[simp] theorem State.setLanes_invalidations (s : State) (l : Lanes) : (s.setLanes l).invalidations = s.invalidations := rfl
@[simp] theorem State.setLanes_lost (s : State) (l : Lanes) : (s.setLanes l).lost = s.lost := rfl
@[simp] theorem State.setLanes_requests (s : State) (l : Lanes) : (s.setLanes l).requests = s.requests := rfl
@[simp] theorem State.setLanes_input (s : State) (l : Lanes) : (s.setLanes l).input = s.input := rfl
@[simp] theorem State.setLanes_plan (s : State) (l : Lanes) : (s.setLanes l).plan = s.plan := rfl
@[simp] theorem State.setLanes_agenda (s : State) (l : Lanes) : (s.setLanes l).agenda = s.agenda := rfl
@[simp] theorem State.setLanes_turn (s : State) (l : Lanes) : (s.setLanes l).turn = s.turn := rfl
@[simp] theorem State.setLanes_free (s : State) (l : Lanes) : (s.setLanes l).free = s.free := rfl

@[simp] theorem State.setVr_c (s : State) (m : Modes) (n v top : Nat) : (s.setVr m n v top).c = { s.c with lanes := s.c.lanes.setV (phys m n) (BitVec.ofNat 32768 v) top } := rfl
@[simp] theorem State.setVr_power (s : State) (m : Modes) (n v top : Nat) : (s.setVr m n v top).power = s.power := rfl
@[simp] theorem State.setVr_cur (s : State) (m : Modes) (n v top : Nat) : (s.setVr m n v top).cur = s.cur := rfl
@[simp] theorem State.setVr_ahead (s : State) (m : Modes) (n v top : Nat) : (s.setVr m n v top).ahead = s.ahead := rfl
@[simp] theorem State.setVr_t (s : State) (m : Modes) (n v top : Nat) : (s.setVr m n v top).t = s.t := rfl
@[simp] theorem State.setVr_tasks (s : State) (m : Modes) (n v top : Nat) : (s.setVr m n v top).tasks = s.tasks := rfl
@[simp] theorem State.setVr_cores (s : State) (m : Modes) (n v top : Nat) : (s.setVr m n v top).cores = s.cores := rfl
@[simp] theorem State.setVr_mem (s : State) (m : Modes) (n v top : Nat) : (s.setVr m n v top).mem = s.mem := rfl
@[simp] theorem State.setVr_bad (s : State) (m : Modes) (n v top : Nat) : (s.setVr m n v top).bad = s.bad := rfl
@[simp] theorem State.setVr_dies (s : State) (m : Modes) (n v top : Nat) : (s.setVr m n v top).dies = s.dies := rfl
@[simp] theorem State.setVr_package (s : State) (m : Modes) (n v top : Nat) : (s.setVr m n v top).package = s.package := rfl
@[simp] theorem State.setVr_funcs (s : State) (m : Modes) (n v top : Nat) : (s.setVr m n v top).funcs = s.funcs := rfl
@[simp] theorem State.setVr_objs (s : State) (m : Modes) (n v top : Nat) : (s.setVr m n v top).objs = s.objs := rfl
@[simp] theorem State.setVr_syms (s : State) (m : Modes) (n v top : Nat) : (s.setVr m n v top).syms = s.syms := rfl
@[simp] theorem State.setVr_nextHandle (s : State) (m : Modes) (n v top : Nat) : (s.setVr m n v top).nextHandle = s.nextHandle := rfl
@[simp] theorem State.setVr_loadStatus (s : State) (m : Modes) (n v top : Nat) : (s.setVr m n v top).loadStatus = s.loadStatus := rfl
@[simp] theorem State.setVr_images (s : State) (m : Modes) (n v top : Nat) : (s.setVr m n v top).images = s.images := rfl
@[simp] theorem State.setVr_candidates (s : State) (m : Modes) (n v top : Nat) : (s.setVr m n v top).candidates = s.candidates := rfl
@[simp] theorem State.setVr_launches (s : State) (m : Modes) (n v top : Nat) : (s.setVr m n v top).launches = s.launches := rfl
@[simp] theorem State.setVr_readyTasks (s : State) (m : Modes) (n v top : Nat) : (s.setVr m n v top).readyTasks = s.readyTasks := rfl
@[simp] theorem State.setVr_nextLaunch (s : State) (m : Modes) (n v top : Nat) : (s.setVr m n v top).nextLaunch = s.nextLaunch := rfl
@[simp] theorem State.setVr_lastQueue (s : State) (m : Modes) (n v top : Nat) : (s.setVr m n v top).lastQueue = s.lastQueue := rfl
@[simp] theorem State.setVr_saved (s : State) (m : Modes) (n v top : Nat) : (s.setVr m n v top).saved = s.saved := rfl
@[simp] theorem State.setVr_domains (s : State) (m : Modes) (n v top : Nat) : (s.setVr m n v top).domains = s.domains := rfl
@[simp] theorem State.setVr_pasts (s : State) (m : Modes) (n v top : Nat) : (s.setVr m n v top).pasts = s.pasts := rfl
@[simp] theorem State.setVr_tagPasts (s : State) (m : Modes) (n v top : Nat) : (s.setVr m n v top).tagPasts = s.tagPasts := rfl
@[simp] theorem State.setVr_waiters (s : State) (m : Modes) (n v top : Nat) : (s.setVr m n v top).waiters = s.waiters := rfl
@[simp] theorem State.setVr_arrivals (s : State) (m : Modes) (n v top : Nat) : (s.setVr m n v top).arrivals = s.arrivals := rfl
@[simp] theorem State.setVr_releasers (s : State) (m : Modes) (n v top : Nat) : (s.setVr m n v top).releasers = s.releasers := rfl
@[simp] theorem State.setVr_ports (s : State) (m : Modes) (n v top : Nat) : (s.setVr m n v top).ports = s.ports := rfl
@[simp] theorem State.setVr_failed (s : State) (m : Modes) (n v top : Nat) : (s.setVr m n v top).failed = s.failed := rfl
@[simp] theorem State.setVr_noRoute (s : State) (m : Modes) (n v top : Nat) : (s.setVr m n v top).noRoute = s.noRoute := rfl
@[simp] theorem State.setVr_hops (s : State) (m : Modes) (n v top : Nat) : (s.setVr m n v top).hops = s.hops := rfl
@[simp] theorem State.setVr_unrouted (s : State) (m : Modes) (n v top : Nat) : (s.setVr m n v top).unrouted = s.unrouted := rfl
@[simp] theorem State.setVr_mgmt (s : State) (m : Modes) (n v top : Nat) : (s.setVr m n v top).mgmt = s.mgmt := rfl
@[simp] theorem State.setVr_trust (s : State) (m : Modes) (n v top : Nat) : (s.setVr m n v top).trust = s.trust := rfl
@[simp] theorem State.setVr_cycle (s : State) (m : Modes) (n v top : Nat) : (s.setVr m n v top).cycle = s.cycle := rfl
@[simp] theorem State.setVr_timeBase (s : State) (m : Modes) (n v top : Nat) : (s.setVr m n v top).timeBase = s.timeBase := rfl
@[simp] theorem State.setVr_timeCycle (s : State) (m : Modes) (n v top : Nat) : (s.setVr m n v top).timeCycle = s.timeCycle := rfl
@[simp] theorem State.setVr_slew (s : State) (m : Modes) (n v top : Nat) : (s.setVr m n v top).slew = s.slew := rfl
@[simp] theorem State.setVr_timePast (s : State) (m : Modes) (n v top : Nat) : (s.setVr m n v top).timePast = s.timePast := rfl
@[simp] theorem State.setVr_tskew (s : State) (m : Modes) (n v top : Nat) : (s.setVr m n v top).tskew = s.tskew := rfl
@[simp] theorem State.setVr_slot (s : State) (m : Modes) (n v top : Nat) : (s.setVr m n v top).slot = s.slot := rfl
@[simp] theorem State.setVr_pLast (s : State) (m : Modes) (n v top : Nat) : (s.setVr m n v top).pLast = s.pLast := rfl
@[simp] theorem State.setVr_partials (s : State) (m : Modes) (n v top : Nat) : (s.setVr m n v top).partials = s.partials := rfl
@[simp] theorem State.setVr_otherNow (s : State) (m : Modes) (n v top : Nat) : (s.setVr m n v top).otherNow = s.otherNow := rfl
@[simp] theorem State.setVr_otherLast (s : State) (m : Modes) (n v top : Nat) : (s.setVr m n v top).otherLast = s.otherLast := rfl
@[simp] theorem State.setVr_weights (s : State) (m : Modes) (n v top : Nat) : (s.setVr m n v top).weights = s.weights := rfl
@[simp] theorem State.setVr_claims (s : State) (m : Modes) (n v top : Nat) : (s.setVr m n v top).claims = s.claims := rfl
@[simp] theorem State.setVr_startStep (s : State) (m : Modes) (n v top : Nat) : (s.setVr m n v top).startStep = s.startStep := rfl
@[simp] theorem State.setVr_invalidations (s : State) (m : Modes) (n v top : Nat) : (s.setVr m n v top).invalidations = s.invalidations := rfl
@[simp] theorem State.setVr_lost (s : State) (m : Modes) (n v top : Nat) : (s.setVr m n v top).lost = s.lost := rfl
@[simp] theorem State.setVr_requests (s : State) (m : Modes) (n v top : Nat) : (s.setVr m n v top).requests = s.requests := rfl
@[simp] theorem State.setVr_input (s : State) (m : Modes) (n v top : Nat) : (s.setVr m n v top).input = s.input := rfl
@[simp] theorem State.setVr_plan (s : State) (m : Modes) (n v top : Nat) : (s.setVr m n v top).plan = s.plan := rfl
@[simp] theorem State.setVr_agenda (s : State) (m : Modes) (n v top : Nat) : (s.setVr m n v top).agenda = s.agenda := rfl
@[simp] theorem State.setVr_turn (s : State) (m : Modes) (n v top : Nat) : (s.setVr m n v top).turn = s.turn := rfl
@[simp] theorem State.setVr_free (s : State) (m : Modes) (n v top : Nat) : (s.setVr m n v top).free = s.free := rfl

@[simp] theorem State.stall_t (s : State) (n : Nat) : (s.stall n).t = { s.t with cycle := s.t.cycle + (n - 1) } := rfl
@[simp] theorem State.stall_power (s : State) (n : Nat) : (s.stall n).power = s.power := rfl
@[simp] theorem State.stall_cur (s : State) (n : Nat) : (s.stall n).cur = s.cur := rfl
@[simp] theorem State.stall_ahead (s : State) (n : Nat) : (s.stall n).ahead = s.ahead := rfl
@[simp] theorem State.stall_c (s : State) (n : Nat) : (s.stall n).c = s.c := rfl
@[simp] theorem State.stall_tasks (s : State) (n : Nat) : (s.stall n).tasks = s.tasks := rfl
@[simp] theorem State.stall_cores (s : State) (n : Nat) : (s.stall n).cores = s.cores := rfl
@[simp] theorem State.stall_mem (s : State) (n : Nat) : (s.stall n).mem = s.mem := rfl
@[simp] theorem State.stall_bad (s : State) (n : Nat) : (s.stall n).bad = s.bad := rfl
@[simp] theorem State.stall_dies (s : State) (n : Nat) : (s.stall n).dies = s.dies := rfl
@[simp] theorem State.stall_package (s : State) (n : Nat) : (s.stall n).package = s.package := rfl
@[simp] theorem State.stall_funcs (s : State) (n : Nat) : (s.stall n).funcs = s.funcs := rfl
@[simp] theorem State.stall_objs (s : State) (n : Nat) : (s.stall n).objs = s.objs := rfl
@[simp] theorem State.stall_syms (s : State) (n : Nat) : (s.stall n).syms = s.syms := rfl
@[simp] theorem State.stall_nextHandle (s : State) (n : Nat) : (s.stall n).nextHandle = s.nextHandle := rfl
@[simp] theorem State.stall_loadStatus (s : State) (n : Nat) : (s.stall n).loadStatus = s.loadStatus := rfl
@[simp] theorem State.stall_images (s : State) (n : Nat) : (s.stall n).images = s.images := rfl
@[simp] theorem State.stall_candidates (s : State) (n : Nat) : (s.stall n).candidates = s.candidates := rfl
@[simp] theorem State.stall_launches (s : State) (n : Nat) : (s.stall n).launches = s.launches := rfl
@[simp] theorem State.stall_readyTasks (s : State) (n : Nat) : (s.stall n).readyTasks = s.readyTasks := rfl
@[simp] theorem State.stall_nextLaunch (s : State) (n : Nat) : (s.stall n).nextLaunch = s.nextLaunch := rfl
@[simp] theorem State.stall_lastQueue (s : State) (n : Nat) : (s.stall n).lastQueue = s.lastQueue := rfl
@[simp] theorem State.stall_saved (s : State) (n : Nat) : (s.stall n).saved = s.saved := rfl
@[simp] theorem State.stall_domains (s : State) (n : Nat) : (s.stall n).domains = s.domains := rfl
@[simp] theorem State.stall_pasts (s : State) (n : Nat) : (s.stall n).pasts = s.pasts := rfl
@[simp] theorem State.stall_tagPasts (s : State) (n : Nat) : (s.stall n).tagPasts = s.tagPasts := rfl
@[simp] theorem State.stall_waiters (s : State) (n : Nat) : (s.stall n).waiters = s.waiters := rfl
@[simp] theorem State.stall_arrivals (s : State) (n : Nat) : (s.stall n).arrivals = s.arrivals := rfl
@[simp] theorem State.stall_releasers (s : State) (n : Nat) : (s.stall n).releasers = s.releasers := rfl
@[simp] theorem State.stall_ports (s : State) (n : Nat) : (s.stall n).ports = s.ports := rfl
@[simp] theorem State.stall_failed (s : State) (n : Nat) : (s.stall n).failed = s.failed := rfl
@[simp] theorem State.stall_noRoute (s : State) (n : Nat) : (s.stall n).noRoute = s.noRoute := rfl
@[simp] theorem State.stall_hops (s : State) (n : Nat) : (s.stall n).hops = s.hops := rfl
@[simp] theorem State.stall_unrouted (s : State) (n : Nat) : (s.stall n).unrouted = s.unrouted := rfl
@[simp] theorem State.stall_mgmt (s : State) (n : Nat) : (s.stall n).mgmt = s.mgmt := rfl
@[simp] theorem State.stall_trust (s : State) (n : Nat) : (s.stall n).trust = s.trust := rfl
@[simp] theorem State.stall_cycle (s : State) (n : Nat) : (s.stall n).cycle = s.cycle := rfl
@[simp] theorem State.stall_timeBase (s : State) (n : Nat) : (s.stall n).timeBase = s.timeBase := rfl
@[simp] theorem State.stall_timeCycle (s : State) (n : Nat) : (s.stall n).timeCycle = s.timeCycle := rfl
@[simp] theorem State.stall_slew (s : State) (n : Nat) : (s.stall n).slew = s.slew := rfl
@[simp] theorem State.stall_timePast (s : State) (n : Nat) : (s.stall n).timePast = s.timePast := rfl
@[simp] theorem State.stall_tskew (s : State) (n : Nat) : (s.stall n).tskew = s.tskew := rfl
@[simp] theorem State.stall_slot (s : State) (n : Nat) : (s.stall n).slot = s.slot := rfl
@[simp] theorem State.stall_pLast (s : State) (n : Nat) : (s.stall n).pLast = s.pLast := rfl
@[simp] theorem State.stall_partials (s : State) (n : Nat) : (s.stall n).partials = s.partials := rfl
@[simp] theorem State.stall_otherNow (s : State) (n : Nat) : (s.stall n).otherNow = s.otherNow := rfl
@[simp] theorem State.stall_otherLast (s : State) (n : Nat) : (s.stall n).otherLast = s.otherLast := rfl
@[simp] theorem State.stall_weights (s : State) (n : Nat) : (s.stall n).weights = s.weights := rfl
@[simp] theorem State.stall_claims (s : State) (n : Nat) : (s.stall n).claims = s.claims := rfl
@[simp] theorem State.stall_startStep (s : State) (n : Nat) : (s.stall n).startStep = s.startStep := rfl
@[simp] theorem State.stall_invalidations (s : State) (n : Nat) : (s.stall n).invalidations = s.invalidations := rfl
@[simp] theorem State.stall_lost (s : State) (n : Nat) : (s.stall n).lost = s.lost := rfl
@[simp] theorem State.stall_requests (s : State) (n : Nat) : (s.stall n).requests = s.requests := rfl
@[simp] theorem State.stall_input (s : State) (n : Nat) : (s.stall n).input = s.input := rfl
@[simp] theorem State.stall_plan (s : State) (n : Nat) : (s.stall n).plan = s.plan := rfl
@[simp] theorem State.stall_agenda (s : State) (n : Nat) : (s.stall n).agenda = s.agenda := rfl
@[simp] theorem State.stall_turn (s : State) (n : Nat) : (s.stall n).turn = s.turn := rfl
@[simp] theorem State.stall_free (s : State) (n : Nat) : (s.stall n).free = s.free := rfl

@[simp] theorem State.lateBy_power (s : State) (r : GReg) (n : Nat) : (s.lateBy r n).power = s.power := by unfold State.lateBy; split <;> rfl
@[simp] theorem State.lateBy_cur (s : State) (r : GReg) (n : Nat) : (s.lateBy r n).cur = s.cur := by unfold State.lateBy; split <;> rfl
@[simp] theorem State.lateBy_ahead (s : State) (r : GReg) (n : Nat) : (s.lateBy r n).ahead = s.ahead := by unfold State.lateBy; split <;> rfl
@[simp] theorem State.lateBy_c (s : State) (r : GReg) (n : Nat) : (s.lateBy r n).c = s.c := by unfold State.lateBy; split <;> rfl
@[simp] theorem State.lateBy_tasks (s : State) (r : GReg) (n : Nat) : (s.lateBy r n).tasks = s.tasks := by unfold State.lateBy; split <;> rfl
@[simp] theorem State.lateBy_cores (s : State) (r : GReg) (n : Nat) : (s.lateBy r n).cores = s.cores := by unfold State.lateBy; split <;> rfl
@[simp] theorem State.lateBy_mem (s : State) (r : GReg) (n : Nat) : (s.lateBy r n).mem = s.mem := by unfold State.lateBy; split <;> rfl
@[simp] theorem State.lateBy_bad (s : State) (r : GReg) (n : Nat) : (s.lateBy r n).bad = s.bad := by unfold State.lateBy; split <;> rfl
@[simp] theorem State.lateBy_dies (s : State) (r : GReg) (n : Nat) : (s.lateBy r n).dies = s.dies := by unfold State.lateBy; split <;> rfl
@[simp] theorem State.lateBy_package (s : State) (r : GReg) (n : Nat) : (s.lateBy r n).package = s.package := by unfold State.lateBy; split <;> rfl
@[simp] theorem State.lateBy_funcs (s : State) (r : GReg) (n : Nat) : (s.lateBy r n).funcs = s.funcs := by unfold State.lateBy; split <;> rfl
@[simp] theorem State.lateBy_objs (s : State) (r : GReg) (n : Nat) : (s.lateBy r n).objs = s.objs := by unfold State.lateBy; split <;> rfl
@[simp] theorem State.lateBy_syms (s : State) (r : GReg) (n : Nat) : (s.lateBy r n).syms = s.syms := by unfold State.lateBy; split <;> rfl
@[simp] theorem State.lateBy_nextHandle (s : State) (r : GReg) (n : Nat) : (s.lateBy r n).nextHandle = s.nextHandle := by unfold State.lateBy; split <;> rfl
@[simp] theorem State.lateBy_loadStatus (s : State) (r : GReg) (n : Nat) : (s.lateBy r n).loadStatus = s.loadStatus := by unfold State.lateBy; split <;> rfl
@[simp] theorem State.lateBy_images (s : State) (r : GReg) (n : Nat) : (s.lateBy r n).images = s.images := by unfold State.lateBy; split <;> rfl
@[simp] theorem State.lateBy_candidates (s : State) (r : GReg) (n : Nat) : (s.lateBy r n).candidates = s.candidates := by unfold State.lateBy; split <;> rfl
@[simp] theorem State.lateBy_launches (s : State) (r : GReg) (n : Nat) : (s.lateBy r n).launches = s.launches := by unfold State.lateBy; split <;> rfl
@[simp] theorem State.lateBy_readyTasks (s : State) (r : GReg) (n : Nat) : (s.lateBy r n).readyTasks = s.readyTasks := by unfold State.lateBy; split <;> rfl
@[simp] theorem State.lateBy_nextLaunch (s : State) (r : GReg) (n : Nat) : (s.lateBy r n).nextLaunch = s.nextLaunch := by unfold State.lateBy; split <;> rfl
@[simp] theorem State.lateBy_lastQueue (s : State) (r : GReg) (n : Nat) : (s.lateBy r n).lastQueue = s.lastQueue := by unfold State.lateBy; split <;> rfl
@[simp] theorem State.lateBy_saved (s : State) (r : GReg) (n : Nat) : (s.lateBy r n).saved = s.saved := by unfold State.lateBy; split <;> rfl
@[simp] theorem State.lateBy_domains (s : State) (r : GReg) (n : Nat) : (s.lateBy r n).domains = s.domains := by unfold State.lateBy; split <;> rfl
@[simp] theorem State.lateBy_pasts (s : State) (r : GReg) (n : Nat) : (s.lateBy r n).pasts = s.pasts := by unfold State.lateBy; split <;> rfl
@[simp] theorem State.lateBy_tagPasts (s : State) (r : GReg) (n : Nat) : (s.lateBy r n).tagPasts = s.tagPasts := by unfold State.lateBy; split <;> rfl
@[simp] theorem State.lateBy_waiters (s : State) (r : GReg) (n : Nat) : (s.lateBy r n).waiters = s.waiters := by unfold State.lateBy; split <;> rfl
@[simp] theorem State.lateBy_arrivals (s : State) (r : GReg) (n : Nat) : (s.lateBy r n).arrivals = s.arrivals := by unfold State.lateBy; split <;> rfl
@[simp] theorem State.lateBy_releasers (s : State) (r : GReg) (n : Nat) : (s.lateBy r n).releasers = s.releasers := by unfold State.lateBy; split <;> rfl
@[simp] theorem State.lateBy_ports (s : State) (r : GReg) (n : Nat) : (s.lateBy r n).ports = s.ports := by unfold State.lateBy; split <;> rfl
@[simp] theorem State.lateBy_failed (s : State) (r : GReg) (n : Nat) : (s.lateBy r n).failed = s.failed := by unfold State.lateBy; split <;> rfl
@[simp] theorem State.lateBy_noRoute (s : State) (r : GReg) (n : Nat) : (s.lateBy r n).noRoute = s.noRoute := by unfold State.lateBy; split <;> rfl
@[simp] theorem State.lateBy_hops (s : State) (r : GReg) (n : Nat) : (s.lateBy r n).hops = s.hops := by unfold State.lateBy; split <;> rfl
@[simp] theorem State.lateBy_unrouted (s : State) (r : GReg) (n : Nat) : (s.lateBy r n).unrouted = s.unrouted := by unfold State.lateBy; split <;> rfl
@[simp] theorem State.lateBy_mgmt (s : State) (r : GReg) (n : Nat) : (s.lateBy r n).mgmt = s.mgmt := by unfold State.lateBy; split <;> rfl
@[simp] theorem State.lateBy_trust (s : State) (r : GReg) (n : Nat) : (s.lateBy r n).trust = s.trust := by unfold State.lateBy; split <;> rfl
@[simp] theorem State.lateBy_cycle (s : State) (r : GReg) (n : Nat) : (s.lateBy r n).cycle = s.cycle := by unfold State.lateBy; split <;> rfl
@[simp] theorem State.lateBy_timeBase (s : State) (r : GReg) (n : Nat) : (s.lateBy r n).timeBase = s.timeBase := by unfold State.lateBy; split <;> rfl
@[simp] theorem State.lateBy_timeCycle (s : State) (r : GReg) (n : Nat) : (s.lateBy r n).timeCycle = s.timeCycle := by unfold State.lateBy; split <;> rfl
@[simp] theorem State.lateBy_slew (s : State) (r : GReg) (n : Nat) : (s.lateBy r n).slew = s.slew := by unfold State.lateBy; split <;> rfl
@[simp] theorem State.lateBy_timePast (s : State) (r : GReg) (n : Nat) : (s.lateBy r n).timePast = s.timePast := by unfold State.lateBy; split <;> rfl
@[simp] theorem State.lateBy_tskew (s : State) (r : GReg) (n : Nat) : (s.lateBy r n).tskew = s.tskew := by unfold State.lateBy; split <;> rfl
@[simp] theorem State.lateBy_slot (s : State) (r : GReg) (n : Nat) : (s.lateBy r n).slot = s.slot := by unfold State.lateBy; split <;> rfl
@[simp] theorem State.lateBy_pLast (s : State) (r : GReg) (n : Nat) : (s.lateBy r n).pLast = s.pLast := by unfold State.lateBy; split <;> rfl
@[simp] theorem State.lateBy_partials (s : State) (r : GReg) (n : Nat) : (s.lateBy r n).partials = s.partials := by unfold State.lateBy; split <;> rfl
@[simp] theorem State.lateBy_otherNow (s : State) (r : GReg) (n : Nat) : (s.lateBy r n).otherNow = s.otherNow := by unfold State.lateBy; split <;> rfl
@[simp] theorem State.lateBy_otherLast (s : State) (r : GReg) (n : Nat) : (s.lateBy r n).otherLast = s.otherLast := by unfold State.lateBy; split <;> rfl
@[simp] theorem State.lateBy_weights (s : State) (r : GReg) (n : Nat) : (s.lateBy r n).weights = s.weights := by unfold State.lateBy; split <;> rfl
@[simp] theorem State.lateBy_claims (s : State) (r : GReg) (n : Nat) : (s.lateBy r n).claims = s.claims := by unfold State.lateBy; split <;> rfl
@[simp] theorem State.lateBy_startStep (s : State) (r : GReg) (n : Nat) : (s.lateBy r n).startStep = s.startStep := by unfold State.lateBy; split <;> rfl
@[simp] theorem State.lateBy_invalidations (s : State) (r : GReg) (n : Nat) : (s.lateBy r n).invalidations = s.invalidations := by unfold State.lateBy; split <;> rfl
@[simp] theorem State.lateBy_lost (s : State) (r : GReg) (n : Nat) : (s.lateBy r n).lost = s.lost := by unfold State.lateBy; split <;> rfl
@[simp] theorem State.lateBy_requests (s : State) (r : GReg) (n : Nat) : (s.lateBy r n).requests = s.requests := by unfold State.lateBy; split <;> rfl
@[simp] theorem State.lateBy_input (s : State) (r : GReg) (n : Nat) : (s.lateBy r n).input = s.input := by unfold State.lateBy; split <;> rfl
@[simp] theorem State.lateBy_plan (s : State) (r : GReg) (n : Nat) : (s.lateBy r n).plan = s.plan := by unfold State.lateBy; split <;> rfl
@[simp] theorem State.lateBy_agenda (s : State) (r : GReg) (n : Nat) : (s.lateBy r n).agenda = s.agenda := by unfold State.lateBy; split <;> rfl
@[simp] theorem State.lateBy_turn (s : State) (r : GReg) (n : Nat) : (s.lateBy r n).turn = s.turn := by unfold State.lateBy; split <;> rfl
@[simp] theorem State.lateBy_free (s : State) (r : GReg) (n : Nat) : (s.lateBy r n).free = s.free := by unfold State.lateBy; split <;> rfl

@[simp] theorem State.setCore_power (s : State) (c : Core) : (s.setCore c).power = s.power := by unfold State.setCore; split <;> rfl
@[simp] theorem State.setCore_cur (s : State) (c : Core) : (s.setCore c).cur = s.cur := by unfold State.setCore; split <;> rfl
@[simp] theorem State.setCore_ahead (s : State) (c : Core) : (s.setCore c).ahead = s.ahead := by unfold State.setCore; split <;> rfl
@[simp] theorem State.setCore_t (s : State) (c : Core) : (s.setCore c).t = s.t := by unfold State.setCore; split <;> rfl
@[simp] theorem State.setCore_tasks (s : State) (c : Core) : (s.setCore c).tasks = s.tasks := by unfold State.setCore; split <;> rfl
@[simp] theorem State.setCore_mem (s : State) (c : Core) : (s.setCore c).mem = s.mem := by unfold State.setCore; split <;> rfl
@[simp] theorem State.setCore_bad (s : State) (c : Core) : (s.setCore c).bad = s.bad := by unfold State.setCore; split <;> rfl
@[simp] theorem State.setCore_dies (s : State) (c : Core) : (s.setCore c).dies = s.dies := by unfold State.setCore; split <;> rfl
@[simp] theorem State.setCore_package (s : State) (c : Core) : (s.setCore c).package = s.package := by unfold State.setCore; split <;> rfl
@[simp] theorem State.setCore_funcs (s : State) (c : Core) : (s.setCore c).funcs = s.funcs := by unfold State.setCore; split <;> rfl
@[simp] theorem State.setCore_objs (s : State) (c : Core) : (s.setCore c).objs = s.objs := by unfold State.setCore; split <;> rfl
@[simp] theorem State.setCore_syms (s : State) (c : Core) : (s.setCore c).syms = s.syms := by unfold State.setCore; split <;> rfl
@[simp] theorem State.setCore_nextHandle (s : State) (c : Core) : (s.setCore c).nextHandle = s.nextHandle := by unfold State.setCore; split <;> rfl
@[simp] theorem State.setCore_loadStatus (s : State) (c : Core) : (s.setCore c).loadStatus = s.loadStatus := by unfold State.setCore; split <;> rfl
@[simp] theorem State.setCore_images (s : State) (c : Core) : (s.setCore c).images = s.images := by unfold State.setCore; split <;> rfl
@[simp] theorem State.setCore_candidates (s : State) (c : Core) : (s.setCore c).candidates = s.candidates := by unfold State.setCore; split <;> rfl
@[simp] theorem State.setCore_launches (s : State) (c : Core) : (s.setCore c).launches = s.launches := by unfold State.setCore; split <;> rfl
@[simp] theorem State.setCore_readyTasks (s : State) (c : Core) : (s.setCore c).readyTasks = s.readyTasks := by unfold State.setCore; split <;> rfl
@[simp] theorem State.setCore_nextLaunch (s : State) (c : Core) : (s.setCore c).nextLaunch = s.nextLaunch := by unfold State.setCore; split <;> rfl
@[simp] theorem State.setCore_lastQueue (s : State) (c : Core) : (s.setCore c).lastQueue = s.lastQueue := by unfold State.setCore; split <;> rfl
@[simp] theorem State.setCore_saved (s : State) (c : Core) : (s.setCore c).saved = s.saved := by unfold State.setCore; split <;> rfl
@[simp] theorem State.setCore_domains (s : State) (c : Core) : (s.setCore c).domains = s.domains := by unfold State.setCore; split <;> rfl
@[simp] theorem State.setCore_pasts (s : State) (c : Core) : (s.setCore c).pasts = s.pasts := by unfold State.setCore; split <;> rfl
@[simp] theorem State.setCore_tagPasts (s : State) (c : Core) : (s.setCore c).tagPasts = s.tagPasts := by unfold State.setCore; split <;> rfl
@[simp] theorem State.setCore_waiters (s : State) (c : Core) : (s.setCore c).waiters = s.waiters := by unfold State.setCore; split <;> rfl
@[simp] theorem State.setCore_arrivals (s : State) (c : Core) : (s.setCore c).arrivals = s.arrivals := by unfold State.setCore; split <;> rfl
@[simp] theorem State.setCore_releasers (s : State) (c : Core) : (s.setCore c).releasers = s.releasers := by unfold State.setCore; split <;> rfl
@[simp] theorem State.setCore_ports (s : State) (c : Core) : (s.setCore c).ports = s.ports := by unfold State.setCore; split <;> rfl
@[simp] theorem State.setCore_failed (s : State) (c : Core) : (s.setCore c).failed = s.failed := by unfold State.setCore; split <;> rfl
@[simp] theorem State.setCore_noRoute (s : State) (c : Core) : (s.setCore c).noRoute = s.noRoute := by unfold State.setCore; split <;> rfl
@[simp] theorem State.setCore_hops (s : State) (c : Core) : (s.setCore c).hops = s.hops := by unfold State.setCore; split <;> rfl
@[simp] theorem State.setCore_unrouted (s : State) (c : Core) : (s.setCore c).unrouted = s.unrouted := by unfold State.setCore; split <;> rfl
@[simp] theorem State.setCore_mgmt (s : State) (c : Core) : (s.setCore c).mgmt = s.mgmt := by unfold State.setCore; split <;> rfl
@[simp] theorem State.setCore_trust (s : State) (c : Core) : (s.setCore c).trust = s.trust := by unfold State.setCore; split <;> rfl
@[simp] theorem State.setCore_cycle (s : State) (c : Core) : (s.setCore c).cycle = s.cycle := by unfold State.setCore; split <;> rfl
@[simp] theorem State.setCore_timeBase (s : State) (c : Core) : (s.setCore c).timeBase = s.timeBase := by unfold State.setCore; split <;> rfl
@[simp] theorem State.setCore_timeCycle (s : State) (c : Core) : (s.setCore c).timeCycle = s.timeCycle := by unfold State.setCore; split <;> rfl
@[simp] theorem State.setCore_slew (s : State) (c : Core) : (s.setCore c).slew = s.slew := by unfold State.setCore; split <;> rfl
@[simp] theorem State.setCore_timePast (s : State) (c : Core) : (s.setCore c).timePast = s.timePast := by unfold State.setCore; split <;> rfl
@[simp] theorem State.setCore_tskew (s : State) (c : Core) : (s.setCore c).tskew = s.tskew := by unfold State.setCore; split <;> rfl
@[simp] theorem State.setCore_slot (s : State) (c : Core) : (s.setCore c).slot = s.slot := by unfold State.setCore; split <;> rfl
@[simp] theorem State.setCore_pLast (s : State) (c : Core) : (s.setCore c).pLast = s.pLast := by unfold State.setCore; split <;> rfl
@[simp] theorem State.setCore_partials (s : State) (c : Core) : (s.setCore c).partials = s.partials := by unfold State.setCore; split <;> rfl
@[simp] theorem State.setCore_otherNow (s : State) (c : Core) : (s.setCore c).otherNow = s.otherNow := by unfold State.setCore; split <;> rfl
@[simp] theorem State.setCore_otherLast (s : State) (c : Core) : (s.setCore c).otherLast = s.otherLast := by unfold State.setCore; split <;> rfl
@[simp] theorem State.setCore_weights (s : State) (c : Core) : (s.setCore c).weights = s.weights := by unfold State.setCore; split <;> rfl
@[simp] theorem State.setCore_claims (s : State) (c : Core) : (s.setCore c).claims = s.claims := by unfold State.setCore; split <;> rfl
@[simp] theorem State.setCore_startStep (s : State) (c : Core) : (s.setCore c).startStep = s.startStep := by unfold State.setCore; split <;> rfl
@[simp] theorem State.setCore_invalidations (s : State) (c : Core) : (s.setCore c).invalidations = s.invalidations := by unfold State.setCore; split <;> rfl
@[simp] theorem State.setCore_lost (s : State) (c : Core) : (s.setCore c).lost = s.lost := by unfold State.setCore; split <;> rfl
@[simp] theorem State.setCore_requests (s : State) (c : Core) : (s.setCore c).requests = s.requests := by unfold State.setCore; split <;> rfl
@[simp] theorem State.setCore_input (s : State) (c : Core) : (s.setCore c).input = s.input := by unfold State.setCore; split <;> rfl
@[simp] theorem State.setCore_plan (s : State) (c : Core) : (s.setCore c).plan = s.plan := by unfold State.setCore; split <;> rfl
@[simp] theorem State.setCore_agenda (s : State) (c : Core) : (s.setCore c).agenda = s.agenda := by unfold State.setCore; split <;> rfl
@[simp] theorem State.setCore_turn (s : State) (c : Core) : (s.setCore c).turn = s.turn := by unfold State.setCore; split <;> rfl
@[simp] theorem State.setCore_free (s : State) (c : Core) : (s.setCore c).free = s.free := by unfold State.setCore; split <;> rfl

@[simp] theorem State.setTask_power (s : State) (t : Task) : (s.setTask t).power = s.power := by unfold State.setTask; split <;> rfl
@[simp] theorem State.setTask_cur (s : State) (t : Task) : (s.setTask t).cur = s.cur := by unfold State.setTask; split <;> rfl
@[simp] theorem State.setTask_ahead (s : State) (t : Task) : (s.setTask t).ahead = s.ahead := by unfold State.setTask; split <;> rfl
@[simp] theorem State.setTask_c (s : State) (t : Task) : (s.setTask t).c = s.c := by unfold State.setTask; split <;> rfl
@[simp] theorem State.setTask_cores (s : State) (t : Task) : (s.setTask t).cores = s.cores := by unfold State.setTask; split <;> rfl
@[simp] theorem State.setTask_mem (s : State) (t : Task) : (s.setTask t).mem = s.mem := by unfold State.setTask; split <;> rfl
@[simp] theorem State.setTask_bad (s : State) (t : Task) : (s.setTask t).bad = s.bad := by unfold State.setTask; split <;> rfl
@[simp] theorem State.setTask_dies (s : State) (t : Task) : (s.setTask t).dies = s.dies := by unfold State.setTask; split <;> rfl
@[simp] theorem State.setTask_package (s : State) (t : Task) : (s.setTask t).package = s.package := by unfold State.setTask; split <;> rfl
@[simp] theorem State.setTask_funcs (s : State) (t : Task) : (s.setTask t).funcs = s.funcs := by unfold State.setTask; split <;> rfl
@[simp] theorem State.setTask_objs (s : State) (t : Task) : (s.setTask t).objs = s.objs := by unfold State.setTask; split <;> rfl
@[simp] theorem State.setTask_syms (s : State) (t : Task) : (s.setTask t).syms = s.syms := by unfold State.setTask; split <;> rfl
@[simp] theorem State.setTask_nextHandle (s : State) (t : Task) : (s.setTask t).nextHandle = s.nextHandle := by unfold State.setTask; split <;> rfl
@[simp] theorem State.setTask_loadStatus (s : State) (t : Task) : (s.setTask t).loadStatus = s.loadStatus := by unfold State.setTask; split <;> rfl
@[simp] theorem State.setTask_images (s : State) (t : Task) : (s.setTask t).images = s.images := by unfold State.setTask; split <;> rfl
@[simp] theorem State.setTask_candidates (s : State) (t : Task) : (s.setTask t).candidates = s.candidates := by unfold State.setTask; split <;> rfl
@[simp] theorem State.setTask_launches (s : State) (t : Task) : (s.setTask t).launches = s.launches := by unfold State.setTask; split <;> rfl
@[simp] theorem State.setTask_readyTasks (s : State) (t : Task) : (s.setTask t).readyTasks = s.readyTasks := by unfold State.setTask; split <;> rfl
@[simp] theorem State.setTask_nextLaunch (s : State) (t : Task) : (s.setTask t).nextLaunch = s.nextLaunch := by unfold State.setTask; split <;> rfl
@[simp] theorem State.setTask_lastQueue (s : State) (t : Task) : (s.setTask t).lastQueue = s.lastQueue := by unfold State.setTask; split <;> rfl
@[simp] theorem State.setTask_saved (s : State) (t : Task) : (s.setTask t).saved = s.saved := by unfold State.setTask; split <;> rfl
@[simp] theorem State.setTask_domains (s : State) (t : Task) : (s.setTask t).domains = s.domains := by unfold State.setTask; split <;> rfl
@[simp] theorem State.setTask_pasts (s : State) (t : Task) : (s.setTask t).pasts = s.pasts := by unfold State.setTask; split <;> rfl
@[simp] theorem State.setTask_tagPasts (s : State) (t : Task) : (s.setTask t).tagPasts = s.tagPasts := by unfold State.setTask; split <;> rfl
@[simp] theorem State.setTask_waiters (s : State) (t : Task) : (s.setTask t).waiters = s.waiters := by unfold State.setTask; split <;> rfl
@[simp] theorem State.setTask_arrivals (s : State) (t : Task) : (s.setTask t).arrivals = s.arrivals := by unfold State.setTask; split <;> rfl
@[simp] theorem State.setTask_releasers (s : State) (t : Task) : (s.setTask t).releasers = s.releasers := by unfold State.setTask; split <;> rfl
@[simp] theorem State.setTask_ports (s : State) (t : Task) : (s.setTask t).ports = s.ports := by unfold State.setTask; split <;> rfl
@[simp] theorem State.setTask_failed (s : State) (t : Task) : (s.setTask t).failed = s.failed := by unfold State.setTask; split <;> rfl
@[simp] theorem State.setTask_noRoute (s : State) (t : Task) : (s.setTask t).noRoute = s.noRoute := by unfold State.setTask; split <;> rfl
@[simp] theorem State.setTask_hops (s : State) (t : Task) : (s.setTask t).hops = s.hops := by unfold State.setTask; split <;> rfl
@[simp] theorem State.setTask_unrouted (s : State) (t : Task) : (s.setTask t).unrouted = s.unrouted := by unfold State.setTask; split <;> rfl
@[simp] theorem State.setTask_mgmt (s : State) (t : Task) : (s.setTask t).mgmt = s.mgmt := by unfold State.setTask; split <;> rfl
@[simp] theorem State.setTask_trust (s : State) (t : Task) : (s.setTask t).trust = s.trust := by unfold State.setTask; split <;> rfl
@[simp] theorem State.setTask_cycle (s : State) (t : Task) : (s.setTask t).cycle = s.cycle := by unfold State.setTask; split <;> rfl
@[simp] theorem State.setTask_timeBase (s : State) (t : Task) : (s.setTask t).timeBase = s.timeBase := by unfold State.setTask; split <;> rfl
@[simp] theorem State.setTask_timeCycle (s : State) (t : Task) : (s.setTask t).timeCycle = s.timeCycle := by unfold State.setTask; split <;> rfl
@[simp] theorem State.setTask_slew (s : State) (t : Task) : (s.setTask t).slew = s.slew := by unfold State.setTask; split <;> rfl
@[simp] theorem State.setTask_timePast (s : State) (t : Task) : (s.setTask t).timePast = s.timePast := by unfold State.setTask; split <;> rfl
@[simp] theorem State.setTask_tskew (s : State) (t : Task) : (s.setTask t).tskew = s.tskew := by unfold State.setTask; split <;> rfl
@[simp] theorem State.setTask_slot (s : State) (t : Task) : (s.setTask t).slot = s.slot := by unfold State.setTask; split <;> rfl
@[simp] theorem State.setTask_pLast (s : State) (t : Task) : (s.setTask t).pLast = s.pLast := by unfold State.setTask; split <;> rfl
@[simp] theorem State.setTask_partials (s : State) (t : Task) : (s.setTask t).partials = s.partials := by unfold State.setTask; split <;> rfl
@[simp] theorem State.setTask_otherNow (s : State) (t : Task) : (s.setTask t).otherNow = s.otherNow := by unfold State.setTask; split <;> rfl
@[simp] theorem State.setTask_otherLast (s : State) (t : Task) : (s.setTask t).otherLast = s.otherLast := by unfold State.setTask; split <;> rfl
@[simp] theorem State.setTask_weights (s : State) (t : Task) : (s.setTask t).weights = s.weights := by unfold State.setTask; split <;> rfl
@[simp] theorem State.setTask_claims (s : State) (t : Task) : (s.setTask t).claims = s.claims := by unfold State.setTask; split <;> rfl
@[simp] theorem State.setTask_startStep (s : State) (t : Task) : (s.setTask t).startStep = s.startStep := by unfold State.setTask; split <;> rfl
@[simp] theorem State.setTask_invalidations (s : State) (t : Task) : (s.setTask t).invalidations = s.invalidations := by unfold State.setTask; split <;> rfl
@[simp] theorem State.setTask_lost (s : State) (t : Task) : (s.setTask t).lost = s.lost := by unfold State.setTask; split <;> rfl
@[simp] theorem State.setTask_requests (s : State) (t : Task) : (s.setTask t).requests = s.requests := by unfold State.setTask; split <;> rfl
@[simp] theorem State.setTask_input (s : State) (t : Task) : (s.setTask t).input = s.input := by unfold State.setTask; split <;> rfl
@[simp] theorem State.setTask_plan (s : State) (t : Task) : (s.setTask t).plan = s.plan := by unfold State.setTask; split <;> rfl
@[simp] theorem State.setTask_agenda (s : State) (t : Task) : (s.setTask t).agenda = s.agenda := by unfold State.setTask; split <;> rfl
@[simp] theorem State.setTask_turn (s : State) (t : Task) : (s.setTask t).turn = s.turn := by unfold State.setTask; split <;> rfl
@[simp] theorem State.setTask_free (s : State) (t : Task) : (s.setTask t).free = s.free := by unfold State.setTask; split <;> rfl

@[simp] theorem State.setSeg_t (s : State) (b : SReg) (f : Seg → Seg) : (s.setSeg b f).t = { s.t with segs := s.t.segs.set b.val (f s.t.segs[b]) b.isLt } := rfl
@[simp] theorem State.setSeg_power (s : State) (b : SReg) (f : Seg → Seg) : (s.setSeg b f).power = s.power := rfl
@[simp] theorem State.setSeg_cur (s : State) (b : SReg) (f : Seg → Seg) : (s.setSeg b f).cur = s.cur := rfl
@[simp] theorem State.setSeg_ahead (s : State) (b : SReg) (f : Seg → Seg) : (s.setSeg b f).ahead = s.ahead := rfl
@[simp] theorem State.setSeg_c (s : State) (b : SReg) (f : Seg → Seg) : (s.setSeg b f).c = s.c := rfl
@[simp] theorem State.setSeg_tasks (s : State) (b : SReg) (f : Seg → Seg) : (s.setSeg b f).tasks = s.tasks := rfl
@[simp] theorem State.setSeg_cores (s : State) (b : SReg) (f : Seg → Seg) : (s.setSeg b f).cores = s.cores := rfl
@[simp] theorem State.setSeg_mem (s : State) (b : SReg) (f : Seg → Seg) : (s.setSeg b f).mem = s.mem := rfl
@[simp] theorem State.setSeg_bad (s : State) (b : SReg) (f : Seg → Seg) : (s.setSeg b f).bad = s.bad := rfl
@[simp] theorem State.setSeg_dies (s : State) (b : SReg) (f : Seg → Seg) : (s.setSeg b f).dies = s.dies := rfl
@[simp] theorem State.setSeg_package (s : State) (b : SReg) (f : Seg → Seg) : (s.setSeg b f).package = s.package := rfl
@[simp] theorem State.setSeg_funcs (s : State) (b : SReg) (f : Seg → Seg) : (s.setSeg b f).funcs = s.funcs := rfl
@[simp] theorem State.setSeg_objs (s : State) (b : SReg) (f : Seg → Seg) : (s.setSeg b f).objs = s.objs := rfl
@[simp] theorem State.setSeg_syms (s : State) (b : SReg) (f : Seg → Seg) : (s.setSeg b f).syms = s.syms := rfl
@[simp] theorem State.setSeg_nextHandle (s : State) (b : SReg) (f : Seg → Seg) : (s.setSeg b f).nextHandle = s.nextHandle := rfl
@[simp] theorem State.setSeg_loadStatus (s : State) (b : SReg) (f : Seg → Seg) : (s.setSeg b f).loadStatus = s.loadStatus := rfl
@[simp] theorem State.setSeg_images (s : State) (b : SReg) (f : Seg → Seg) : (s.setSeg b f).images = s.images := rfl
@[simp] theorem State.setSeg_candidates (s : State) (b : SReg) (f : Seg → Seg) : (s.setSeg b f).candidates = s.candidates := rfl
@[simp] theorem State.setSeg_launches (s : State) (b : SReg) (f : Seg → Seg) : (s.setSeg b f).launches = s.launches := rfl
@[simp] theorem State.setSeg_readyTasks (s : State) (b : SReg) (f : Seg → Seg) : (s.setSeg b f).readyTasks = s.readyTasks := rfl
@[simp] theorem State.setSeg_nextLaunch (s : State) (b : SReg) (f : Seg → Seg) : (s.setSeg b f).nextLaunch = s.nextLaunch := rfl
@[simp] theorem State.setSeg_lastQueue (s : State) (b : SReg) (f : Seg → Seg) : (s.setSeg b f).lastQueue = s.lastQueue := rfl
@[simp] theorem State.setSeg_saved (s : State) (b : SReg) (f : Seg → Seg) : (s.setSeg b f).saved = s.saved := rfl
@[simp] theorem State.setSeg_domains (s : State) (b : SReg) (f : Seg → Seg) : (s.setSeg b f).domains = s.domains := rfl
@[simp] theorem State.setSeg_pasts (s : State) (b : SReg) (f : Seg → Seg) : (s.setSeg b f).pasts = s.pasts := rfl
@[simp] theorem State.setSeg_tagPasts (s : State) (b : SReg) (f : Seg → Seg) : (s.setSeg b f).tagPasts = s.tagPasts := rfl
@[simp] theorem State.setSeg_waiters (s : State) (b : SReg) (f : Seg → Seg) : (s.setSeg b f).waiters = s.waiters := rfl
@[simp] theorem State.setSeg_arrivals (s : State) (b : SReg) (f : Seg → Seg) : (s.setSeg b f).arrivals = s.arrivals := rfl
@[simp] theorem State.setSeg_releasers (s : State) (b : SReg) (f : Seg → Seg) : (s.setSeg b f).releasers = s.releasers := rfl
@[simp] theorem State.setSeg_ports (s : State) (b : SReg) (f : Seg → Seg) : (s.setSeg b f).ports = s.ports := rfl
@[simp] theorem State.setSeg_failed (s : State) (b : SReg) (f : Seg → Seg) : (s.setSeg b f).failed = s.failed := rfl
@[simp] theorem State.setSeg_noRoute (s : State) (b : SReg) (f : Seg → Seg) : (s.setSeg b f).noRoute = s.noRoute := rfl
@[simp] theorem State.setSeg_hops (s : State) (b : SReg) (f : Seg → Seg) : (s.setSeg b f).hops = s.hops := rfl
@[simp] theorem State.setSeg_unrouted (s : State) (b : SReg) (f : Seg → Seg) : (s.setSeg b f).unrouted = s.unrouted := rfl
@[simp] theorem State.setSeg_mgmt (s : State) (b : SReg) (f : Seg → Seg) : (s.setSeg b f).mgmt = s.mgmt := rfl
@[simp] theorem State.setSeg_trust (s : State) (b : SReg) (f : Seg → Seg) : (s.setSeg b f).trust = s.trust := rfl
@[simp] theorem State.setSeg_cycle (s : State) (b : SReg) (f : Seg → Seg) : (s.setSeg b f).cycle = s.cycle := rfl
@[simp] theorem State.setSeg_timeBase (s : State) (b : SReg) (f : Seg → Seg) : (s.setSeg b f).timeBase = s.timeBase := rfl
@[simp] theorem State.setSeg_timeCycle (s : State) (b : SReg) (f : Seg → Seg) : (s.setSeg b f).timeCycle = s.timeCycle := rfl
@[simp] theorem State.setSeg_slew (s : State) (b : SReg) (f : Seg → Seg) : (s.setSeg b f).slew = s.slew := rfl
@[simp] theorem State.setSeg_timePast (s : State) (b : SReg) (f : Seg → Seg) : (s.setSeg b f).timePast = s.timePast := rfl
@[simp] theorem State.setSeg_tskew (s : State) (b : SReg) (f : Seg → Seg) : (s.setSeg b f).tskew = s.tskew := rfl
@[simp] theorem State.setSeg_slot (s : State) (b : SReg) (f : Seg → Seg) : (s.setSeg b f).slot = s.slot := rfl
@[simp] theorem State.setSeg_pLast (s : State) (b : SReg) (f : Seg → Seg) : (s.setSeg b f).pLast = s.pLast := rfl
@[simp] theorem State.setSeg_partials (s : State) (b : SReg) (f : Seg → Seg) : (s.setSeg b f).partials = s.partials := rfl
@[simp] theorem State.setSeg_otherNow (s : State) (b : SReg) (f : Seg → Seg) : (s.setSeg b f).otherNow = s.otherNow := rfl
@[simp] theorem State.setSeg_otherLast (s : State) (b : SReg) (f : Seg → Seg) : (s.setSeg b f).otherLast = s.otherLast := rfl
@[simp] theorem State.setSeg_weights (s : State) (b : SReg) (f : Seg → Seg) : (s.setSeg b f).weights = s.weights := rfl
@[simp] theorem State.setSeg_claims (s : State) (b : SReg) (f : Seg → Seg) : (s.setSeg b f).claims = s.claims := rfl
@[simp] theorem State.setSeg_startStep (s : State) (b : SReg) (f : Seg → Seg) : (s.setSeg b f).startStep = s.startStep := rfl
@[simp] theorem State.setSeg_invalidations (s : State) (b : SReg) (f : Seg → Seg) : (s.setSeg b f).invalidations = s.invalidations := rfl
@[simp] theorem State.setSeg_lost (s : State) (b : SReg) (f : Seg → Seg) : (s.setSeg b f).lost = s.lost := rfl
@[simp] theorem State.setSeg_requests (s : State) (b : SReg) (f : Seg → Seg) : (s.setSeg b f).requests = s.requests := rfl
@[simp] theorem State.setSeg_input (s : State) (b : SReg) (f : Seg → Seg) : (s.setSeg b f).input = s.input := rfl
@[simp] theorem State.setSeg_plan (s : State) (b : SReg) (f : Seg → Seg) : (s.setSeg b f).plan = s.plan := rfl
@[simp] theorem State.setSeg_agenda (s : State) (b : SReg) (f : Seg → Seg) : (s.setSeg b f).agenda = s.agenda := rfl
@[simp] theorem State.setSeg_turn (s : State) (b : SReg) (f : Seg → Seg) : (s.setSeg b f).turn = s.turn := rfl
@[simp] theorem State.setSeg_free (s : State) (b : SReg) (f : Seg → Seg) : (s.setSeg b f).free = s.free := rfl

@[simp] theorem State.setDie_dies (s : State) (d : Fin 8) (x : Die) : (s.setDie d x).dies = s.dies.set d.val x d.isLt := rfl
@[simp] theorem State.setDie_power (s : State) (d : Fin 8) (x : Die) : (s.setDie d x).power = s.power := rfl
@[simp] theorem State.setDie_cur (s : State) (d : Fin 8) (x : Die) : (s.setDie d x).cur = s.cur := rfl
@[simp] theorem State.setDie_ahead (s : State) (d : Fin 8) (x : Die) : (s.setDie d x).ahead = s.ahead := rfl
@[simp] theorem State.setDie_t (s : State) (d : Fin 8) (x : Die) : (s.setDie d x).t = s.t := rfl
@[simp] theorem State.setDie_c (s : State) (d : Fin 8) (x : Die) : (s.setDie d x).c = s.c := rfl
@[simp] theorem State.setDie_tasks (s : State) (d : Fin 8) (x : Die) : (s.setDie d x).tasks = s.tasks := rfl
@[simp] theorem State.setDie_cores (s : State) (d : Fin 8) (x : Die) : (s.setDie d x).cores = s.cores := rfl
@[simp] theorem State.setDie_mem (s : State) (d : Fin 8) (x : Die) : (s.setDie d x).mem = s.mem := rfl
@[simp] theorem State.setDie_bad (s : State) (d : Fin 8) (x : Die) : (s.setDie d x).bad = s.bad := rfl
@[simp] theorem State.setDie_package (s : State) (d : Fin 8) (x : Die) : (s.setDie d x).package = s.package := rfl
@[simp] theorem State.setDie_funcs (s : State) (d : Fin 8) (x : Die) : (s.setDie d x).funcs = s.funcs := rfl
@[simp] theorem State.setDie_objs (s : State) (d : Fin 8) (x : Die) : (s.setDie d x).objs = s.objs := rfl
@[simp] theorem State.setDie_syms (s : State) (d : Fin 8) (x : Die) : (s.setDie d x).syms = s.syms := rfl
@[simp] theorem State.setDie_nextHandle (s : State) (d : Fin 8) (x : Die) : (s.setDie d x).nextHandle = s.nextHandle := rfl
@[simp] theorem State.setDie_loadStatus (s : State) (d : Fin 8) (x : Die) : (s.setDie d x).loadStatus = s.loadStatus := rfl
@[simp] theorem State.setDie_images (s : State) (d : Fin 8) (x : Die) : (s.setDie d x).images = s.images := rfl
@[simp] theorem State.setDie_candidates (s : State) (d : Fin 8) (x : Die) : (s.setDie d x).candidates = s.candidates := rfl
@[simp] theorem State.setDie_launches (s : State) (d : Fin 8) (x : Die) : (s.setDie d x).launches = s.launches := rfl
@[simp] theorem State.setDie_readyTasks (s : State) (d : Fin 8) (x : Die) : (s.setDie d x).readyTasks = s.readyTasks := rfl
@[simp] theorem State.setDie_nextLaunch (s : State) (d : Fin 8) (x : Die) : (s.setDie d x).nextLaunch = s.nextLaunch := rfl
@[simp] theorem State.setDie_lastQueue (s : State) (d : Fin 8) (x : Die) : (s.setDie d x).lastQueue = s.lastQueue := rfl
@[simp] theorem State.setDie_saved (s : State) (d : Fin 8) (x : Die) : (s.setDie d x).saved = s.saved := rfl
@[simp] theorem State.setDie_domains (s : State) (d : Fin 8) (x : Die) : (s.setDie d x).domains = s.domains := rfl
@[simp] theorem State.setDie_pasts (s : State) (d : Fin 8) (x : Die) : (s.setDie d x).pasts = s.pasts := rfl
@[simp] theorem State.setDie_tagPasts (s : State) (d : Fin 8) (x : Die) : (s.setDie d x).tagPasts = s.tagPasts := rfl
@[simp] theorem State.setDie_waiters (s : State) (d : Fin 8) (x : Die) : (s.setDie d x).waiters = s.waiters := rfl
@[simp] theorem State.setDie_arrivals (s : State) (d : Fin 8) (x : Die) : (s.setDie d x).arrivals = s.arrivals := rfl
@[simp] theorem State.setDie_releasers (s : State) (d : Fin 8) (x : Die) : (s.setDie d x).releasers = s.releasers := rfl
@[simp] theorem State.setDie_ports (s : State) (d : Fin 8) (x : Die) : (s.setDie d x).ports = s.ports := rfl
@[simp] theorem State.setDie_failed (s : State) (d : Fin 8) (x : Die) : (s.setDie d x).failed = s.failed := rfl
@[simp] theorem State.setDie_noRoute (s : State) (d : Fin 8) (x : Die) : (s.setDie d x).noRoute = s.noRoute := rfl
@[simp] theorem State.setDie_hops (s : State) (d : Fin 8) (x : Die) : (s.setDie d x).hops = s.hops := rfl
@[simp] theorem State.setDie_unrouted (s : State) (d : Fin 8) (x : Die) : (s.setDie d x).unrouted = s.unrouted := rfl
@[simp] theorem State.setDie_mgmt (s : State) (d : Fin 8) (x : Die) : (s.setDie d x).mgmt = s.mgmt := rfl
@[simp] theorem State.setDie_trust (s : State) (d : Fin 8) (x : Die) : (s.setDie d x).trust = s.trust := rfl
@[simp] theorem State.setDie_cycle (s : State) (d : Fin 8) (x : Die) : (s.setDie d x).cycle = s.cycle := rfl
@[simp] theorem State.setDie_timeBase (s : State) (d : Fin 8) (x : Die) : (s.setDie d x).timeBase = s.timeBase := rfl
@[simp] theorem State.setDie_timeCycle (s : State) (d : Fin 8) (x : Die) : (s.setDie d x).timeCycle = s.timeCycle := rfl
@[simp] theorem State.setDie_slew (s : State) (d : Fin 8) (x : Die) : (s.setDie d x).slew = s.slew := rfl
@[simp] theorem State.setDie_timePast (s : State) (d : Fin 8) (x : Die) : (s.setDie d x).timePast = s.timePast := rfl
@[simp] theorem State.setDie_tskew (s : State) (d : Fin 8) (x : Die) : (s.setDie d x).tskew = s.tskew := rfl
@[simp] theorem State.setDie_slot (s : State) (d : Fin 8) (x : Die) : (s.setDie d x).slot = s.slot := rfl
@[simp] theorem State.setDie_pLast (s : State) (d : Fin 8) (x : Die) : (s.setDie d x).pLast = s.pLast := rfl
@[simp] theorem State.setDie_partials (s : State) (d : Fin 8) (x : Die) : (s.setDie d x).partials = s.partials := rfl
@[simp] theorem State.setDie_otherNow (s : State) (d : Fin 8) (x : Die) : (s.setDie d x).otherNow = s.otherNow := rfl
@[simp] theorem State.setDie_otherLast (s : State) (d : Fin 8) (x : Die) : (s.setDie d x).otherLast = s.otherLast := rfl
@[simp] theorem State.setDie_weights (s : State) (d : Fin 8) (x : Die) : (s.setDie d x).weights = s.weights := rfl
@[simp] theorem State.setDie_claims (s : State) (d : Fin 8) (x : Die) : (s.setDie d x).claims = s.claims := rfl
@[simp] theorem State.setDie_startStep (s : State) (d : Fin 8) (x : Die) : (s.setDie d x).startStep = s.startStep := rfl
@[simp] theorem State.setDie_invalidations (s : State) (d : Fin 8) (x : Die) : (s.setDie d x).invalidations = s.invalidations := rfl
@[simp] theorem State.setDie_lost (s : State) (d : Fin 8) (x : Die) : (s.setDie d x).lost = s.lost := rfl
@[simp] theorem State.setDie_requests (s : State) (d : Fin 8) (x : Die) : (s.setDie d x).requests = s.requests := rfl
@[simp] theorem State.setDie_input (s : State) (d : Fin 8) (x : Die) : (s.setDie d x).input = s.input := rfl
@[simp] theorem State.setDie_plan (s : State) (d : Fin 8) (x : Die) : (s.setDie d x).plan = s.plan := rfl
@[simp] theorem State.setDie_agenda (s : State) (d : Fin 8) (x : Die) : (s.setDie d x).agenda = s.agenda := rfl
@[simp] theorem State.setDie_turn (s : State) (d : Fin 8) (x : Die) : (s.setDie d x).turn = s.turn := rfl
@[simp] theorem State.setDie_free (s : State) (d : Fin 8) (x : Die) : (s.setDie d x).free = s.free := rfl

@[simp] theorem State.setFunc_funcs (s : State) (f : Func) : (s.setFunc f).funcs = f :: s.funcs.filter fun g => g.n != f.n := rfl
@[simp] theorem State.setFunc_power (s : State) (f : Func) : (s.setFunc f).power = s.power := rfl
@[simp] theorem State.setFunc_cur (s : State) (f : Func) : (s.setFunc f).cur = s.cur := rfl
@[simp] theorem State.setFunc_ahead (s : State) (f : Func) : (s.setFunc f).ahead = s.ahead := rfl
@[simp] theorem State.setFunc_t (s : State) (f : Func) : (s.setFunc f).t = s.t := rfl
@[simp] theorem State.setFunc_c (s : State) (f : Func) : (s.setFunc f).c = s.c := rfl
@[simp] theorem State.setFunc_tasks (s : State) (f : Func) : (s.setFunc f).tasks = s.tasks := rfl
@[simp] theorem State.setFunc_cores (s : State) (f : Func) : (s.setFunc f).cores = s.cores := rfl
@[simp] theorem State.setFunc_mem (s : State) (f : Func) : (s.setFunc f).mem = s.mem := rfl
@[simp] theorem State.setFunc_bad (s : State) (f : Func) : (s.setFunc f).bad = s.bad := rfl
@[simp] theorem State.setFunc_dies (s : State) (f : Func) : (s.setFunc f).dies = s.dies := rfl
@[simp] theorem State.setFunc_package (s : State) (f : Func) : (s.setFunc f).package = s.package := rfl
@[simp] theorem State.setFunc_objs (s : State) (f : Func) : (s.setFunc f).objs = s.objs := rfl
@[simp] theorem State.setFunc_syms (s : State) (f : Func) : (s.setFunc f).syms = s.syms := rfl
@[simp] theorem State.setFunc_nextHandle (s : State) (f : Func) : (s.setFunc f).nextHandle = s.nextHandle := rfl
@[simp] theorem State.setFunc_loadStatus (s : State) (f : Func) : (s.setFunc f).loadStatus = s.loadStatus := rfl
@[simp] theorem State.setFunc_images (s : State) (f : Func) : (s.setFunc f).images = s.images := rfl
@[simp] theorem State.setFunc_candidates (s : State) (f : Func) : (s.setFunc f).candidates = s.candidates := rfl
@[simp] theorem State.setFunc_launches (s : State) (f : Func) : (s.setFunc f).launches = s.launches := rfl
@[simp] theorem State.setFunc_readyTasks (s : State) (f : Func) : (s.setFunc f).readyTasks = s.readyTasks := rfl
@[simp] theorem State.setFunc_nextLaunch (s : State) (f : Func) : (s.setFunc f).nextLaunch = s.nextLaunch := rfl
@[simp] theorem State.setFunc_lastQueue (s : State) (f : Func) : (s.setFunc f).lastQueue = s.lastQueue := rfl
@[simp] theorem State.setFunc_saved (s : State) (f : Func) : (s.setFunc f).saved = s.saved := rfl
@[simp] theorem State.setFunc_domains (s : State) (f : Func) : (s.setFunc f).domains = s.domains := rfl
@[simp] theorem State.setFunc_pasts (s : State) (f : Func) : (s.setFunc f).pasts = s.pasts := rfl
@[simp] theorem State.setFunc_tagPasts (s : State) (f : Func) : (s.setFunc f).tagPasts = s.tagPasts := rfl
@[simp] theorem State.setFunc_waiters (s : State) (f : Func) : (s.setFunc f).waiters = s.waiters := rfl
@[simp] theorem State.setFunc_arrivals (s : State) (f : Func) : (s.setFunc f).arrivals = s.arrivals := rfl
@[simp] theorem State.setFunc_releasers (s : State) (f : Func) : (s.setFunc f).releasers = s.releasers := rfl
@[simp] theorem State.setFunc_ports (s : State) (f : Func) : (s.setFunc f).ports = s.ports := rfl
@[simp] theorem State.setFunc_failed (s : State) (f : Func) : (s.setFunc f).failed = s.failed := rfl
@[simp] theorem State.setFunc_noRoute (s : State) (f : Func) : (s.setFunc f).noRoute = s.noRoute := rfl
@[simp] theorem State.setFunc_hops (s : State) (f : Func) : (s.setFunc f).hops = s.hops := rfl
@[simp] theorem State.setFunc_unrouted (s : State) (f : Func) : (s.setFunc f).unrouted = s.unrouted := rfl
@[simp] theorem State.setFunc_mgmt (s : State) (f : Func) : (s.setFunc f).mgmt = s.mgmt := rfl
@[simp] theorem State.setFunc_trust (s : State) (f : Func) : (s.setFunc f).trust = s.trust := rfl
@[simp] theorem State.setFunc_cycle (s : State) (f : Func) : (s.setFunc f).cycle = s.cycle := rfl
@[simp] theorem State.setFunc_timeBase (s : State) (f : Func) : (s.setFunc f).timeBase = s.timeBase := rfl
@[simp] theorem State.setFunc_timeCycle (s : State) (f : Func) : (s.setFunc f).timeCycle = s.timeCycle := rfl
@[simp] theorem State.setFunc_slew (s : State) (f : Func) : (s.setFunc f).slew = s.slew := rfl
@[simp] theorem State.setFunc_timePast (s : State) (f : Func) : (s.setFunc f).timePast = s.timePast := rfl
@[simp] theorem State.setFunc_tskew (s : State) (f : Func) : (s.setFunc f).tskew = s.tskew := rfl
@[simp] theorem State.setFunc_slot (s : State) (f : Func) : (s.setFunc f).slot = s.slot := rfl
@[simp] theorem State.setFunc_pLast (s : State) (f : Func) : (s.setFunc f).pLast = s.pLast := rfl
@[simp] theorem State.setFunc_partials (s : State) (f : Func) : (s.setFunc f).partials = s.partials := rfl
@[simp] theorem State.setFunc_otherNow (s : State) (f : Func) : (s.setFunc f).otherNow = s.otherNow := rfl
@[simp] theorem State.setFunc_otherLast (s : State) (f : Func) : (s.setFunc f).otherLast = s.otherLast := rfl
@[simp] theorem State.setFunc_weights (s : State) (f : Func) : (s.setFunc f).weights = s.weights := rfl
@[simp] theorem State.setFunc_claims (s : State) (f : Func) : (s.setFunc f).claims = s.claims := rfl
@[simp] theorem State.setFunc_startStep (s : State) (f : Func) : (s.setFunc f).startStep = s.startStep := rfl
@[simp] theorem State.setFunc_invalidations (s : State) (f : Func) : (s.setFunc f).invalidations = s.invalidations := rfl
@[simp] theorem State.setFunc_lost (s : State) (f : Func) : (s.setFunc f).lost = s.lost := rfl
@[simp] theorem State.setFunc_requests (s : State) (f : Func) : (s.setFunc f).requests = s.requests := rfl
@[simp] theorem State.setFunc_input (s : State) (f : Func) : (s.setFunc f).input = s.input := rfl
@[simp] theorem State.setFunc_plan (s : State) (f : Func) : (s.setFunc f).plan = s.plan := rfl
@[simp] theorem State.setFunc_agenda (s : State) (f : Func) : (s.setFunc f).agenda = s.agenda := rfl
@[simp] theorem State.setFunc_turn (s : State) (f : Func) : (s.setFunc f).turn = s.turn := rfl
@[simp] theorem State.setFunc_free (s : State) (f : Func) : (s.setFunc f).free = s.free := rfl

@[simp] theorem State.setPort_ports (s : State) (p : Fin 16) (x : Port) : (s.setPort p x).ports = s.ports.set p.val x p.isLt := rfl
@[simp] theorem State.setPort_power (s : State) (p : Fin 16) (x : Port) : (s.setPort p x).power = s.power := rfl
@[simp] theorem State.setPort_cur (s : State) (p : Fin 16) (x : Port) : (s.setPort p x).cur = s.cur := rfl
@[simp] theorem State.setPort_ahead (s : State) (p : Fin 16) (x : Port) : (s.setPort p x).ahead = s.ahead := rfl
@[simp] theorem State.setPort_t (s : State) (p : Fin 16) (x : Port) : (s.setPort p x).t = s.t := rfl
@[simp] theorem State.setPort_c (s : State) (p : Fin 16) (x : Port) : (s.setPort p x).c = s.c := rfl
@[simp] theorem State.setPort_tasks (s : State) (p : Fin 16) (x : Port) : (s.setPort p x).tasks = s.tasks := rfl
@[simp] theorem State.setPort_cores (s : State) (p : Fin 16) (x : Port) : (s.setPort p x).cores = s.cores := rfl
@[simp] theorem State.setPort_mem (s : State) (p : Fin 16) (x : Port) : (s.setPort p x).mem = s.mem := rfl
@[simp] theorem State.setPort_bad (s : State) (p : Fin 16) (x : Port) : (s.setPort p x).bad = s.bad := rfl
@[simp] theorem State.setPort_dies (s : State) (p : Fin 16) (x : Port) : (s.setPort p x).dies = s.dies := rfl
@[simp] theorem State.setPort_package (s : State) (p : Fin 16) (x : Port) : (s.setPort p x).package = s.package := rfl
@[simp] theorem State.setPort_funcs (s : State) (p : Fin 16) (x : Port) : (s.setPort p x).funcs = s.funcs := rfl
@[simp] theorem State.setPort_objs (s : State) (p : Fin 16) (x : Port) : (s.setPort p x).objs = s.objs := rfl
@[simp] theorem State.setPort_syms (s : State) (p : Fin 16) (x : Port) : (s.setPort p x).syms = s.syms := rfl
@[simp] theorem State.setPort_nextHandle (s : State) (p : Fin 16) (x : Port) : (s.setPort p x).nextHandle = s.nextHandle := rfl
@[simp] theorem State.setPort_loadStatus (s : State) (p : Fin 16) (x : Port) : (s.setPort p x).loadStatus = s.loadStatus := rfl
@[simp] theorem State.setPort_images (s : State) (p : Fin 16) (x : Port) : (s.setPort p x).images = s.images := rfl
@[simp] theorem State.setPort_candidates (s : State) (p : Fin 16) (x : Port) : (s.setPort p x).candidates = s.candidates := rfl
@[simp] theorem State.setPort_launches (s : State) (p : Fin 16) (x : Port) : (s.setPort p x).launches = s.launches := rfl
@[simp] theorem State.setPort_readyTasks (s : State) (p : Fin 16) (x : Port) : (s.setPort p x).readyTasks = s.readyTasks := rfl
@[simp] theorem State.setPort_nextLaunch (s : State) (p : Fin 16) (x : Port) : (s.setPort p x).nextLaunch = s.nextLaunch := rfl
@[simp] theorem State.setPort_lastQueue (s : State) (p : Fin 16) (x : Port) : (s.setPort p x).lastQueue = s.lastQueue := rfl
@[simp] theorem State.setPort_saved (s : State) (p : Fin 16) (x : Port) : (s.setPort p x).saved = s.saved := rfl
@[simp] theorem State.setPort_domains (s : State) (p : Fin 16) (x : Port) : (s.setPort p x).domains = s.domains := rfl
@[simp] theorem State.setPort_pasts (s : State) (p : Fin 16) (x : Port) : (s.setPort p x).pasts = s.pasts := rfl
@[simp] theorem State.setPort_tagPasts (s : State) (p : Fin 16) (x : Port) : (s.setPort p x).tagPasts = s.tagPasts := rfl
@[simp] theorem State.setPort_waiters (s : State) (p : Fin 16) (x : Port) : (s.setPort p x).waiters = s.waiters := rfl
@[simp] theorem State.setPort_arrivals (s : State) (p : Fin 16) (x : Port) : (s.setPort p x).arrivals = s.arrivals := rfl
@[simp] theorem State.setPort_releasers (s : State) (p : Fin 16) (x : Port) : (s.setPort p x).releasers = s.releasers := rfl
@[simp] theorem State.setPort_failed (s : State) (p : Fin 16) (x : Port) : (s.setPort p x).failed = s.failed := rfl
@[simp] theorem State.setPort_noRoute (s : State) (p : Fin 16) (x : Port) : (s.setPort p x).noRoute = s.noRoute := rfl
@[simp] theorem State.setPort_hops (s : State) (p : Fin 16) (x : Port) : (s.setPort p x).hops = s.hops := rfl
@[simp] theorem State.setPort_unrouted (s : State) (p : Fin 16) (x : Port) : (s.setPort p x).unrouted = s.unrouted := rfl
@[simp] theorem State.setPort_mgmt (s : State) (p : Fin 16) (x : Port) : (s.setPort p x).mgmt = s.mgmt := rfl
@[simp] theorem State.setPort_trust (s : State) (p : Fin 16) (x : Port) : (s.setPort p x).trust = s.trust := rfl
@[simp] theorem State.setPort_cycle (s : State) (p : Fin 16) (x : Port) : (s.setPort p x).cycle = s.cycle := rfl
@[simp] theorem State.setPort_timeBase (s : State) (p : Fin 16) (x : Port) : (s.setPort p x).timeBase = s.timeBase := rfl
@[simp] theorem State.setPort_timeCycle (s : State) (p : Fin 16) (x : Port) : (s.setPort p x).timeCycle = s.timeCycle := rfl
@[simp] theorem State.setPort_slew (s : State) (p : Fin 16) (x : Port) : (s.setPort p x).slew = s.slew := rfl
@[simp] theorem State.setPort_timePast (s : State) (p : Fin 16) (x : Port) : (s.setPort p x).timePast = s.timePast := rfl
@[simp] theorem State.setPort_tskew (s : State) (p : Fin 16) (x : Port) : (s.setPort p x).tskew = s.tskew := rfl
@[simp] theorem State.setPort_slot (s : State) (p : Fin 16) (x : Port) : (s.setPort p x).slot = s.slot := rfl
@[simp] theorem State.setPort_pLast (s : State) (p : Fin 16) (x : Port) : (s.setPort p x).pLast = s.pLast := rfl
@[simp] theorem State.setPort_partials (s : State) (p : Fin 16) (x : Port) : (s.setPort p x).partials = s.partials := rfl
@[simp] theorem State.setPort_otherNow (s : State) (p : Fin 16) (x : Port) : (s.setPort p x).otherNow = s.otherNow := rfl
@[simp] theorem State.setPort_otherLast (s : State) (p : Fin 16) (x : Port) : (s.setPort p x).otherLast = s.otherLast := rfl
@[simp] theorem State.setPort_weights (s : State) (p : Fin 16) (x : Port) : (s.setPort p x).weights = s.weights := rfl
@[simp] theorem State.setPort_claims (s : State) (p : Fin 16) (x : Port) : (s.setPort p x).claims = s.claims := rfl
@[simp] theorem State.setPort_startStep (s : State) (p : Fin 16) (x : Port) : (s.setPort p x).startStep = s.startStep := rfl
@[simp] theorem State.setPort_invalidations (s : State) (p : Fin 16) (x : Port) : (s.setPort p x).invalidations = s.invalidations := rfl
@[simp] theorem State.setPort_lost (s : State) (p : Fin 16) (x : Port) : (s.setPort p x).lost = s.lost := rfl
@[simp] theorem State.setPort_requests (s : State) (p : Fin 16) (x : Port) : (s.setPort p x).requests = s.requests := rfl
@[simp] theorem State.setPort_input (s : State) (p : Fin 16) (x : Port) : (s.setPort p x).input = s.input := rfl
@[simp] theorem State.setPort_plan (s : State) (p : Fin 16) (x : Port) : (s.setPort p x).plan = s.plan := rfl
@[simp] theorem State.setPort_agenda (s : State) (p : Fin 16) (x : Port) : (s.setPort p x).agenda = s.agenda := rfl
@[simp] theorem State.setPort_turn (s : State) (p : Fin 16) (x : Port) : (s.setPort p x).turn = s.turn := rfl
@[simp] theorem State.setPort_free (s : State) (p : Fin 16) (x : Port) : (s.setPort p x).free = s.free := rfl

@[simp] theorem State.setLaunch_launches (s : State) (l : Launch) : (s.setLaunch l).launches = s.launches.map fun m => if m.id = l.id then l else m := rfl
@[simp] theorem State.setLaunch_power (s : State) (l : Launch) : (s.setLaunch l).power = s.power := rfl
@[simp] theorem State.setLaunch_cur (s : State) (l : Launch) : (s.setLaunch l).cur = s.cur := rfl
@[simp] theorem State.setLaunch_ahead (s : State) (l : Launch) : (s.setLaunch l).ahead = s.ahead := rfl
@[simp] theorem State.setLaunch_t (s : State) (l : Launch) : (s.setLaunch l).t = s.t := rfl
@[simp] theorem State.setLaunch_c (s : State) (l : Launch) : (s.setLaunch l).c = s.c := rfl
@[simp] theorem State.setLaunch_tasks (s : State) (l : Launch) : (s.setLaunch l).tasks = s.tasks := rfl
@[simp] theorem State.setLaunch_cores (s : State) (l : Launch) : (s.setLaunch l).cores = s.cores := rfl
@[simp] theorem State.setLaunch_mem (s : State) (l : Launch) : (s.setLaunch l).mem = s.mem := rfl
@[simp] theorem State.setLaunch_bad (s : State) (l : Launch) : (s.setLaunch l).bad = s.bad := rfl
@[simp] theorem State.setLaunch_dies (s : State) (l : Launch) : (s.setLaunch l).dies = s.dies := rfl
@[simp] theorem State.setLaunch_package (s : State) (l : Launch) : (s.setLaunch l).package = s.package := rfl
@[simp] theorem State.setLaunch_funcs (s : State) (l : Launch) : (s.setLaunch l).funcs = s.funcs := rfl
@[simp] theorem State.setLaunch_objs (s : State) (l : Launch) : (s.setLaunch l).objs = s.objs := rfl
@[simp] theorem State.setLaunch_syms (s : State) (l : Launch) : (s.setLaunch l).syms = s.syms := rfl
@[simp] theorem State.setLaunch_nextHandle (s : State) (l : Launch) : (s.setLaunch l).nextHandle = s.nextHandle := rfl
@[simp] theorem State.setLaunch_loadStatus (s : State) (l : Launch) : (s.setLaunch l).loadStatus = s.loadStatus := rfl
@[simp] theorem State.setLaunch_images (s : State) (l : Launch) : (s.setLaunch l).images = s.images := rfl
@[simp] theorem State.setLaunch_candidates (s : State) (l : Launch) : (s.setLaunch l).candidates = s.candidates := rfl
@[simp] theorem State.setLaunch_readyTasks (s : State) (l : Launch) : (s.setLaunch l).readyTasks = s.readyTasks := rfl
@[simp] theorem State.setLaunch_nextLaunch (s : State) (l : Launch) : (s.setLaunch l).nextLaunch = s.nextLaunch := rfl
@[simp] theorem State.setLaunch_lastQueue (s : State) (l : Launch) : (s.setLaunch l).lastQueue = s.lastQueue := rfl
@[simp] theorem State.setLaunch_saved (s : State) (l : Launch) : (s.setLaunch l).saved = s.saved := rfl
@[simp] theorem State.setLaunch_domains (s : State) (l : Launch) : (s.setLaunch l).domains = s.domains := rfl
@[simp] theorem State.setLaunch_pasts (s : State) (l : Launch) : (s.setLaunch l).pasts = s.pasts := rfl
@[simp] theorem State.setLaunch_tagPasts (s : State) (l : Launch) : (s.setLaunch l).tagPasts = s.tagPasts := rfl
@[simp] theorem State.setLaunch_waiters (s : State) (l : Launch) : (s.setLaunch l).waiters = s.waiters := rfl
@[simp] theorem State.setLaunch_arrivals (s : State) (l : Launch) : (s.setLaunch l).arrivals = s.arrivals := rfl
@[simp] theorem State.setLaunch_releasers (s : State) (l : Launch) : (s.setLaunch l).releasers = s.releasers := rfl
@[simp] theorem State.setLaunch_ports (s : State) (l : Launch) : (s.setLaunch l).ports = s.ports := rfl
@[simp] theorem State.setLaunch_failed (s : State) (l : Launch) : (s.setLaunch l).failed = s.failed := rfl
@[simp] theorem State.setLaunch_noRoute (s : State) (l : Launch) : (s.setLaunch l).noRoute = s.noRoute := rfl
@[simp] theorem State.setLaunch_hops (s : State) (l : Launch) : (s.setLaunch l).hops = s.hops := rfl
@[simp] theorem State.setLaunch_unrouted (s : State) (l : Launch) : (s.setLaunch l).unrouted = s.unrouted := rfl
@[simp] theorem State.setLaunch_mgmt (s : State) (l : Launch) : (s.setLaunch l).mgmt = s.mgmt := rfl
@[simp] theorem State.setLaunch_trust (s : State) (l : Launch) : (s.setLaunch l).trust = s.trust := rfl
@[simp] theorem State.setLaunch_cycle (s : State) (l : Launch) : (s.setLaunch l).cycle = s.cycle := rfl
@[simp] theorem State.setLaunch_timeBase (s : State) (l : Launch) : (s.setLaunch l).timeBase = s.timeBase := rfl
@[simp] theorem State.setLaunch_timeCycle (s : State) (l : Launch) : (s.setLaunch l).timeCycle = s.timeCycle := rfl
@[simp] theorem State.setLaunch_slew (s : State) (l : Launch) : (s.setLaunch l).slew = s.slew := rfl
@[simp] theorem State.setLaunch_timePast (s : State) (l : Launch) : (s.setLaunch l).timePast = s.timePast := rfl
@[simp] theorem State.setLaunch_tskew (s : State) (l : Launch) : (s.setLaunch l).tskew = s.tskew := rfl
@[simp] theorem State.setLaunch_slot (s : State) (l : Launch) : (s.setLaunch l).slot = s.slot := rfl
@[simp] theorem State.setLaunch_pLast (s : State) (l : Launch) : (s.setLaunch l).pLast = s.pLast := rfl
@[simp] theorem State.setLaunch_partials (s : State) (l : Launch) : (s.setLaunch l).partials = s.partials := rfl
@[simp] theorem State.setLaunch_otherNow (s : State) (l : Launch) : (s.setLaunch l).otherNow = s.otherNow := rfl
@[simp] theorem State.setLaunch_otherLast (s : State) (l : Launch) : (s.setLaunch l).otherLast = s.otherLast := rfl
@[simp] theorem State.setLaunch_weights (s : State) (l : Launch) : (s.setLaunch l).weights = s.weights := rfl
@[simp] theorem State.setLaunch_claims (s : State) (l : Launch) : (s.setLaunch l).claims = s.claims := rfl
@[simp] theorem State.setLaunch_startStep (s : State) (l : Launch) : (s.setLaunch l).startStep = s.startStep := rfl
@[simp] theorem State.setLaunch_invalidations (s : State) (l : Launch) : (s.setLaunch l).invalidations = s.invalidations := rfl
@[simp] theorem State.setLaunch_lost (s : State) (l : Launch) : (s.setLaunch l).lost = s.lost := rfl
@[simp] theorem State.setLaunch_requests (s : State) (l : Launch) : (s.setLaunch l).requests = s.requests := rfl
@[simp] theorem State.setLaunch_input (s : State) (l : Launch) : (s.setLaunch l).input = s.input := rfl
@[simp] theorem State.setLaunch_plan (s : State) (l : Launch) : (s.setLaunch l).plan = s.plan := rfl
@[simp] theorem State.setLaunch_agenda (s : State) (l : Launch) : (s.setLaunch l).agenda = s.agenda := rfl
@[simp] theorem State.setLaunch_turn (s : State) (l : Launch) : (s.setLaunch l).turn = s.turn := rfl
@[simp] theorem State.setLaunch_free (s : State) (l : Launch) : (s.setLaunch l).free = s.free := rfl

@[simp] theorem State.post_agenda (s : State) (i : Instr) (n : List Nat) : (s.post i n).agenda = s.agenda ++ [(i, { n := n })] := rfl
@[simp] theorem State.post_power (s : State) (i : Instr) (n : List Nat) : (s.post i n).power = s.power := rfl
@[simp] theorem State.post_cur (s : State) (i : Instr) (n : List Nat) : (s.post i n).cur = s.cur := rfl
@[simp] theorem State.post_ahead (s : State) (i : Instr) (n : List Nat) : (s.post i n).ahead = s.ahead := rfl
@[simp] theorem State.post_t (s : State) (i : Instr) (n : List Nat) : (s.post i n).t = s.t := rfl
@[simp] theorem State.post_c (s : State) (i : Instr) (n : List Nat) : (s.post i n).c = s.c := rfl
@[simp] theorem State.post_tasks (s : State) (i : Instr) (n : List Nat) : (s.post i n).tasks = s.tasks := rfl
@[simp] theorem State.post_cores (s : State) (i : Instr) (n : List Nat) : (s.post i n).cores = s.cores := rfl
@[simp] theorem State.post_mem (s : State) (i : Instr) (n : List Nat) : (s.post i n).mem = s.mem := rfl
@[simp] theorem State.post_bad (s : State) (i : Instr) (n : List Nat) : (s.post i n).bad = s.bad := rfl
@[simp] theorem State.post_dies (s : State) (i : Instr) (n : List Nat) : (s.post i n).dies = s.dies := rfl
@[simp] theorem State.post_package (s : State) (i : Instr) (n : List Nat) : (s.post i n).package = s.package := rfl
@[simp] theorem State.post_funcs (s : State) (i : Instr) (n : List Nat) : (s.post i n).funcs = s.funcs := rfl
@[simp] theorem State.post_objs (s : State) (i : Instr) (n : List Nat) : (s.post i n).objs = s.objs := rfl
@[simp] theorem State.post_syms (s : State) (i : Instr) (n : List Nat) : (s.post i n).syms = s.syms := rfl
@[simp] theorem State.post_nextHandle (s : State) (i : Instr) (n : List Nat) : (s.post i n).nextHandle = s.nextHandle := rfl
@[simp] theorem State.post_loadStatus (s : State) (i : Instr) (n : List Nat) : (s.post i n).loadStatus = s.loadStatus := rfl
@[simp] theorem State.post_images (s : State) (i : Instr) (n : List Nat) : (s.post i n).images = s.images := rfl
@[simp] theorem State.post_candidates (s : State) (i : Instr) (n : List Nat) : (s.post i n).candidates = s.candidates := rfl
@[simp] theorem State.post_launches (s : State) (i : Instr) (n : List Nat) : (s.post i n).launches = s.launches := rfl
@[simp] theorem State.post_readyTasks (s : State) (i : Instr) (n : List Nat) : (s.post i n).readyTasks = s.readyTasks := rfl
@[simp] theorem State.post_nextLaunch (s : State) (i : Instr) (n : List Nat) : (s.post i n).nextLaunch = s.nextLaunch := rfl
@[simp] theorem State.post_lastQueue (s : State) (i : Instr) (n : List Nat) : (s.post i n).lastQueue = s.lastQueue := rfl
@[simp] theorem State.post_saved (s : State) (i : Instr) (n : List Nat) : (s.post i n).saved = s.saved := rfl
@[simp] theorem State.post_domains (s : State) (i : Instr) (n : List Nat) : (s.post i n).domains = s.domains := rfl
@[simp] theorem State.post_pasts (s : State) (i : Instr) (n : List Nat) : (s.post i n).pasts = s.pasts := rfl
@[simp] theorem State.post_tagPasts (s : State) (i : Instr) (n : List Nat) : (s.post i n).tagPasts = s.tagPasts := rfl
@[simp] theorem State.post_waiters (s : State) (i : Instr) (n : List Nat) : (s.post i n).waiters = s.waiters := rfl
@[simp] theorem State.post_arrivals (s : State) (i : Instr) (n : List Nat) : (s.post i n).arrivals = s.arrivals := rfl
@[simp] theorem State.post_releasers (s : State) (i : Instr) (n : List Nat) : (s.post i n).releasers = s.releasers := rfl
@[simp] theorem State.post_ports (s : State) (i : Instr) (n : List Nat) : (s.post i n).ports = s.ports := rfl
@[simp] theorem State.post_failed (s : State) (i : Instr) (n : List Nat) : (s.post i n).failed = s.failed := rfl
@[simp] theorem State.post_noRoute (s : State) (i : Instr) (n : List Nat) : (s.post i n).noRoute = s.noRoute := rfl
@[simp] theorem State.post_hops (s : State) (i : Instr) (n : List Nat) : (s.post i n).hops = s.hops := rfl
@[simp] theorem State.post_unrouted (s : State) (i : Instr) (n : List Nat) : (s.post i n).unrouted = s.unrouted := rfl
@[simp] theorem State.post_mgmt (s : State) (i : Instr) (n : List Nat) : (s.post i n).mgmt = s.mgmt := rfl
@[simp] theorem State.post_trust (s : State) (i : Instr) (n : List Nat) : (s.post i n).trust = s.trust := rfl
@[simp] theorem State.post_cycle (s : State) (i : Instr) (n : List Nat) : (s.post i n).cycle = s.cycle := rfl
@[simp] theorem State.post_timeBase (s : State) (i : Instr) (n : List Nat) : (s.post i n).timeBase = s.timeBase := rfl
@[simp] theorem State.post_timeCycle (s : State) (i : Instr) (n : List Nat) : (s.post i n).timeCycle = s.timeCycle := rfl
@[simp] theorem State.post_slew (s : State) (i : Instr) (n : List Nat) : (s.post i n).slew = s.slew := rfl
@[simp] theorem State.post_timePast (s : State) (i : Instr) (n : List Nat) : (s.post i n).timePast = s.timePast := rfl
@[simp] theorem State.post_tskew (s : State) (i : Instr) (n : List Nat) : (s.post i n).tskew = s.tskew := rfl
@[simp] theorem State.post_slot (s : State) (i : Instr) (n : List Nat) : (s.post i n).slot = s.slot := rfl
@[simp] theorem State.post_pLast (s : State) (i : Instr) (n : List Nat) : (s.post i n).pLast = s.pLast := rfl
@[simp] theorem State.post_partials (s : State) (i : Instr) (n : List Nat) : (s.post i n).partials = s.partials := rfl
@[simp] theorem State.post_otherNow (s : State) (i : Instr) (n : List Nat) : (s.post i n).otherNow = s.otherNow := rfl
@[simp] theorem State.post_otherLast (s : State) (i : Instr) (n : List Nat) : (s.post i n).otherLast = s.otherLast := rfl
@[simp] theorem State.post_weights (s : State) (i : Instr) (n : List Nat) : (s.post i n).weights = s.weights := rfl
@[simp] theorem State.post_claims (s : State) (i : Instr) (n : List Nat) : (s.post i n).claims = s.claims := rfl
@[simp] theorem State.post_startStep (s : State) (i : Instr) (n : List Nat) : (s.post i n).startStep = s.startStep := rfl
@[simp] theorem State.post_invalidations (s : State) (i : Instr) (n : List Nat) : (s.post i n).invalidations = s.invalidations := rfl
@[simp] theorem State.post_lost (s : State) (i : Instr) (n : List Nat) : (s.post i n).lost = s.lost := rfl
@[simp] theorem State.post_requests (s : State) (i : Instr) (n : List Nat) : (s.post i n).requests = s.requests := rfl
@[simp] theorem State.post_input (s : State) (i : Instr) (n : List Nat) : (s.post i n).input = s.input := rfl
@[simp] theorem State.post_plan (s : State) (i : Instr) (n : List Nat) : (s.post i n).plan = s.plan := rfl
@[simp] theorem State.post_turn (s : State) (i : Instr) (n : List Nat) : (s.post i n).turn = s.turn := rfl
@[simp] theorem State.post_free (s : State) (i : Instr) (n : List Nat) : (s.post i n).free = s.free := rfl

@[simp] theorem State.postFirst_agenda (s : State) (i : Instr) (n : List Nat) : (s.postFirst i n).agenda = (i, { n := n }) :: s.agenda := rfl
@[simp] theorem State.postFirst_power (s : State) (i : Instr) (n : List Nat) : (s.postFirst i n).power = s.power := rfl
@[simp] theorem State.postFirst_cur (s : State) (i : Instr) (n : List Nat) : (s.postFirst i n).cur = s.cur := rfl
@[simp] theorem State.postFirst_ahead (s : State) (i : Instr) (n : List Nat) : (s.postFirst i n).ahead = s.ahead := rfl
@[simp] theorem State.postFirst_t (s : State) (i : Instr) (n : List Nat) : (s.postFirst i n).t = s.t := rfl
@[simp] theorem State.postFirst_c (s : State) (i : Instr) (n : List Nat) : (s.postFirst i n).c = s.c := rfl
@[simp] theorem State.postFirst_tasks (s : State) (i : Instr) (n : List Nat) : (s.postFirst i n).tasks = s.tasks := rfl
@[simp] theorem State.postFirst_cores (s : State) (i : Instr) (n : List Nat) : (s.postFirst i n).cores = s.cores := rfl
@[simp] theorem State.postFirst_mem (s : State) (i : Instr) (n : List Nat) : (s.postFirst i n).mem = s.mem := rfl
@[simp] theorem State.postFirst_bad (s : State) (i : Instr) (n : List Nat) : (s.postFirst i n).bad = s.bad := rfl
@[simp] theorem State.postFirst_dies (s : State) (i : Instr) (n : List Nat) : (s.postFirst i n).dies = s.dies := rfl
@[simp] theorem State.postFirst_package (s : State) (i : Instr) (n : List Nat) : (s.postFirst i n).package = s.package := rfl
@[simp] theorem State.postFirst_funcs (s : State) (i : Instr) (n : List Nat) : (s.postFirst i n).funcs = s.funcs := rfl
@[simp] theorem State.postFirst_objs (s : State) (i : Instr) (n : List Nat) : (s.postFirst i n).objs = s.objs := rfl
@[simp] theorem State.postFirst_syms (s : State) (i : Instr) (n : List Nat) : (s.postFirst i n).syms = s.syms := rfl
@[simp] theorem State.postFirst_nextHandle (s : State) (i : Instr) (n : List Nat) : (s.postFirst i n).nextHandle = s.nextHandle := rfl
@[simp] theorem State.postFirst_loadStatus (s : State) (i : Instr) (n : List Nat) : (s.postFirst i n).loadStatus = s.loadStatus := rfl
@[simp] theorem State.postFirst_images (s : State) (i : Instr) (n : List Nat) : (s.postFirst i n).images = s.images := rfl
@[simp] theorem State.postFirst_candidates (s : State) (i : Instr) (n : List Nat) : (s.postFirst i n).candidates = s.candidates := rfl
@[simp] theorem State.postFirst_launches (s : State) (i : Instr) (n : List Nat) : (s.postFirst i n).launches = s.launches := rfl
@[simp] theorem State.postFirst_readyTasks (s : State) (i : Instr) (n : List Nat) : (s.postFirst i n).readyTasks = s.readyTasks := rfl
@[simp] theorem State.postFirst_nextLaunch (s : State) (i : Instr) (n : List Nat) : (s.postFirst i n).nextLaunch = s.nextLaunch := rfl
@[simp] theorem State.postFirst_lastQueue (s : State) (i : Instr) (n : List Nat) : (s.postFirst i n).lastQueue = s.lastQueue := rfl
@[simp] theorem State.postFirst_saved (s : State) (i : Instr) (n : List Nat) : (s.postFirst i n).saved = s.saved := rfl
@[simp] theorem State.postFirst_domains (s : State) (i : Instr) (n : List Nat) : (s.postFirst i n).domains = s.domains := rfl
@[simp] theorem State.postFirst_pasts (s : State) (i : Instr) (n : List Nat) : (s.postFirst i n).pasts = s.pasts := rfl
@[simp] theorem State.postFirst_tagPasts (s : State) (i : Instr) (n : List Nat) : (s.postFirst i n).tagPasts = s.tagPasts := rfl
@[simp] theorem State.postFirst_waiters (s : State) (i : Instr) (n : List Nat) : (s.postFirst i n).waiters = s.waiters := rfl
@[simp] theorem State.postFirst_arrivals (s : State) (i : Instr) (n : List Nat) : (s.postFirst i n).arrivals = s.arrivals := rfl
@[simp] theorem State.postFirst_releasers (s : State) (i : Instr) (n : List Nat) : (s.postFirst i n).releasers = s.releasers := rfl
@[simp] theorem State.postFirst_ports (s : State) (i : Instr) (n : List Nat) : (s.postFirst i n).ports = s.ports := rfl
@[simp] theorem State.postFirst_failed (s : State) (i : Instr) (n : List Nat) : (s.postFirst i n).failed = s.failed := rfl
@[simp] theorem State.postFirst_noRoute (s : State) (i : Instr) (n : List Nat) : (s.postFirst i n).noRoute = s.noRoute := rfl
@[simp] theorem State.postFirst_hops (s : State) (i : Instr) (n : List Nat) : (s.postFirst i n).hops = s.hops := rfl
@[simp] theorem State.postFirst_unrouted (s : State) (i : Instr) (n : List Nat) : (s.postFirst i n).unrouted = s.unrouted := rfl
@[simp] theorem State.postFirst_mgmt (s : State) (i : Instr) (n : List Nat) : (s.postFirst i n).mgmt = s.mgmt := rfl
@[simp] theorem State.postFirst_trust (s : State) (i : Instr) (n : List Nat) : (s.postFirst i n).trust = s.trust := rfl
@[simp] theorem State.postFirst_cycle (s : State) (i : Instr) (n : List Nat) : (s.postFirst i n).cycle = s.cycle := rfl
@[simp] theorem State.postFirst_timeBase (s : State) (i : Instr) (n : List Nat) : (s.postFirst i n).timeBase = s.timeBase := rfl
@[simp] theorem State.postFirst_timeCycle (s : State) (i : Instr) (n : List Nat) : (s.postFirst i n).timeCycle = s.timeCycle := rfl
@[simp] theorem State.postFirst_slew (s : State) (i : Instr) (n : List Nat) : (s.postFirst i n).slew = s.slew := rfl
@[simp] theorem State.postFirst_timePast (s : State) (i : Instr) (n : List Nat) : (s.postFirst i n).timePast = s.timePast := rfl
@[simp] theorem State.postFirst_tskew (s : State) (i : Instr) (n : List Nat) : (s.postFirst i n).tskew = s.tskew := rfl
@[simp] theorem State.postFirst_slot (s : State) (i : Instr) (n : List Nat) : (s.postFirst i n).slot = s.slot := rfl
@[simp] theorem State.postFirst_pLast (s : State) (i : Instr) (n : List Nat) : (s.postFirst i n).pLast = s.pLast := rfl
@[simp] theorem State.postFirst_partials (s : State) (i : Instr) (n : List Nat) : (s.postFirst i n).partials = s.partials := rfl
@[simp] theorem State.postFirst_otherNow (s : State) (i : Instr) (n : List Nat) : (s.postFirst i n).otherNow = s.otherNow := rfl
@[simp] theorem State.postFirst_otherLast (s : State) (i : Instr) (n : List Nat) : (s.postFirst i n).otherLast = s.otherLast := rfl
@[simp] theorem State.postFirst_weights (s : State) (i : Instr) (n : List Nat) : (s.postFirst i n).weights = s.weights := rfl
@[simp] theorem State.postFirst_claims (s : State) (i : Instr) (n : List Nat) : (s.postFirst i n).claims = s.claims := rfl
@[simp] theorem State.postFirst_startStep (s : State) (i : Instr) (n : List Nat) : (s.postFirst i n).startStep = s.startStep := rfl
@[simp] theorem State.postFirst_invalidations (s : State) (i : Instr) (n : List Nat) : (s.postFirst i n).invalidations = s.invalidations := rfl
@[simp] theorem State.postFirst_lost (s : State) (i : Instr) (n : List Nat) : (s.postFirst i n).lost = s.lost := rfl
@[simp] theorem State.postFirst_requests (s : State) (i : Instr) (n : List Nat) : (s.postFirst i n).requests = s.requests := rfl
@[simp] theorem State.postFirst_input (s : State) (i : Instr) (n : List Nat) : (s.postFirst i n).input = s.input := rfl
@[simp] theorem State.postFirst_plan (s : State) (i : Instr) (n : List Nat) : (s.postFirst i n).plan = s.plan := rfl
@[simp] theorem State.postFirst_turn (s : State) (i : Instr) (n : List Nat) : (s.postFirst i n).turn = s.turn := rfl
@[simp] theorem State.postFirst_free (s : State) (i : Instr) (n : List Nat) : (s.postFirst i n).free = s.free := rfl

/-! ## Scalar registers (R63) -/

/-- What a register reads after a write of another, of itself, and of g0. -/
@[simp] theorem State.setG_g (s : State) (r q : GReg) (v : Word) :
    (s.setG r v).g q = if q = r ∧ r ≠ 0 then v else s.g q := by
  unfold State.g State.setG Task.setG
  by_cases h0 : q = 0
  · subst h0
    by_cases h1 : r = 0
    · simp [h1]
    · simp [h1, Ne.symm h1]
  · by_cases h1 : r = 0
    · subst h1; simp [h0]
    · by_cases h2 : q = r
      · subst h2; simp [h0]
      · have : r.val ≠ q.val := fun h => h2 (Fin.ext h.symm)
        simp [h0, h1, h2, this]

@[simp] theorem State.seq_g (s : State) (q : GReg) : s.seq.g q = s.g q := by
  simp [State.g]

end Sys2Proof.Machine
end

