-- ==== Sys2Proof/Laws/Places.lean ====
section
/-! SUPPORT. Places: a store to n bytes of one line reads back, and leaves every other existing byte alone. -/

namespace Sys2Proof.Machine

/-! ## Bit fields -/

theorem testBit_field (x p l j : Nat) : (field x p l).testBit j = (decide (j < l) && x.testBit (p + j)) := by
  simp [field, Nat.testBit_mod_two_pow, Nat.testBit_div_two_pow, Nat.add_comm]

theorem field_splice_same (x p l v : Nat) : field (splice x p l v) p l = v % 2 ^ l := by
  apply Nat.eq_of_testBit_eq
  intro j
  rw [testBit_field, testBit_splice]
  by_cases h : j < l <;> simp [h, Nat.testBit_mod_two_pow]

theorem field_splice_other (x p l v q k : Nat) (h : q + k ≤ p ∨ p + l ≤ q) : field (splice x p l v) q k = field x q k := by
  apply Nat.eq_of_testBit_eq
  intro j
  rw [testBit_field, testBit_field, testBit_splice]
  by_cases hj : j < k
  · have : ¬ (p ≤ q + j ∧ q + j < p + l) := by omega
    rw [if_neg this]
  · simp [hj]

theorem field_mod (x p l w : Nat) (h : p + l ≤ w) : field (x % 2 ^ w) p l = field x p l := by
  apply Nat.eq_of_testBit_eq
  intro j
  rw [testBit_field, testBit_field, Nat.testBit_mod_two_pow]
  by_cases hj : j < l
  · have : p + j < w := by omega
    simp [hj, this]
  · simp [hj]

theorem field_lt (x p l : Nat) : field x p l < 2 ^ l := Nat.mod_lt _ (by positivity)

/-! ## Cores and tiles by number -/

theorem coreAt_num (s : State) (n : Nat) : (s.coreAt n).num = n := by
  unfold State.coreAt
  split
  next h => exact h
  next h =>
    cases hf : s.cores.find? fun c => c.num == n with
    | none => rfl
    | some c => simpa using List.find?_some hf

theorem coreAt_setCore (s : State) (c : Core) (n : Nat) :
    (s.setCore c).coreAt n = if n = c.num then c else s.coreAt n := by
  unfold State.setCore State.coreAt
  by_cases hc : s.c.num = c.num
  · by_cases hn : n = c.num
    · simp [hc, hn]
    · have h1 : ¬ c.num = n := fun h => hn h.symm
      simp [hc, hn, h1]
  · by_cases hn : n = c.num
    · subst hn; simp [hc]
    · have h1 : ¬ c.num = n := fun h => hn h.symm
      rw [if_neg hc, if_neg hn]
      by_cases hs : s.c.num = n
      · simp [hs]
      · simp only [if_neg hs]
        congr 1
        rw [List.find?_cons_of_neg (by simpa using h1), List.find?_filter]
        congr 1
        funext d
        by_cases hd : d.num = n
        · simp [hd, hn]
        · simp [hd]

theorem tileAt_setTile (c : Core) (t : Tile) (n : Nat) : (c.setTile t).tileAt n = if n = t.n then t else c.tileAt n := by
  unfold Core.setTile Core.tileAt
  by_cases hn : n = t.n
  · subst hn
    by_cases hz : t.bytes = 0 ∧ t.tag = 0 ∧ t.checked = false
    · have : (c.tiles.filter fun u => u.n != t.n).find? (fun u => u.n == t.n) = none := by
        refine List.find?_eq_none.2 fun u hu => ?_
        have := (List.mem_filter.1 hu).2
        simpa using this
      obtain ⟨n, b, g, k⟩ := t
      simp only [if_pos hz, if_true]
      rw [this]
      obtain ⟨h1, h2, h3⟩ := hz
      simp_all
    · rw [if_pos rfl]
      dsimp only
      rw [if_neg hz]
      simp
  · have h1 : ¬ t.n = n := fun h => hn h.symm
    have h2 : (c.tiles.filter fun u => u.n != t.n).find? (fun u => u.n == n) = c.tiles.find? fun u => u.n == n := by
      rw [List.find?_filter]
      congr 1
      funext d
      by_cases hd : d.n = n
      · simp [hd, hn]
      · simp [hd]
    rw [if_neg hn]
    split <;> simp [h1, h2]

theorem setTile_num (c : Core) (t : Tile) : (c.setTile t).num = c.num := rfl

theorem setTile_lanes (c : Core) (t : Tile) : (c.setTile t).lanes = c.lanes := rfl
theorem setTile_bstore (c : Core) (t : Tile) : (c.setTile t).bstore = c.bstore := rfl
theorem setTile_holder (c : Core) (t : Tile) : (c.setTile t).holder = c.holder := rfl

theorem tileAt_n (c : Core) (n : Nat) : (c.tileAt n).n = n := by
  unfold Core.tileAt
  cases hf : c.tiles.find? fun t => t.n == n with
  | none => rfl
  | some t => simpa using List.find?_some hf

/-! ## Lines of the on-chip map -/

/-- The line at a, of a core's own registers as c holds them. -/
def coreLine (s : State) (c : Core) (a : Nat) : Nat :=
  let o := mapOff a
  match mapSpace a with
  | 0 => field (c.tileAt (o / 4096)).bytes.toNat (o % 4096 * 8) 512
  | 1 => field c.lanes.v[Fin.ofNat 256 (o / 4096)].toNat (o % 4096 * 8) 512
  | 2 =>
    if o < 0x20000 then
      field (c.lanes.tile[Fin.ofNat 8 (o / 0x4000)])[Fin.ofNat 64 (o % 0x4000 / 256)].toNat (o % 256 * 8) 512
    else
      let d := c.lanes.side[Fin.ofNat 8 ((o - 0x20000) / 0x400)]
      let r := (o - 0x20000) % 0x400 / 16
      sideLine d r
  | 3 => field (c.lanes.acc[Fin.ofNat 16 (o / 0x2000)])[Fin.ofNat 32 (o % 0x2000 / 256)].toNat (o % 256 * 8) 512
  | 4 => Memory.read c.bstore o 64
  | 5 => (List.range 64).foldl (fun acc i => acc + riserByte s c.num (o + i) * 2 ^ (8 * i)) 0
  | 15 =>
    let l := (s.launches.find? fun l => argPlace l.id / 2 ^ 31 == (chip + a) / 2 ^ 31).map fun l => l.record.args
    leNat (((l.getD []).drop o).take 64)
  | _ => 0

theorem chipLine_eq (s : State) (a : Nat) : chipLine s a = coreLine s (s.coreAt (mapNum a)) a := rfl

theorem setCore_rest (s : State) (c : Core) :
    (s.setCore c).t = s.t ∧ (s.setCore c).tasks = s.tasks ∧ (s.setCore c).launches = s.launches ∧
      (s.setCore c).free = s.free ∧ (s.setCore c).mem = s.mem := by
  unfold State.setCore; split <;> exact ⟨rfl, rfl, rfl, rfl, rfl⟩

theorem riserByte_setCore (s : State) (c : Core) (hh : c.holder = (s.coreAt c.num).holder) (n b : Nat) :
    riserByte (s.setCore c) n b = riserByte s n b := by
  obtain ⟨h1, h2, -, h3, -⟩ := setCore_rest s c
  have hc : ((s.setCore c).coreAt n).holder = (s.coreAt n).holder := by
    rw [coreAt_setCore]; split
    next h => rw [hh, h]
    next => rfl
  have ht (h : Nat) : (s.setCore c).taskAt n h = s.taskAt n h := by unfold State.taskAt; rw [h1, h2]
  unfold riserByte
  rw [hc, h3]
  simp only [ht]

theorem chipLine_setCore (s : State) (c : Core) (hh : c.holder = (s.coreAt c.num).holder) (b : Nat) :
    chipLine (s.setCore c) b = if mapNum b = c.num then coreLine s c b else chipLine s b := by
  obtain ⟨-, -, h1, -, -⟩ := setCore_rest s c
  rw [chipLine_eq, chipLine_eq, coreAt_setCore]
  have e (d : Core) : coreLine (s.setCore c) d b = coreLine s d b := by
    unfold coreLine
    simp only [riserByte_setCore s c hh, h1]
  split <;> rw [e]

/-- A line of the map that exists (Table 6-2). -/
def lineOk (a : Nat) : Prop := a < 2 ^ 40 ∧ a % 64 = 0 ∧ mapCore a < 36 ∧ mapOff a < spaceSize (mapSpace a)

theorem line_ext {a b : Nat} (ha : lineOk a) (hb : lineOk b) (hn : mapNum b = mapNum a) (hs : mapSpace b = mapSpace a)
    (ho : mapOff b = mapOff a) : b = a := by
  obtain ⟨a1, -, a2, -⟩ := ha
  obtain ⟨b1, -, b2, -⟩ := hb
  unfold mapNum mapDie mapCore mapSpace mapOff at *
  omega

theorem ofNat_field (w x p l : Nat) (h : p + l ≤ w) : field (BitVec.ofNat w x).toNat p l = field x p l := by
  rw [BitVec.toNat_ofNat, field_mod _ _ _ _ h]

/-- One register of many, one line of many: the line written, or another. -/
theorem reg_line {w n : Nat} (l : Vector (BitVec w) n) (i j : Fin n) (p q x : Nat) (hq : q + 512 ≤ w)
    (hd : i = j → p = q ∨ p + 512 ≤ q ∨ q + 512 ≤ p) :
    field ((l.set i.val (BitVec.ofNat w (splice l[i].toNat p 512 x)) i.isLt)[j]).toNat q 512 =
      if i = j ∧ p = q then x % 2 ^ 512 else field l[j].toNat q 512 := by
  by_cases hij : i = j
  · subst hij
    have : (l.set i.val (BitVec.ofNat w (splice l[i].toNat p 512 x)) i.isLt)[i] = BitVec.ofNat w (splice l[i].toNat p 512 x) := by
      simp
    rw [this, ofNat_field _ _ _ _ hq]
    by_cases hpq : p = q
    · subst hpq; rw [if_pos ⟨rfl, rfl⟩, field_splice_same]
    · rw [if_neg (fun h => hpq h.2), field_splice_other]
      rcases hd rfl with h | h | h
      · exact (hpq h).elim
      · exact Or.inr h
      · exact Or.inl h
  · have h2 : i.val ≠ j.val := fun h => hij (Fin.ext h)
    rw [if_neg (fun h => hij h.1)]
    congr 2
    simp [h2]

/-- The same of one row of one register of many. -/
theorem grid_line {w n m : Nat} (l : Vector (Vector (BitVec w) n) m) (i k : Fin m) (j r : Fin n) (p q x : Nat) (hq : q + 512 ≤ w)
    (hd : i = k → j = r → p = q ∨ p + 512 ≤ q ∨ q + 512 ≤ p) :
    field (((l.set i.val (l[i].set j.val (BitVec.ofNat w (splice (l[i])[j].toNat p 512 x)) j.isLt) i.isLt)[k])[r]).toNat q 512 =
      if i = k ∧ j = r ∧ p = q then x % 2 ^ 512 else field ((l[k])[r]).toNat q 512 := by
  by_cases hik : i = k
  · subst hik
    have (v : Vector (BitVec w) n) : (l.set i.val v i.isLt)[i] = v := by simp
    rw [this, reg_line _ _ _ _ _ _ hq (hd rfl)]
    simp
  · have h2 : i.val ≠ k.val := fun h => hik (Fin.ext h)
    rw [if_neg (fun h => hik h.1)]
    congr 2
    simp [h2]

/-- A line of a core after a line of space 0 to 4 of the same core became x. -/
def lineAfter (s : State) (c : Core) (a x b : Nat) : Nat :=
  if mapSpace b = mapSpace a ∧ mapOff b = mapOff a then x % 2 ^ 512 else coreLine s c b

theorem coreLine_congr (s : State) {c d : Core} {b : Nat} (hl : d.lanes = c.lanes) (hb : d.bstore = c.bstore) (hn : d.num = c.num)
    (h0 : mapSpace b ≠ 0) : coreLine s d b = coreLine s c b := by
  unfold coreLine
  rw [hl, hb, hn]
  dsimp only
  generalize mapSpace b = k at h0
  match k with
  | 0 => exact (h0 rfl).elim
  | 1 | 2 | 3 | 4 | 5 | 6 | 7 | 8 | 9 | 10 | 11 | 12 | 13 | 14 | 15 | _ + 16 => rfl

theorem coreLine_lanes (s : State) (c : Core) (l : Lanes) {b : Nat} (hv : l.v = c.lanes.v) (ha : l.acc = c.lanes.acc)
    (h2 : mapSpace b ≠ 2) : coreLine s { c with lanes := l } b = coreLine s c b := by
  have ht (n : Nat) : ({ c with lanes := l } : Core).tileAt n = c.tileAt n := rfl
  unfold coreLine
  dsimp only
  rw [hv, ha, ht]
  generalize mapSpace b = k at h2
  split
  case h_3 => exact (h2 rfl).elim
  all_goals rfl

theorem coreLine_tile (s : State) (c : Core) {a b : Nat} (x : Nat) (h0 : mapSpace a = 0) (ha : mapOff a % 64 = 0) (hb : mapOff b % 64 = 0) :
    coreLine s (c.setTile { c.tileAt (mapOff a / 4096) with
      bytes := BitVec.ofNat 32768 (splice (c.tileAt (mapOff a / 4096)).bytes.toNat (mapOff a % 4096 * 8) 512 x) }) b =
      lineAfter s c a x b := by
  unfold lineAfter
  by_cases hs : mapSpace b = 0
  · simp only [coreLine, hs, h0, true_and]
    rw [tileAt_setTile]
    dsimp only
    rw [tileAt_n]
    by_cases ht : mapOff b / 4096 = mapOff a / 4096
    · rw [if_pos ht]
      dsimp only
      have hw : mapOff b % 4096 * 8 + 512 ≤ 32768 := by omega
      rw [ofNat_field _ _ _ _ hw]
      by_cases ho : mapOff b = mapOff a
      · rw [if_pos ho, ho, field_splice_same]
      · rw [if_neg ho, field_splice_other _ _ _ _ _ _ (by omega), ht]
    · rw [if_neg ht, if_neg (fun h => ht (by rw [h]))]
  · rw [if_neg (fun h => hs (h.1.trans h0))]
    exact coreLine_congr s (setTile_lanes _ _) (setTile_bstore _ _) (setTile_num _ _) hs

theorem coreLine_vec (s : State) (c : Core) {a b : Nat} (x top : Nat) (h0 : mapSpace a = 1) (ha : mapOff a % 64 = 0) (hb : mapOff b % 64 = 0)
    (hla : mapOff a < 0x100000) (hlb : mapSpace b = 1 → mapOff b < 0x100000) :
    coreLine s { c with lanes := (c.lanes.setV (Fin.ofNat 256 (mapOff a / 4096))
      (BitVec.ofNat 32768 (splice c.lanes.v[Fin.ofNat 256 (mapOff a / 4096)].toNat (mapOff a % 4096 * 8) 512 x)) top) } b =
      lineAfter s c a x b := by
  unfold lineAfter
  by_cases hs : mapSpace b = 1
  · have := hlb hs
    simp only [coreLine, hs, h0, true_and]
    have hw : mapOff b % 4096 * 8 + 512 ≤ 32768 := by omega
    have e := reg_line c.lanes.v (Fin.ofNat 256 (mapOff a / 4096)) (Fin.ofNat 256 (mapOff b / 4096)) (mapOff a % 4096 * 8)
      (mapOff b % 4096 * 8) x hw (fun _ => by omega)
    refine e.trans ?_
    by_cases ho : mapOff b = mapOff a
    · rw [if_pos ho, ho, if_pos ⟨rfl, rfl⟩]
    · rw [if_neg ho, if_neg]
      rintro ⟨h1, h2⟩
      have := congrArg Fin.val h1
      simp only [Fin.val_ofNat] at this
      omega
  · rw [if_neg (fun h => hs (h.1.trans h0))]
    unfold coreLine
    dsimp only
    split <;> first | (exfalso; omega) | rfl

theorem coreLine_acc (s : State) (c : Core) {a b : Nat} (x : Nat) (h0 : mapSpace a = 3) (ha : mapOff a % 64 = 0) (hb : mapOff b % 64 = 0)
    (hla : mapOff a < 0x20000) (hlb : mapSpace b = 3 → mapOff b < 0x20000) :
    coreLine s { c with lanes := (c.lanes.setAcc (Fin.ofNat 16 (mapOff a / 0x2000)) (Fin.ofNat 32 (mapOff a % 0x2000 / 256))
      (BitVec.ofNat 2048 (splice (c.lanes.acc[Fin.ofNat 16 (mapOff a / 0x2000)])[Fin.ofNat 32 (mapOff a % 0x2000 / 256)].toNat
        (mapOff a % 256 * 8) 512 x))) } b =
      lineAfter s c a x b := by
  unfold lineAfter
  by_cases hs : mapSpace b = 3
  · have := hlb hs
    simp only [coreLine, hs, h0, true_and, Lanes.setAcc]
    have e := grid_line c.lanes.acc (Fin.ofNat 16 (mapOff a / 0x2000)) (Fin.ofNat 16 (mapOff b / 0x2000))
      (Fin.ofNat 32 (mapOff a % 0x2000 / 256)) (Fin.ofNat 32 (mapOff b % 0x2000 / 256)) (mapOff a % 256 * 8) (mapOff b % 256 * 8) x
      (by omega) (fun _ _ => by omega)
    refine e.trans ?_
    by_cases ho : mapOff b = mapOff a
    · rw [if_pos ho, ho, if_pos ⟨rfl, rfl, rfl⟩]
    · rw [if_neg ho, if_neg]
      rintro ⟨h1, h2, h3⟩
      have h1 := congrArg Fin.val h1
      have h2 := congrArg Fin.val h2
      simp only [Fin.val_ofNat] at h1 h2
      omega
  · rw [if_neg (fun h => hs (h.1.trans h0))]
    unfold coreLine
    dsimp only
    split <;> first | (exfalso; omega) | rfl

theorem coreLine_bstore (s : State) (c : Core) {a b : Nat} (x : Nat) (h0 : mapSpace a = 4) (ha : mapOff a % 64 = 0) (hb : mapOff b % 64 = 0) :
    coreLine s { c with bstore := Memory.write c.bstore (mapOff a) 64 x } b = lineAfter s c a x b := by
  unfold lineAfter
  by_cases hs : mapSpace b = 4
  · simp only [coreLine, hs, h0, true_and]
    by_cases ho : mapOff b = mapOff a
    · rw [if_pos ho, ho, Memory.read_write]
    · rw [if_neg ho, Memory.read_write_other _ _ _ _ _ _ (by omega)]
  · rw [if_neg (fun h => hs (h.1.trans h0))]
    unfold coreLine
    dsimp only
    split <;> first | (exfalso; omega) | rfl

theorem setSide_side (l : Lanes) (t u : Fin 8) (r q : Fin 64) (v : BitVec 128) :
    ((l.setSide t r v).side[u])[q] = if t = u ∧ r = q then v else (l.side[u])[q] := by
  unfold Lanes.setSide
  dsimp only
  by_cases ht : t = u
  · subst ht
    have (y : Vector (BitVec 128) 64) : (l.side.set t.val y t.isLt)[t] = y := by simp
    rw [this]
    by_cases hr : r = q
    · subst hr; simp
    · have : r.val ≠ q.val := fun h => hr (Fin.ext h)
      simp [hr, this]
  · have : t.val ≠ u.val := fun h => ht (Fin.ext h)
    rw [if_neg (fun h => ht h.1)]
    congr 1
    simp [this]

theorem digits_four (x b : Nat) :
    x % b + x / b % b * b + x / (b * b) % b * (b * b) + x / (b * (b * b)) % b * (b * (b * b)) = x % (b * (b * (b * b))) := by
  rw [Nat.mod_mul, Nat.mod_mul, Nat.mod_mul, Nat.div_div_eq_div_mul, Nat.div_div_eq_div_mul, Nat.mul_assoc]
  ring

/-- Four side-array rows as a line. -/
theorem side_line (w x : Nat) : x / 2 ^ (w * 0) % 2 ^ w * 2 ^ (w * 0) + x / 2 ^ (w * 1) % 2 ^ w * 2 ^ (w * 1) +
    x / 2 ^ (w * 2) % 2 ^ w * 2 ^ (w * 2) + x / 2 ^ (w * 3) % 2 ^ w * 2 ^ (w * 3) = x % 2 ^ (4 * w) := by
  have h2 : 2 ^ (w * 2) = 2 ^ w * 2 ^ w := by rw [← pow_add]; ring_nf
  have h3 : 2 ^ (w * 3) = 2 ^ w * (2 ^ w * 2 ^ w) := by rw [← pow_add, ← pow_add]; ring_nf
  have h4 : 2 ^ (4 * w) = 2 ^ w * (2 ^ w * (2 ^ w * 2 ^ w)) := by rw [← pow_add, ← pow_add, ← pow_add]; ring_nf
  rw [h2, h3, h4, Nat.mul_zero, Nat.mul_one, pow_zero, Nat.div_one, Nat.mul_one]
  exact digits_four x _

theorem fold_four (w x : Nat) (f : Nat → Nat) (h : ∀ i, i < 4 → f i = x / 2 ^ (w * i) % 2 ^ w) :
    (List.range 4).foldl (fun acc i => acc + f i * 2 ^ (w * i)) 0 = x % 2 ^ (4 * w) := by
  rw [← side_line w x]
  simp only [show List.range 4 = [0, 1, 2, 3] from rfl, List.foldl_cons, List.foldl_nil]
  rw [h 0 (by decide), h 1 (by decide), h 2 (by decide), h 3 (by decide), Nat.zero_add]

theorem fold_four_congr (w : Nat) (f g : Nat → Nat) (h : ∀ i, i < 4 → f i = g i) :
    (List.range 4).foldl (fun acc i => acc + f i * 2 ^ (w * i)) 0 =
      (List.range 4).foldl (fun acc i => acc + g i * 2 ^ (w * i)) 0 := by
  simp only [show List.range 4 = [0, 1, 2, 3] from rfl, List.foldl_cons, List.foldl_nil]
  rw [h 0 (by decide), h 1 (by decide), h 2 (by decide), h 3 (by decide)]

theorem toNat_word (w x : Nat) : (BitVec.ofNat w x).toNat = x % 2 ^ w := BitVec.toNat_ofNat x w

theorem setSides_row (l : Lanes) (t u : Fin 8) (r x n q : Nat) (hr : r + n ≤ 64) (hq : q < 64) :
    (((List.range n).foldl (fun l i => l.setSide t (Fin.ofNat 64 (r + i)) (BitVec.ofNat 128 (x / 2 ^ (128 * i)))) l).side[u])[Fin.ofNat 64 q] =
      if t = u ∧ r ≤ q ∧ q < r + n then BitVec.ofNat 128 (x / 2 ^ (128 * (q - r))) else (l.side[u])[Fin.ofNat 64 q] := by
  induction n with
  | zero => rw [if_neg (by omega)]; rfl
  | succ n ih =>
    rw [List.range_succ, List.foldl_append, List.foldl_cons, List.foldl_nil, setSide_side, ih (by omega)]
    have he : Fin.ofNat 64 (r + n) = Fin.ofNat 64 q ↔ r + n = q := by
      rw [Fin.ext_iff]; simp only [Fin.val_ofNat]; omega
    simp only [he]
    by_cases ht : t = u
    · by_cases hq : r + n = q
      · subst hq
        rw [if_pos ⟨ht, rfl⟩, if_pos ⟨ht, by omega, by omega⟩, Nat.add_sub_cancel_left]
      · rw [if_neg (fun h => hq h.2)]
        exact if_congr (by omega) rfl rfl
    · rw [if_neg (fun h => ht h.1), if_neg (fun h => ht h.1), if_neg (fun h => ht h.1)]

theorem setSides_side (l : Lanes) (t : Fin 8) (r x top : Nat) (u : Fin 8) (q : Nat) (hr : r + 3 < 64) (hq : q + 3 < 64)
    (hd : r = q ∨ r + 4 ≤ q ∨ q + 4 ≤ r) :
    sideLine ((l.setSides t r x top).side[u]) q = if t = u ∧ r = q then x % 2 ^ 512 else sideLine (l.side[u]) q := by
  have e (i : Nat) (h : i < 4) := setSides_row l t u r x 4 (q + i) (by omega) (by omega)
  change ∀ i, i < 4 → ((l.setSides t r x top).side[u])[Fin.ofNat 64 (q + i)] = _ at e
  generalize l.setSides t r x top = k at *
  by_cases h : t = u ∧ r = q
  · obtain ⟨h1, h2⟩ := h
    subst h1 h2
    rw [if_pos ⟨rfl, rfl⟩]
    refine (fold_four 128 x (fun i => (k.side[t])[Fin.ofNat 64 (r + i)].toNat) fun i h => ?_).trans
      (congrArg (fun n => x % 2 ^ n) (rfl : 4 * 128 = 512))
    rw [e i h, if_pos ⟨rfl, by omega, by omega⟩, Nat.add_sub_cancel_left, toNat_word]
  · rw [if_neg h]
    refine fold_four_congr 128 (fun i => (k.side[u])[Fin.ofNat 64 (q + i)].toNat) (fun i => (l.side[u])[Fin.ofNat 64 (q + i)].toNat)
      fun i h => ?_
    rw [e i h, if_neg (by omega)]

theorem setSides_tile (l : Lanes) (t : Fin 8) (r x top : Nat) :
    (l.setSides t r x top).tile = l.tile ∧ (l.setSides t r x top).v = l.v ∧ (l.setSides t r x top).acc = l.acc := by
  unfold Lanes.setSides
  dsimp only
  generalize 4 = n
  induction n with
  | zero => exact ⟨rfl, rfl, rfl⟩
  | succ n ih => rw [List.range_succ, List.foldl_append]; exact ih

theorem coreLine_side (s : State) (c : Core) {a b : Nat} (x top : Nat) (h0 : mapSpace a = 2) (ha : mapOff a % 64 = 0) (hb : mapOff b % 64 = 0)
    (ho : 0x20000 ≤ mapOff a) (hla : mapOff a < 0x22000) (hlb : mapSpace b = 2 → mapOff b < 0x22000) :
    coreLine s { c with lanes := (c.lanes.setSides (Fin.ofNat 8 ((mapOff a - 0x20000) / 0x400))
      ((mapOff a - 0x20000) % 0x400 / 16) x top) } b =
      lineAfter s c a x b := by
  obtain ⟨e1, e2, e3⟩ := setSides_tile c.lanes (Fin.ofNat 8 ((mapOff a - 0x20000) / 0x400)) ((mapOff a - 0x20000) % 0x400 / 16) x top
  unfold lineAfter
  by_cases hs : mapSpace b = 2
  · have := hlb hs
    by_cases hob : mapOff b < 0x20000
    · rw [if_neg (by omega)]
      simp only [coreLine, hs, if_pos hob]
      rw [e1]
    · have e := setSides_side c.lanes (Fin.ofNat 8 ((mapOff a - 0x20000) / 0x400)) ((mapOff a - 0x20000) % 0x400 / 16) x top
        (Fin.ofNat 8 ((mapOff b - 0x20000) / 0x400)) ((mapOff b - 0x20000) % 0x400 / 16) (by omega) (by omega) (by omega)
      simp only [coreLine, hs, h0, if_neg hob, true_and]
      refine e.trans ?_
      by_cases hab : mapOff b = mapOff a
      · rw [if_pos hab, hab, if_pos ⟨rfl, rfl⟩]
      · rw [if_neg hab, if_neg]
        rintro ⟨h1, h2⟩
        have := congrArg Fin.val h1
        simp only [Fin.val_ofNat] at this
        omega
  · rw [if_neg (fun h => hs (h.1.trans h0))]
    exact coreLine_lanes s c _ e2 e3 hs

theorem coreLine_row (s : State) (c : Core) {a b : Nat} (x : Nat) (h0 : mapSpace a = 2) (ha : mapOff a % 64 = 0) (hb : mapOff b % 64 = 0)
    (ho : mapOff a < 0x20000) :
    coreLine s { c with lanes := (c.lanes.setRow (Fin.ofNat 8 (mapOff a / 0x4000)) (Fin.ofNat 64 (mapOff a % 0x4000 / 256))
      (BitVec.ofNat 2048 (splice (c.lanes.tile[Fin.ofNat 8 (mapOff a / 0x4000)])[Fin.ofNat 64 (mapOff a % 0x4000 / 256)].toNat
        (mapOff a % 256 * 8) 512 x))) } b =
      lineAfter s c a x b := by
  unfold lineAfter
  by_cases hs : mapSpace b = 2
  · by_cases hob : mapOff b < 0x20000
    · simp only [coreLine, hs, h0, true_and, Lanes.setRow, if_pos hob]
      have e := grid_line c.lanes.tile (Fin.ofNat 8 (mapOff a / 0x4000)) (Fin.ofNat 8 (mapOff b / 0x4000))
        (Fin.ofNat 64 (mapOff a % 0x4000 / 256)) (Fin.ofNat 64 (mapOff b % 0x4000 / 256)) (mapOff a % 256 * 8) (mapOff b % 256 * 8) x
        (by omega) (fun _ _ => by omega)
      refine e.trans ?_
      by_cases hab : mapOff b = mapOff a
      · rw [if_pos hab, hab, if_pos ⟨rfl, rfl, rfl⟩]
      · rw [if_neg hab, if_neg]
        rintro ⟨h1, h2, h3⟩
        have h1 := congrArg Fin.val h1
        have h2 := congrArg Fin.val h2
        simp only [Fin.val_ofNat] at h1 h2
        omega
    · rw [if_neg (by omega)]
      simp only [coreLine, hs, Lanes.setRow, if_neg hob]
  · rw [if_neg (fun h => hs (h.1.trans h0))]
    unfold coreLine
    dsimp only
    generalize mapSpace b = k at hs
    match k with
    | 2 => exact (hs rfl).elim
    | 0 | 1 | 3 | 4 | 5 | 6 | 7 | 8 | 9 | 10 | 11 | 12 | 13 | 14 | 15 | _ + 16 => rfl

theorem mapOff_mod {a : Nat} (h : a % 64 = 0) : mapOff a % 64 = 0 := by unfold mapOff; omega

/-- A line of a writable space becomes x; every other existing line stays. -/
theorem chipLine_set (s : State) {a b : Nat} (x top : Nat) (ha : lineOk a) (hb : lineOk b) :
    chipLine (chipSetLine s a x top) b = if b = a ∧ mapSpace a < 5 then x % 2 ^ 512 else chipLine s b := by
  have haa := mapOff_mod ha.2.1
  have hbb := mapOff_mod hb.2.1
  have hlim (k n : Nat) (hk : spaceSize k = n) (h : mapSpace b = k) : mapOff b < n := by
    have := hb.2.2.2; rw [h, hk] at this; exact this
  have hnum := coreAt_num s (mapNum a)
  have key (c' : Core) (hn : c'.num = mapNum a) (hh : c'.holder = (s.coreAt (mapNum a)).holder) (h5 : mapSpace a < 5)
      (hl : coreLine s c' b = lineAfter s (s.coreAt (mapNum a)) a x b) :
      chipLine (s.setCore c') b = if b = a ∧ mapSpace a < 5 then x % 2 ^ 512 else chipLine s b := by
    rw [chipLine_setCore s c' (by rw [hh, hn])]
    by_cases hm : mapNum b = mapNum a
    · rw [if_pos (hm.trans hn.symm), hl]
      unfold lineAfter
      rw [chipLine_eq, hm]
      by_cases hab : b = a
      · subst hab; rw [if_pos ⟨rfl, rfl⟩, if_pos ⟨rfl, h5⟩]
      · rw [if_neg (fun h => hab (line_ext ha hb hm h.1 h.2)), if_neg (fun h => hab h.1)]
    · rw [if_neg (fun h => hm (h.trans hn)), if_neg (fun h => hm (by rw [h.1]))]
  unfold chipSetLine
  dsimp only
  split
  next h0 =>
    refine key _ ((setTile_num _ _).trans hnum) (setTile_holder _ _) (by omega) (coreLine_tile s _ x h0 haa hbb)
  next h0 =>
    have h1 := ha.2.2.2
    rw [h0] at h1
    exact key _ hnum rfl (by omega) (coreLine_vec s _ x _ h0 haa hbb h1 (hlim 1 _ rfl))
  next h0 =>
    have h1 := ha.2.2.2
    rw [h0] at h1
    split
    next ho => exact key _ hnum rfl (by omega) (coreLine_row s _ x h0 haa hbb ho)
    next ho => exact key _ hnum rfl (by omega) (coreLine_side s _ x top h0 haa hbb (by omega) h1 (hlim 2 _ rfl))
  next h0 =>
    have h1 := ha.2.2.2
    rw [h0] at h1
    exact key _ hnum rfl (by omega) (coreLine_acc s _ x h0 haa hbb h1 (hlim 3 _ rfl))
  next h0 => exact key _ hnum rfl (by omega) (coreLine_bstore s _ x h0 haa hbb)
  next h0 h1 h2 h3 h4 =>
    rw [if_neg]
    rintro ⟨-, h⟩
    rcases (by omega : mapSpace a = 0 ∨ mapSpace a = 1 ∨ mapSpace a = 2 ∨ mapSpace a = 3 ∨ mapSpace a = 4) with k | k | k | k | k
    · exact h0 k
    · exact h1 k
    · exact h2 k
    · exact h3 k
    · exact h4 k

/-! ## Bytes of one line -/

theorem line_of {p : Nat} (h : HasByte p) (hp : chip ≤ p) : lineOk ((p - chip) / 64 * 64) := by
  rcases h with h | ⟨h1, h2, h3⟩
  · omega
  · have hs : mapSpace ((p - chip) / 64 * 64) = mapSpace (p - chip) := by unfold mapSpace; omega
    have hsz : ∀ k, spaceSize k % 64 = 0 := by
      intro k
      match k with
      | 0 | 1 | 2 | 3 | 4 | 5 | 6 => rfl
      | _ + 7 => rfl
    have hm := hsz (mapSpace (p - chip))
    refine ⟨by omega, by omega, ?_, ?_⟩
    · unfold mapCore at *; omega
    · rw [hs]
      generalize spaceSize (mapSpace (p - chip)) = z at *
      unfold mapOff at *; omega

/-- What a line depends on. -/
theorem chipLine_congr {s u : State} (hc : ∀ n, u.coreAt n = s.coreAt n) (ht : ∀ n h, u.taskAt n h = s.taskAt n h) (hf : u.free = s.free)
    (hl : u.launches = s.launches) (a : Nat) : chipLine u a = chipLine s a := by
  have hr (n b : Nat) : riserByte u n b = riserByte s n b := by
    unfold riserByte
    simp only [hc, ht, hf]
  rw [chipLine_eq, chipLine_eq, hc]
  unfold coreLine
  simp only [hr, hl]

theorem chipLine_mem (s : State) (m : Memory) (a : Nat) : chipLine { s with mem := m } a = chipLine s a :=
  chipLine_congr (s := s) (u := { s with mem := m }) (fun _ => rfl) (fun _ _ => rfl) rfl rfl a

theorem chipSetLine_mem (s : State) (a x top : Nat) : (chipSetLine s a x top).mem = s.mem := by
  unfold chipSetLine
  dsimp only
  split <;> first | rfl | exact (setCore_rest _ _).2.2.2.2 | skip
  split <;> exact (setCore_rest _ _).2.2.2.2

theorem putIn_chip (s : State) {p : Nat} (n v : Nat) (h : ¬ p < chip) :
    putIn s p n v = chipSetLine s ((p - chip) / 64 * 64) (splice (chipLine s ((p - chip) / 64 * 64)) (p % 64 * 8) (8 * n) v) (p % 64 + n) := if_neg h

theorem putIn_mem (s : State) {p : Nat} (n v : Nat) (h : p < chip) :
    putIn s p n v = { s with mem := Memory.write s.mem p n v } := if_pos h

theorem getIn_chip (s : State) {p : Nat} (n : Nat) (h : ¬ p < chip) :
    getIn s p n = field (chipLine s ((p - chip) / 64 * 64)) (p % 64 * 8) (8 * n) := if_neg h

theorem getIn_mem (s : State) {p : Nat} (n : Nat) (h : p < chip) : getIn s p n = Memory.read s.mem p n := if_pos h

/-- Bytes of one line stored leave every other existing byte alone. -/
theorem byteAt_putIn (s : State) {p n q : Nat} (v : Nat) (hp : HasByte p) (hq : HasByte q)
    (h : q < p ∨ p + n ≤ q) : (putIn s p n v).byteAt q = s.byteAt q := by
  have hc : chip % 64 = 0 := rfl
  unfold State.byteAt
  by_cases hpc : p < chip
  · rw [putIn_mem s n v hpc]
    by_cases hqc : q < chip
    · rw [getIn_mem _ _ hqc, getIn_mem _ _ hqc]
      exact Memory.read_write_other _ _ _ _ _ _ (by omega)
    · rw [getIn_chip _ _ hqc, getIn_chip _ _ hqc, chipLine_mem]
  · rw [putIn_chip s n v hpc]
    by_cases hqc : q < chip
    · rw [getIn_mem _ _ hqc, getIn_mem _ _ hqc, chipSetLine_mem]
    · rw [getIn_chip _ _ hqc, getIn_chip _ _ hqc, chipLine_set s _ _ (line_of hp (by omega)) (line_of hq (by omega))]
      by_cases he : (q - chip) / 64 * 64 = (p - chip) / 64 * 64
      · by_cases h5 : mapSpace ((p - chip) / 64 * 64) < 5
        · rw [if_pos ⟨he, h5⟩, he, field_mod _ _ _ _ (by omega), field_splice_other _ _ _ _ _ _ (by omega)]
        · rw [if_neg (fun h => h5 h.2)]
      · rw [if_neg (fun h => he h.1)]

/-- A place that stores reach. -/
def writable (p : Nat) : Bool := decide (p < chip) || decide (mapSpace (p - chip) < 5)

/-- Bytes of one line read back. -/
theorem getIn_putIn (s : State) {p n : Nat} (v : Nat) (hp : HasByte p) (hw : writable p = true) (hl : p % 64 + n ≤ 64) :
    getIn (putIn s p n v) p n = v % 2 ^ (8 * n) := by
  have hc : chip % 64 = 0 := rfl
  unfold putIn getIn
  by_cases hpc : p < chip
  · rw [if_pos hpc, if_pos hpc, Memory.read_write]
  · rw [if_neg hpc, if_neg hpc, chipLine_set s _ _ (line_of hp (by omega)) (line_of hp (by omega)), if_pos, field_mod _ _ _ _ (by omega),
      field_splice_same]
    refine ⟨rfl, ?_⟩
    have hs : mapSpace ((p - chip) / 64 * 64) = mapSpace (p - chip) := by unfold mapSpace; omega
    simpa [writable, hpc, hs] using hw

theorem linesOf_one {p n : Nat} (h0 : 0 < n) (hl : p % 64 + n ≤ 64) : linesOf p n = [(p, n)] := by
  have hm : Nat.min n (64 - p % 64) = n := Nat.min_eq_left (by omega)
  unfold linesOf
  rw [lines, if_neg (by omega), hm]
  dsimp only
  rw [Nat.sub_self, lines, if_pos rfl]

theorem getIn_congr {s u : State} (hm : u.mem = s.mem) (hc : ∀ n, u.coreAt n = s.coreAt n) (ht : ∀ n h, u.taskAt n h = s.taskAt n h)
    (hf : u.free = s.free) (hl : u.launches = s.launches) (p n : Nat) : getIn u p n = getIn s p n := by
  unfold getIn
  rw [hm, chipLine_congr hc ht hf hl]

theorem getIn_bad (s : State) (l : List Nat) (p n : Nat) : getIn { s with bad := l } p n = getIn s p n :=
  getIn_congr (s := s) (u := { s with bad := l }) rfl (fun _ => rfl) (fun _ _ => rfl) rfl rfl p n

/-- A store of n bytes of one line. -/
theorem putPlace_one (s : State) {p n : Nat} (v : Nat) (h0 : 0 < n) (hl : p % 64 + n ≤ 64) :
    ∃ l, putPlace s p n v = { putIn s p n v with bad := l } := by
  unfold putPlace
  rw [linesOf_one h0 hl]
  simp only [List.foldl_cons, List.foldl_nil, Nat.sub_self, Nat.mul_zero, pow_zero, Nat.div_one]
  split
  · exact ⟨_, rfl⟩
  · exact ⟨_, rfl⟩

theorem putPlace_bytes (s : State) {p n : Nat} (v : Nat) (hp : HasByte p) (h0 : 0 < n) (hl : p % 64 + n ≤ 64) :
    SameBytes s (putPlace s p n v) p n := by
  intro q hq h
  obtain ⟨l, e⟩ := putPlace_one s v h0 hl
  rw [e]
  exact (getIn_bad _ l q 1).trans (byteAt_putIn s v hp hq h)

theorem getPlace_putPlace (s : State) {p n : Nat} (v : Nat) (hp : HasByte p) (hw : writable p = true) (h0 : 0 < n)
    (hl : p % 64 + n ≤ 64) : getPlace (putPlace s p n v) p n = v % 2 ^ (8 * n) := by
  obtain ⟨l, e⟩ := putPlace_one s v h0 hl
  unfold getPlace
  rw [e, linesOf_one h0 hl]
  simp only [List.foldl_cons, List.foldl_nil, Nat.sub_self, Nat.mul_zero, pow_zero, Nat.mul_one, Nat.zero_add]
  rw [getIn_bad, getIn_putIn s v hp hw hl]

end Sys2Proof.Machine
end

