-- ==== Sys2Proof/Laws/Access.lean ====
section
/-! SUPPORT. What the check of an access can do: it changes nothing but translation buffers and their counters. -/

namespace Sys2Proof.Machine

theorem OnlyTlbs.refl (s : State) : OnlyTlbs s s :=
  ⟨rfl, ⟨_, _, _, rfl⟩, fun _ => ⟨_, _, _, rfl⟩, fun _ => ⟨_, _, _, rfl⟩⟩

theorem OnlyTlbs.trans {s u v : State} (h : OnlyTlbs s u) (k : OnlyTlbs u v) : OnlyTlbs s v := by
  obtain ⟨h1, ⟨_, _, _, h2⟩, h3, h4⟩ := h
  obtain ⟨k1, ⟨a, b, c, k2⟩, k3, k4⟩ := k
  refine ⟨by rw [k1, h1], ⟨a, b, c, by rw [k2, h2]⟩, fun n => ?_, fun d => ?_⟩
  · obtain ⟨_, _, _, e⟩ := h3 n
    obtain ⟨a, b, c, f⟩ := k3 n
    exact ⟨a, b, c, by rw [f, e]⟩
  · obtain ⟨_, _, _, e⟩ := h4 d
    obtain ⟨a, b, c, f⟩ := k4 d
    exact ⟨a, b, c, by rw [f, e]⟩

theorem setDie_tlbs (s : State) (d : Fin 8) (tl : List TlbEntry) (sp rm : Nat) :
    OnlyTlbs s (s.setDie d { s.dies[d] with tlb := tl, split := sp, runmiss := rm }) := by
  refine ⟨rfl, ⟨_, _, _, rfl⟩, fun _ => ⟨_, _, _, rfl⟩, fun e => ?_⟩
  unfold State.setDie
  by_cases h : d = e
  · subst h; exact ⟨tl, sp, rm, by simp⟩
  · have : d.val ≠ e.val := fun k => h (Fin.ext k)
    exact ⟨_, _, _, by simp [this]; rfl⟩

theorem setCore_tlbs (s : State) (n : Nat) (tl ll : List TlbEntry) (k : Nat) :
    OnlyTlbs s (s.setCore { s.coreAt n with tlb := tl, ladleTlb := ll, counters := { (s.coreAt n).counters with tlbsplit := k } }) := by
  have hn := coreAt_num s n
  refine ⟨?_, ?_, fun m => ?_, fun d => ?_⟩
  · unfold State.setCore; split <;> rfl
  · unfold State.setCore
    dsimp only
    by_cases h : s.c.num = (s.coreAt n).num
    · rw [if_pos h]
      refine ⟨tl, ll, k, ?_⟩
      dsimp only
      unfold State.coreAt
      rw [if_pos (h.trans hn)]
    · rw [if_neg h]; exact ⟨_, _, _, rfl⟩
  · rw [coreAt_setCore]
    dsimp only
    by_cases h : m = (s.coreAt n).num
    · rw [if_pos h, h.trans hn]; exact ⟨tl, ll, k, rfl⟩
    · rw [if_neg h]; exact ⟨_, _, _, rfl⟩
  · have hd : ∀ c, (s.setCore c).dies = s.dies := fun c => by unfold State.setCore; split <;> rfl
    exact ⟨s.dies[d].tlb, s.dies[d].split, s.dies[d].runmiss, by rw [hd]⟩

theorem setTlb_tlbs (s : State) (which core : Nat) (l : List TlbEntry) (n : Nat) : OnlyTlbs s (setTlb s which core l n) := by
  unfold setTlb
  dsimp only
  split
  · exact setCore_tlbs s core _ _ _
  · exact setCore_tlbs s core _ _ _
  · exact setDie_tlbs s _ _ _ _

theorem translateIn_tlbs {s u : State} {room which core fn va : Nat} {e : TlbEntry}
    (h : translateIn room s which core fn va = some (e, u)) : OnlyTlbs s u := by
  unfold translateIn at h
  dsimp only at h
  split at h
  · cases h
  · split at h
    · split at h
      · obtain ⟨-, rfl⟩ := Prod.mk.inj (Option.some.inj h); exact .refl s
      · obtain ⟨-, rfl⟩ := Prod.mk.inj (Option.some.inj h); exact setTlb_tlbs s _ _ _ _
    · split at h
      · cases h
      · obtain ⟨-, rfl⟩ := Prod.mk.inj (Option.some.inj h)
        split
        · exact (setTlb_tlbs s _ _ _ _).trans (setDie_tlbs _ _ _ _ _)
        · exact setTlb_tlbs s _ _ _ _

theorem reach_tlbs {s u : State} {a : Actor} {x p : Nat} {wr : Bool} (h : reach s a x wr = .ok (p, u)) : OnlyTlbs s u := by
  unfold reach at h
  split at h
  · obtain ⟨-, rfl⟩ := Prod.mk.inj (Except.ok.inj h); exact .refl s
  · split at h
    · cases h
    · split at h
      · cases h
      next e s' ht =>
        dsimp only at h
        split at h
        · cases h
        · split at h
          · cases h
          · obtain ⟨-, rfl⟩ := Prod.mk.inj (Except.ok.inj h); exact translateIn_tlbs ht

/-- An access that passes its checks has changed nothing but translation buffers. -/
theorem checkAccess_tlbs {s u : State} {a : Actor} {ptr n al p : Nat} {k : Access} (h : checkAccess s a ptr n al k = .ok (p, u)) :
    OnlyTlbs s u := by
  unfold checkAccess byRoute at h
  split at h
  · cases h
  next x hx =>
    split at h
    · cases h
    · rw [Except.ok.inj h] at hx
      unfold checkIssue at hx
      split at hx
      · cases hx
      · exact reach_tlbs hx

end Sys2Proof.Machine
end

