-- ==== Sys2Proof/Laws/Words.lean ====
section
/-! SUPPORT. What a scalar-class word does on a quiet front, said once for each shared operation. -/

namespace Sys2Proof.Machine

/-! ## The front's cycle -/

@[simp] theorem wordDone_g (s : State) (r : GReg) : s.wordDone.g r = s.g r := rfl
@[simp] theorem wordDone_mem (s : State) : s.wordDone.mem = s.mem := rfl
@[simp] theorem wordDone_c (s : State) : s.wordDone.c = s.c := rfl
@[simp] theorem wordDone_pc (s : State) : s.wordDone.t.pc = s.t.pc := rfl
@[simp] theorem wordDone_loops (s : State) : s.wordDone.t.loops = s.t.loops := rfl
@[simp] theorem wordDone_wait (s : State) : s.wordDone.t.wait = none := rfl

/-- With no single step set there is no step stop (R372). -/
theorem stepStop_plain {u : State} (h : u.t.dbgctl.getLsbD 0 = false) : stepStop u = u := by
  unfold stepStop stepping
  rw [h]
  rfl

/-- A word that leaves no single step set completes in its cycle. -/
theorem finishWord_plain {u : State} (h : u.t.dbgctl.getLsbD 0 = false) : finishWord u = u.wordDone :=
  stepStop_plain (u := u.wordDone) h

/-! ## Quiet fronts -/

variable {s : State}

/-- Nothing decoded has still to run. -/
theorem drain_quiet (h : s.t.queue = []) : drain s = (s, none) := by
  simp [drain, drainLoop, h]

theorem memberForm_quiet (h : Quiet s) : memberForm s = none := by simp [memberForm, h.1]

theorem pendingDests_quiet (h : Quiet s) : pendingDests s = [] := by
  obtain ⟨_, hq, _, ha, _⟩ := h
  unfold pendingDests queuedDests appendDests
  cases hs : s.t.strip with
  | none => simp [hq]
  | some p => simp [hs] at ha; simp [hq, ha]

theorem readyCycle_quiet (h : Quiet s) (ds rs : List GReg) : readyCycle s.t ds rs = 0 := by
  simp [readyCycle, h.2.2.1]

/-- A scalar-class word acts at once. -/
theorem scalarWord_quiet (h : Quiet s) (i : Instr) (body : State → Act) :
    scalarWord i body s = .next (finishAct i (body s)) := by
  unfold scalarWord
  rw [memberForm_quiet h]
  dsimp only
  split <;> simp_all [drain_quiet h.2.1]

theorem settledNow_quiet (h : Quiet s) (rs : List GReg) (f : State → Act) : settledNow s rs f = f s := by
  have hn : awaits rs [] = false := by simp [awaits]
  simp [settledNow, pendingDests_quiet h, hn]

theorem settled_quiet (h : Quiet s) (ds rs : List GReg) (f : State → Act) : settled s ds rs f = f s := by
  simp [settled, readyCycle_quiet h, settledNow_quiet h]

/-- A word whose action is done in its cycle. -/
theorem finishAct_done {i : Instr} {u : State} (h : u.t.dbgctl.getLsbD 0 = false) :
    finishAct i (.done u) = u.wordDone := finishWord_plain h

/-- The strip of a settled front is closed already. -/
theorem drainClose_settled (h : Settled s) (ht : s.t.timed = false) : drainClose s = (s, none) := by
  obtain ⟨⟨_, hq, _⟩, hs⟩ := h
  simp [drainClose, waitRetired, ht, drain_quiet hq, closeStrip, hs]

theorem committed_settled (h : Settled s) (ht : s.t.timed = false) (f : State → Act) : committed s f = f s := by
  simp [committed, drainClose_settled h ht]

theorem lateBy_pc (s : State) (r : GReg) (n : Nat) : (s.lateBy r n).t = { s.t with late := (s.lateBy r n).t.late } := by
  unfold State.lateBy; split <;> rfl

/-- A computing word leaves its value in its register and goes on. -/
theorem computeIn_quiet (h : Quiet s) (n : Nat) (i : Instr) (reads : List GReg) (dest : GReg) (f : State → Word) :
    computeIn n i reads dest f s = .next (((s.setG dest (f s)).lateBy dest n).seq.wordDone) := by
  unfold computeIn
  rw [scalarWord_quiet h, settled_quiet h, finishAct_done]
  rw [State.seq_t, nextWord_dbgctl, lateBy_pc, State.setG_t, Task.setG_dbgctl]
  exact h.2.2.2.2

@[simp] theorem lateBy_g (s : State) (r q : GReg) (n : Nat) : (s.lateBy r n).g q = s.g q := by
  unfold State.g; rw [lateBy_pc]

theorem nextWord_congr (t u : Task) (hp : t.pc = u.pc) (hl : t.loops = u.loops) :
    (nextWord t).pc = (nextWord u).pc ∧ (nextWord t).loops = (nextWord u).loops := by
  have pass (k : Fin 2) (a : Word) (x y : Task) (h : x.loops = y.loops) :
      (endPass x k a).1.loops = (endPass y k a).1.loops ∧ (endPass x k a).2 = (endPass y k a).2 := by
    unfold endPass; simp only [h, Task.setLoop]; split <;> exact ⟨rfl, rfl⟩
  have e (k : Fin 2) := pass k (u.pc + 4) t u hl
  have f (k j : Fin 2) := pass j (u.pc + 4) _ _ (e k).1
  simp only [nextWord, flowTo, hp, hl]
  split
  · split
    · simp only [(e 0).2]
      split
      · exact ⟨by rw [(f 0 1).2], (f 0 1).1⟩
      · exact ⟨rfl, (e 0).1⟩
    · simp only [(e 1).2]
      split
      · exact ⟨by rw [(f 1 0).2], (f 1 0).1⟩
      · exact ⟨rfl, (e 1).1⟩
  · split
    · simp only [(e 0).2]
      split
      · exact ⟨rfl, (e 0).1⟩
      · exact ⟨rfl, (e 0).1⟩
    · split
      · simp only [(e 1).2]
        split
        · exact ⟨rfl, (e 1).1⟩
        · exact ⟨rfl, (e 1).1⟩
      · exact ⟨rfl, rfl⟩

/-- The computing words: register a takes the value, nothing else changes. -/
theorem computeIn_writes (h : Quiet s) (n : Nat) (i : Instr) (reads : List GReg) (a : GReg) (f : State → Word)
    (hi : exec i s = computeIn n i reads a f s) : Writes s i a (f s) := by
  refine ⟨_, hi.trans (computeIn_quiet h n i reads a f), ?_, ?_, ?_, rfl, ?_⟩
  · intro r
    simp only [wordDone_g, State.seq_g, lateBy_g, State.setG_g]
  · simp only [wordDone_pc, State.seq_t]
    exact (nextWord_congr _ _ (by rw [lateBy_pc]; simp) (by rw [lateBy_pc]; simp)).1
  · simp only [wordDone_loops, State.seq_t]
    exact (nextWord_congr _ _ (by rw [lateBy_pc]; simp) (by rw [lateBy_pc]; simp)).2
  · obtain ⟨ls, p, hf⟩ := flowTo_eq ((s.setG a (f s)).lateBy a n).t (((s.setG a (f s)).lateBy a n).t.pc + 4)
    unfold OnlyScalar State.wordDone State.seq nextWord
    rw [hf]
    unfold State.lateBy State.setG Task.setG
    split <;> split <;> rfl

theorem compute_writes (h : Quiet s) (i : Instr) (reads : List GReg) (a : GReg) (f : State → Word)
    (hi : exec i s = compute i reads a f s) : Writes s i a (f s) := computeIn_writes h 1 i reads a f hi

end Sys2Proof.Machine
end

