-- ==== Sys2Proof/Laws/Flow.lean ====
section
/-! SUPPORT. What the shared shells of the words and of the events answer, said once: each of them always goes on,
and what a finished word or a trap leaves on a settled front. -/

namespace Sys2Proof.Machine

/-! ## Every shell answers a next state -/

/-- A scalar-class word goes on, whatever its action. -/
theorem scalarWord_goes (i : Instr) (f : State → Act) (s : State) : ∃ u, scalarWord i f s = .next u := by
  unfold scalarWord
  repeat (first | exact ⟨_, rfl⟩ | split | dsimp only)

/-- A word of a convoy goes on, whether it stands as a member or alone. -/
theorem vecWord_goes (i : Instr) (s : State) : ∃ u, vecWord i s = .next u := by
  unfold vecWord
  repeat (first | exact ⟨_, rfl⟩ | split | dsimp only)

/-- An event of one live front goes on. -/
theorem onLive_goes (f : State → State) (s : State) : ∃ u, onLive f s = .next u := by
  unfold onLive
  repeat (first | exact ⟨_, rfl⟩ | split | dsimp only)

/-- The completion of an engine command goes on. -/
theorem completion_goes (k : Nat) (i : Instr) (f) (s : State) : ∃ u, completion k i f s = .next u := by
  unfold completion
  repeat (first | exact ⟨_, rfl⟩ | split | dsimp only)

/-! ## What stays and what a trap keeps -/

/-- A quiet front has no single step set. -/
theorem quiet_dbg {s : State} (h : Quiet s) : s.t.dbgctl.getLsbD 0 = false := h.2.2.2.2

/-- Leaving loop bodies writes no debug control. -/
theorem leaveBodies_dbg (t : Task) (d : Word) : (leaveBodies t d).dbgctl = t.dbgctl := by
  unfold leaveBodies; dsimp only; split <;> split <;> rfl

/-- On a quiet front a word whose action is done completes in its cycle. -/
theorem done_q {s : State} (h : Quiet s) (i : Instr) (body : State → Act) (u : State) (hb : body s = .done u) (hd : u.t.dbgctl.getLsbD 0 = false) :
   scalarWord i body s = .next u.wordDone := by
  rw [scalarWord_quiet h, hb, finishAct_done hd]

/-- Stepping past a word writes no debug control. -/
theorem seq_dbg {u : State} (h : u.t.dbgctl.getLsbD 0 = false) : u.seq.t.dbgctl.getLsbD 0 = false := by
  rw [State.seq_t, nextWord_dbgctl]; exact h

/-- A trap of a settled front outside a timed domain is entered at the word. -/
theorem scalarTrap_settled {s : State} (h : Settled s) (ht : s.t.timed = false) (i : Instr) {tr : Trap} (hp : tr.pages s.t = false) :
    scalarTrap i s tr false = takeTrap s tr s.t.pc [] := by
  unfold scalarTrap
  rw [hp, Bool.false_and, if_neg (by decide), drainClose_settled h ht]
  rfl

/-- A trap reported after its word is entered past it. -/
theorem scalarTrap_after {s : State} (h : Settled s) (ht : s.t.timed = false) (i : Instr) {tr : Trap} :
    scalarTrap i s tr true = takeTrap s.seq tr (nextWord s.t).pc [] := by
  unfold scalarTrap
  rw [show (!true) = false from rfl, Bool.and_false, if_neg (by decide), drainClose_settled h ht]
  rfl

/-- Clearing the armed bit of a loop keeps its begin, its count and every other bit. -/
theorem arm_false (l : Loop) : (l.arm false).lb = l.lb ∧ (l.arm false).lc = l.lc ∧ (∀ n, (l.arm false).le.getLsbD n = (l.le.getLsbD n && !(n == 0))) := by
  refine ⟨rfl, rfl, fun n => ?_⟩
  unfold Loop.arm
  simp only [Bool.toNat_false, Nat.add_zero, BitVec.getLsbD_ofNat]
  rw [show l.le.toNat / 2 * 2 = 2 ^ 1 * (l.le.toNat / 2 ^ 1) by omega, Nat.testBit_two_pow_mul, Nat.testBit_div_two_pow]
  rcases n with _ | n
  · simp
  · simp [BitVec.getLsbD]
    intro h; by_contra hc
    have := BitVec.testBit_toNat l.le (i := n+1)
    rw [BitVec.getLsbD_of_ge l.le (n+1) (by omega)] at this
    simp [this] at h

end Sys2Proof.Machine
end

