-- ==== Sys2Proof/Laws/Lone.lean ====
section
/-! SUPPORT. How a vector-class word that stands alone in its convoy runs (R40, R45, R137), said once; every vector
word's result follows from its checks and its effect. -/

namespace Sys2Proof.Machine

/-! ## Sequential flow and the queue -/

/-- Sequential flow does not look at the queue. -/
theorem flowTo_queue (t : Task) (q : List Convoy) (a : Word) :
    flowTo { t with queue := q } a = { flowTo t a with queue := q } := by
  have pass (u : Task) (k : Fin 2) : (endPass { u with queue := q } k a) =
      ({ (endPass u k a).1 with queue := q }, (endPass u k a).2) := by
    unfold endPass; dsimp only; split <;> rfl
  unfold flowTo
  simp only [pass]
  split
  · split
    · split <;> rfl
    · split <;> rfl
  · split
    · split <;> rfl
    · split
      · split <;> rfl
      · rfl

theorem nextWord_queue_eq (t : Task) (q : List Convoy) :
    nextWord { t with queue := q } = { nextWord t with queue := q } := flowTo_queue t q _

/-! ## The columns with one convoy -/

/-- One round of the drain. -/
theorem drainLoop_succ (stay : State → Convoy → Bool) (n : Nat) (s : State) : drainLoop stay (n + 1) s =
    match s.t.queue with
    | [] => (s, none)
    | cv :: rest =>
      if stay s cv then (s, none) else
      let r := runConvoy (s.withQueue rest) cv
      match r.2 with
      | none => drainLoop stay n r.1
      | some (t, l) =>
        if t.cause = 0 then (r.1.withQueue (l ++ rest), some (t, [])) else (r.1.withQueue [], some (t, l ++ rest)) := rfl

theorem drainLoop_empty (stay : State → Convoy → Bool) (n : Nat) {s : State} (h : s.t.queue = []) : drainLoop stay n s = (s, none) := by
  cases n with
  | zero => rfl
  | succ n => rw [drainLoop_succ, h]

/-- One convoy whose turn completes leaves the queue empty. -/
theorem drain_one {s u : State} {cv : Convoy} (hq : s.t.queue = [cv]) (ht : s.t.timed = false)
    (hr : runConvoy (s.withQueue []) cv = (u, none)) (hu : u.t.queue = []) : drain s = (u, none) := by
  unfold drain
  rw [drainLoop_succ, hq]
  dsimp only
  rw [show notDue s cv = false by unfold notDue; rw [ht, Bool.false_and], if_neg Bool.false_ne_true, hr]
  exact drainLoop_empty _ _ hu

/-- The convoy of a lone member. -/
def Conv.only (c : Conv) (e : Entry) : Convoy := { c.cv with entries := [e] }

@[simp] theorem pastConvoy_queue (s : State) (q : List Convoy) : (s.pastConvoy q).t.queue = q := by
  unfold State.pastConvoy; dsimp only; rw [nextWord_queue]

@[simp] theorem pastConvoy_timed (s : State) (q : List Convoy) : (s.pastConvoy q).t.timed = s.t.timed := by
  unfold State.pastConvoy; dsimp only; rw [nextWord_timed]

@[simp] theorem pastConvoy_ahead (s : State) (q : List Convoy) : (s.pastConvoy q).ahead = s.ahead := rfl
@[simp] theorem counted_queue (s : State) : s.counted.t.queue = s.t.queue := rfl
@[simp] theorem counted_timed (s : State) : s.counted.t.timed = s.t.timed := rfl
@[simp] theorem counted_ahead (s : State) : s.counted.ahead = s.ahead := rfl

theorem pastConvoy_withQueue (s : State) (q r : List Convoy) : (s.pastConvoy q).withQueue r = s.pastConvoy r := by
  unfold State.pastConvoy State.withQueue
  congr 1
  exact (nextWord_queue_eq { s.t with conv := none, queue := q } r).symm

/-- A member whose checks pass joins its convoy. -/
theorem decodeMember_ok {i : Instr} {s s₁ : State} {c : Conv} (ho : operandState i s c = .ok s₁)
    (hm : memberTrap i (captured i s₁ (atDecode i (capture i s₁) s₁)) c.cv.word c.next (c.cnt + 1) s.t.vmax s.t.inHandler = none)
    (hcmd : asyncProduct i = false) : decodeMember i s c = joinConvoy (atDecode i (capture i s₁) s₁) c (captured i s₁ (atDecode i (capture i s₁) s₁)) := by
  unfold decodeMember
  rw [ho]
  dsimp only
  rw [hm]
  dsimp only
  rw [hcmd]
  rfl

/-- The last member of a convoy is decoded. -/
theorem joinConvoy_last {s : State} {c : Conv} (h : ¬ c.next < c.cnt) (e : Entry) :
    joinConvoy s c e = stepStop (convoyDecoded s.counted { c with cv := { c.cv with entries := c.cv.entries ++ [e] } }) := by
  unfold joinConvoy
  dsimp only
  rw [if_neg h]

/-- A convoy of a free task that does not run ahead drains at once. -/
theorem convoyDecoded_free {s u : State} {c : Conv} (ht : s.t.timed = false) (ha : s.ahead = false)
    (hd : drain (s.pastConvoy (s.t.queue ++ [c.cv])) = (u, none)) : convoyDecoded s c = u := by
  unfold convoyDecoded scheduleConvoy
  rw [if_pos ht]
  dsimp only
  rw [show (s.pastConvoy (s.t.queue ++ [c.cv])).runsAhead = false by
    unfold State.runsAhead; rw [show (s.pastConvoy (s.t.queue ++ [c.cv])).ahead = false from ha, Bool.false_and],
    if_neg Bool.false_ne_true, hd]

variable {s : State}

/-- Words captured by a lone member need no earlier result. -/
theorem capturable_lone (h : Lone s) (i : Instr) : capturable i s = (s, none) := by
  have hp : queuedDests s = [] := by simp [queuedDests, h.queue]
  have ha : appendDests s = [] := by
    unfold appendDests
    have := h.apps
    unfold State.stripNow at this
    cases hs : s.t.strip with
    | none => rfl
    | some p => simp [hs] at this; simp [this]
  have hr (rs : List GReg) : readyCycle s.t [] rs = 0 := by simp [readyCycle, h.late]
  have hn (rs : List GReg) : awaits rs [] = false := by simp [awaits]
  unfold capturable
  dsimp only
  rw [hr, if_neg (Nat.not_lt_zero _)]
  simp only [runFor, hp, hn, ha, Bool.false_eq_true, if_false]

/-- A free task's capture never traps for its timing. -/
theorem captureStalls_lone (h : Lone s) (i : Instr) : captureStalls i s = false := by
  unfold captureStalls; rw [h.free, Bool.false_and]

/-- A column with nothing queued has room. -/
theorem columnFull_lone (h : Lone s) {c : Conv} (hc : c.cv.entries = []) (i : Instr) : columnFull i s c = false := by
  simp [columnFull, h.queue, hc]

/-- No member before a lone one writes what it captures. -/
theorem operandState_alone (i : Instr) (s : State) {c : Conv} (h : c.cv.entries = []) : operandState i s c = .ok s := by
  have hz (rs : List GReg) : (rs.any fun r => r != 0 && ([] : List GReg).contains r) = false := by simp
  unfold operandState
  rw [h]
  dsimp only [List.filterMap_nil]
  rw [hz]
  rfl

/-- A lone member that passes its checks, and whose convoy's turn completes, has run. -/
theorem vecWord_lone (h : Lone s) {c : Conv} (hc : s.t.conv = some c) {i : Instr} {s₁ u : State} {e : Entry}
    (hdec : atDecode i (capture i s) s = s₁) (hcap : captured i s s₁ = e)
    (hcmd : asyncProduct i = false)
    (hm : memberTrap i e c.cv.word 0 1 s.t.vmax false = none)
    (ht : s₁.t.timed = false) (ha : s₁.ahead = false) (hq₁ : s₁.t.queue = [])
    (hrun : runConvoy s₁.lone (c.only e) = (u, none)) (hq : u.t.queue = [])
    (hd : u.t.dbgctl.getLsbD 0 = false) : vecWord i s = .next u := by
  have hv := h.conv
  rw [hc] at hv
  obtain ⟨h0, h1, h2, -, -⟩ := hv
  subst hdec hcap
  unfold vecWord
  rw [hc]
  dsimp only
  rw [captureStalls_lone h, if_neg Bool.false_ne_true, columnFull_lone h h2, if_neg Bool.false_ne_true]
  dsimp only
  rw [capturable_lone h]
  dsimp only
  rw [decodeMember_ok (operandState_alone i s h2) (by rw [h0, h1, h.handler]; exact hm) hcmd,
    joinConvoy_last (by rw [h0, h1]; exact Nat.lt_irrefl 0)]
  generalize atDecode i (capture i s) s = v at *
  generalize hcv : ({ c with cv := { c.cv with entries := c.cv.entries ++ [captured i s v] } } : Conv) = d
  have hdv : d.cv = c.only (captured i s v) := by rw [← hcv, h2]; rfl
  have hdrain : drain (v.counted.pastConvoy (v.counted.t.queue ++ [d.cv])) = (u, none) := by
    refine drain_one (cv := d.cv) ?_ ?_ ?_ hq
    · rw [pastConvoy_queue, counted_queue, hq₁, List.nil_append]
    · rw [pastConvoy_timed, counted_timed, ht]
    · rw [pastConvoy_withQueue, hdv]; exact hrun
  rw [convoyDecoded_free (by rw [counted_timed, ht]) (by rw [counted_ahead, ha]) hdrain, stepStop_plain hd]

/-! ## The turn of a lone member -/


/-- A convoy of one member that completes. -/
theorem runMembers_one {s u : State} {cv : Convoy} {e : Entry} (he : cv.entries = [e]) (hag : cv.again = false)
    (hr : runEntry e s = .ok u) : runMembers s cv = .ok (u.retired cv) := by
  unfold runMembers
  rw [he]
  simp only [List.foldlM_cons, List.foldlM_nil]
  rw [hr, hag]
  rfl

theorem issueConvoy_ok {s u : State} {cv : Convoy} (hr : runMembers s cv = .ok u) (ho : overLimits u = false) :
    issueConvoy s cv = (u, none) := by
  unfold issueConvoy
  dsimp only
  rw [hr]
  dsimp only
  rw [ho, Bool.false_and, if_neg Bool.false_ne_true]

/-- What the strip and the front of a lone member's state are. -/
theorem lone_stripNow (s : State) : s.lone.stripNow = { s.stripNow with opened := s.lone.stripNow.opened } := by
  unfold State.stripNow
  have : s.lone.t.strip = s.t.strip := by show (nextWord _).strip = _; rw [nextWord_strip]; rfl
  rw [this]
  cases s.t.strip with
  | some p => rfl
  | none =>
    have hrest : s.lone.restNow = s.restNow := by
      unfold State.restNow State.lone State.pastConvoy
      simp only [nextWord_pushes, nextWord_codebk, nextWord_kpermLen, nextWord_mbFirst,
        nextWord_mbCount, nextWord_vbcnt, nextWord_vbmark]
      rfl
    have hd : s.lone.t.depth = s.t.depth := by show (nextWord _).depth = _; rw [nextWord_depth]; rfl
    simp only [Option.getD_none, hrest, hd]

/-- A word that closes no strip: its turn is the running of its member. -/
theorem runConvoy_lone (h : Lone s) {i : Instr} (ho₁ : opensStrip i = false) (hg : givesLanes i = false) {e : Entry}
    (he : e.instr = i) {c : Conv}
    (hcmd : c.cv.cmd = none) (hag : c.cv.again = false) {u : State} (hr : runEntry e s.lone = .ok u)
    (ho : overLimits (u.retired (c.only e)) = false) : runConvoy s.lone (c.only e) = (u.retired (c.only e), none) := by
  have tk {α : Type} (f : Task → α) (hf : ∀ t, f (nextWord t) = f t) : f s.lone.t = f { s.counted.t with conv := none, queue := [] } :=
    hf _
  have hds : s.lone.t.dbgctl = 0 := (tk _ nextWord_dbgctl).trans h.debug
  have hb : vectorBreak s.lone (c.only e) = none := by
    unfold vectorBreak
    rw [if_neg (show ¬ (c.only e).entries = [] from List.cons_ne_nil _ _)]
    simp [breakpoint, hds]
  have hhold : s.lone.c.holder = some s.lone.t.front := h.lanes.trans (congrArg some (tk Task.front nextWord_front).symm)
  have hcl : closesBefore s.lone (c.only e) = false := by
    have hsing : s.lone.t.single = false := (tk _ nextWord_single).trans h.single
    have hdep : s.lone.t.depth = s.t.depth := tk _ nextWord_depth
    have hrt : riserTight s.lone (c.only e) = false := by
      have : decide (s.stripNow.depth < s.t.depth) = false := decide_eq_false (Nat.not_lt.2 h.depth)
      unfold riserTight
      rw [lone_stripNow, hdep]
      dsimp only
      rw [this, Bool.and_false, Bool.false_and]
    have hroom := h.room
    unfold closesBefore
    rw [lone_stripNow, hsing, hrt]
    dsimp only
    rw [h.undo, h.bread]
    simp [Conv.only]
    omega
  unfold runConvoy
  rw [hb, Option.getD_none]
  unfold convoyTurn
  rw [show (c.only e).cmd = none from hcmd]
  dsimp only [Conv.only, List.head?_cons, Option.any_some]
  rw [if_neg (show ¬ givesLanes e.instr = true by rw [he, hg]; exact Bool.false_ne_true),
    if_neg (show ¬ (s.lone.c.holder ≠ none ∧ s.lone.c.holder ≠ some s.lone.t.front) by rw [hhold]; simp),
    if_neg (show ¬ opensStrip e.instr = true by rw [he, ho₁]; exact Bool.false_ne_true),
    if_neg (show ¬ s.lone.c.holder = none by rw [hhold]; simp)]
  have hfork : forkDue s.lone = false := by
    unfold forkDue
    rw [show s.lone.c.cmds = [] from h.cmds]
    rfl
  refine (if_neg (show ¬ (!s.lone.t.timed && forkDue s.lone) = true by rw [hfork]; simp)).trans ?_
  refine (if_neg (show ¬ closesBefore s.lone (c.only e) = true by rw [hcl]; exact Bool.false_ne_true)).trans ?_
  exact issueConvoy_ok (runMembers_one rfl hag hr) ho

end Sys2Proof.Machine
end

