-- ==== Sys2Proof/Laws/Members.lean ====
section
/-! SUPPORT. A lone member's notes, limits and effect: what a word leaves follows from its effect alone. -/

namespace Sys2Proof.Machine

/-! ## Notes of the strip -/

@[simp] theorem stripNow_setStrip (s : State) (p : Strip) : (s.setStrip p).stripNow = p := rfl

theorem noteWrite_shuse (p : Strip) (l : Lanes) (w : LReg × Bool) : (p.noteWrite l w).shuse ≤ p.shuse + w.1.cost := by
  have h (r : LReg) : (l.shadow r).reg = r := by cases r <;> rfl
  unfold Strip.noteWrite
  dsimp only
  split
  · exact Nat.le_add_right _ _
  · split
    · simp only [Strip.shuse, List.map_cons, List.sum_cons, h]; omega
    · exact Nat.le_add_right _ _

theorem noteWrites_shuse (l : Lanes) (ws : List (LReg × Bool)) (p : Strip) :
    (ws.foldl (fun p w => p.noteWrite l w) p).shuse ≤ p.shuse + (ws.map fun w => w.1.cost).sum := by
  induction ws generalizing p with
  | nil => simp
  | cons w ws ih =>
    have := ih (p.noteWrite l w)
    have := noteWrite_shuse p l w
    simp only [List.foldl_cons, List.map_cons, List.sum_cons]
    omega

/-- What the notes of writes leave alone. -/
theorem noteWrites_keep (l : Lanes) (ws : List (LReg × Bool)) (p : Strip) :
    let q := ws.foldl (fun p w => p.noteWrite l w) p
    q.stores = p.stores ∧ q.apps = p.apps ∧ q.flags = p.flags ∧ q.fexc = p.fexc := by
  induction ws generalizing p with
  | nil => exact ⟨rfl, rfl, rfl, rfl⟩
  | cons w ws ih =>
    have hw : (p.noteWrite l w).stores = p.stores ∧ (p.noteWrite l w).apps = p.apps ∧
        (p.noteWrite l w).flags = p.flags ∧ (p.noteWrite l w).fexc = p.fexc := by
      unfold Strip.noteWrite
      dsimp only
      split
      · exact ⟨rfl, rfl, rfl, rfl⟩
      · split <;> exact ⟨rfl, rfl, rfl, rfl⟩
    obtain ⟨h1, h2, h3, h4⟩ := ih (p.noteWrite l w)
    exact ⟨h1.trans hw.1, h2.trans hw.2.1, h3.trans hw.2.2.1, h4.trans hw.2.2.2⟩

/-- p and q have the same stores, appends, flags and shadows. -/
def Strip.SameNotes (p q : Strip) : Prop :=
  q.stores = p.stores ∧ q.apps = p.apps ∧ q.flags = p.flags ∧ q.fexc = p.fexc ∧ q.shadow = p.shadow

theorem Strip.SameNotes.trans {p q r : Strip} (h : p.SameNotes q) (k : q.SameNotes r) : p.SameNotes r :=
  ⟨k.1.trans h.1, k.2.1.trans h.2.1, k.2.2.1.trans h.2.2.1, k.2.2.2.1.trans h.2.2.2.1, k.2.2.2.2.trans h.2.2.2.2⟩

/-- Cycles held are counted beside the notes. -/
theorem join_keep (p : Strip) (x : Flight × List (Nat × Nat)) : p.SameNotes (p.join x) := by
  have h (hs : List (Nat × Nat)) (p : Strip) : p.SameNotes (hs.foldl Strip.held p) := by
    induction hs generalizing p with
    | nil => exact ⟨rfl, rfl, rfl, rfl, rfl⟩
    | cons a hs ih => exact Strip.SameNotes.trans ⟨rfl, rfl, rfl, rfl, rfl⟩ (ih (p.held a))
  exact Strip.SameNotes.trans ⟨rfl, rfl, rfl, rfl, rfl⟩ (h x.2 _)

/-- The end of a wait counts its cycles, and that is all. -/
theorem unstall_eq (x : State) : x.unstall = { x with t := { x.t with stall := none, strip := x.unstall.t.strip } } := by
  unfold State.unstall
  cases h : x.t.stall with
  | none => dsimp only; rw [← h]
  | some r => rfl

theorem unstall_keep (x : State) : x.stripNow.SameNotes x.unstall.stripNow := by
  unfold State.unstall
  split
  · exact ⟨rfl, rfl, rfl, rfl, rfl⟩
  · exact ⟨rfl, rfl, rfl, rfl, rfl⟩

/-- A member's notes touch the strip, the count of stalls and the work of the core alone. -/
theorem noted_eq (x : State) (e : Entry) (u : Use) : x.noted e u =
    { x with t := { x.t with stall := none, strip := (x.noted e u).t.strip }, c := { x.c with loads := (x.noted e u).c.loads } } := by
  have h : (x.noted e u) = { x.unstall with t := { x.unstall.t with strip := (x.noted e u).t.strip },
                                            c := { x.unstall.c with loads := (x.noted e u).c.loads } } := rfl
  rw [h, unstall_eq]

variable {s : State}

/-- A member's notes in a strip with room: stores, appends and flags as they were, shadows no dearer than its writes. -/
theorem noted_strip (h : Lone s) (e : Entry) (u : Use) :
    let q := (s.lone.noted e u).stripNow
    q.stores = [] ∧ q.apps = [] ∧ q.flags = s.stripNow.flags ∧ q.fexc = s.stripNow.fexc ∧
      q.shuse ≤ (u.writes.map fun w => w.1.cost).sum := by
  have hl := lone_stripNow s
  have hu := unstall_keep s.lone
  rw [hl] at hu
  generalize hx : s.lone.unstall = x at hu
  obtain ⟨u1, u2, u3, u4, u5⟩ := hu
  have hk := noteWrites_keep x.c.lanes u.writes
    { x.stripNow with
      read := u.reads.foldl (fun acc r => if acc.contains r then acc else r :: acc) x.stripNow.read,
      nins := x.stripNow.nins + 1 }
  have hc := noteWrites_shuse x.c.lanes u.writes
    { x.stripNow with
      read := u.reads.foldl (fun acc r => if acc.contains r then acc else r :: acc) x.stripNow.read,
      nins := x.stripNow.nins + 1 }
  obtain ⟨h1, h2, h3, h4⟩ := hk
  have hp : (x.noteUse u).stripNow.SameNotes (s.lone.noted e u).stripNow := by
    unfold State.noted
    rw [hx]
    dsimp only
    cases placed (x.noteUse u).stripNow (x.noteUse u) e u with
    | none => exact ⟨rfl, rfl, rfl, rfl, rfl⟩
    | some y => exact (join_keep (x.noteUse u).stripNow y).trans ⟨rfl, rfl, rfl, rfl, rfl⟩
  obtain ⟨p1, p2, p3, p4, p5⟩ := hp
  have hsh : (s.lone.noted e u).stripNow.shuse = (x.noteUse u).stripNow.shuse :=
    congrArg (fun l => (l.map fun x : Shadow => x.reg.cost).sum) p5
  refine ⟨p1.trans (h1.trans (u1.trans h.stores)), p2.trans (h2.trans (u2.trans h.apps)), p3.trans (h3.trans u3),
    p4.trans (h4.trans u4), (le_of_eq hsh).trans (hc.trans ?_)⟩
  have : x.stripNow.shadow = [] := u5.trans h.shadow
  simp only [Strip.shuse, this]
  simp

/-! ## Running a member -/

/-- Written registers change nothing of a free task's state but progress. -/
theorem written_eq {y : State} (ht : y.t.timed = false) (u : Use) (ps : List (LReg × Nat)) :
    y.written u ps = { y with c := { y.c with lanes := { y.c.lanes with progress := (y.written u ps).c.lanes.progress } } } := by
  have hl (l : Lanes) : ps.foldl (fun l x => l.advance x.1 x.2) l =
      { l with progress := (ps.foldl (fun l x => l.advance x.1 x.2) l).progress } := by
    induction ps generalizing l with
    | nil => rfl
    | cons p ps ih => rw [List.foldl_cons, ih]; rfl
  unfold State.written
  rw [ht, if_neg Bool.false_ne_true, hl]

/-- Nothing in a member's way: no command of the core, no remote write landing, no bad unit, no bound register. -/
theorem runEntry_free {x y : State} {e : Entry} (hc : (x.coreAt x.t.core).cmds = []) (hl : landing x x.actor = [])
    (hb : x.bad = []) (hn : x.c.lanes.bind = []) (he : effectOf e.instr e (x.noted e (useOf e x)) = .ok y) (hy : y.bad = []) :
    runEntry e x = .ok (y.written (useOf e x) (progressOf e x)) := by
  have hcf (p n : Nat) (b : Bool) : conflict x x.actor p n b = none := by
    unfold conflict
    rw [show (x.coreAt x.actor.core).cmds = [] from hc, hl]
    simp [meetsAny]
  have hrc : registerConflict x e (useOf e x) = none := by
    have : registerConflicts x e (useOf e x) = [] := by
      unfold registerConflicts
      simp [hcf]
    unfold registerConflict
    rw [this]
    rfl
  have hbr : badRegister x (useOf e x) (bReads e x.c.num) = none := if_pos hb
  have hf (p n : Nat) : firstBad x p n = none := by unfold firstBad; simp [hb]
  have hmu : mergedUnit e.instr e x = none := if_pos hb
  have hrb (ns : List Nat) : ns.foldlM (fun x n => readBound e n x) x = (.ok x : R State) := by
    have h1 (n : Nat) : readBound e n x = .ok x := by
      unfold readBound
      rw [hn]
      rfl
    induction ns with
    | nil => rfl
    | cons n ns ih => rw [List.foldlM_cons, h1]; exact ih
  unfold runEntry
  dsimp only
  rw [hrc, hbr]
  dsimp only
  rw [hrb]
  rw [hmu]
  show (do let s ← ended none (effectOf e.instr e (x.noted e (useOf e x)));
           Except.ok ((wholeWrites s e.instr e x).written (useOf e x) (progressOf e x))) = _
  rw [he]
  show Except.ok ((wholeWrites y e.instr e x).written (useOf e x) (progressOf e x)) = _
  rw [show wholeWrites y e.instr e x = y from if_pos hy]

/-- A strip within its limits. -/
theorem overLimits_retired {y : State} (cv : Convoy) (h1 : y.stripNow.shuse ≤ 32) (h2 : y.stripNow.bufferBytes ≤ 65536) :
    overLimits (y.retired cv) = false := by
  exact Bool.or_eq_false_iff.2 ⟨decide_eq_false (Nat.not_lt.2 h1), decide_eq_false (Nat.not_lt.2 h2)⟩

theorem lone_eq (s : State) : s.lone =
    { s with cycle := Nat.max s.cycle (s.t.cycle + 1),
             t := { s.t with pc := (nextWord s.t).pc, loops := (nextWord s.t).loops, conv := none, queue := [],
                             count := s.t.count + 1, cycle := s.t.cycle + 1, wait := none } } := by
  obtain ⟨hp, hl⟩ := nextWord_congr { s.counted.t with conv := none, queue := [] } s.t rfl rfl
  unfold State.lone State.pastConvoy
  rw [← hp, ← hl]
  obtain ⟨ls, p, hf⟩ := flowTo_eq { s.counted.t with conv := none, queue := [] } (s.counted.t.pc + 4)
  unfold nextWord
  dsimp only
  rw [hf]
  rfl

/-- A lone member runs its effect and retires. -/
theorem lone_runs (h : Lone s) {i : Instr} {y : State} (hcmd : asyncProduct i = false) (ho₁ : opensStrip i = false)
    (hg : givesLanes i = false) (hdec : atDecode i (capture i s) s = s) (hcap : captured i s s = capture i s)
    (hm : ∀ hdr, memberTrap i (capture i s) hdr 0 1 s.t.vmax false = none)
    (he : effectOf i (capture i s) (s.lone.noted (capture i s) (useOf (capture i s) s.lone)) = .ok y)
    (hb : y.bad = []) (h1 : y.stripNow.shuse ≤ 32) (h2 : y.stripNow.bufferBytes ≤ 65536) (hq : y.t.queue = [])
    (hd : y.t.dbgctl = 0) (htm : y.t.timed = false) :
    ∃ cv, vecWord i s =
      .next ((y.written (useOf (capture i s) s.lone) (progressOf (capture i s) s.lone)).retired cv) := by
  have hv := h.conv
  cases hc : s.t.conv with
  | none => rw [hc] at hv; exact hv.elim
  | some c =>
    rw [hc] at hv
    obtain ⟨-, -, -, h3, h4⟩ := hv
    refine ⟨c.only (capture i s), ?_⟩
    have hcore : s.lone.t.core = s.t.core := by show (nextWord _).core = _; rw [nextWord_core]; rfl
    have hland : landing s.lone s.lone.actor = [] := by
      have ha : s.lone.actor = s.actor := by
        unfold State.actor
        rw [lone_eq]
      rw [ha]
      exact h.landing
    have hrun : runEntry (capture i s) s.lone =
        .ok (y.written (useOf (capture i s) s.lone) (progressOf (capture i s) s.lone)) := by
      refine runEntry_free ?_ hland h.good h.bind he hb
      rw [hcore]
      show (s.coreAt s.t.core).cmds = []
      unfold State.coreAt
      rw [if_pos h.here]
      exact h.cmds
    have hw := written_eq htm (useOf (capture i s) s.lone) (progressOf (capture i s) s.lone)
    generalize y.written (useOf (capture i s) s.lone) (progressOf (capture i s) s.lone) = z at hw hrun ⊢
    have hzs : z.stripNow = y.stripNow := by rw [hw]; rfl
    exact vecWord_lone h hc hdec hcap hcmd (hm _) h.free h.behind h.queue
      (runConvoy_lone h ho₁ hg rfl h3 h4 hrun (overLimits_retired _ (by rw [hzs]; exact h1) (by rw [hzs]; exact h2)))
      (by rw [hw]; exact hq) (by show z.t.dbgctl.getLsbD 0 = false; rw [hw]; show y.t.dbgctl.getLsbD 0 = false; rw [hd]; rfl)

/-! ## Element-wise words -/

theorem raise_flags (x : State) (fs : Raised) :
    (x.raise fs).stripNow.flags = x.stripNow.flags ||| BitVec.ofNat 6 fs.all ∧
    (x.raise fs).stripNow.stores = x.stripNow.stores ∧ (x.raise fs).stripNow.apps = x.stripNow.apps ∧
    (x.raise fs).stripNow.shuse = x.stripNow.shuse ∧
    (x.raise fs).stripNow.fexc = if fs.all = 0 then x.stripNow.fexc else some (fexcWord0 fs, fexcWord1 fs) := by
  unfold State.raise
  split
  next h => rw [h]; simp
  next h =>
    rw [stripNow_setStrip]
    unfold Strip.raise
    rw [if_neg h]
    exact ⟨rfl, rfl, rfl, rfl, rfl⟩

theorem raise_eq (x : State) (fs : Raised) : x.raise fs = { x with t := { x.t with strip := (x.raise fs).t.strip } } := by
  unfold State.raise
  split <;> rfl

/-- Elements written into a vector register. -/
theorem setElems_elem (e : Entry) (m : Bool) (a : VReg) (f : Nat → Nat) (x : State) (k : Nat) (hk : e.bits * (k + 1) ≤ 32768) :
    elem ((e.setElems m a f x).vr e.modes a.val) e.bits k =
      if k < e.vl ∧ (x.activeMask e.modes m).testBit k then f k % 2 ^ e.bits else elem (x.vr e.modes a.val) e.bits k := by
  unfold Entry.setElems
  split
  next h => simp [h]
  next h =>
    have : (x.setVr e.modes a.val (mapElems e.bits e.vl (x.activeMask e.modes m) (x.vr e.modes a.val) f) e.bytes).vr e.modes a.val =
        mapElems e.bits e.vl (x.activeMask e.modes m) (x.vr e.modes a.val) f % 2 ^ 32768 := by
      show ((x.c.lanes.setV _ _ _).v[(phys e.modes a.val)]).toNat = _
      simp [Lanes.setV]
    rw [this, elem_mod _ _ _ _ hk, elem_mapElems]

/-- The other vector registers stay. -/
theorem setElems_other (e : Entry) (m : Bool) (a : VReg) (f : Nat → Nat) (x : State) (p : Fin 256) (hp : p ≠ phys e.modes a.val) :
    (e.setElems m a f x).c.lanes.v[p] = x.c.lanes.v[p] := by
  unfold Entry.setElems
  split
  · rfl
  · have : (phys e.modes a.val).val ≠ p.val := fun h => hp (Fin.ext h.symm)
    show ((x.c.lanes.setV _ _ _).v[p]) = _
    simp [Lanes.setV, this]

theorem setElems_eq (e : Entry) (m : Bool) (a : VReg) (f : Nat → Nat) (x : State) :
    e.setElems m a f x = { x with c := { x.c with lanes := { x.c.lanes with
      v := (e.setElems m a f x).c.lanes.v, vMark := (e.setElems m a f x).c.lanes.vMark } } } := by
  unfold Entry.setElems
  split <;> rfl

/-- Word i is element-wise in vA: elements f and flags g from the entry and the state. -/
def Elementwise (i : Instr) (m : Bool) (a : VReg) (f : Entry → State → Nat → Nat) (g : Entry → State → Raised) : Prop :=
  ∀ e x, effectOf i e x = .ok ((e.setElems m a (f e x) x).raise (g e x))

/-- What element-wise words have in common besides their effect. -/
structure Plain (i : Instr) (m : Bool) (a : VReg) (s : State) : Prop where
  async : asyncProduct i = false
  opens : opensStrip i = false
  gives : givesLanes i = false
  decode : atDecode i (capture i s) s = s
  captured : captured i s s = capture i s
  runs : exec i s = vecWord i s
  accepted : ∀ hdr, memberTrap i (capture i s) hdr 0 1 s.t.vmax false = none
  writes : ∀ x, (useOf (capture i s) x).writes.length ≤ 6

theorem LReg.cost_le (r : LReg) : r.cost ≤ 5 := by cases r <;> simp [LReg.cost]

theorem acting_eq (s : State) (i : Instr) : s.acting i =
    { s with cycle := Nat.max s.cycle (s.t.cycle + 1),
             t := { s.t with pc := (nextWord s.t).pc, loops := (nextWord s.t).loops, conv := none, queue := [],
                             count := s.t.count + 1, cycle := s.t.cycle + 1, wait := none, strip := (s.acting i).t.strip,
                             stall := none },
             c := { s.c with loads := (s.acting i).c.loads } } := by
  have h := noted_eq s.lone (capture i s) (useOf (capture i s) s.lone)
  unfold State.acting
  rw [h, lone_eq]

theorem elementwise_result (h : Lone s) {i : Instr} {m : Bool} {a : VReg} {f : Entry → State → Nat → Nat}
    {g : Entry → State → Raised} (hp : Plain i m a s) (he : Elementwise i m a f g) :
    VecResult s i m a (f (capture i s) (s.acting i)) (g (capture i s) (s.acting i)) := by
  obtain ⟨hst, hap, hfl, hfx, hsh⟩ := noted_strip h (capture i s) (useOf (capture i s) s.lone)
  generalize hx : s.acting i = x
  have hxd : s.lone.noted (capture i s) (useOf (capture i s) s.lone) = x := hx
  rw [hxd] at hst hap hfl hfx hsh
  have hxe := acting_eq s i
  rw [hx, show ([] : List Convoy) = s.t.queue from h.queue.symm] at hxe
  have hxc : x.c.lanes = s.c.lanes := by rw [hxe]
  have hxp : x.t.pc = (nextWord s.t).pc := by rw [hxe]
  generalize hy : ((capture i s).setElems m a (f (capture i s) x) x).raise (g (capture i s) x) = y
  have hye : y = { x with t := { x.t with strip := y.t.strip },
                          c := { x.c with lanes := { x.c.lanes with v := y.c.lanes.v, vMark := y.c.lanes.vMark } } } := by
    rw [← hy, raise_eq, setElems_eq]
  have hys : ((capture i s).setElems m a (f (capture i s) x) x).stripNow = x.stripNow := by
    rw [setElems_eq]; rfl
  have hr := raise_flags ((capture i s).setElems m a (f (capture i s) x) x) (g (capture i s) x)
  rw [hy, hys] at hr
  obtain ⟨hr1, hr2, hr3, hr4, hr5⟩ := hr
  have hcost : (((useOf (capture i s) s.lone).writes.map fun w => w.1.cost)).sum ≤ 32 := by
    have hb (ws : List (LReg × Bool)) : (ws.map fun w => w.1.cost).sum ≤ 5 * ws.length := by
      induction ws with
      | nil => simp
      | cons w ws ih => have := LReg.cost_le w.1; simp only [List.map_cons, List.sum_cons, List.length_cons]; omega
    have := hb (useOf (capture i s) s.lone).writes
    have := hp.writes s.lone
    omega
  obtain ⟨cv, hv⟩ := lone_runs h hp.async hp.opens hp.gives hp.decode hp.captured hp.accepted
    (y := y) (by rw [hxd, he, hy]) (by rw [hye, hxe]; exact h.good) (by rw [hr4]; omega)
    (by rw [Strip.bufferBytes, hr2, hst]; simp) (by rw [hye, hxe]; exact h.queue) (by rw [hye, hxe]; exact h.debug)
    (by rw [hye, hxe]; exact h.free)
  have hw := written_eq (y := y) (by rw [hye, hxe]; exact h.free) (useOf (capture i s) s.lone) (progressOf (capture i s) s.lone)
  generalize y.written (useOf (capture i s) s.lone) (progressOf (capture i s) s.lone) = z at hw hv
  have hzv : z.c.lanes.v = y.c.lanes.v := by rw [hw]
  have hzs : z.stripNow = y.stripNow := by rw [hw]; rfl
  refine ⟨_, hp.runs.trans hv, ?_, ?_, ?_, ?_, ?_⟩
  · intro k hk
    have := setElems_elem (capture i s) m a (f (capture i s) x) x k hk
    have hyv : y.c.lanes.v = ((capture i s).setElems m a (f (capture i s) x) x).c.lanes.v := by rw [← hy, raise_eq]
    have e1 : (z.retired cv).vr s.t.modes a.val = ((capture i s).setElems m a (f (capture i s) x) x).vr (capture i s).modes a.val := by
      show (z.c.lanes.v[phys s.t.modes a.val]).toNat = _
      rw [hzv, hyv]; rfl
    have e2 : x.vr (capture i s).modes a.val = s.vr s.t.modes a.val := by unfold State.vr; rw [hxc]; rfl
    have e3 : x.activeMask (capture i s).modes m = s.activeMask s.t.modes m := by unfold State.activeMask; rw [hxc]; rfl
    rw [e2, e3] at this
    exact (congrArg (fun z => elem z s.width k) e1).trans this
  · intro p hpp
    have := setElems_other (capture i s) m a (f (capture i s) x) x p hpp
    rw [hxc] at this
    rw [← this]
    show z.c.lanes.v[p] = _
    rw [hzv, ← hy, raise_eq]
  · rw [← hzs] at hr1 hr2 hr3 hr5
    exact ⟨hr1.trans (by rw [hfl]), hr2.trans hst, hr3.trans hap, hr5.trans (by rw [hfx])⟩
  · rw [hw]; exact (congrArg (fun z => z.t.pc) hye).trans hxp
  · unfold OnlyVector State.retired State.setStrip
    rw [hw, hye, hxe]

end Sys2Proof.Machine
end

