-- ==== Sys2Proof/Laws/PerInstr.lean ====
section
/-! SUPPORT. One lemma per constructor of Instr: the fields the encoder gives it fit the fields of Table 7-1. -/

namespace Sys2Proof

/-- Each field fits its place in Table 7-1: four bits of function, three seven-bit operands, seven bits of code. -/
def Raw.Fits (r : Raw) : Prop := r.fn < 16 ∧ r.c < 128 ∧ r.b < 128 ∧ r.a < 128 ∧ r.opc < 128

/-- Fields that fit are read back from the word they make. -/
theorem rawOf_wordOf {r : Raw} (h : r.Fits) : rawOf (wordOf r) = r := by
  obtain ⟨h1, h2, h3, h4, h5⟩ := h
  obtain ⟨fn, c, b, a, opc⟩ := r
  simp only at h1 h2 h3 h4 h5
  simp only [rawOf, wordOf, Raw.mk.injEq]
  omega

/-- Fields that fit make a word of 32 bits (R132). -/
theorem wordOf_lt {r : Raw} (h : r.Fits) : wordOf r < 2 ^ 32 := by
  obtain ⟨h1, h2, h3, h4, h5⟩ := h
  simp only [wordOf]
  omega

theorem fits_i11 {imm b a opc : Nat} (hi : imm < 2048) (hb : b < 128) (ha : a < 128) (ho : opc < 128) :
    (rawI11 imm b a opc).Fits := by
  refine ⟨?_, ?_, hb, ha, ho⟩ <;> simp only [rawI11] <;> omega

theorem fits_i18 {imm a opc : Nat} (hi : imm < 262144) (ha : a < 128) (ho : opc < 128) :
    (rawI18 imm a opc).Fits := by
  refine ⟨?_, ?_, ?_, ha, ho⟩ <;> simp only [rawI18] <;> omega

theorem fits_j25 {imm opc : Nat} (hi : imm < 33554432) (ho : opc < 128) : (rawJ25 imm opc).Fits := by
  refine ⟨?_, ?_, ?_, ?_, ho⟩ <;> simp only [rawJ25] <;> omega

theorem flagBit (m : Bool) (n : Nat) (h : n < 8) : n + m.toNat * 8 < 16 ∧ m.toNat * 8 + n < 16 := by
  cases m <;> simp <;> omega

end Sys2Proof

namespace Sys2Proof.Laws.EncodedWord

/-- The fields of the instruction's word fit the fields of Table 7-1 (an event has no word). -/
def Statement (i : Instr) : Prop := ∀ r, encodeRaw i = some r → r.Fits

theorem add (a : GReg) (b : GReg) (c : GReg) : Statement (.add a b c) := by
  intro r h; cases h
  refine ⟨?_, ?_, ?_, ?_, ?_⟩ <;> dsimp only <;> omega

theorem sub (a : GReg) (b : GReg) (c : GReg) : Statement (.sub a b c) := by
  intro r h; cases h
  refine ⟨?_, ?_, ?_, ?_, ?_⟩ <;> dsimp only <;> omega

theorem and (a : GReg) (b : GReg) (c : GReg) : Statement (.and a b c) := by
  intro r h; cases h
  refine ⟨?_, ?_, ?_, ?_, ?_⟩ <;> dsimp only <;> omega

theorem or (a : GReg) (b : GReg) (c : GReg) : Statement (.or a b c) := by
  intro r h; cases h
  refine ⟨?_, ?_, ?_, ?_, ?_⟩ <;> dsimp only <;> omega

theorem xor (a : GReg) (b : GReg) (c : GReg) : Statement (.xor a b c) := by
  intro r h; cases h
  refine ⟨?_, ?_, ?_, ?_, ?_⟩ <;> dsimp only <;> omega

theorem sll (a : GReg) (b : GReg) (c : GReg) : Statement (.sll a b c) := by
  intro r h; cases h
  refine ⟨?_, ?_, ?_, ?_, ?_⟩ <;> dsimp only <;> omega

theorem srl (a : GReg) (b : GReg) (c : GReg) : Statement (.srl a b c) := by
  intro r h; cases h
  refine ⟨?_, ?_, ?_, ?_, ?_⟩ <;> dsimp only <;> omega

theorem sra (a : GReg) (b : GReg) (c : GReg) : Statement (.sra a b c) := by
  intro r h; cases h
  refine ⟨?_, ?_, ?_, ?_, ?_⟩ <;> dsimp only <;> omega

theorem min (a : GReg) (b : GReg) (c : GReg) : Statement (.min a b c) := by
  intro r h; cases h
  refine ⟨?_, ?_, ?_, ?_, ?_⟩ <;> dsimp only <;> omega

theorem max (a : GReg) (b : GReg) (c : GReg) : Statement (.max a b c) := by
  intro r h; cases h
  refine ⟨?_, ?_, ?_, ?_, ?_⟩ <;> dsimp only <;> omega

theorem mins (a : GReg) (b : GReg) (c : GReg) : Statement (.mins a b c) := by
  intro r h; cases h
  refine ⟨?_, ?_, ?_, ?_, ?_⟩ <;> dsimp only <;> omega

theorem maxs (a : GReg) (b : GReg) (c : GReg) : Statement (.maxs a b c) := by
  intro r h; cases h
  refine ⟨?_, ?_, ?_, ?_, ?_⟩ <;> dsimp only <;> omega

theorem slt (a : GReg) (b : GReg) (c : GReg) : Statement (.slt a b c) := by
  intro r h; cases h
  refine ⟨?_, ?_, ?_, ?_, ?_⟩ <;> dsimp only <;> omega

theorem slts (a : GReg) (b : GReg) (c : GReg) : Statement (.slts a b c) := by
  intro r h; cases h
  refine ⟨?_, ?_, ?_, ?_, ?_⟩ <;> dsimp only <;> omega

theorem sel (a : GReg) (b : GReg) (c : GReg) : Statement (.sel a b c) := by
  intro r h; cases h
  refine ⟨?_, ?_, ?_, ?_, ?_⟩ <;> dsimp only <;> omega

theorem mul (a : GReg) (b : GReg) (c : GReg) : Statement (.mul a b c) := by
  intro r h; cases h
  refine ⟨?_, ?_, ?_, ?_, ?_⟩ <;> dsimp only <;> omega

theorem mulh (a : GReg) (b : GReg) (c : GReg) : Statement (.mulh a b c) := by
  intro r h; cases h
  refine ⟨?_, ?_, ?_, ?_, ?_⟩ <;> dsimp only <;> omega

theorem mulhs (a : GReg) (b : GReg) (c : GReg) : Statement (.mulhs a b c) := by
  intro r h; cases h
  refine ⟨?_, ?_, ?_, ?_, ?_⟩ <;> dsimp only <;> omega

theorem div (a : GReg) (b : GReg) (c : GReg) : Statement (.div a b c) := by
  intro r h; cases h
  refine ⟨?_, ?_, ?_, ?_, ?_⟩ <;> dsimp only <;> omega

theorem divs (a : GReg) (b : GReg) (c : GReg) : Statement (.divs a b c) := by
  intro r h; cases h
  refine ⟨?_, ?_, ?_, ?_, ?_⟩ <;> dsimp only <;> omega

theorem rem (a : GReg) (b : GReg) (c : GReg) : Statement (.rem a b c) := by
  intro r h; cases h
  refine ⟨?_, ?_, ?_, ?_, ?_⟩ <;> dsimp only <;> omega

theorem rems (a : GReg) (b : GReg) (c : GReg) : Statement (.rems a b c) := by
  intro r h; cases h
  refine ⟨?_, ?_, ?_, ?_, ?_⟩ <;> dsimp only <;> omega

theorem clz (a : GReg) (b : GReg) : Statement (.clz a b) := by
  intro r h; cases h
  refine ⟨?_, ?_, ?_, ?_, ?_⟩ <;> dsimp only <;> omega

theorem ctz (a : GReg) (b : GReg) : Statement (.ctz a b) := by
  intro r h; cases h
  refine ⟨?_, ?_, ?_, ?_, ?_⟩ <;> dsimp only <;> omega

theorem popc (a : GReg) (b : GReg) : Statement (.popc a b) := by
  intro r h; cases h
  refine ⟨?_, ?_, ?_, ?_, ?_⟩ <;> dsimp only <;> omega

theorem brev (a : GReg) (b : GReg) : Statement (.brev a b) := by
  intro r h; cases h
  refine ⟨?_, ?_, ?_, ?_, ?_⟩ <;> dsimp only <;> omega

theorem bswap (a : GReg) (b : GReg) : Statement (.bswap a b) := by
  intro r h; cases h
  refine ⟨?_, ?_, ?_, ?_, ?_⟩ <;> dsimp only <;> omega

theorem sext (a : GReg) (b : GReg) (c : GReg) : Statement (.sext a b c) := by
  intro r h; cases h
  refine ⟨?_, ?_, ?_, ?_, ?_⟩ <;> dsimp only <;> omega

theorem zext (a : GReg) (b : GReg) (c : GReg) : Statement (.zext a b c) := by
  intro r h; cases h
  refine ⟨?_, ?_, ?_, ?_, ?_⟩ <;> dsimp only <;> omega

theorem extr (a : GReg) (b : GReg) (c : GReg) : Statement (.extr a b c) := by
  intro r h; cases h
  refine ⟨?_, ?_, ?_, ?_, ?_⟩ <;> dsimp only <;> omega

theorem ins (a : GReg) (b : GReg) (c : GReg) : Statement (.ins a b c) := by
  intro r h; cases h
  refine ⟨?_, ?_, ?_, ?_, ?_⟩ <;> dsimp only <;> omega

theorem addi (a : GReg) (b : GReg) (imm : BitVec 11) : Statement (.addi a b imm) := by
  intro r h; cases h
  exact fits_i11 (by omega) (by omega) (by omega) (by decide)

theorem andi (a : GReg) (b : GReg) (imm : BitVec 11) : Statement (.andi a b imm) := by
  intro r h; cases h
  exact fits_i11 (by omega) (by omega) (by omega) (by decide)

theorem ori (a : GReg) (b : GReg) (imm : BitVec 11) : Statement (.ori a b imm) := by
  intro r h; cases h
  exact fits_i11 (by omega) (by omega) (by omega) (by decide)

theorem xori (a : GReg) (b : GReg) (imm : BitVec 11) : Statement (.xori a b imm) := by
  intro r h; cases h
  exact fits_i11 (by omega) (by omega) (by omega) (by decide)

theorem slti (a : GReg) (b : GReg) (imm : BitVec 11) : Statement (.slti a b imm) := by
  intro r h; cases h
  exact fits_i11 (by omega) (by omega) (by omega) (by decide)

theorem sltis (a : GReg) (b : GReg) (imm : BitVec 11) : Statement (.sltis a b imm) := by
  intro r h; cases h
  exact fits_i11 (by omega) (by omega) (by omega) (by decide)

theorem slli (a : GReg) (b : GReg) (sh : Fin 64) : Statement (.slli a b sh) := by
  intro r h; cases h
  exact fits_i11 (by omega) (by omega) (by omega) (by decide)

theorem srli (a : GReg) (b : GReg) (sh : Fin 64) : Statement (.srli a b sh) := by
  intro r h; cases h
  exact fits_i11 (by omega) (by omega) (by omega) (by decide)

theorem srai (a : GReg) (b : GReg) (sh : Fin 64) : Statement (.srai a b sh) := by
  intro r h; cases h
  exact fits_i11 (by omega) (by omega) (by omega) (by decide)

theorem lui (a : GReg) (imm : BitVec 18) : Statement (.lui a imm) := by
  intro r h; cases h
  exact fits_i18 (by omega) (by omega) (by decide)

theorem lsh (a : GReg) (imm : BitVec 18) : Statement (.lsh a imm) := by
  intro r h; cases h
  exact fits_i18 (by omega) (by omega) (by decide)

theorem ldB (a : GReg) (b : GReg) (imm : BitVec 11) : Statement (.ldB a b imm) := by
  intro r h; cases h
  exact fits_i11 (by omega) (by omega) (by omega) (by decide)

theorem ldBs (a : GReg) (b : GReg) (imm : BitVec 11) : Statement (.ldBs a b imm) := by
  intro r h; cases h
  exact fits_i11 (by omega) (by omega) (by omega) (by decide)

theorem ldH (a : GReg) (b : GReg) (imm : BitVec 11) : Statement (.ldH a b imm) := by
  intro r h; cases h
  exact fits_i11 (by omega) (by omega) (by omega) (by decide)

theorem ldHs (a : GReg) (b : GReg) (imm : BitVec 11) : Statement (.ldHs a b imm) := by
  intro r h; cases h
  exact fits_i11 (by omega) (by omega) (by omega) (by decide)

theorem ldW (a : GReg) (b : GReg) (imm : BitVec 11) : Statement (.ldW a b imm) := by
  intro r h; cases h
  exact fits_i11 (by omega) (by omega) (by omega) (by decide)

theorem ldWs (a : GReg) (b : GReg) (imm : BitVec 11) : Statement (.ldWs a b imm) := by
  intro r h; cases h
  exact fits_i11 (by omega) (by omega) (by omega) (by decide)

theorem ldD (a : GReg) (b : GReg) (imm : BitVec 11) : Statement (.ldD a b imm) := by
  intro r h; cases h
  exact fits_i11 (by omega) (by omega) (by omega) (by decide)

theorem stB (a : GReg) (b : GReg) (imm : BitVec 11) : Statement (.stB a b imm) := by
  intro r h; cases h
  exact fits_i11 (by omega) (by omega) (by omega) (by decide)

theorem stH (a : GReg) (b : GReg) (imm : BitVec 11) : Statement (.stH a b imm) := by
  intro r h; cases h
  exact fits_i11 (by omega) (by omega) (by omega) (by decide)

theorem stW (a : GReg) (b : GReg) (imm : BitVec 11) : Statement (.stW a b imm) := by
  intro r h; cases h
  exact fits_i11 (by omega) (by omega) (by omega) (by decide)

theorem stD (a : GReg) (b : GReg) (imm : BitVec 11) : Statement (.stD a b imm) := by
  intro r h; cases h
  exact fits_i11 (by omega) (by omega) (by omega) (by decide)

theorem beq (a : GReg) (b : GReg) (imm : BitVec 11) : Statement (.beq a b imm) := by
  intro r h; cases h
  exact fits_i11 (by omega) (by omega) (by omega) (by decide)

theorem bne (a : GReg) (b : GReg) (imm : BitVec 11) : Statement (.bne a b imm) := by
  intro r h; cases h
  exact fits_i11 (by omega) (by omega) (by omega) (by decide)

theorem blt (a : GReg) (b : GReg) (imm : BitVec 11) : Statement (.blt a b imm) := by
  intro r h; cases h
  exact fits_i11 (by omega) (by omega) (by omega) (by decide)

theorem bge (a : GReg) (b : GReg) (imm : BitVec 11) : Statement (.bge a b imm) := by
  intro r h; cases h
  exact fits_i11 (by omega) (by omega) (by omega) (by decide)

theorem blts (a : GReg) (b : GReg) (imm : BitVec 11) : Statement (.blts a b imm) := by
  intro r h; cases h
  exact fits_i11 (by omega) (by omega) (by omega) (by decide)

theorem bges (a : GReg) (b : GReg) (imm : BitVec 11) : Statement (.bges a b imm) := by
  intro r h; cases h
  exact fits_i11 (by omega) (by omega) (by omega) (by decide)

theorem j (imm : BitVec 25) : Statement (.j imm) := by
  intro r h; cases h
  exact fits_j25 (by omega) (by decide)

theorem jal (imm : BitVec 25) : Statement (.jal imm) := by
  intro r h; cases h
  exact fits_j25 (by omega) (by decide)

theorem jr (b : GReg) : Statement (.jr b) := by
  intro r h; cases h
  refine ⟨?_, ?_, ?_, ?_, ?_⟩ <;> dsimp only <;> omega

theorem jalr (a : GReg) (b : GReg) : Statement (.jalr a b) := by
  intro r h; cases h
  refine ⟨?_, ?_, ?_, ?_, ?_⟩ <;> dsimp only <;> omega

theorem loop (k : Fin 2) (b : GReg) (len : BitVec 11) : Statement (.loop k b len) := by
  intro r h; cases h
  exact fits_i11 (by omega) (by omega) (by omega) (by decide)

theorem lclr (mask : Fin 4) : Statement (.lclr mask) := by
  intro r h; cases h
  refine ⟨?_, ?_, ?_, ?_, ?_⟩ <;> dsimp only <;> omega

theorem wbase (b : GReg) : Statement (.wbase b) := by
  intro r h; cases h
  refine ⟨?_, ?_, ?_, ?_, ?_⟩ <;> dsimp only <;> omega

theorem flset (f : FReg) (b : GReg) : Statement (.flset f b) := by
  intro r h; cases h
  refine ⟨?_, ?_, ?_, ?_, ?_⟩ <;> dsimp only <;> omega

theorem flget (a : GReg) (f : FReg) : Statement (.flget a f) := by
  intro r h; cases h
  refine ⟨?_, ?_, ?_, ?_, ?_⟩ <;> dsimp only <;> omega

theorem dross (b : GReg) (c : GReg) : Statement (.dross b c) := by
  intro r h; cases h
  refine ⟨?_, ?_, ?_, ?_, ?_⟩ <;> dsimp only <;> omega

theorem waitt (b : GReg) : Statement (.waitt b) := by
  intro r h; cases h
  refine ⟨?_, ?_, ?_, ?_, ?_⟩ <;> dsimp only <;> omega

theorem waitev (b : GReg) : Statement (.waitev b) := by
  intro r h; cases h
  refine ⟨?_, ?_, ?_, ?_, ?_⟩ <;> dsimp only <;> omega

theorem crr (a : GReg) (n : Fin 2048) : Statement (.crr a n) := by
  intro r h; cases h
  exact fits_i11 (by omega) (by omega) (by omega) (by decide)

theorem crw (a : GReg) (n : Fin 2048) : Statement (.crw a n) := by
  intro r h; cases h
  exact fits_i11 (by omega) (by omega) (by omega) (by decide)

theorem crs (a : GReg) (n : Fin 2048) : Statement (.crs a n) := by
  intro r h; cases h
  exact fits_i11 (by omega) (by omega) (by omega) (by decide)

theorem crc (a : GReg) (n : Fin 2048) : Statement (.crc a n) := by
  intro r h; cases h
  exact fits_i11 (by omega) (by omega) (by omega) (by decide)

theorem trap (code : BitVec 18) : Statement (.trap code) := by
  intro r h; cases h
  exact fits_i18 (by omega) (by omega) (by decide)

theorem launch (b : GReg) (n : Batch) : Statement (.launch b n) := by
  intro r h; cases h
  refine ⟨?_, ?_, ?_, ?_, ?_⟩ <;> dsimp only <;> omega

theorem padd (a : GReg) (b : GReg) (c : GReg) : Statement (.padd a b c) := by
  intro r h; cases h
  refine ⟨?_, ?_, ?_, ?_, ?_⟩ <;> dsimp only <;> omega

theorem pmk (a : GReg) (b : GReg) (c : GReg) : Statement (.pmk a b c) := by
  intro r h; cases h
  refine ⟨?_, ?_, ?_, ?_, ?_⟩ <;> dsimp only <;> omega

theorem pseg (a : GReg) (b : GReg) : Statement (.pseg a b) := by
  intro r h; cases h
  refine ⟨?_, ?_, ?_, ?_, ?_⟩ <;> dsimp only <;> omega

theorem poff (a : GReg) (b : GReg) : Statement (.poff a b) := by
  intro r h; cases h
  refine ⟨?_, ?_, ?_, ?_, ?_⟩ <;> dsimp only <;> omega

theorem paddi (a : GReg) (b : GReg) (imm : BitVec 11) : Statement (.paddi a b imm) := by
  intro r h; cases h
  exact fits_i11 (by omega) (by omega) (by omega) (by decide)

theorem convoyHeader (t : Bool) (d3 : Fin 32) (d2 : Fin 32) (d1 : Fin 32) (d0 : Fin 32) (cnt : Fin 4) : Statement (.convoyHeader t d3 d2 d1 d0 cnt) := by
  intro r h; cases h
  have ht := Bool.toNat_lt t
  refine ⟨?_, ?_, ?_, ?_, ?_⟩ <;> dsimp only <;> omega

theorem vadd (m : Bool) (a : VReg) (b : VReg) (c : VReg) : Statement (.vadd m a b c) := by
  intro r h; cases h
  cases m <;> refine ⟨?_, ?_, ?_, ?_, ?_⟩ <;> simp only [Bool.toNat_true, Bool.toNat_false] <;> omega

theorem vsub (m : Bool) (a : VReg) (b : VReg) (c : VReg) : Statement (.vsub m a b c) := by
  intro r h; cases h
  cases m <;> refine ⟨?_, ?_, ?_, ?_, ?_⟩ <;> simp only [Bool.toNat_true, Bool.toNat_false] <;> omega

theorem vand (m : Bool) (a : VReg) (b : VReg) (c : VReg) : Statement (.vand m a b c) := by
  intro r h; cases h
  cases m <;> refine ⟨?_, ?_, ?_, ?_, ?_⟩ <;> simp only [Bool.toNat_true, Bool.toNat_false] <;> omega

theorem vor (m : Bool) (a : VReg) (b : VReg) (c : VReg) : Statement (.vor m a b c) := by
  intro r h; cases h
  cases m <;> refine ⟨?_, ?_, ?_, ?_, ?_⟩ <;> simp only [Bool.toNat_true, Bool.toNat_false] <;> omega

theorem vxor (m : Bool) (a : VReg) (b : VReg) (c : VReg) : Statement (.vxor m a b c) := by
  intro r h; cases h
  cases m <;> refine ⟨?_, ?_, ?_, ?_, ?_⟩ <;> simp only [Bool.toNat_true, Bool.toNat_false] <;> omega

theorem vmin (m : Bool) (a : VReg) (b : VReg) (c : VReg) : Statement (.vmin m a b c) := by
  intro r h; cases h
  cases m <;> refine ⟨?_, ?_, ?_, ?_, ?_⟩ <;> simp only [Bool.toNat_true, Bool.toNat_false] <;> omega

theorem vmax (m : Bool) (a : VReg) (b : VReg) (c : VReg) : Statement (.vmax m a b c) := by
  intro r h; cases h
  cases m <;> refine ⟨?_, ?_, ?_, ?_, ?_⟩ <;> simp only [Bool.toNat_true, Bool.toNat_false] <;> omega

theorem vmul (m : Bool) (a : VReg) (b : VReg) (c : VReg) : Statement (.vmul m a b c) := by
  intro r h; cases h
  cases m <;> refine ⟨?_, ?_, ?_, ?_, ?_⟩ <;> simp only [Bool.toNat_true, Bool.toNat_false] <;> omega

theorem vsll (m : Bool) (a : VReg) (b : VReg) (c : VReg) : Statement (.vsll m a b c) := by
  intro r h; cases h
  cases m <;> refine ⟨?_, ?_, ?_, ?_, ?_⟩ <;> simp only [Bool.toNat_true, Bool.toNat_false] <;> omega

theorem vsrl (m : Bool) (a : VReg) (b : VReg) (c : VReg) : Statement (.vsrl m a b c) := by
  intro r h; cases h
  cases m <;> refine ⟨?_, ?_, ?_, ?_, ?_⟩ <;> simp only [Bool.toNat_true, Bool.toNat_false] <;> omega

theorem vsra (m : Bool) (a : VReg) (b : VReg) (c : VReg) : Statement (.vsra m a b c) := by
  intro r h; cases h
  cases m <;> refine ⟨?_, ?_, ?_, ?_, ?_⟩ <;> simp only [Bool.toNat_true, Bool.toNat_false] <;> omega

theorem vadds (m : Bool) (a : VReg) (b : VReg) (c : VReg) : Statement (.vadds m a b c) := by
  intro r h; cases h
  cases m <;> refine ⟨?_, ?_, ?_, ?_, ?_⟩ <;> simp only [Bool.toNat_true, Bool.toNat_false] <;> omega

theorem vsubs (m : Bool) (a : VReg) (b : VReg) (c : VReg) : Statement (.vsubs m a b c) := by
  intro r h; cases h
  cases m <;> refine ⟨?_, ?_, ?_, ?_, ?_⟩ <;> simp only [Bool.toNat_true, Bool.toNat_false] <;> omega

theorem vmulh (m : Bool) (a : VReg) (b : VReg) (c : VReg) : Statement (.vmulh m a b c) := by
  intro r h; cases h
  cases m <;> refine ⟨?_, ?_, ?_, ?_, ?_⟩ <;> simp only [Bool.toNat_true, Bool.toNat_false] <;> omega

theorem vabs (m : Bool) (a : VReg) (b : VReg) : Statement (.vabs m a b) := by
  intro r h; cases h
  cases m <;> refine ⟨?_, ?_, ?_, ?_, ?_⟩ <;> simp only [Bool.toNat_true, Bool.toNat_false] <;> omega

theorem vneg (m : Bool) (a : VReg) (b : VReg) : Statement (.vneg m a b) := by
  intro r h; cases h
  cases m <;> refine ⟨?_, ?_, ?_, ?_, ?_⟩ <;> simp only [Bool.toNat_true, Bool.toNat_false] <;> omega

theorem vcmp (m : Bool) (cc : Fin 8) (a : MReg) (b : VReg) (c : VReg) : Statement (.vcmp m cc a b c) := by
  intro r h; cases h
  cases m <;> refine ⟨?_, ?_, ?_, ?_, ?_⟩ <;> simp only [Bool.toNat_true, Bool.toNat_false] <;> omega

theorem vfadd (m : Bool) (a : VReg) (b : VReg) (c : VReg) : Statement (.vfadd m a b c) := by
  intro r h; cases h
  cases m <;> refine ⟨?_, ?_, ?_, ?_, ?_⟩ <;> simp only [Bool.toNat_true, Bool.toNat_false] <;> omega

theorem vfsub (m : Bool) (a : VReg) (b : VReg) (c : VReg) : Statement (.vfsub m a b c) := by
  intro r h; cases h
  cases m <;> refine ⟨?_, ?_, ?_, ?_, ?_⟩ <;> simp only [Bool.toNat_true, Bool.toNat_false] <;> omega

theorem vfmul (m : Bool) (a : VReg) (b : VReg) (c : VReg) : Statement (.vfmul m a b c) := by
  intro r h; cases h
  cases m <;> refine ⟨?_, ?_, ?_, ?_, ?_⟩ <;> simp only [Bool.toNat_true, Bool.toNat_false] <;> omega

theorem vfmin (m : Bool) (a : VReg) (b : VReg) (c : VReg) : Statement (.vfmin m a b c) := by
  intro r h; cases h
  cases m <;> refine ⟨?_, ?_, ?_, ?_, ?_⟩ <;> simp only [Bool.toNat_true, Bool.toNat_false] <;> omega

theorem vfmax (m : Bool) (a : VReg) (b : VReg) (c : VReg) : Statement (.vfmax m a b c) := by
  intro r h; cases h
  cases m <;> refine ⟨?_, ?_, ?_, ?_, ?_⟩ <;> simp only [Bool.toNat_true, Bool.toNat_false] <;> omega

theorem vfdiv (m : Bool) (a : VReg) (b : VReg) (c : VReg) : Statement (.vfdiv m a b c) := by
  intro r h; cases h
  cases m <;> refine ⟨?_, ?_, ?_, ?_, ?_⟩ <;> simp only [Bool.toNat_true, Bool.toNat_false] <;> omega

theorem vfsqrt (m : Bool) (a : VReg) (b : VReg) : Statement (.vfsqrt m a b) := by
  intro r h; cases h
  cases m <;> refine ⟨?_, ?_, ?_, ?_, ?_⟩ <;> simp only [Bool.toNat_true, Bool.toNat_false] <;> omega

theorem vfma (m : Bool) (a : VReg) (b : VReg) (c : VReg) : Statement (.vfma m a b c) := by
  intro r h; cases h
  cases m <;> refine ⟨?_, ?_, ?_, ?_, ?_⟩ <;> simp only [Bool.toNat_true, Bool.toNat_false] <;> omega

theorem vfms (m : Bool) (a : VReg) (b : VReg) (c : VReg) : Statement (.vfms m a b c) := by
  intro r h; cases h
  cases m <;> refine ⟨?_, ?_, ?_, ?_, ?_⟩ <;> simp only [Bool.toNat_true, Bool.toNat_false] <;> omega

theorem vfnma (m : Bool) (a : VReg) (b : VReg) (c : VReg) : Statement (.vfnma m a b c) := by
  intro r h; cases h
  cases m <;> refine ⟨?_, ?_, ?_, ?_, ?_⟩ <;> simp only [Bool.toNat_true, Bool.toNat_false] <;> omega

theorem vfneg (m : Bool) (a : VReg) (b : VReg) : Statement (.vfneg m a b) := by
  intro r h; cases h
  cases m <;> refine ⟨?_, ?_, ?_, ?_, ?_⟩ <;> simp only [Bool.toNat_true, Bool.toNat_false] <;> omega

theorem vfabs (m : Bool) (a : VReg) (b : VReg) : Statement (.vfabs m a b) := by
  intro r h; cases h
  cases m <;> refine ⟨?_, ?_, ?_, ?_, ?_⟩ <;> simp only [Bool.toNat_true, Bool.toNat_false] <;> omega

theorem vfcmp (m : Bool) (cc : Fin 8) (a : MReg) (b : VReg) (c : VReg) : Statement (.vfcmp m cc a b c) := by
  intro r h; cases h
  cases m <;> refine ⟨?_, ?_, ?_, ?_, ?_⟩ <;> simp only [Bool.toNat_true, Bool.toNat_false] <;> omega

theorem vexp2 (m : Bool) (a : VReg) (b : VReg) : Statement (.vexp2 m a b) := by
  intro r h; cases h
  cases m <;> refine ⟨?_, ?_, ?_, ?_, ?_⟩ <;> simp only [Bool.toNat_true, Bool.toNat_false] <;> omega

theorem vlog2 (m : Bool) (a : VReg) (b : VReg) : Statement (.vlog2 m a b) := by
  intro r h; cases h
  cases m <;> refine ⟨?_, ?_, ?_, ?_, ?_⟩ <;> simp only [Bool.toNat_true, Bool.toNat_false] <;> omega

theorem vrcp (m : Bool) (a : VReg) (b : VReg) : Statement (.vrcp m a b) := by
  intro r h; cases h
  cases m <;> refine ⟨?_, ?_, ?_, ?_, ?_⟩ <;> simp only [Bool.toNat_true, Bool.toNat_false] <;> omega

theorem vrsqrt (m : Bool) (a : VReg) (b : VReg) : Statement (.vrsqrt m a b) := by
  intro r h; cases h
  cases m <;> refine ⟨?_, ?_, ?_, ?_, ?_⟩ <;> simp only [Bool.toNat_true, Bool.toNat_false] <;> omega

theorem vtanh (m : Bool) (a : VReg) (b : VReg) : Statement (.vtanh m a b) := by
  intro r h; cases h
  cases m <;> refine ⟨?_, ?_, ?_, ?_, ?_⟩ <;> simp only [Bool.toNat_true, Bool.toNat_false] <;> omega

theorem vsigm (m : Bool) (a : VReg) (b : VReg) : Statement (.vsigm m a b) := by
  intro r h; cases h
  cases m <;> refine ⟨?_, ?_, ?_, ?_, ?_⟩ <;> simp only [Bool.toNat_true, Bool.toNat_false] <;> omega

theorem vcvt (m : Bool) (a : VReg) (b : VReg) (ty : Fin 16) (rc : Fin 8) : Statement (.vcvt m a b ty rc) := by
  intro r h; cases h
  cases m <;> refine ⟨?_, ?_, ?_, ?_, ?_⟩ <;> simp only [Bool.toNat_true, Bool.toNat_false] <;> omega

theorem vmv (m : Bool) (a : VReg) (b : VReg) : Statement (.vmv m a b) := by
  intro r h; cases h
  cases m <;> refine ⟨?_, ?_, ?_, ?_, ?_⟩ <;> simp only [Bool.toNat_true, Bool.toNat_false] <;> omega

theorem vbcast (m : Bool) (a : VReg) (b : GReg) : Statement (.vbcast m a b) := by
  intro r h; cases h
  cases m <;> refine ⟨?_, ?_, ?_, ?_, ?_⟩ <;> simp only [Bool.toNat_true, Bool.toNat_false] <;> omega

theorem vext (m : Bool) (a : GReg) (b : VReg) (c : GReg) : Statement (.vext m a b c) := by
  intro r h; cases h
  cases m <;> refine ⟨?_, ?_, ?_, ?_, ?_⟩ <;> simp only [Bool.toNat_true, Bool.toNat_false] <;> omega

theorem vins (m : Bool) (a : VReg) (b : GReg) (c : GReg) : Statement (.vins m a b c) := by
  intro r h; cases h
  cases m <;> refine ⟨?_, ?_, ?_, ?_, ?_⟩ <;> simp only [Bool.toNat_true, Bool.toNat_false] <;> omega

theorem viota (m : Bool) (a : VReg) : Statement (.viota m a) := by
  intro r h; cases h
  cases m <;> refine ⟨?_, ?_, ?_, ?_, ?_⟩ <;> simp only [Bool.toNat_true, Bool.toNat_false] <;> omega

theorem vslideup (m : Bool) (a : VReg) (b : VReg) (c : GReg) : Statement (.vslideup m a b c) := by
  intro r h; cases h
  cases m <;> refine ⟨?_, ?_, ?_, ?_, ?_⟩ <;> simp only [Bool.toNat_true, Bool.toNat_false] <;> omega

theorem vslidedn (m : Bool) (a : VReg) (b : VReg) (c : GReg) : Statement (.vslidedn m a b c) := by
  intro r h; cases h
  cases m <;> refine ⟨?_, ?_, ?_, ?_, ?_⟩ <;> simp only [Bool.toNat_true, Bool.toNat_false] <;> omega

theorem vgatheri (m : Bool) (a : VReg) (b : VReg) (c : VReg) : Statement (.vgatheri m a b c) := by
  intro r h; cases h
  cases m <;> refine ⟨?_, ?_, ?_, ?_, ?_⟩ <;> simp only [Bool.toNat_true, Bool.toNat_false] <;> omega

theorem vredsum (m : Bool) (a : GReg) (b : VReg) : Statement (.vredsum m a b) := by
  intro r h; cases h
  cases m <;> refine ⟨?_, ?_, ?_, ?_, ?_⟩ <;> simp only [Bool.toNat_true, Bool.toNat_false] <;> omega

theorem vredmin (m : Bool) (a : GReg) (b : VReg) : Statement (.vredmin m a b) := by
  intro r h; cases h
  cases m <;> refine ⟨?_, ?_, ?_, ?_, ?_⟩ <;> simp only [Bool.toNat_true, Bool.toNat_false] <;> omega

theorem vredmax (m : Bool) (a : GReg) (b : VReg) : Statement (.vredmax m a b) := by
  intro r h; cases h
  cases m <;> refine ⟨?_, ?_, ?_, ?_, ?_⟩ <;> simp only [Bool.toNat_true, Bool.toNat_false] <;> omega

theorem vredmins (m : Bool) (a : GReg) (b : VReg) : Statement (.vredmins m a b) := by
  intro r h; cases h
  cases m <;> refine ⟨?_, ?_, ?_, ?_, ?_⟩ <;> simp only [Bool.toNat_true, Bool.toNat_false] <;> omega

theorem vredmaxs (m : Bool) (a : GReg) (b : VReg) : Statement (.vredmaxs m a b) := by
  intro r h; cases h
  cases m <;> refine ⟨?_, ?_, ?_, ?_, ?_⟩ <;> simp only [Bool.toNat_true, Bool.toNat_false] <;> omega

theorem vfredsum (m : Bool) (a : GReg) (b : VReg) : Statement (.vfredsum m a b) := by
  intro r h; cases h
  cases m <;> refine ⟨?_, ?_, ?_, ?_, ?_⟩ <;> simp only [Bool.toNat_true, Bool.toNat_false] <;> omega

theorem vfredmin (m : Bool) (a : GReg) (b : VReg) : Statement (.vfredmin m a b) := by
  intro r h; cases h
  cases m <;> refine ⟨?_, ?_, ?_, ?_, ?_⟩ <;> simp only [Bool.toNat_true, Bool.toNat_false] <;> omega

theorem vfredmax (m : Bool) (a : GReg) (b : VReg) : Statement (.vfredmax m a b) := by
  intro r h; cases h
  cases m <;> refine ⟨?_, ?_, ?_, ?_, ?_⟩ <;> simp only [Bool.toNat_true, Bool.toNat_false] <;> omega

theorem vscanAdd (m : Bool) (a : VReg) (b : VReg) : Statement (.vscanAdd m a b) := by
  intro r h; cases h
  cases m <;> refine ⟨?_, ?_, ?_, ?_, ?_⟩ <;> simp only [Bool.toNat_true, Bool.toNat_false] <;> omega

theorem vscanMin (m : Bool) (a : VReg) (b : VReg) : Statement (.vscanMin m a b) := by
  intro r h; cases h
  cases m <;> refine ⟨?_, ?_, ?_, ?_, ?_⟩ <;> simp only [Bool.toNat_true, Bool.toNat_false] <;> omega

theorem vscanMax (m : Bool) (a : VReg) (b : VReg) : Statement (.vscanMax m a b) := by
  intro r h; cases h
  cases m <;> refine ⟨?_, ?_, ?_, ?_, ?_⟩ <;> simp only [Bool.toNat_true, Bool.toNat_false] <;> omega

theorem vfscanAdd (m : Bool) (a : VReg) (b : VReg) : Statement (.vfscanAdd m a b) := by
  intro r h; cases h
  cases m <;> refine ⟨?_, ?_, ?_, ?_, ?_⟩ <;> simp only [Bool.toNat_true, Bool.toNat_false] <;> omega

theorem vfscanMax (m : Bool) (a : VReg) (b : VReg) : Statement (.vfscanMax m a b) := by
  intro r h; cases h
  cases m <;> refine ⟨?_, ?_, ?_, ?_, ?_⟩ <;> simp only [Bool.toNat_true, Bool.toNat_false] <;> omega

theorem mand (m : Bool) (a : MReg) (b : MReg) (c : MReg) : Statement (.mand m a b c) := by
  intro r h; cases h
  cases m <;> refine ⟨?_, ?_, ?_, ?_, ?_⟩ <;> simp only [Bool.toNat_true, Bool.toNat_false] <;> omega

theorem mor (m : Bool) (a : MReg) (b : MReg) (c : MReg) : Statement (.mor m a b c) := by
  intro r h; cases h
  cases m <;> refine ⟨?_, ?_, ?_, ?_, ?_⟩ <;> simp only [Bool.toNat_true, Bool.toNat_false] <;> omega

theorem mxor (m : Bool) (a : MReg) (b : MReg) (c : MReg) : Statement (.mxor m a b c) := by
  intro r h; cases h
  cases m <;> refine ⟨?_, ?_, ?_, ?_, ?_⟩ <;> simp only [Bool.toNat_true, Bool.toNat_false] <;> omega

theorem mandn (m : Bool) (a : MReg) (b : MReg) (c : MReg) : Statement (.mandn m a b c) := by
  intro r h; cases h
  cases m <;> refine ⟨?_, ?_, ?_, ?_, ?_⟩ <;> simp only [Bool.toNat_true, Bool.toNat_false] <;> omega

theorem mnot (m : Bool) (a : MReg) (b : MReg) : Statement (.mnot m a b) := by
  intro r h; cases h
  cases m <;> refine ⟨?_, ?_, ?_, ?_, ?_⟩ <;> simp only [Bool.toNat_true, Bool.toNat_false] <;> omega

theorem mpopc (m : Bool) (a : GReg) (b : MReg) : Statement (.mpopc m a b) := by
  intro r h; cases h
  cases m <;> refine ⟨?_, ?_, ?_, ?_, ?_⟩ <;> simp only [Bool.toNat_true, Bool.toNat_false] <;> omega

theorem mfirst (m : Bool) (a : GReg) (b : MReg) : Statement (.mfirst m a b) := by
  intro r h; cases h
  cases m <;> refine ⟨?_, ?_, ?_, ?_, ?_⟩ <;> simp only [Bool.toNat_true, Bool.toNat_false] <;> omega

theorem vcompress (m : Bool) (a : VReg) (b : VReg) (c : MReg) : Statement (.vcompress m a b c) := by
  intro r h; cases h
  cases m <;> refine ⟨?_, ?_, ?_, ?_, ?_⟩ <;> simp only [Bool.toNat_true, Bool.toNat_false] <;> omega

theorem vpack (m : Bool) (f : FReg) (a : VReg) (b : VReg) : Statement (.vpack m f a b) := by
  intro r h; cases h
  cases m <;> refine ⟨?_, ?_, ?_, ?_, ?_⟩ <;> simp only [Bool.toNat_true, Bool.toNat_false] <;> omega

theorem setvl (a : GReg) (b : GReg) (ty : Fin 16) : Statement (.setvl a b ty) := by
  intro r h; cases h
  exact fits_i11 (by omega) (by omega) (by omega) (by decide)

theorem vmsel (a : MReg) : Statement (.vmsel a) := by
  intro r h; cases h
  refine ⟨?_, ?_, ?_, ?_, ?_⟩ <;> dsimp only <;> omega

theorem vbind (a : VReg) (b : SReg) : Statement (.vbind a b) := by
  intro r h; cases h
  refine ⟨?_, ?_, ?_, ?_, ?_⟩ <;> dsimp only <;> omega

theorem vunbind (a : VReg) : Statement (.vunbind a) := by
  intro r h; cases h
  refine ⟨?_, ?_, ?_, ?_, ?_⟩ <;> dsimp only <;> omega

theorem vappend (a : GReg) (b : SReg) (c : GReg) : Statement (.vappend a b c) := by
  intro r h; cases h
  refine ⟨?_, ?_, ?_, ?_, ?_⟩ <;> dsimp only <;> omega

theorem vspill (a : VReg) (b : GReg) : Statement (.vspill a b) := by
  intro r h; cases h
  refine ⟨?_, ?_, ?_, ?_, ?_⟩ <;> dsimp only <;> omega

theorem vfill (a : VReg) (b : GReg) : Statement (.vfill a b) := by
  intro r h; cases h
  refine ⟨?_, ?_, ?_, ?_, ?_⟩ <;> dsimp only <;> omega

theorem vmbox (b : GReg) (c : GReg) : Statement (.vmbox b c) := by
  intro r h; cases h
  refine ⟨?_, ?_, ?_, ?_, ?_⟩ <;> dsimp only <;> omega

theorem vld (m : Bool) (a : VReg) (b : GReg) : Statement (.vld m a b) := by
  intro r h; cases h
  cases m <;> refine ⟨?_, ?_, ?_, ?_, ?_⟩ <;> simp only [Bool.toNat_true, Bool.toNat_false] <;> omega

theorem vst (m : Bool) (a : VReg) (b : GReg) : Statement (.vst m a b) := by
  intro r h; cases h
  cases m <;> refine ⟨?_, ?_, ?_, ?_, ?_⟩ <;> simp only [Bool.toNat_true, Bool.toNat_false] <;> omega

theorem vlds (m : Bool) (a : VReg) (b : GReg) (c : GReg) : Statement (.vlds m a b c) := by
  intro r h; cases h
  cases m <;> refine ⟨?_, ?_, ?_, ?_, ?_⟩ <;> simp only [Bool.toNat_true, Bool.toNat_false] <;> omega

theorem vsts (m : Bool) (a : VReg) (b : GReg) (c : GReg) : Statement (.vsts m a b c) := by
  intro r h; cases h
  cases m <;> refine ⟨?_, ?_, ?_, ?_, ?_⟩ <;> simp only [Bool.toNat_true, Bool.toNat_false] <;> omega

theorem vldx (m : Bool) (a : VReg) (b : GReg) (c : VReg) : Statement (.vldx m a b c) := by
  intro r h; cases h
  cases m <;> refine ⟨?_, ?_, ?_, ?_, ?_⟩ <;> simp only [Bool.toNat_true, Bool.toNat_false] <;> omega

theorem vstx (m : Bool) (a : VReg) (b : GReg) (c : VReg) : Statement (.vstx m a b c) := by
  intro r h; cases h
  cases m <;> refine ⟨?_, ?_, ?_, ?_, ?_⟩ <;> simp only [Bool.toNat_true, Bool.toNat_false] <;> omega

theorem vldt (m : Bool) (a : VReg) (b : GReg) (c : GReg) : Statement (.vldt m a b c) := by
  intro r h; cases h
  cases m <;> refine ⟨?_, ?_, ?_, ?_, ?_⟩ <;> simp only [Bool.toNat_true, Bool.toNat_false] <;> omega

theorem vpmul (m : Bool) (f : FReg) (a : VReg) (b : VReg) (c : VReg) : Statement (.vpmul m f a b c) := by
  intro r h; cases h
  cases m <;> refine ⟨?_, ?_, ?_, ?_, ?_⟩ <;> simp only [Bool.toNat_true, Bool.toNat_false] <;> omega

theorem vpmula (m : Bool) (f : FReg) (a : VReg) (b : VReg) (c : VReg) : Statement (.vpmula m f a b c) := by
  intro r h; cases h
  cases m <;> refine ⟨?_, ?_, ?_, ?_, ?_⟩ <;> simp only [Bool.toNat_true, Bool.toNat_false] <;> omega

theorem vpext (m : Bool) (f : FReg) (a : VReg) (b : VReg) : Statement (.vpext m f a b) := by
  intro r h; cases h
  cases m <;> refine ⟨?_, ?_, ?_, ?_, ?_⟩ <;> simp only [Bool.toNat_true, Bool.toNat_false] <;> omega

theorem mshape (a : GReg) (b : GReg) : Statement (.mshape a b) := by
  intro r h; cases h
  refine ⟨?_, ?_, ?_, ?_, ?_⟩ <;> dsimp only <;> omega

theorem tmvr (a : TReg) (rc : Fin 8) (b : VReg) (c : GReg) : Statement (.tmvr a rc b c) := by
  intro r h; cases h
  refine ⟨?_, ?_, ?_, ?_, ?_⟩ <;> dsimp only <;> omega

theorem tmvc (a : VReg) (b : TReg) (rc : Fin 8) (c : GReg) : Statement (.tmvc a b rc c) := by
  intro r h; cases h
  refine ⟨?_, ?_, ?_, ?_, ?_⟩ <;> dsimp only <;> omega

theorem tmvrr (a : TReg) (b : TReg) (c : GReg) : Statement (.tmvrr a b c) := by
  intro r h; cases h
  refine ⟨?_, ?_, ?_, ?_, ?_⟩ <;> dsimp only <;> omega

theorem tzero (a : TReg) : Statement (.tzero a) := by
  intro r h; cases h
  refine ⟨?_, ?_, ?_, ?_, ?_⟩ <;> dsimp only <;> omega

theorem tld (a : TReg) (b : GReg) (c : GReg) : Statement (.tld a b c) := by
  intro r h; cases h
  refine ⟨?_, ?_, ?_, ?_, ?_⟩ <;> dsimp only <;> omega

theorem tst (a : TReg) (b : GReg) : Statement (.tst a b) := by
  intro r h; cases h
  refine ⟨?_, ?_, ?_, ?_, ?_⟩ <;> dsimp only <;> omega

theorem mma (a : AReg) (b : TReg) (c : GReg) : Statement (.mma a b c) := by
  intro r h; cases h
  refine ⟨?_, ?_, ?_, ?_, ?_⟩ <;> dsimp only <;> omega

theorem mmaA (a : AReg) (n : Batch) (b : TReg) (c : GReg) : Statement (.mmaA a n b c) := by
  intro r h; cases h
  refine ⟨?_, ?_, ?_, ?_, ?_⟩ <;> dsimp only <;> omega

theorem mmas (a : AReg) (b : TReg) (c : GReg) : Statement (.mmas a b c) := by
  intro r h; cases h
  refine ⟨?_, ?_, ?_, ?_, ?_⟩ <;> dsimp only <;> omega

theorem mmasA (a : AReg) (n : Batch) (b : TReg) (c : GReg) : Statement (.mmasA a n b c) := by
  intro r h; cases h
  refine ⟨?_, ?_, ?_, ?_, ?_⟩ <;> dsimp only <;> omega

theorem azero (a : AReg) : Statement (.azero a) := by
  intro r h; cases h
  refine ⟨?_, ?_, ?_, ?_, ?_⟩ <;> dsimp only <;> omega

theorem amv (a : VReg) (b : GReg) (ty : Fin 16) (rc : Fin 8) : Statement (.amv a b ty rc) := by
  intro r h; cases h
  refine ⟨?_, ?_, ?_, ?_, ?_⟩ <;> dsimp only <;> omega

theorem ald (a : AReg) (b : GReg) : Statement (.ald a b) := by
  intro r h; cases h
  refine ⟨?_, ?_, ?_, ?_, ?_⟩ <;> dsimp only <;> omega

theorem ast (a : AReg) (b : GReg) : Statement (.ast a b) := by
  intro r h; cases h
  refine ⟨?_, ?_, ?_, ?_, ?_⟩ <;> dsimp only <;> omega

theorem bld (b : GReg) (c : GReg) : Statement (.bld b c) := by
  intro r h; cases h
  refine ⟨?_, ?_, ?_, ?_, ?_⟩ <;> dsimp only <;> omega

theorem vquant (a : TReg) (b : VReg) (c : GReg) : Statement (.vquant a b c) := by
  intro r h; cases h
  refine ⟨?_, ?_, ?_, ?_, ?_⟩ <;> dsimp only <;> omega

theorem mperm (b : VReg) : Statement (.mperm b) := by
  intro r h; cases h
  refine ⟨?_, ?_, ?_, ?_, ?_⟩ <;> dsimp only <;> omega

theorem mcode (b : VReg) : Statement (.mcode b) := by
  intro r h; cases h
  refine ⟨?_, ?_, ?_, ?_, ?_⟩ <;> dsimp only <;> omega

theorem amoAdd (a : GReg) (b : GReg) (c : GReg) : Statement (.amoAdd a b c) := by
  intro r h; cases h
  refine ⟨?_, ?_, ?_, ?_, ?_⟩ <;> dsimp only <;> omega

theorem amoMin (a : GReg) (b : GReg) (c : GReg) : Statement (.amoMin a b c) := by
  intro r h; cases h
  refine ⟨?_, ?_, ?_, ?_, ?_⟩ <;> dsimp only <;> omega

theorem amoMax (a : GReg) (b : GReg) (c : GReg) : Statement (.amoMax a b c) := by
  intro r h; cases h
  refine ⟨?_, ?_, ?_, ?_, ?_⟩ <;> dsimp only <;> omega

theorem amoMins (a : GReg) (b : GReg) (c : GReg) : Statement (.amoMins a b c) := by
  intro r h; cases h
  refine ⟨?_, ?_, ?_, ?_, ?_⟩ <;> dsimp only <;> omega

theorem amoMaxs (a : GReg) (b : GReg) (c : GReg) : Statement (.amoMaxs a b c) := by
  intro r h; cases h
  refine ⟨?_, ?_, ?_, ?_, ?_⟩ <;> dsimp only <;> omega

theorem amoAnd (a : GReg) (b : GReg) (c : GReg) : Statement (.amoAnd a b c) := by
  intro r h; cases h
  refine ⟨?_, ?_, ?_, ?_, ?_⟩ <;> dsimp only <;> omega

theorem amoOr (a : GReg) (b : GReg) (c : GReg) : Statement (.amoOr a b c) := by
  intro r h; cases h
  refine ⟨?_, ?_, ?_, ?_, ?_⟩ <;> dsimp only <;> omega

theorem amoXor (a : GReg) (b : GReg) (c : GReg) : Statement (.amoXor a b c) := by
  intro r h; cases h
  refine ⟨?_, ?_, ?_, ?_, ?_⟩ <;> dsimp only <;> omega

theorem amoSwap (a : GReg) (b : GReg) (c : GReg) : Statement (.amoSwap a b c) := by
  intro r h; cases h
  refine ⟨?_, ?_, ?_, ?_, ?_⟩ <;> dsimp only <;> omega

theorem amoCas (a : GReg) (b : GReg) (c : GReg) : Statement (.amoCas a b c) := by
  intro r h; cases h
  refine ⟨?_, ?_, ?_, ?_, ?_⟩ <;> dsimp only <;> omega

theorem amoFaddF32 (a : GReg) (b : GReg) (c : GReg) : Statement (.amoFaddF32 a b c) := by
  intro r h; cases h
  refine ⟨?_, ?_, ?_, ?_, ?_⟩ <;> dsimp only <;> omega

theorem amoFaddF64 (a : GReg) (b : GReg) (c : GReg) : Statement (.amoFaddF64 a b c) := by
  intro r h; cases h
  refine ⟨?_, ?_, ?_, ?_, ?_⟩ <;> dsimp only <;> omega

theorem amoAddnr (b : GReg) (c : GReg) : Statement (.amoAddnr b c) := by
  intro r h; cases h
  refine ⟨?_, ?_, ?_, ?_, ?_⟩ <;> dsimp only <;> omega

theorem acq (a : GReg) (b : GReg) : Statement (.acq a b) := by
  intro r h; cases h
  refine ⟨?_, ?_, ?_, ?_, ?_⟩ <;> dsimp only <;> omega

theorem rel (b : GReg) (c : GReg) : Statement (.rel b c) := by
  intro r h; cases h
  refine ⟨?_, ?_, ?_, ?_, ?_⟩ <;> dsimp only <;> omega

theorem segacq (b : SReg) : Statement (.segacq b) := by
  intro r h; cases h
  refine ⟨?_, ?_, ?_, ?_, ?_⟩ <;> dsimp only <;> omega

theorem segrel (b : SReg) (c : GReg) : Statement (.segrel b c) := by
  intro r h; cases h
  refine ⟨?_, ?_, ?_, ?_, ?_⟩ <;> dsimp only <;> omega

theorem segphase (b : SReg) : Statement (.segphase b) := by
  intro r h; cases h
  refine ⟨?_, ?_, ?_, ?_, ?_⟩ <;> dsimp only <;> omega

theorem fence (sc : Fin 8) : Statement (.fence sc) := by
  intro r h; cases h
  refine ⟨?_, ?_, ?_, ?_, ?_⟩ <;> dsimp only <;> omega

theorem waiteq (a : GReg) (b : GReg) (c : GReg) : Statement (.waiteq a b c) := by
  intro r h; cases h
  refine ⟨?_, ?_, ?_, ?_, ?_⟩ <;> dsimp only <;> omega

theorem waitge (a : GReg) (b : GReg) (c : GReg) : Statement (.waitge a b c) := by
  intro r h; cases h
  refine ⟨?_, ?_, ?_, ?_, ?_⟩ <;> dsimp only <;> omega

theorem lcpy (a : GReg) (b : GReg) (tr : Bool) (cv : Fin 16) (rc : Fin 8) (n : Batch) : Statement (.lcpy a b tr cv rc n) := by
  intro r h; cases h
  have ht := Bool.toNat_lt tr
  exact fits_i11 (by omega) (by omega) (by omega) (by decide)

theorem bcommit (n : Batch) : Statement (.bcommit n) := by
  intro r h; cases h
  refine ⟨?_, ?_, ?_, ?_, ?_⟩ <;> dsimp only <;> omega

theorem bwait (n : Batch) : Statement (.bwait n) := by
  intro r h; cases h
  refine ⟨?_, ?_, ?_, ?_, ?_⟩ <;> dsimp only <;> omega

theorem btest (a : GReg) (n : Batch) : Statement (.btest a n) := by
  intro r h; cases h
  refine ⟨?_, ?_, ?_, ?_, ?_⟩ <;> dsimp only <;> omega

theorem istream (b : GReg) (n : Batch) : Statement (.istream b n) := by
  intro r h; cases h
  refine ⟨?_, ?_, ?_, ?_, ?_⟩ <;> dsimp only <;> omega

theorem txcfg (a : GReg) (b : GReg) : Statement (.txcfg a b) := by
  intro r h; cases h
  refine ⟨?_, ?_, ?_, ?_, ?_⟩ <;> dsimp only <;> omega

theorem txsub (a : GReg) (b : GReg) (n : Batch) : Statement (.txsub a b n) := by
  intro r h; cases h
  refine ⟨?_, ?_, ?_, ?_, ?_⟩ <;> dsimp only <;> omega

theorem qpush (a : GReg) (b : SReg) : Statement (.qpush a b) := by
  intro r h; cases h
  refine ⟨?_, ?_, ?_, ?_, ?_⟩ <;> dsimp only <;> omega

theorem qpop (a : GReg) (b : SReg) : Statement (.qpop a b) := by
  intro r h; cases h
  refine ⟨?_, ?_, ?_, ?_, ?_⟩ <;> dsimp only <;> omega

theorem qstat (a : GReg) (b : SReg) : Statement (.qstat a b) := by
  intro r h; cases h
  refine ⟨?_, ?_, ?_, ?_, ?_⟩ <;> dsimp only <;> omega

theorem tfree (b : GReg) : Statement (.tfree b) := by
  intro r h; cases h
  refine ⟨?_, ?_, ?_, ?_, ?_⟩ <;> dsimp only <;> omega

theorem sptag (b : GReg) (c : GReg) : Statement (.sptag b c) := by
  intro r h; cases h
  refine ⟨?_, ?_, ?_, ?_, ?_⟩ <;> dsimp only <;> omega

theorem spsize (a : GReg) (b : GReg) : Statement (.spsize a b) := by
  intro r h; cases h
  refine ⟨?_, ?_, ?_, ?_, ?_⟩ <;> dsimp only <;> omega

theorem rmul (m : Bool) (a : VReg) (b : VReg) (c : VReg) : Statement (.rmul m a b c) := by
  intro r h; cases h
  cases m <;> refine ⟨?_, ?_, ?_, ?_, ?_⟩ <;> simp only [Bool.toNat_true, Bool.toNat_false] <;> omega

theorem rfma (m : Bool) (a : VReg) (b : VReg) (c : VReg) : Statement (.rfma m a b c) := by
  intro r h; cases h
  cases m <;> refine ⟨?_, ?_, ?_, ?_, ?_⟩ <;> simp only [Bool.toNat_true, Bool.toNat_false] <;> omega

theorem rshr (m : Bool) (a : VReg) (b : VReg) (c : GReg) : Statement (.rshr m a b c) := by
  intro r h; cases h
  cases m <;> refine ⟨?_, ?_, ?_, ?_, ?_⟩ <;> simp only [Bool.toNat_true, Bool.toNat_false] <;> omega

theorem rlrelu (m : Bool) (a : VReg) (b : VReg) (c : GReg) : Statement (.rlrelu m a b c) := by
  intro r h; cases h
  cases m <;> refine ⟨?_, ?_, ?_, ?_, ?_⟩ <;> simp only [Bool.toNat_true, Bool.toNat_false] <;> omega

theorem rscale (m : Bool) (a : VReg) (b : VReg) (c : GReg) : Statement (.rscale m a b c) := by
  intro r h; cases h
  cases m <;> refine ⟨?_, ?_, ?_, ?_, ?_⟩ <;> simp only [Bool.toNat_true, Bool.toNat_false] <;> omega

theorem rcvt (m : Bool) (a : VReg) (b : VReg) (ty : Fin 16) (rc : Fin 8) : Statement (.rcvt m a b ty rc) := by
  intro r h; cases h
  cases m <;> refine ⟨?_, ?_, ?_, ?_, ?_⟩ <;> simp only [Bool.toNat_true, Bool.toNat_false] <;> omega

theorem umul (m : Bool) (a : VReg) (b : VReg) (c : VReg) : Statement (.umul m a b c) := by
  intro r h; cases h
  cases m <;> refine ⟨?_, ?_, ?_, ?_, ?_⟩ <;> simp only [Bool.toNat_true, Bool.toNat_false] <;> omega

theorem ufma (m : Bool) (a : VReg) (b : VReg) (c : VReg) : Statement (.ufma m a b c) := by
  intro r h; cases h
  cases m <;> refine ⟨?_, ?_, ?_, ?_, ?_⟩ <;> simp only [Bool.toNat_true, Bool.toNat_false] <;> omega

theorem ushr (m : Bool) (a : VReg) (b : VReg) (c : GReg) : Statement (.ushr m a b c) := by
  intro r h; cases h
  cases m <;> refine ⟨?_, ?_, ?_, ?_, ?_⟩ <;> simp only [Bool.toNat_true, Bool.toNat_false] <;> omega

theorem ulrelu (m : Bool) (a : VReg) (b : VReg) (c : GReg) : Statement (.ulrelu m a b c) := by
  intro r h; cases h
  cases m <;> refine ⟨?_, ?_, ?_, ?_, ?_⟩ <;> simp only [Bool.toNat_true, Bool.toNat_false] <;> omega

theorem uscale (m : Bool) (a : VReg) (b : VReg) (c : GReg) : Statement (.uscale m a b c) := by
  intro r h; cases h
  cases m <;> refine ⟨?_, ?_, ?_, ?_, ?_⟩ <;> simp only [Bool.toNat_true, Bool.toNat_false] <;> omega

theorem ucvt (m : Bool) (a : VReg) (b : VReg) (ty : Fin 16) : Statement (.ucvt m a b ty) := by
  intro r h; cases h
  cases m <;> refine ⟨?_, ?_, ?_, ?_, ?_⟩ <;> simp only [Bool.toNat_true, Bool.toNat_false] <;> omega

theorem rsdepth (a : GReg) : Statement (.rsdepth a) := by
  intro r h; cases h
  refine ⟨?_, ?_, ?_, ?_, ?_⟩ <;> dsimp only <;> omega

theorem yield  : Statement .yield := by
  intro r h; cases h
  refine ⟨?_, ?_, ?_, ?_, ?_⟩ <;> dsimp only <;> omega

theorem exit  : Statement .exit := by
  intro r h; cases h
  refine ⟨?_, ?_, ?_, ?_, ?_⟩ <;> dsimp only <;> omega

theorem rpoint  : Statement .rpoint := by
  intro r h; cases h
  refine ⟨?_, ?_, ?_, ?_, ?_⟩ <;> dsimp only <;> omega

theorem realign  : Statement .realign := by
  intro r h; cases h
  refine ⟨?_, ?_, ?_, ?_, ?_⟩ <;> dsimp only <;> omega

theorem fencei  : Statement .fencei := by
  intro r h; cases h
  refine ⟨?_, ?_, ?_, ?_, ?_⟩ <;> dsimp only <;> omega

theorem brk  : Statement .brk := by
  intro r h; cases h
  refine ⟨?_, ?_, ?_, ?_, ?_⟩ <;> dsimp only <;> omega

theorem eret  : Statement .eret := by
  intro r h; cases h
  refine ⟨?_, ?_, ?_, ?_, ?_⟩ <;> dsimp only <;> omega

theorem vrelease  : Statement .vrelease := by
  intro r h; cases h
  refine ⟨?_, ?_, ?_, ?_, ?_⟩ <;> dsimp only <;> omega

theorem rsmark  : Statement .rsmark := by
  intro r h; cases h
  refine ⟨?_, ?_, ?_, ?_, ?_⟩ <;> dsimp only <;> omega

theorem rsdrop  : Statement .rsdrop := by
  intro r h; cases h
  refine ⟨?_, ?_, ?_, ?_, ?_⟩ <;> dsimp only <;> omega

theorem rssync  : Statement .rssync := by
  intro r h; cases h
  refine ⟨?_, ?_, ?_, ?_, ?_⟩ <;> dsimp only <;> omega

theorem vectorMemberIssue  : Statement .vectorMemberIssue := by
  intro r h; cases h

theorem convoyRetire  : Statement .convoyRetire := by
  intro r h; cases h

theorem segphaseComplete  : Statement .segphaseComplete := by
  intro r h; cases h

theorem waitConditionMet  : Statement .waitConditionMet := by
  intro r h; cases h

theorem riserSpill  : Statement .riserSpill := by
  intro r h; cases h

theorem riserFill  : Statement .riserFill := by
  intro r h; cases h

theorem stripCommit  : Statement .stripCommit := by
  intro r h; cases h

theorem engineCommandFork  : Statement .engineCommandFork := by
  intro r h; cases h

theorem ladleCopyComplete  : Statement .ladleCopyComplete := by
  intro r h; cases h

theorem mailboxWriteLand  : Statement .mailboxWriteLand := by
  intro r h; cases h

theorem matrixCommandComplete  : Statement .matrixCommandComplete := by
  intro r h; cases h

theorem istreamComplete  : Statement .istreamComplete := by
  intro r h; cases h

theorem textStageMessage  : Statement .textStageMessage := by
  intro r h; cases h

theorem decoderMemberCommit  : Statement .decoderMemberCommit := by
  intro r h; cases h

theorem txsubComplete  : Statement .txsubComplete := by
  intro r h; cases h

theorem launchCommandComplete  : Statement .launchCommandComplete := by
  intro r h; cases h

theorem trapEntry  : Statement .trapEntry := by
  intro r h; cases h

theorem launchEndByTrap  : Statement .launchEndByTrap := by
  intro r h; cases h

theorem pageFault  : Statement .pageFault := by
  intro r h; cases h

theorem pageFaultReplyDoorbell  : Statement .pageFaultReplyDoorbell := by
  intro r h; cases h

theorem pageFaultReply  : Statement .pageFaultReply := by
  intro r h; cases h

theorem contextRestore  : Statement .contextRestore := by
  intro r h; cases h

theorem preemption  : Statement .preemption := by
  intro r h; cases h

theorem contextSave  : Statement .contextSave := by
  intro r h; cases h

theorem saveretry  : Statement .saveretry := by
  intro r h; cases h

theorem timedRollback  : Statement .timedRollback := by
  intro r h; cases h

theorem timedResume  : Statement .timedResume := by
  intro r h; cases h

theorem domainTick  : Statement .domainTick := by
  intro r h; cases h

theorem hostQueueDoorbell  : Statement .hostQueueDoorbell := by
  intro r h; cases h

theorem adminDoorbell  : Statement .adminDoorbell := by
  intro r h; cases h

theorem invalidationComplete  : Statement .invalidationComplete := by
  intro r h; cases h

theorem launchSelection  : Statement .launchSelection := by
  intro r h; cases h

theorem taskPlacement  : Statement .taskPlacement := by
  intro r h; cases h

theorem taskStart  : Statement .taskStart := by
  intro r h; cases h

theorem launchComplete  : Statement .launchComplete := by
  intro r h; cases h

theorem rampSlot  : Statement .rampSlot := by
  intro r h; cases h

theorem estimatePartial  : Statement .estimatePartial := by
  intro r h; cases h

theorem codeObjectLoad  : Statement .codeObjectLoad := by
  intro r h; cases h

theorem codeObjectUnload  : Statement .codeObjectUnload := by
  intro r h; cases h

theorem forcedUnload  : Statement .forcedUnload := by
  intro r h; cases h

theorem dusk  : Statement .dusk := by
  intro r h; cases h

theorem duskdone  : Statement .duskdone := by
  intro r h; cases h

theorem dawn  : Statement .dawn := by
  intro r h; cases h

theorem warmReset  : Statement .warmReset := by
  intro r h; cases h

theorem attestation  : Statement .attestation := by
  intro r h; cases h

theorem reductionClear  : Statement .reductionClear := by
  intro r h; cases h

theorem hostRegisterWrite  : Statement .hostRegisterWrite := by
  intro r h; cases h

theorem ptmExchange  : Statement .ptmExchange := by
  intro r h; cases h

theorem ptpEventMessage  : Statement .ptpEventMessage := by
  intro r h; cases h

theorem linkFlitReceive  : Statement .linkFlitReceive := by
  intro r h; cases h

theorem linkHeartbeat  : Statement .linkHeartbeat := by
  intro r h; cases h

theorem heartbeatTimeout  : Statement .heartbeatTimeout := by
  intro r h; cases h

theorem linkPortFailure  : Statement .linkPortFailure := by
  intro r h; cases h

theorem routeTimeout  : Statement .routeTimeout := by
  intro r h; cases h

theorem memoryScrub  : Statement .memoryScrub := by
  intro r h; cases h

theorem freqheadWrite  : Statement .freqheadWrite := by
  intro r h; cases h

theorem powerLoss  : Statement .powerLoss := by
  intro r h; cases h

theorem preemptionDrainTimeout  : Statement .preemptionDrainTimeout := by
  intro r h; cases h

end Sys2Proof.Laws.EncodedWord
end

