-- ==== Sys2Proof/Tests/Slice0.lean ====
section
/-! SUPPORT. The model's own tests: ill-formed terms, the decoding of one written word for each encoded instruction, and
for each statement's hypotheses, clause by clause, a state and operands that meet them together. -/

open Sys2Proof.Machine

namespace Sys2Proof.Tests

set_option Elab.async false

/-! ## Ill-formed terms, one for each check of WellFormed.lean -/

theorem test_wf_header1 : (Instr.convoyHeader false 0 0 1 0 0).wf = false := by decide
theorem test_wf_header2 : (Instr.convoyHeader false 0 1 0 0 1).wf = false := by decide
theorem test_wf_header3 : (Instr.convoyHeader false 1 0 0 0 2).wf = false := by decide
theorem test_wf_vcmp : (Instr.vcmp false 6 1 2 3).wf = false := by decide
theorem test_wf_vfcmp : (Instr.vfcmp false 5 1 2 3).wf = false := by decide
theorem test_wf_rounding :
    [Instr.vcvt false 1 2 3 6, .tmvr 1 6 2 3, .tmvc 1 2 7 3, .amv 1 2 3 6, .rcvt false 1 2 3 7, .lcpy 1 2 false 0 6 1].all
      (fun i => !i.wf) = true := by decide
theorem test_wf_fence : (Instr.fence 5).wf = false := by decide
theorem test_wf_lcpy : (Instr.lcpy 1 2 false 9 0 1).wf = false := by decide

/-! ## Small states -/

/-- A segment of a core's scratchpad. -/
def pad (d : Disc) (base : Nat) : Seg :=
  { desc := { limit := 0x10000, disc := d, onChip := true, writable := true, word := 0x2000, slice := 12 },
    held := d == .owned, inst := base, parts := 2 }

/-- Segments: 0 PRIVATE, 2 ATOMIC, 3 OWNED, 4 SLICED, 5 a queue, 6 PRIVATE and 7 ATOMIC in device memory, 8 the die's map,
14 the riser. -/
def segs : Vector Seg 16 :=
  let s := (Vector.replicate 16 {} : Vector Seg 16)
  let s := (((s.set 0 (pad .priv 0)).set 2 (pad .atomic 0x20000)).set 3 (pad .owned 0x30000)).set 4 (pad .sliced 0x40000)
  let s := s.set 5 { desc := { limit := 0x8000, disc := .stream, onChip := true, writable := true, scope := 4 }, inst := 6 * 2 ^ 27 + 6 * 0x8000 }
  let s := s.set 6 { desc := { limit := 0x10000, disc := .priv, writable := true, pinned := true } }
  let s := s.set 7 { desc := { limit := 0x10000, disc := .atomic, writable := true, pinned := true, scope := 3 }, inst := 0x10000 }
  let s := s.set 8 { desc := { limit := 2 ^ 36, disc := .priv, onChip := true, writable := true, scope := 2 } }
  s.set 14 { desc := { limit := 0x40000, disc := .priv, writable := true, pinned := true }, inst := 0x40000 }

/-- A task on front 0 of core 0, at code address 0x1004, its function's memory translated from address 0. -/
def base : State :=
  let s := State.reset
  { s with t := { s.t with live := true, launch := 1, fn := 1, pc := 0x1004, segs := segs, thvec := 0x2001 },
           c := { s.c with tlb := [{ fn := 1, va := 0, size := 0x100000, frame := 0x2000, spacing := 1, w := true, pin := true }] },
           funcs := [{ n := 1, ptroot := 1 }] }

/-- s with g1 = x and g2 = y. -/
def regs (s : State) (x y : Nat) : State :=
  s.withTask { s.t with g := (s.t.g.set 1 (BitVec.ofNat 64 x)).set 2 (BitVec.ofNat 64 y) }

/-- s with its task timed, in a core domain. -/
def timed (s : State) : State := s.withTask { s.t with timed := true, domain := 4 }

theorem some_ok {ε α : Type} {x : Except ε α} {p : α → Bool} (h : (x.toOption.any p) = true) : ∃ a, x = .ok a ∧ p a = true := by
  cases x with
  | error e => simp [Except.toOption] at h
  | ok a => exact ⟨a, rfl, by simpa [Except.toOption] using h⟩

theorem some_some {α : Type} {x : Option α} {p : α → Bool} (h : (x.any p) = true) : ∃ a, x = some a ∧ p a = true := by
  cases x with
  | none => simp at h
  | some a => exact ⟨a, rfl, by simpa using h⟩

theorem ok_dec {α : Type} {x : R α} {P : α → Prop} [DecidablePred P] (h : (x.toOption.any fun a => decide (P a)) = true) :
    ∃ a, x = .ok a ∧ P a := by
  obtain ⟨a, h, h'⟩ := some_ok h
  exact ⟨a, h, by simpa using h'⟩

/-- The check stops with a trap that p accepts. -/
def stops {α : Type} (x : R α) (p : Trap → Bool) : Bool := match x with | .ok _ => false | .error e => p e

theorem some_error {α : Type} {x : R α} {p : Trap → Bool} (h : stops x p = true) : ∃ e, x = .error e ∧ p e = true := by
  cases x with
  | error e => exact ⟨e, rfl, h⟩
  | ok a => simp [stops] at h

/-! ## Scalar words -/

theorem settled (x y : Nat) : Settled (regs base x y) := ⟨⟨rfl, rfl, rfl, rfl, by simp [regs, base, State.withTask, State.reset]⟩, rfl⟩

theorem settled_timed (x y : Nat) : Settled (timed (regs base x y)) :=
  ⟨⟨rfl, rfl, rfl, rfl, by simp [timed, regs, base, State.withTask, State.reset]⟩, rfl⟩

theorem settled_t {s u : State} (h : Settled s) (e : u.t = s.t) : Settled u := by
  unfold Settled Quiet at *
  rw [e]
  exact h

/-- AluResults, MulDivResults, BitResults, ImmediateResults: their one hypothesis. -/
theorem wit_quiet : Quiet (regs base 5 (2 ^ 63)) := (settled _ _).1

/-- BranchResults: each condition both ways, where it turns. -/
theorem wit_branch : ∃ s : State, Quiet s ∧ s.g 1 = s.g 2 ∧ s.g 1 ≠ s.g 3 ∧ (s.g 3).toNat < (s.g 1).toNat ∧
    (s.g 1).toInt < (s.g 3).toInt ∧ ¬ (s.g 1).toNat < (s.g 2).toNat ∧ (s.g 2).toNat ≤ (s.g 1).toNat ∧
    ¬ (s.g 1).toInt < (s.g 2).toInt ∧ (s.g 2).toInt ≤ (s.g 1).toInt ∧ ¬ (s.g 3).toInt ≤ (s.g 1).toInt :=
  ⟨regs base (2 ^ 64 - 1) (2 ^ 64 - 1), (settled _ _).1, by decide +kernel⟩

/-- JumpResults: a target that is a multiple of four, and one that is not. -/
theorem wit_jump : ∃ s : State, Quiet s ∧ (s.g 1).toNat % 4 = 0 ∧ (s.g 2).toNat % 4 ≠ 0 ∧ s.t.strip = none ∧ s.t.timed = false :=
  ⟨regs base 0 3, (settled _ _).1, by decide +kernel⟩

/-- LoopWords: a body with passes, without, and of length zero; a level left at its last address and just past it. -/
theorem wit_loop : ∃ s : State, Settled s ∧ s.t.timed = false ∧ s.g 0 = 0 ∧ s.g 1 ≠ 0 ∧ (1 : BitVec 11) ≠ 0 :=
  ⟨regs base 1 0, settled _ _, by decide +kernel⟩

/-- A task at 0x1004 whose level 0 ends at `e` and whose level 1 ends at `f`, both begun at 0x1000. -/
def looping (e f : Nat) (c d : Word) : Task :=
  let l : Loop := { lb := 0x1000, le := BitVec.ofNat 64 e, lc := c }
  let m : Loop := { lb := 0x1000, le := BitVec.ofNat 64 f, lc := d }
  { base.t with loops := (base.t.loops.set 0 l).set 1 m }

theorem wit_leave : (let l := (looping 0x1009 0x1009 2 1).loops[0]
    l.le.getLsbD 0 = true ∧ l.lb.toNat ≤ (looping 0x1009 0x1009 2 1).pc.toNat ∧
    (looping 0x1009 0x1009 2 1).pc.toNat < l.le.toNat / 4 * 4 ∧ ¬ (0x1008 : Word).toNat < l.le.toNat / 4 * 4 ∧
    (0x1007 : Word).toNat < l.le.toNat / 4 * 4) ∧ (looping 0x1008 0 2 1).loops[0].le.getLsbD 0 = false := by decide +kernel

/-- LoopFlow: no level ends here; level 1 alone does, once more and for the last time; both do, equally long. -/
theorem wit_flow :
    let ends (t : Task) (k : Fin 2) : Prop := t.loops[k].le.getLsbD 0 = true ∧ t.loops[k].le.toNat / 4 * 4 = (t.pc + 4).toNat
    (¬ ends (looping 0x100D 0x1008 1 1) 0 ∧ ¬ ends (looping 0x100D 0x1008 1 1) 1) ∧
    (ends (looping 0x1008 0x1009 1 2) 1 ∧ ¬ ends (looping 0x1008 0x1009 1 2) 0 ∧ 1 < (looping 0x1008 0x1009 1 2).loops[1].lc.toNat) ∧
    (ends (looping 0x1008 0x1009 1 1) 1 ∧ ¬ 1 < (looping 0x1008 0x1009 1 1).loops[1].lc.toNat) ∧
    (ends (looping 0x1009 0x1009 2 1) 0 ∧ ends (looping 0x1009 0x1009 2 1) 1) := by decide +kernel

/-! ## Loads and stores -/

/-- LoadResults: eight bytes just below the end of an on-chip and of a device segment. -/
theorem wit_load : ∀ p ∈ [0xFFF8, 6 * 2 ^ 60 + 0xFFF8], ∃ (s s' : State) (b : GReg) (place v : Nat), Settled s ∧
    checkAccess s s.actor (pointerOf s b 0 8) 8 8 .rd = .ok (place, s') ∧ readPlace s' place 8 = .ok v ∧ s.t.timed = false := by
  intro p hp
  have h : ((checkAccess (regs base p 0) (regs base p 0).actor (pointerOf (regs base p 0) 1 0 8) 8 8 .rd).toOption.any
      fun q => (readPlace q.2 q.1 8).toOption.any fun _ => true) = true := by
    simp only [List.mem_cons, List.not_mem_nil, or_false] at hp
    rcases hp with rfl | rfl <;> decide +kernel
  obtain ⟨⟨q, s'⟩, h, h'⟩ := some_ok h
  obtain ⟨v, hv, -⟩ := some_ok h'
  exact ⟨_, s', 1, q, v, settled _ _, h, hv, rfl⟩

/-- LoadResults in a timed domain: a place that is none of the core's lane registers. -/
theorem wit_load_timed : ∃ (s s' : State) (b : GReg) (place v : Nat), Settled s ∧
    checkAccess s s.actor (pointerOf s b 0 1) 1 1 .rd = .ok (place, s') ∧ readPlace s' place 1 = .ok v ∧ s.t.timed = true ∧
    ownLanes s' place = false := by
  obtain ⟨⟨q, s'⟩, h, h'⟩ := some_ok (x := checkAccess (timed (regs base (6 * 2 ^ 60) 0)) (timed (regs base (6 * 2 ^ 60) 0)).actor
    (pointerOf (timed (regs base (6 * 2 ^ 60) 0)) 1 0 1) 1 1 .rd)
    (p := fun q => (readPlace q.2 q.1 1).toOption.any fun _ => !ownLanes q.2 q.1) (by decide +kernel)
  obtain ⟨v, hv, hl⟩ := some_ok h'
  exact ⟨_, s', 1, q, v, settled_timed _ _, h, hv, rfl, by simpa using hl⟩

/-- LoadResults, what a domain sees: nothing written, and at the last cycle that hides and the first that shows a write of
another core of the die and of another die, landed or deferred. -/
theorem wit_sight : ∀ x ∈ [(1, 63), (1, 64), (36, 191), (36, 192)], ∃ (s u : State) (p : Past) (w : Store) (place n v : Nat),
    s.t.timed = true ∧ u.t.timed = true ∧ v < 2 ^ (8 * n) ∧ s.c.num = 0 ∧ s.t.cycle = x.2 ∧ p.core = x.1 ∧ p.cycle = 0 ∧
    s.pasts = [p] ∧ heldOf s s.t.launch = [] ∧ p.launch = s.t.launch ∧ p.engine = false ∧ p.place = place ∧ p.len = n ∧ 0 < n ∧
    u.c.num = 0 ∧ u.t.cycle = x.2 ∧ w.core = x.1 ∧ w.cycle = 0 ∧
    u.pasts = [] ∧ heldOf u u.t.launch = [w] ∧ w.engine = false ∧ w.place = place ∧ w.len = n ∧ w.mask = 0 := by
  intro x _
  let w : Store := { place := 64, len := 8, val := 7, hdr := 0, core := x.1 }
  let p : Past := { launch := 0, core := x.1, cycle := 0, place := 64, len := 8, old := 5 }
  exact ⟨{ t := { timed := true, cycle := x.2 }, pasts := [p] },
    { t := { timed := true, cycle := x.2 }, tasks := [{ live := true, timed := true, deferred := [w] }] },
    p, w, 64, 8, 3, rfl, rfl, by decide, rfl, rfl, rfl, rfl, rfl, rfl, rfl, rfl, rfl,
    rfl, by decide, rfl, rfl, rfl, rfl, rfl, rfl, rfl, rfl, rfl, rfl⟩

/-- StoreResults: a doubleword at the end of a scratchpad segment, and of a device segment. -/
theorem wit_store : ∀ p ∈ [0xFFF8, 6 * 2 ^ 60 + 0xFFF8], ∃ (s s' u : State) (a b : GReg) (place : Nat), Settled s ∧
    s.t.timed = false ∧ checkAccess s s.actor (pointerOf s b 0 8) 8 8 .wr = .ok (place, s') ∧ HasByte place ∧ place % 8 = 0 ∧
    (chip ≤ place → mapSpace (place - chip) < 5 ∧ (mapSpace (place - chip) = 1 → mapNum (place - chip) = s.c.num)) ∧
    landStores s' none [{ place := place, len := 8, val := (s.g a).toNat % 2 ^ (8 * 8), hdr := s.t.pc.toNat, core := s.c.num,
                          cycle := s.t.cycle }] = .ok u := by
  intro p hp
  have h : ((checkAccess (regs base p 7) (regs base p 7).actor (pointerOf (regs base p 7) 1 0 8) 8 8 .wr).toOption.any
      fun q => decide ((q.1 < chip ∨ (q.1 - chip < 2 ^ 40 ∧ mapCore (q.1 - chip) < 36 ∧
          mapOff (q.1 - chip) < spaceSize (mapSpace (q.1 - chip)))) ∧ q.1 % 8 = 0 ∧
        (chip ≤ q.1 → mapSpace (q.1 - chip) < 5 ∧ (mapSpace (q.1 - chip) = 1 → mapNum (q.1 - chip) = 0))) &&
        (landStores q.2 none [{ place := q.1, len := 8, val := ((regs base p 7).g 2).toNat % 2 ^ (8 * 8), hdr := 0x1004 }]).toOption.any
          fun _ => true) = true := by
    simp only [List.mem_cons, List.not_mem_nil, or_false] at hp
    rcases hp with rfl | rfl <;> decide +kernel
  obtain ⟨⟨q, s'⟩, h, h'⟩ := some_ok h
  simp only [Bool.and_eq_true, decide_eq_true_eq] at h'
  obtain ⟨⟨h1, h2, h3⟩, h4⟩ := h'
  obtain ⟨u, hu, -⟩ := some_ok h4
  exact ⟨_, s', u, 2, 1, q, settled _ _, rfl, h, h1, h2, h3, hu⟩

/-- StoreResults, deferred: a timed store to device memory with nothing in the columns. -/
theorem wit_deferred : ∃ (s s' : State) (b : GReg) (place : Nat), Settled s ∧ s.t.timed = true ∧ s.c.pipe = [] ∧ place < chip ∧
    checkAccess s s.actor (pointerOf s b 0 4) 4 4 .wr = .ok (place, s') := by
  obtain ⟨⟨q, s'⟩, h, h'⟩ := ok_dec (x := checkAccess (timed (regs base (6 * 2 ^ 60 + 4) 7)) (timed (regs base (6 * 2 ^ 60 + 4) 7)).actor
    (pointerOf (timed (regs base (6 * 2 ^ 60 + 4) 7)) 1 0 4) 4 4 .wr) (P := fun q => q.1 < chip) (by decide +kernel)
  exact ⟨_, s', 1, q, settled_timed _ _, rfl, rfl, h', h⟩

/-- Another core whose lanes are held by a task with one register, v3, in its mailbox range. -/
def peer (s : State) : State :=
  { s with cores := [{ num := 1, holder := some 1 }],
           tasks := [{ live := true, core := 1, front := 1, launch := 2, fn := 1, mbFirst := 3, mbCount := 1 }] }

/-- StoreResults into a mailbox: the first and the last doubleword of the range's one register. -/
theorem wit_mailbox : ∀ o ∈ [0x3000, 0x3FF8], ∃ (s s' : State) (b : GReg) (place : Nat), Settled s ∧ s.t.timed = false ∧
    chip ≤ place ∧ mapSpace (place - chip) = 1 ∧ mapNum (place - chip) ≠ s'.c.num ∧
    inMailbox s' (mapNum (place - chip)) (mapOff (place - chip) / 4096) = true ∧
    checkAccess s s.actor (pointerOf s b 0 8) 8 8 .wr = .ok (place, s') := by
  intro o ho
  have h : ((checkAccess (peer (regs base (8 * 2 ^ 60 + 2 ^ 31 + 2 ^ 27 + o) 7)) (peer (regs base (8 * 2 ^ 60 + 2 ^ 31 + 2 ^ 27 + o) 7)).actor
      (pointerOf (peer (regs base (8 * 2 ^ 60 + 2 ^ 31 + 2 ^ 27 + o) 7)) 1 0 8) 8 8 .wr).toOption.any fun q =>
        decide (chip ≤ q.1 ∧ mapSpace (q.1 - chip) = 1 ∧ mapNum (q.1 - chip) ≠ q.2.c.num ∧
          inMailbox q.2 (mapNum (q.1 - chip)) (mapOff (q.1 - chip) / 4096) = true)) = true := by
    simp only [List.mem_cons, List.not_mem_nil, or_false] at ho
    rcases ho with rfl | rfl <;> decide +kernel
  obtain ⟨⟨q, s'⟩, h, h1, h2, h3, h4⟩ := ok_dec h
  exact ⟨peer (regs base (8 * 2 ^ 60 + 2 ^ 31 + 2 ^ 27 + o) 7), s', 1, q, settled_t (settled (8 * 2 ^ 60 + 2 ^ 31 + 2 ^ 27 + o) 7) rfl, rfl, h1, h2, h3, h4, h⟩

/-- AccessTraps: a misaligned, an out-of-bounds and a forbidden doubleword, each stopped with its cause. -/
theorem wit_traps : ∀ x ∈ [(0xFFFC, 0x11), (0x10000, 0x06), (2 * 2 ^ 60, 0x07), (15 * 2 ^ 60, 0x06)], ∃ (s : State) (b : GReg) (tr : Trap),
    Settled s ∧ s.t.timed = false ∧ tr.pages s.t = false ∧ tr.cause = x.2 ∧
    checkAccess s s.actor (pointerOf s b 0 8) 8 8 .rd = .error tr := by
  intro x hx
  have h : stops (checkAccess (regs base x.1 0) (regs base x.1 0).actor (pointerOf (regs base x.1 0) 1 0 8) 8 8 .rd)
      (fun e => !e.pages (regs base x.1 0).t && e.cause == x.2) = true := by
    simp only [List.mem_cons, List.not_mem_nil, or_false] at hx
    rcases hx with rfl | rfl | rfl | rfl <;> decide +kernel
  obtain ⟨e, h, h'⟩ := some_error h
  simp only [Bool.and_eq_true, Bool.not_eq_true', beq_iff_eq] at h'
  exact ⟨_, 1, e, settled _ _, rfl, h'.1, h'.2, h⟩

/-- AccessChecks: each of its clauses, at the last offset that fits where it needs one. -/
theorem wit_checks : let a := base.actor
    formed a a.segs[(0 : Fin 16)] 1 % 8 ≠ 0 ∧
    (formed a a.segs[(0 : Fin 16)] 0xFFF8 % 8 = 0 ∧ a.segs[(0 : Fin 16)].desc.limit < 0xFFF8 + 16) ∧
    (formed a a.segs[(2 : Fin 16)] 0xFFF8 % 8 = 0 ∧ 0xFFF8 + 8 ≤ a.segs[(2 : Fin 16)].desc.limit ∧ a.segs[(2 : Fin 16)].desc.disc = .atomic) ∧
    (formed a a.segs[(9 : Fin 16)] 0 % 8 = 0 ∧ 0 + 0 ≤ a.segs[(9 : Fin 16)].desc.limit ∧ a.segs[(9 : Fin 16)].desc.disc = .unused) ∧
    (pad .priv 0).desc.disc = .priv ∧ { (pad .priv 0).desc with writable := false }.writable = false ∧
    (pad .read 0).desc.disc = .read ∧ Access.wr ≠ .rd ∧ (pad .owned 0).desc.disc = .owned ∧ { pad .owned 0 with held := false }.held = false := by
  decide +kernel

/-- AccessFrame: a check that passes. -/
theorem wit_frame : ∃ (u : State) (place : Nat), checkAccess base base.actor (7 * 2 ^ 60) 8 8 .atomicWr = .ok (place, u) := by
  obtain ⟨⟨q, u⟩, h, -⟩ := some_ok (x := checkAccess base base.actor (7 * 2 ^ 60) 8 8 .atomicWr) (p := fun _ => true) (by decide +kernel)
  exact ⟨u, q, h⟩

/-- MemoryLaws: a memory in its form; bytes just below and just above those written; a store that lands, in each kind of place. -/
theorem wit_memory : Memory.wf [(1, 5), (9, 7)] = true ∧ (0 + 4 ≤ 4 ∨ 4 + 8 ≤ 0) ∧ (12 + 4 ≤ 4 ∨ 4 + 8 ≤ 12) := by decide +kernel

theorem wit_lands : ∀ p ∈ [0x20000038, chip + 0x38, chip + 2 ^ 27 + 0x38, chip + 4 * 2 ^ 27 + 0x38], ∃ u : State, HasByte p ∧ 0 < 8 ∧
    p % 64 + 8 ≤ 64 ∧ (chip ≤ p → mapSpace (p - chip) < 5) ∧ landStores base none [{ place := p, len := 8, val := 5, hdr := 0 }] = .ok u := by
  intro p hp
  have h : (decide ((p < chip ∨ (p - chip < 2 ^ 40 ∧ mapCore (p - chip) < 36 ∧ mapOff (p - chip) < spaceSize (mapSpace (p - chip)))) ∧
      p % 64 + 8 ≤ 64 ∧ (chip ≤ p → mapSpace (p - chip) < 5)) &&
      (landStores base none [{ place := p, len := 8, val := 5, hdr := 0 }]).toOption.any fun _ => true) = true := by
    simp only [List.mem_cons, List.not_mem_nil, or_false] at hp
    rcases hp with rfl | rfl | rfl | rfl <;> decide +kernel
  simp only [Bool.and_eq_true, decide_eq_true_eq] at h
  obtain ⟨u, hu, -⟩ := some_ok h.2
  exact ⟨u, h.1.1, by omega, h.1.2.1, h.1.2.2, hu⟩

/-! ## Control registers -/

/-- ControlReads: a register of the tables and a number of none. ControlWrites: an ordinary register, and TPC in the
handler; outside it, TPC and TLOOP. -/
theorem wit_control : (∃ v, crValue (regs base 1 2) 0x040 = some v) ∧ crValue (regs base 1 2) 2047 = none ∧
    (∃ v, crValue ((regs base 1 2).withTask { (regs base 1 2).t with inHandler := true }) 0x041 = some v) ∧
    (regs base 1 2).t.inHandler = false ∧ (regs base 1 2).t.wait ≠ some .eret ∧ (regs base 1 2).t.timed = false := by
  obtain ⟨v, h, -⟩ := some_some (x := crValue (regs base 1 2) 0x040) (p := fun _ => true) (by decide +kernel)
  obtain ⟨w, h', -⟩ := some_some (x := crValue ((regs base 1 2).withTask { (regs base 1 2).t with inHandler := true }) 0x041)
    (p := fun _ => true) (by decide +kernel)
  exact ⟨⟨v, h⟩, by decide +kernel, ⟨w, h'⟩, rfl, by decide +kernel, rfl⟩

/-- WindowWords: the greatest base that fits 128 registers, and the next; the greatest layout word. -/
theorem wit_window : (((regs base 0 1).g 1).toNat ≤ ((regs base 0 1).t.vmax - 128) / 16 ∧ ((regs base 0 1).t.vmax - 128) / 16 < ((regs base 0 1).g 2).toNat) ∧
    ((regs base (2 ^ 36 - 1) 0).g 1).toNat < 2 ^ 36 ∧ (regs base 0 1).t.timed = false := by decide +kernel

/-! ## Traps, waits and the end of a task -/

/-- HandlerEntry: a trap that the handler takes, outside it, with and without frozen entries. TaskExit: a trap inside the
handler, without one, and a cause that no handler takes. -/
theorem wit_handler : let tr : Trap := { cause := 0x11, info := 5 }
    base.t.inHandler = false ∧ base.t.timed = false ∧ tr.pages base.t = false ∧ handlerCause tr.cause = true ∧
    base.t.thvec.getLsbD 0 = true ∧ { base.t with inHandler := true }.inHandler = true ∧
    { base.t with thvec := 0x2000 }.thvec.getLsbD 0 = false ∧ handlerCause 0x15 = false := by decide +kernel

/-- HandlerReturn. -/
theorem wit_return : ∃ s : State, Quiet s ∧ s.t.inHandler = true ∧ memberAt s.leave s.t.tpc 4 1 = none :=
  ⟨base.withTask { base.t with inHandler := true, tpc := 0x1000 }, ⟨rfl, rfl, rfl, rfl, by simp [base, State.withTask, State.reset]⟩, rfl,
    by decide +kernel⟩

/-- WaitWords: each condition where it just holds and where it just does not. -/
theorem wit_waits : let s := regs base 1 9
    (Quiet s ∧ s.t.timed = false) ∧ (s.g 2).toNat ≤ timeAt s (s.t.cycle + 1) ∧ timeAt (regs base 10 0) ((regs base 10 0).t.cycle + 1) < ((regs base 10 0).g 1).toNat ∧
    (s.g 0).toNat % 2 ^ 32 ≤ s.t.mbcnt.toNat ∧ s.t.mbcnt.toNat < (s.g 1).toNat % 2 ^ 32 ∧ yieldsTo s = false ∧
    issueCycle s.t + (s.g 1).toNat % 2 ^ 16 ≤ s.t.cycle + 1 ∧ tickAt (s.t.cycle + 1) ≤ tickAt (issueCycle s.t) ∧
    (let t := s.withTask { s.t with cycle := 4095 }
     tickAt (issueCycle t.t) < tickAt (t.t.cycle + 1)) := ⟨⟨(settled _ _).1, rfl⟩, by decide +kernel⟩

/-- A launch with a free frame, of which another task is ready. -/
def launch : Launch := { id := 1, fn := 1, total := 2, frames := [(0, 0)], record := { slots := 2, saveSize := 0x400000, levels := [{ extent := 2, binding := 1, scope := 0 }, { extent := 3, binding := 0, scope := 0 }] } }
def ready (s : State) : State := { s with launches := [launch], readyTasks := [{ launch := 1, task := 1, since := 0 }] }

/-- WaitWords, YIELD: with every command forked, and with one that is not. -/
theorem wit_yield : ∀ n ∈ [0, 1], ∃ s : State, Settled s ∧ s.t.timed = false ∧ s.t.inHandler = false ∧ yieldsTo s = true ∧
    unforked s.c s.t.launch s.t.task = n := by
  intro n hn
  let d : Cmd := { id := 4, instr := .mmaA 1 2 0 1, addr := 0x900, batch := 2, launch := 1, task := 0, frame := 0, fn := 1, front := 0,
                   regs := [], modes := {}, count := 0, segs := segs }
  simp only [List.mem_cons, List.not_mem_nil, or_false] at hn
  rcases hn with rfl | rfl
  · exact ⟨ready (regs base 0 0), settled_t (settled 0 0) rfl, rfl, rfl, by decide +kernel⟩
  · exact ⟨{ ready (regs base 0 0) with c := { base.c with cmds := [d] } }, settled_t (settled 0 0) rfl, rfl, rfl, by decide +kernel⟩

/-- RestartPoints. -/
theorem wit_restart : ∃ s : State, Settled s ∧ s.t.timed = true ∧ s.t.domain = 4 ∧ s.c.pipe = [] ∧ s.t.deferred = [] ∧ s.t.engineLate = [] ∧
    heldOf s s.t.launch = [] ∧ ∃ d ∈ s.domains, d.launch = s.t.launch :=
  ⟨{ timed (regs base 0 0) with domains := [{ launch := 1, cores := [0], tasks := [], coreCopies := [], restart := 0 }] }, settled_t (settled_timed 0 0) rfl,
    by decide +kernel⟩

/-- TaskExit: the last but one instance, and the last. -/
theorem wit_exit : ∃ (s t : State) (l : Launch), Settled s ∧ Settled t ∧ s.t.timed = false ∧ s.c.holder ≠ some s.t.front ∧
    s.launch s.t.launch = some l ∧ t.launch t.t.launch = some l ∧
    (∃ r, nextIndices l.record.levels ((s.t.idx.toList.map BitVec.toNat).take l.record.levels.length) = some r) ∧
    nextIndices l.record.levels ((t.t.idx.toList.map BitVec.toNat).take l.record.levels.length) = none ∧
    t.t.deferred = [] ∧ t.t.engineLate = [] ∧ heldOf t t.t.launch = [] := by
  obtain ⟨r, hr, -⟩ := some_some (x := nextIndices launch.record.levels
    (((ready ((regs base 0 0).withTask { (regs base 0 0).t with idx := (regs base 0 0).t.idx.set 1 1 })).t.idx.toList.map BitVec.toNat).take 2))
    (p := fun _ => true) (by decide +kernel)
  exact ⟨ready ((regs base 0 0).withTask { (regs base 0 0).t with idx := (regs base 0 0).t.idx.set 1 1 }),
    ready ((regs base 0 0).withTask { (regs base 0 0).t with idx := (regs base 0 0).t.idx.set 1 2 }), launch, settled 0 0, settled 0 0, rfl,
    by decide +kernel, by decide +kernel, by decide +kernel, ⟨r, hr⟩, by decide +kernel, rfl, rfl, by decide +kernel⟩

/-! ## Atomic and synchronising words -/

/-- AmoResults: the last doubleword of an atomic segment, and the last word of one, with a result that lands. -/
theorem wit_amo : ∀ x ∈ [(2 * 2 ^ 60 + 0xFFF8, 8), (7 * 2 ^ 60 + 0xFFFC, 4)], ∃ (s s' u : State) (b : GReg) (place old : Nat), Quiet s ∧
    checkAccess s s.actor (s.g b).toNat x.2 x.2 .atomicWr = .ok (place, s') ∧ InReach s s' place ∧ readWord s' place x.2 = .ok old ∧
    putWord s' place x.2 7 = .ok u := by
  intro x hx
  have h : ((checkAccess (regs base x.1 0) (regs base x.1 0).actor ((regs base x.1 0).g 1).toNat x.2 x.2 .atomicWr).toOption.any fun q =>
      ((readWord q.2 q.1 x.2).toOption.any fun _ => true) && (putWord q.2 q.1 x.2 7).toOption.any fun _ => true) = true := by
    simp only [List.mem_cons, List.not_mem_nil, or_false] at hx
    rcases hx with rfl | rfl <;> decide +kernel
  obtain ⟨⟨q, s'⟩, h, h'⟩ := some_ok h
  simp only [Bool.and_eq_true] at h'
  obtain ⟨v, hv, -⟩ := some_ok h'.1
  obtain ⟨u, hu, -⟩ := some_ok h'.2
  exact ⟨regs base x.1 0, s', u, 1, q, v, (settled x.1 0).1, h, .inr ⟨settled x.1 0, rfl⟩, hv, hu⟩

/-- base with the doubleword of the atomic segment 2 holding v. -/
def atom (v : Nat) : State := putPlace (regs base (2 * 2 ^ 60) 5) (chip + 0x20000) 8 v

/-- AcquireWords: words that complete at their bound (1 for ACQ, 5 against g2 = 5) and words that wait (0; 4), with no releaser. -/
theorem wit_acquire : ∀ x ∈ [(0, Access.atomicWr), (1, .atomicWr), (5, .atomicRd), (4, .atomicRd)], ∃ (s s' u : State) (b : GReg) (place v : Nat),
    Quiet s ∧ s.t.timed = false ∧ checkAccess s s.actor (s.g b).toNat 8 8 x.2 = .ok (place, s') ∧ InReach s s' place ∧
    readWord s' place 8 = .ok v ∧ v = x.1 ∧
    scopeTrap s' (ptrSeg (s.g b).toNat).val (ptrOff (s.g b).toNat) (releaserOf s' place) = none ∧ putWord s' place 8 0 = .ok u := by
  intro x hx
  have hq : Settled (atom x.1) := by
    have : (atom x.1).t = (regs base (2 * 2 ^ 60) 5).t := by
      simp only [List.mem_cons, List.not_mem_nil, or_false] at hx
      rcases hx with rfl | rfl | rfl | rfl <;> decide +kernel
    exact settled_t (settled (2 * 2 ^ 60) 5) this
  have h : ((checkAccess (atom x.1) (atom x.1).actor ((atom x.1).g 1).toNat 8 8 x.2).toOption.any fun q =>
      ((readWord q.2 q.1 8).toOption.any fun v => v == x.1) && decide ((atom x.1).t.timed = false ∧
        scopeTrap q.2 (ptrSeg ((atom x.1).g 1).toNat).val (ptrOff ((atom x.1).g 1).toNat) (releaserOf q.2 q.1) = none) &&
        (putWord q.2 q.1 8 0).toOption.any fun _ => true) = true := by
    simp only [List.mem_cons, List.not_mem_nil, or_false] at hx
    rcases hx with rfl | rfl | rfl | rfl <;> decide +kernel
  obtain ⟨⟨q, s'⟩, h, h'⟩ := some_ok h
  simp only [Bool.and_eq_true, decide_eq_true_eq] at h'
  obtain ⟨v, hv, hv'⟩ := some_ok h'.1.1
  obtain ⟨u, hu, -⟩ := some_ok h'.2
  exact ⟨atom x.1, s', u, 1, q, v, hq.1, h'.1.2.1, h, .inr ⟨hq, h'.1.2.1⟩, hv, by simpa using hv', h'.1.2.2, hu⟩

/-- AcquireWords, the scope: at each scope the last core inside it and the first outside, seen from core 0. -/
theorem wit_scope : sameDomain base 287 = false ∧ (2 : Nat) < 16 ∧ base.t.segs[(2 : Fin 16)].desc.scope = 0 ∧ base.t.core = 0 ∧
    base.t.core ≠ 1 ∧ (0 % 36 / 4 = 3 % 36 / 4 ∧ 0 % 36 / 4 ≠ 4 % 36 / 4) ∧ (0 / 36 = 35 / 36 ∧ 0 / 36 ≠ 36 / 36) := by decide +kernel

/-- AcquireWords, REL. -/
theorem wit_release : ∃ (s s' u : State) (b c : GReg) (place : Nat), Settled s ∧ s.t.timed = false ∧
    checkAccess s s.actor (s.g b).toNat 8 8 .atomicWr = .ok (place, s') ∧ putWord s' place 8 (s.g c).toNat = .ok u := by
  obtain ⟨⟨q, s'⟩, h, h'⟩ := some_ok (x := checkAccess (regs base (2 * 2 ^ 60) 5) (regs base (2 * 2 ^ 60) 5).actor
    ((regs base (2 * 2 ^ 60) 5).g 1).toNat 8 8 .atomicWr) (p := fun q => (putWord q.2 q.1 8 ((regs base (2 * 2 ^ 60) 5).g 2).toNat).toOption.any
      fun _ => true) (by decide +kernel)
  obtain ⟨u, hu, -⟩ := some_ok h'
  exact ⟨_, s', u, 1, 2, q, settled _ _, rfl, h, hu⟩

/-- base with the token word of segment 3 holding v, its launch one of three tasks. -/
def token (v : Nat) : State :=
  { putPlace (regs base 2 0) (chip + 0x32000) 8 v with launches := [{ id := 1, fn := 1, total := 3, record := { levels := [{ extent := 3, binding := 1, scope := 0 }] } }] }

/-- TokenWords: a free token, the task's own, one that the last task has, and one to hand on to the last task. -/
theorem wit_token : ∀ v ∈ [0, 1, 3], ∃ (s s' u : State) (b : SReg) (c : GReg) (place : Nat), Settled s ∧ s.t.timed = false ∧
    (s.t.segs[b]).desc.disc = .owned ∧ segWord s b .token = .ok (place, s') ∧ readPlace s' place 8 = .ok v ∧ waitedLonger s' place = false ∧
    scopeTrap s' b.val (s.t.segs[b]).desc.word (tokenReleaser s' v) = none ∧
    (s.t.segs[b]).held = true ∧ (s.g c).toNat % 2 ^ 32 < taskCount s ∧ engineUses s' b = false ∧
    putWord s' place 8 (v / 2 ^ 32 * 2 ^ 32 + (s.t.task + 1)) = .ok u := by
  intro v hv
  have ht : Settled (token v) := by
    have : (token v).t = (regs base 2 0).t := by
      simp only [List.mem_cons, List.not_mem_nil, or_false] at hv
      rcases hv with rfl | rfl | rfl <;> decide +kernel
    exact settled_t (settled 2 0) this
  have h : ((segWord (token v) 3 .token).toOption.any fun q => ((readPlace q.2 q.1 8).toOption.any fun w => w == v) &&
      decide ((token v).t.timed = false ∧ ((token v).t.segs[(3 : SReg)]).desc.disc = .owned ∧ waitedLonger q.2 q.1 = false ∧
        scopeTrap q.2 3 ((token v).t.segs[(3 : SReg)]).desc.word (tokenReleaser q.2 v) = none ∧
        ((token v).t.segs[(3 : SReg)]).held = true ∧ ((token v).g 1).toNat % 2 ^ 32 < taskCount (token v) ∧ engineUses q.2 3 = false) &&
      (putWord q.2 q.1 8 (v / 2 ^ 32 * 2 ^ 32 + ((token v).t.task + 1))).toOption.any fun _ => true) = true := by
    simp only [List.mem_cons, List.not_mem_nil, or_false] at hv
    rcases hv with rfl | rfl | rfl <;> decide +kernel
  obtain ⟨⟨q, s'⟩, h, h'⟩ := some_ok h
  simp only [Bool.and_eq_true, decide_eq_true_eq] at h'
  obtain ⟨w, hw, hw'⟩ := some_ok h'.1.1
  obtain ⟨u, hu, -⟩ := some_ok h'.2
  obtain ⟨h1, h2, h3, h4, h5, h6, h7⟩ := h'.1.2
  have e : w = v := by simpa using hw'
  exact ⟨token v, s', u, 3, 1, q, ht, h1, h2, h, by rw [← e]; exact hw, h3, h4, h5, h6, h7, hu⟩

/-- TokenWords, SEGPHASE: arriving, the switch, and going on. -/
theorem wit_phase : ∃ (s s' t u : State) (b : SReg) (place : Nat), Settled s ∧ s.t.timed = false ∧ (s.t.segs[b]).desc.disc = .sliced ∧
    (s.t.arrived = 0 ∧ segWord s b .phase = .ok (place, s') ∧ engineUses s' b = false) ∧
    (t.t.arrived = 2 ∧ t.t.wait = none ∧ Settled t) ∧
    ((∃ x ∈ u.arrivals, x.1 = u.arg 0) ∧ u.t.arrived = 1 ∧ (u.arg 0, u.t.launch, u.t.task) ∈ u.arrivals) := by
  obtain ⟨⟨q, s'⟩, h, h'⟩ := ok_dec (x := segWord (regs base 0 0) 4 .phase) (P := fun q => engineUses q.2 4 = false) (by decide +kernel)
  exact ⟨regs base 0 0, s', base.withTask { base.t with arrived := 2 },
    { base.withTask { base.t with arrived := 1 } with input := { n := [5] }, arrivals := [(5, 1, 0)] }, 4, q, settled 0 0, rfl, by decide +kernel,
    ⟨rfl, h, h'⟩, ⟨rfl, rfl, ⟨rfl, rfl, rfl, rfl, by simp [base, State.withTask, State.reset]⟩, rfl⟩, by decide +kernel⟩

/-- A tile of full cost on core 0, and free extents for it or none. -/
theorem wit_full : ∀ n ∈ [0, 1], (let s := { regs base 0 0 with c := { base.c with
      tiles := [{ n := 0, bytes := 1, tag := 0, checked := false }], heldExtents := [(9, Config.poolExtents - 1 - n)] } }
    (s.coreAt 0).freeExtents = n ∧ ((s.coreAt 0).tileAt 0).cost = 1) := by decide +kernel

/-- ScratchWords: the first and the last tile of a scratchpad segment, to read and to write. -/
theorem wit_scratch : ∀ x ∈ [(0, Access.rd), (0xF000, .rd), (0, .wr), (0xF000, .wr)], ∃ (s s' : State) (b : GReg) (place : Nat), Settled s ∧
    s.t.timed = false ∧ chip ≤ place ∧ mapSpace (place - chip) = 0 ∧ (s.t.segs[ptrSeg (s.g b).toNat]).desc.onChip = true ∧
    mapSpace (formed s.actor s.t.segs[ptrSeg (s.g b).toNat] (ptrOff (s.g b).toNat) - chip) = 0 ∧
    checkAccess s s.actor (s.g b).toNat 4096 4096 x.2 = .ok (place, s') := by
  intro x hx
  have h : ((checkAccess (regs base x.1 0) (regs base x.1 0).actor ((regs base x.1 0).g 1).toNat 4096 4096 x.2).toOption.any fun q =>
      decide (chip ≤ q.1 ∧ mapSpace (q.1 - chip) = 0 ∧ ((regs base x.1 0).t.segs[ptrSeg ((regs base x.1 0).g 1).toNat]).desc.onChip = true ∧
        mapSpace (formed (regs base x.1 0).actor (regs base x.1 0).t.segs[ptrSeg ((regs base x.1 0).g 1).toNat]
          (ptrOff ((regs base x.1 0).g 1).toNat) - chip) = 0)) = true := by
    simp only [List.mem_cons, List.not_mem_nil, or_false] at hx
    rcases hx with rfl | rfl | rfl | rfl <;> decide +kernel
  obtain ⟨⟨q, s'⟩, h, h1, h2, h3, h4⟩ := ok_dec h
  exact ⟨regs base x.1 0, s', 1, q, settled x.1 0, rfl, h1, h2, h3, h4, h⟩

/-! ## Vector words alone in their convoy -/

/-- A front whose one-member convoy has been opened, in type ty with vl elements granted, g1 = x and g2 = y, holding the
lanes; the matrix modes are mt, sh and tt. -/
def lone (ty vl x y : Nat) (mt : Nat := 0xBB) (sh : Nat := 0) (tt : Nat := 11) : State :=
  let s := regs base x y
  let m : Modes := { vl := BitVec.ofNat 13 vl, vtype := BitVec.ofNat 4 ty, mtype := BitVec.ofNat 64 mt, shape := BitVec.ofNat 48 sh,
                     ttype := BitVec.ofNat 4 tt }
  let c : Conv := { cv := { hdr := 0x1000, word := 0x7F, entries := [] }, next := 0, cnt := 0,
                    before := { g := s.t.g, modes := m, count := 0 } }
  { s with t := { s.t with modes := m, conv := some c }, c := { s.c with holder := some 0 } }

theorem lone_lone (ty vl x y mt sh tt : Nat) : Lone (lone ty vl x y mt sh tt) where
  conv := ⟨rfl, rfl, rfl, rfl, rfl⟩
  queue := rfl
  late := rfl
  free := rfl
  handler := rfl
  debug := rfl
  single := rfl
  behind := rfl
  lanes := rfl
  good := rfl
  here := rfl
  cmds := rfl
  landing := rfl
  bind := rfl
  apps := rfl
  shadow := rfl
  stores := rfl
  bread := rfl
  undo := rfl
  room := (by decide : 0 < 64)
  depth := Nat.le_refl _

theorem placed (i : Instr) (hdr : Nat) : placeTrap i hdr 0 1 = none := by cases i <;> exact rfl

/-- Alone in its convoy a word's place is right, whatever the header: one header decides. -/
theorem accepted {s : State} {i : Instr} (h : memberTrap i (capture i s) 0 0 1 s.t.vmax false = none) : Accepted s i := by
  intro hdr
  unfold memberTrap wordTrap at *
  rw [placed] at *
  exact h

/-- Lone carries over to a state with the same front, core and bad units. -/
theorem lone_of {s u : State} (h : Lone s) (ht : u.t = s.t) (hc : u.c = s.c) (ha : u.ahead = s.ahead) (hb : u.bad = s.bad)
    (hl : landing u.lone u.actor = []) : Lone u := by
  have hs : u.stripNow = s.stripNow := by
    unfold State.stripNow State.restNow
    rw [ht, hc]
  exact ⟨ht ▸ h.conv, ht ▸ h.queue, ht ▸ h.late, ht ▸ h.free, ht ▸ h.handler, ht ▸ h.debug, ht ▸ h.single, ha ▸ h.behind,
    by rw [ht, hc]; exact h.lanes, hb ▸ h.good, by rw [ht, hc]; exact h.here, by rw [hc]; exact h.cmds, hl, by rw [hc]; exact h.bind, hs ▸ h.apps, hs ▸ h.shadow, hs ▸ h.stores, hs ▸ h.bread,
    hs ▸ h.undo, hs ▸ h.room, by rw [hs, ht]; exact h.depth⟩

/-- IntegerLanes: the first and the last integer type. FloatLanes: the first and last float type, and of the
approximations. MoveLanes, ScalarResults, ScanLanes: types 7, 11 and 13, the last of their ranges, and 8, past the first. -/
theorem wit_lanes : (∀ ty ∈ [0, 7], Lone (lone ty 4 0 0) ∧ (lone ty 4 0 0).t.modes.vtype.toNat < 8) ∧
    (∀ ty ∈ [8, 9, 11], Lone (lone ty 4 0 0) ∧ 8 ≤ (lone ty 4 0 0).t.modes.vtype.toNat ∧ (lone ty 4 0 0).t.modes.vtype.toNat < 12) ∧
    9 ≤ (lone 9 4 0 0).t.modes.vtype.toNat ∧ (lone 13 4 0 0).t.modes.vtype.toNat < 14 :=
  ⟨fun ty h => ⟨lone_lone .., by revert ty; decide +kernel⟩, fun ty h => ⟨lone_lone .., by revert ty; decide +kernel⟩, by decide +kernel⟩

/-- MaskResults: the last comparison codes, and a destination other than m0. -/
theorem wit_masks : Lone (lone 4 4 0 0) ∧ (1 : MReg) ≠ 0 ∧ (lone 4 4 0 0).t.modes.vtype.toNat < 8 ∧ (5 : Fin 8).val < 6 ∧
    8 ≤ (lone 8 4 0 0).t.modes.vtype.toNat ∧ (lone 8 4 0 0).t.modes.vtype.toNat < 12 := ⟨lone_lone .., by decide +kernel⟩

/-- ConversionResults: a full register of 64-bit elements into a 32-bit one, the last registers of the window. -/
theorem wit_convert : Lone (lone 8 512 0 0) ∧ (lone 8 512 0 0).vl ≤ vlMax (lone 8 512 0 0).t.modes.vtype.toNat ∧
    (127 : VReg).val + ((List.range (((lone 8 512 0 0).vl * typeBits 9 + 32767) / 32768)).map fun j => LReg.v j).length ≤ 128 :=
  ⟨lone_lone .., by decide +kernel⟩

/-- A layout of two 8-bit fields at a pitch of 16, three windows of 16, the guard checked. -/
def packed : State :=
  let s := lone 1 8 0 0
  s.withTask { s.t with f := s.t.f.set 1 (BitVec.ofNat 64 (16 + 2 * 2 ^ 6 + 8 * 2 ^ 10 + 16 * 2 ^ 24 + 3 * 2 ^ 30 + 2 ^ 35)) }

/-- Lone carries over to a state that keeps what it speaks of. -/
theorem lone_t {s u : State} (h : Lone s) (hc : u.t.conv = s.t.conv) (hq : u.t.queue = s.t.queue) (hl : u.t.late = s.t.late)
    (hf : u.t.timed = s.t.timed ∧ u.t.inHandler = s.t.inHandler ∧ u.t.dbgctl = s.t.dbgctl ∧ u.t.single = s.t.single ∧ u.ahead = s.ahead)
    (hk : u.c.holder = s.c.holder ∧ u.t.front = s.t.front ∧ u.bad = s.bad ∧ u.c.cmds = s.c.cmds ∧
      u.c.lanes.bind = s.c.lanes.bind) (hn : u.c.num = u.t.core ∧ landing u.lone u.actor = []) (hu : u.t.strip = none) : Lone u where
  conv := hc ▸ h.conv
  queue := hq ▸ h.queue
  late := hl ▸ h.late
  free := hf.1 ▸ h.free
  handler := hf.2.1 ▸ h.handler
  debug := hf.2.2.1 ▸ h.debug
  single := hf.2.2.2.1 ▸ h.single
  behind := hf.2.2.2.2 ▸ h.behind
  lanes := by rw [hk.1, hk.2.1]; exact h.lanes
  good := hk.2.2.1 ▸ h.good
  here := hn.1
  cmds := hk.2.2.2.1 ▸ h.cmds
  landing := hn.2
  bind := hk.2.2.2.2 ▸ h.bind
  apps := by unfold State.stripNow; rw [hu]; rfl
  shadow := by unfold State.stripNow; rw [hu]; rfl
  stores := by unfold State.stripNow; rw [hu]; rfl
  bread := by unfold State.stripNow; rw [hu]; rfl
  undo := by unfold State.stripNow; rw [hu]; rfl
  room := by unfold State.stripNow; rw [hu]; exact (by decide : 0 < 64)
  depth := by unfold State.stripNow; rw [hu]; exact Nat.le_refl _

theorem lone_packed : Lone packed :=
  lone_t (lone_lone 1 8 0 0 0xBB 0 11) rfl rfl rfl ⟨rfl, rfl, rfl, rfl, rfl⟩ ⟨rfl, rfl, rfl, rfl, rfl⟩ ⟨rfl, rfl⟩ rfl

/-- ConversionResults, packed: the three words pass their checks and the guard holds. -/
theorem wit_packed : Lone packed ∧ packed.vl ≠ 0 ∧ Accepted packed (.vpack false 1 4 0) ∧ Accepted packed (.vpmul false 1 4 0 2) ∧
    Accepted packed (.vpmula false 1 4 0 2) ∧ Accepted packed (.vpext false 1 4 2) ∧ planChk (packed.layout 1) = true ∧
    ∀ j, j < 4 → guardOk (packed.layout 1) (packed.lane 0 j : Int) (packed.lane 2 j : Int) = true :=
  ⟨lone_packed, by decide +kernel, accepted (by decide +kernel), accepted (by decide +kernel), accepted (by decide +kernel), accepted (by decide +kernel), by decide +kernel, by decide +kernel⟩

/-- SetvlResults: no mailbox trap due. LaneWords: the queue segment, a mailbox range that just fits, an idle core. -/
theorem wit_lanewords : Lone (lone 4 4 120 8) ∧ (lone 4 4 120 8).t.mbFault = none ∧ (lone 4 4 120 8).t.segs[(5 : SReg)].desc.disc = .stream ∧
    ((lone 4 4 120 8).g 1).toNat + ((lone 4 4 120 8).g 2).toNat ≤ (lone 4 4 120 8).t.vmax ∧ (lone 4 4 120 8).c.cmds = [] ∧
    (let dq := queueOf (lone 4 4 120 8).actor (lone 4 4 120 8).t.segs[(5 : SReg)]
     ((lone 4 4 120 8).queue dq.1 dq.2).isOut = false) ∧ (lone 4 4 120 8).t.segs[(2 : SReg)].desc.disc = .atomic :=
  ⟨lone_lone .., by decide +kernel⟩

/-- LaneWords, VAPPEND to an ATOMIC segment: three values after the count. -/
theorem wit_append : ∃ (place n : Nat) (z y : State) (places : List (Nat × Nat)), let s := lone 4 3 0 0
    checkAccess (s.acting (.vappend 3 2 1)) s.actor (mkPtr 2 0) 8 8 .atomicWr = .ok (place, z) ∧ readPlace z place 8 = .ok n ∧
    checkAll s.actor .atomicWr z ((List.range 3).map fun k => (mkPtr 2 (8 + 4 * (n + k)), 4, 4)) = .ok (y, places) := by
  obtain ⟨⟨place, z⟩, h, h'⟩ := some_ok (x := checkAccess ((lone 4 3 0 0).acting (.vappend 3 2 1)) (lone 4 3 0 0).actor (mkPtr 2 0) 8 8 .atomicWr)
    (p := fun q => (readPlace q.2 q.1 8).toOption.any fun n => (checkAll (lone 4 3 0 0).actor .atomicWr q.2
      ((List.range 3).map fun k => (mkPtr 2 (8 + 4 * (n + k)), 4, 4))).toOption.any fun _ => true) (by decide +kernel)
  obtain ⟨n, hn, h''⟩ := some_ok h'
  obtain ⟨⟨y, places⟩, hy, -⟩ := some_ok h''
  exact ⟨place, n, z, y, places, h, hn, hy⟩

/-- The words of VectorLoads and VectorStores with the pointers of their elements, base in g1 and stride in g2. -/
def memWords (s : State) : List (Instr × Instr × (Nat → Word)) :=
  let n := if s.width = 4 then 1 else s.width / 8
  [(.vld false 2 1, .vst false 2 1, fun k => ptrAdd (s.g 1) ((k * s.width / 8 : Nat) : Int)),
   (.vlds false 2 1 2, .vsts false 2 1 2, fun k => ptrAdd (s.g 1) (k * (s.g 2).toInt)),
   (.vldx false 2 1 3, .vstx false 2 1 3, fun k => ptrAdd (s.g 1) ((s.el 3 k * n : Nat) : Int))]

/-- VectorLoads and VectorStores: two elements of 4, 8 and 64 bits at the end of the segment, and no element at all. The
strided and the indexed words take no 4-bit type. -/
theorem wit_vecmem : ∀ x ∈ [(14, 2), (0, 2), (6, 2), (4, 0)], ∀ w ∈ (memWords (lone x.1 x.2 0xFFF0 0)).take (if x.1 = 14 then 1 else 3),
    ∃ (y z : State) (places spots : List (Nat × Nat)) (vs : List Nat), let s := lone x.1 x.2 0xFFF0 0
      Lone s ∧ Accepted s w.1 ∧ Accepted s w.2.1 ∧
      checkAll s.actor .rd (s.acting w.1) (s.accesses false w.2.2) = .ok (y, places) ∧ readAll y places = .ok vs ∧
      checkAll s.actor .wr (s.acting w.2.1) (s.accesses false w.2.2) = .ok (z, spots) := by
  have : ∀ x ∈ [(14, 2, 1), (0, 2, 3), (6, 2, 3), (4, 0, 3)], ∀ w ∈ (memWords (lone x.1 x.2.1 0xFFF0 0)).take x.2.2,
      let s := lone x.1 x.2.1 0xFFF0 0
      (Accepted s w.1 ∧ Accepted s w.2.1) ∧ ((checkAll s.actor .rd (s.acting w.1) (s.accesses false w.2.2)).toOption.any
        (fun q => (readAll q.1 q.2).toOption.any fun _ => true) &&
      (checkAll s.actor .wr (s.acting w.2.1) (s.accesses false w.2.2)).toOption.any fun _ => true) = true := by
    intro x hx w hw
    simp only [List.mem_cons, List.not_mem_nil, or_false] at hx
    rcases hx with rfl | rfl | rfl | rfl <;>
      simp only [memWords, List.take_succ_cons, List.take_zero, List.mem_cons, List.not_mem_nil, or_false] at hw
    · subst hw; exact ⟨⟨accepted (by decide +kernel), accepted (by decide +kernel)⟩, by decide +kernel⟩
    all_goals rcases hw with rfl | rfl | rfl <;> exact ⟨⟨accepted (by decide +kernel), accepted (by decide +kernel)⟩, by decide +kernel⟩
  intro x hx w hw
  obtain ⟨⟨ha, hb⟩, h⟩ := this (x.1, x.2, if x.1 = 14 then 1 else 3)
    (by simp only [List.mem_cons, List.not_mem_nil, or_false] at hx; rcases hx with rfl | rfl | rfl | rfl <;> simp) w hw
  simp only [Bool.and_eq_true] at h
  obtain ⟨⟨y, places⟩, h1, h2⟩ := some_ok h.1
  obtain ⟨vs, hv, -⟩ := some_ok h2
  obtain ⟨⟨z, spots⟩, h3, -⟩ := some_ok h.2
  exact ⟨y, z, places, spots, vs, lone_lone .., ha, hb, h1, hv, h3⟩

/-- Rows of metadata 1, 3, 5, 7, 9, 11, 1, …. -/
def metaRows : Vector (BitVec 2048) 64 :=
  Vector.replicate 64 (BitVec.ofNat 2048 ((List.range 512).foldl (fun x m => x + (2 * (m % 6) + 1) * 2 ^ (4 * m)) 0))

/-- s with its core's scratchpad tile 0 tagged 7, and rows in tile 1 of the lanes. -/
def tiled (s : State) (rows : Vector (BitVec 2048) 64 := metaRows) : State :=
  s.withCore { s.c with tiles := [{ n := 0, bytes := 0, tag := 7, checked := false }], lanes := { s.c.lanes with tile := s.c.lanes.tile.set 1 rows } }

theorem lone_rows (ty vl x y mt sh tt : Nat) (rows) : Lone (tiled (lone ty vl x y mt sh tt) rows) :=
  lone_t (lone_lone ty vl x y mt sh tt) rfl rfl rfl ⟨rfl, rfl, rfl, rfl, rfl⟩ ⟨rfl, rfl, rfl, rfl, rfl⟩ ⟨rfl, rfl⟩ rfl

theorem lone_tiled (ty vl x y mt sh tt : Nat) : Lone (tiled (lone ty vl x y mt sh tt)) := lone_rows ..

/-- VectorLoads, VLDT: 64 bytes of a tile with the tag that it names, and with no tag named. -/
theorem wit_vldt : ∀ tag ∈ [7, 0], ∃ (y z : State) (places : List (Nat × Nat)) (vs : List Nat), let s := tiled (lone 0 64 0 tag)
    Lone s ∧ checkAll s.actor .rd (s.acting (.vldt false 3 1 2))
      (s.accesses false fun k => ptrAdd (s.g 1) ((k * s.width / 8 : Nat) : Int)) = .ok (y, places) ∧
    taggedRead (.vldt false 3 1 2) 1 ((s.g 2).toNat % 65536) y places = .ok z ∧ readAll z places = .ok vs := by
  intro tag ht
  have h : (let s := tiled (lone 0 64 0 tag)
      (checkAll s.actor .rd (s.acting (.vldt false 3 1 2)) (s.accesses false fun k => ptrAdd (s.g 1) ((k * s.width / 8 : Nat) : Int))).toOption.any
        fun q => (taggedRead (.vldt false 3 1 2) 1 ((s.g 2).toNat % 65536) q.1 q.2).toOption.any fun z => (readAll z q.2).toOption.any
          fun _ => true) = true := by
    simp only [List.mem_cons, List.not_mem_nil, or_false] at ht
    rcases ht with rfl | rfl <;> decide +kernel
  obtain ⟨⟨y, places⟩, hy, h2⟩ := some_ok h
  obtain ⟨z, hz, h3⟩ := some_ok h2
  obtain ⟨vs, hv, -⟩ := some_ok h3
  exact ⟨y, z, places, vs, lone_tiled .., hy, hz, hv⟩

/-- VectorStores: VSPILL to and VFILL from the last whole tile of the segment. -/
theorem wit_spill : ∃ (y z : State) (places spots : List (Nat × Nat)) (x : Nat), let s := lone 4 0 0xF000 0
    Lone s ∧ checkAll s.actor .wr (s.acting (.vspill 3 1))
      ((List.range 64).map fun k => ((ptrAdd (s.g 1) ((64 * k : Nat) : Int)).toNat, 64, 64)) = .ok (y, places) ∧
    loadBlock (s.g 1) 4096 (s.acting (.vfill 3 1)) = .ok (z, spots, x) := by
  obtain ⟨⟨y, places⟩, hy, -⟩ := some_ok (x := checkAll (lone 4 0 0xF000 0).actor .wr ((lone 4 0 0xF000 0).acting (.vspill 3 1))
    ((List.range 64).map fun k => ((ptrAdd ((lone 4 0 0xF000 0).g 1) ((64 * k : Nat) : Int)).toNat, 64, 64))) (p := fun _ => true)
    (by decide +kernel)
  obtain ⟨⟨z, spots, x⟩, hz, -⟩ := some_ok (x := loadBlock ((lone 4 0 0xF000 0).g 1) 4096 ((lone 4 0 0xF000 0).acting (.vfill 3 1)))
    (p := fun _ => true) (by decide +kernel)
  exact ⟨y, z, places, spots, x, lone_lone .., hy, hz⟩

/-! ## Tile, matrix and table words -/

/-- A shape of m rows, n columns and k. -/
def shape (m n k : Nat) : Nat := k * 2 ^ 32 + n * 2 ^ 16 + m

/-- TileMoves: a full register into the last rows that hold it, and from columns to the end; no element; a row moved to the
last. -/
theorem wit_moves : (let s := lone 9 1024 48 0 0xBB 0 9
      let w := typeBits s.t.modes.ttype.toNat
      let x := (s.g 1).toNat
      Lone s ∧ x % 64 + (s.vl * w + 2047) / 2048 = 64 ∧ x % 512 + (s.vl - 1) / 64 + 1 = 2048 / w) ∧ (lone 9 0 0 0).vl = 0 ∧
    (let x := ((lone 9 4 (0x20 + 2 ^ 8 * 0x3F + 2 ^ 16) 0).g 1).toNat
     let n := if x / 2 ^ 16 % 64 = 0 then 64 else x / 2 ^ 16 % 64
     x % 64 + n ≤ 64 ∧ x / 2 ^ 8 % 64 + n = 64) :=
  ⟨⟨lone_lone .., by decide +kernel⟩, by decide +kernel⟩

/-- TileMoves, memory: a sparse tile with metadata, and a scaled one with its side array, from tagged memory. -/
theorem wit_tiles : ∀ mt ∈ [0x40BB, 0xCD + 2 ^ 16], ∃ (y z w : State) (places spots : List (Nat × Nat)) (vs : List Nat),
    let s := tiled (lone 4 4 0 7 mt (shape 5 20 24) 11)
    let total := 5 * (rowBytes mt (shape 5 20 24) 11 + metaBytes mt (shape 5 20 24) + sideBytes mt)
    Lone s ∧ (shK (shape 5 20 24) ≠ 0 ∧ shK (shape 5 20 24) ≤ 256 ∧ shN (shape 5 20 24) ≠ 0 ∧ shM (shape 5 20 24) ≤ 64 ∧ total ≠ 0 ∧
      rowBytes mt (shape 5 20 24) 11 ≤ 256 ∧ (0 : TReg).val ≠ 7) ∧
    checkAll s.actor .rd (s.acting (.tld 0 1 2)) (pieces (s.g 1) total) = .ok (y, places) ∧
    taggedRead (.tld 0 1 2) 1 ((s.g 2).toNat % 65536) y places = .ok z ∧ readAll z places = .ok vs ∧
    checkAll s.actor .wr (s.acting (.tst 0 1)) (pieces (s.g 1) total) = .ok (w, spots) := by
  intro mt hm
  have h : (let s := tiled (lone 4 4 0 7 mt (shape 5 20 24) 11)
      let total := 5 * (rowBytes mt (shape 5 20 24) 11 + metaBytes mt (shape 5 20 24) + sideBytes mt)
      (decide (shK (shape 5 20 24) ≠ 0 ∧ shK (shape 5 20 24) ≤ 256 ∧ shN (shape 5 20 24) ≠ 0 ∧ shM (shape 5 20 24) ≤ 64 ∧ total ≠ 0 ∧
          rowBytes mt (shape 5 20 24) 11 ≤ 256 ∧ (0 : TReg).val ≠ 7) && (checkAll s.actor .rd (s.acting (.tld 0 1 2)) (pieces (s.g 1) total)).toOption.any fun q =>
        (taggedRead (.tld 0 1 2) 1 ((s.g 2).toNat % 65536) q.1 q.2).toOption.any fun z => (readAll z q.2).toOption.any fun _ =>
          (checkAll s.actor .wr (s.acting (.tst 0 1)) (pieces (s.g 1) total)).toOption.any fun _ => true)) = true := by
    simp only [List.mem_cons, List.not_mem_nil, or_false] at hm
    rcases hm with rfl | rfl <;> decide +kernel
  simp only [Bool.and_eq_true, decide_eq_true_eq] at h
  obtain ⟨h0, h⟩ := h
  obtain ⟨⟨y, places⟩, hy, h2⟩ := some_ok h
  obtain ⟨z, hz, h3⟩ := some_ok h2
  obtain ⟨vs, hv, h4⟩ := some_ok h3
  obtain ⟨⟨w, spots⟩, hw, -⟩ := some_ok h4
  exact ⟨y, z, w, places, spots, vs, lone_tiled .., h0, hy, hz, hv, hw⟩

/-- MatrixProducts: a dense product whose columns end with their slices, a sparse one whose metadata is right, and each word
with a granted size of 0. -/
theorem wit_products : Lone (tiled (lone 4 4 0 0 0xBB (shape 64 64 128))) ∧
    (mtypeOk 0xBB = true ∧ mtSpn 0xBB = 0 ∧ (0x20000 - bUsed 0xBB 64 128) % 64 = 0 ∧ bUsed 0xBB (shN (shape 64 64 128)) (shK (shape 64 64 128)) ≤ 0x20000) ∧
    (mtypeOk 0x40BB = true ∧ mtSpn 0x40BB ≠ 0) ∧
    metaCheck (tiled (lone 4 4 0 0 0x40BB (shape 2 2 24))).c.lanes 0 (tiled (lone 4 4 0 0 0x40BB (shape 2 2 24))).matEnv = none ∧
    (∀ sh ∈ [shape 0 2 24, shape 2 0 24, shape 2 2 0], (shM sh = 0 ∨ shN sh = 0 ∨ shK sh = 0) ∧
      ∀ i ∈ [Instr.mma 1 0 1, .tld 0 1 2, .tst 0 1, .azero 1, .ald 1 1, .ast 1 1, .bld 1 2], Accepted (lone 4 4 0 0 0xBB sh) i) ∧
    Accepted (lone 4 4 0 0 0x40BB (shape 0 2 24)) (.mmas 1 0 1) ∧ Accepted (lone 9 4 0 0 (0xCD + 2 ^ 16) (shape 0 2 24) 12) (.vquant 0 3 1) := by
  refine ⟨lone_tiled .., by decide +kernel, by decide +kernel, by decide +kernel, ?_, accepted (by decide +kernel), accepted (by decide +kernel)⟩
  intro sh h
  simp only [List.mem_cons, List.not_mem_nil, or_false] at h
  rcases h with rfl | rfl | rfl <;> refine ⟨by decide, ?_⟩ <;> intro i hi <;>
    simp only [List.mem_cons, List.not_mem_nil, or_false] at hi <;> rcases hi with rfl | rfl | rfl | rfl | rfl | rfl | rfl <;>
    exact accepted (by decide +kernel)

/-- MatrixProducts, the accumulator words: a group of one accumulator. -/
theorem wit_accumulators : ∃ (y z : State) (places spots : List (Nat × Nat)) (x : Nat), let s := lone 4 4 0 0 0xBB (shape 32 64 24)
    Lone s ∧ (groupCount 0xBB (shape 32 64 24) = 1 ∧ shM (shape 32 64 24) ≠ 0 ∧ shM (shape 64 128 24) ≤ 64 ∧ shN (shape 32 64 24) ≠ 0 ∧
      shN (shape 64 128 24) ≤ 128 ∧ shK (shape 32 64 24) ≠ 0) ∧
    loadBlock (s.g 1) 8192 (s.acting (.ald 1 1)) = .ok (y, places, x) ∧
    checkAll s.actor .wr (s.acting (.ast 1 1)) (pieces (s.g 1) 8192) = .ok (z, spots) := by
  obtain ⟨⟨y, places, x⟩, hy, -⟩ := some_ok (x := loadBlock ((lone 4 4 0 0 0xBB (shape 32 64 24)).g 1) 8192
    ((lone 4 4 0 0 0xBB (shape 32 64 24)).acting (.ald 1 1))) (p := fun _ => true) (by decide +kernel)
  obtain ⟨⟨z, spots⟩, hz, -⟩ := some_ok (x := checkAll (lone 4 4 0 0 0xBB (shape 32 64 24)).actor .wr
    ((lone 4 4 0 0 0xBB (shape 32 64 24)).acting (.ast 1 1)) (pieces ((lone 4 4 0 0 0xBB (shape 32 64 24)).g 1) 8192)) (p := fun _ => true)
    (by decide +kernel)
  exact ⟨y, z, places, spots, x, lone_lone .., by decide +kernel, hy, hz⟩

/-- TableWords: columns of B at the last offset that holds them, a quantised tile in its last rows, its scale computed and
given, a permutation of one and a codebook. -/
theorem wit_tables : (∃ (y : State) (places : List (Nat × Nat)) (x : Nat), let s := lone 4 4 0 (0x20000 - bRegion 0xBB 24) 0xBB (shape 2 2 24)
      let q := (s.g 2).toNat
      Lone s ∧ (∀ j, j < 32 → 17 ≤ j → q.testBit j = false) ∧ q % 2 ^ 17 % 64 = 0 ∧ q % 2 ^ 17 + bRegion 0xBB 24 = 0x20000 ∧
      loadBlock (s.g 1) (64 * bRegion 0xBB 24) (s.acting (.bld 1 2)) = .ok (y, places, x)) ∧
    (∀ g ∈ [62, 62 + 2 ^ 7 + 5 * 2 ^ 32], let s := lone 9 48 g 0 (0xCD + 2 ^ 16) (shape 2 2 24) 12
      let q := (s.g 1).toNat
      Lone s ∧ s.vl ≠ 0 ∧ s.t.modes.vtype.toNat = 9 ∧ s.t.modes.ttype.toNat ∈ [12, 13, 14, 0] ∧ q % 64 + (s.vl + 24 - 1) / 24 = 64 ∧
      (q.testBit 7 = true → (∀ j, j < 7 → 6 ≤ j → q.testBit j = false) ∧ ∀ j, j < 32 → 8 ≤ j → q.testBit j = false)) ∧
    (let s := lone 1 1 0 0
     s.t.modes.vtype.toNat = 1 ∧ s.vl ≤ 256 ∧ ((List.range s.vl).map fun j => s.el 3 j % 256).Nodup) ∧
    (lone 11 16 0 0).t.modes.vtype.toNat = 11 := by
  obtain ⟨⟨y, places, x⟩, hy, -⟩ := some_ok (x := loadBlock ((lone 4 4 0 (0x20000 - bRegion 0xBB 24) 0xBB (shape 2 2 24)).g 1) (64 * bRegion 0xBB 24)
    ((lone 4 4 0 (0x20000 - bRegion 0xBB 24) 0xBB (shape 2 2 24)).acting (.bld 1 2))) (p := fun _ => true) (by decide +kernel)
  refine ⟨⟨y, places, x, lone_lone .., by decide +kernel, by decide +kernel, by decide +kernel, hy⟩, ?_, by decide +kernel, by decide +kernel⟩
  intro g hg
  simp only [List.mem_cons, List.not_mem_nil, or_false] at hg
  rcases hg with rfl | rfl <;> exact ⟨lone_lone .., by decide +kernel⟩

/-! ## Reversible words -/

/-- PushingWords: each word at the first and last type that it takes, with room just enough for its longest record. -/
theorem wit_pushing : (∀ ty ∈ [8, 11], Lone (lone ty 4 3 0) ∧ ∀ i ∈ [Instr.rmul false 3 4 5, .rfma false 3 4 5, .rscale false 3 4 1,
      .rlrelu false 3 4 1], Accepted (lone ty 4 3 0) i) ∧
    Accepted (lone 8 4 3 0) (.rcvt false 3 4 9 0) ∧ Accepted (lone 9 4 3 0) (.rcvt false 3 4 11 0) ∧
    (∀ ty ∈ [0, 7], ∀ i ∈ [Instr.rshr false 3 4 1, .rlrelu false 3 4 1], Accepted (lone ty 4 3 0) i) ∧
    (let s := lone 8 4 3 0
     let worst := 16 * ((16 * ((s.vl + 63) / 64) + s.vl * (s.width / 8) + 16 + 15) / 16)
     s.t.depth + worst ≤ s.t.segs[(14 : Fin 16)].desc.limit ∧ s.t.depth - s.t.spill + worst ≤ 262144 ∧ s.t.spill ≤ s.t.depth) := by
  refine ⟨?_, accepted (by decide +kernel), accepted (by decide +kernel), ?_, by decide +kernel⟩
  · intro ty h
    refine ⟨lone_lone .., ?_⟩
    simp only [List.mem_cons, List.not_mem_nil, or_false] at h
    rcases h with rfl | rfl <;> intro i hi <;> simp only [List.mem_cons, List.not_mem_nil, or_false] at hi <;>
      rcases hi with rfl | rfl | rfl | rfl <;> exact accepted (by decide +kernel)
  · intro ty h i hi
    simp only [List.mem_cons, List.not_mem_nil, or_false] at h hi
    rcases h with rfl | rfl <;> rcases hi with rfl | rfl <;> exact accepted (by decide +kernel)

/-- lone with a record of 32 bytes on the riser, its header as given, no remainder in it. -/
def recorded (ty tag type aux vl : Nat) : State :=
  let s := lone ty 4 3 0
  s.withTask { s.t with depth := 32, riser := Memory.write [] 16 16 (tag + type * 2 ^ 8 + aux * 2 ^ 16 + vl * 2 ^ 32 + 32 * 2 ^ 64) }

theorem lone_recorded (ty tag type aux vl : Nat) : Lone (recorded ty tag type aux vl) :=
  lone_t (lone_lone ty 4 3 0 0xBB 0 11) rfl rfl rfl ⟨rfl, rfl, rfl, rfl, rfl⟩ ⟨rfl, rfl, rfl, rfl, rfl⟩ ⟨rfl, rfl⟩ rfl

theorem header_of {t : Task} {d tag type aux vl len : Nat} (h : (let x := Memory.read t.riser (d - 16) 16
    decide (16 ≤ d ∧ field x 0 8 = tag ∧ field x 8 8 = type ∧ field x 16 16 = aux ∧ field x 32 16 = vl ∧ field x 64 32 = len)) = true) :
    Header t d tag type aux vl len := by simpa [Header] using h

/-- UndoWords: each undo with its record on top, spills below it. -/
theorem wit_undo : ∀ x ∈ [(Instr.umul false 3 4 5, 8, 1, 8, 0), (.ufma false 3 4 5, 9, 2, 9, 0), (.ushr false 3 4 1, 7, 3, 7, 3),
      (.ulrelu false 3 4 1, 0, 4, 0, 3), (.uscale false 3 4 1, 11, 5, 11, 3), (.ucvt false 3 4 8, 9, 6, 8 + 16 * 9, 0)],
    let s := recorded x.2.1 x.2.2.1 x.2.2.2.1 x.2.2.2.2 4
    Lone s ∧ Accepted s x.1 ∧ Header s.t s.t.depth x.2.2.1 x.2.2.2.1 x.2.2.2.2 s.vl 32 ∧ s.t.spill < s.t.depth ∧ 32 ≤ s.t.depth ∧ s.vl = 4 := by
  intro x h
  refine ⟨lone_recorded .., ?_, ?_, ?_⟩ <;> simp only [List.mem_cons, List.not_mem_nil, or_false] at h
  · rcases h with rfl | rfl | rfl | rfl | rfl | rfl <;> exact accepted (by decide +kernel)
  · rcases h with rfl | rfl | rfl | rfl | rfl | rfl <;> exact header_of (by decide +kernel)
  · rcases h with rfl | rfl | rfl | rfl | rfl | rfl <;> decide +kernel

/-- UndoWords, the stack: room for a marker in an empty riser, and a marker of 16 bytes on top of one. -/
theorem wit_stack : (let s := lone 4 4 0 0
      Lone s ∧ riserBusy s s.t = false ∧ s.t.depth + 16 ≤ s.t.segs[(14 : Fin 16)].desc.limit ∧ s.t.depth - s.t.spill + 16 ≤ 262144 ∧
        s.t.spill ≤ s.t.depth) ∧
    (let s := recorded 4 0x80 0 0 0
     let u := s.withTask { s.t with riser := Memory.write s.t.riser 24 8 16 }
     Lone u ∧ Header u.t u.t.depth 0x80 0 0 0 16 ∧ u.t.spill + 16 ≤ u.t.depth) :=
  ⟨⟨lone_lone .., by decide +kernel⟩, lone_t (lone_recorded 4 0x80 0 0 0) rfl rfl rfl ⟨rfl, rfl, rfl, rfl, rfl⟩ ⟨rfl, rfl, rfl, rfl, rfl⟩ ⟨rfl, rfl⟩ rfl,
    header_of (by decide +kernel), by decide +kernel⟩

/-! ## Convoys -/

/-- base with the lanes held by front h, its levels ending at e and f. -/
def heading (h : Option Nat) (e : Nat) (f : Nat := 0) : State :=
  let s := regs base 0 0
  { s with t := { s.t with loops := (s.t.loops.set 0 { lb := 0x1000, le := BitVec.ofNat 64 e, lc := 1 }).set 1 { lb := 0x1000, le := BitVec.ofNat 64 f, lc := 1 } },
           c := { s.c with holder := h } }

/-- LEk names a member of a convoy of four at the pc. -/
def names (s : State) (k : Fin 2) : Prop :=
  s.t.pc.toNat + 4 ≤ s.t.loops[k].le.toNat / 4 * 4 ∧ s.t.loops[k].le.toNat / 4 * 4 ≤ s.t.pc.toNat + 4 + 4 * 3

/-- ConvoyHeaders: a convoy of four opened by a front that holds the lanes and by one that takes them, a level ending just
before its first member and just after its last; LE0 naming the first and the last, armed and not, LE1 alone, and LE1 a lower member than
LE0; lanes that the other front holds. -/
theorem wit_header : (∀ h ∈ [none, some 0], ∀ e ∈ [0x1005, 0x1018], Quiet (heading h e) ∧ (heading h e).c.holder = h ∧
      decodedCount (heading h e) + 3 + 1 ≤ 64 ∧ ¬ (names (heading h e) 0 ∨ names (heading h e) 1)) ∧
    (∀ e ∈ [0x1008, 0x1015], Settled (heading none e) ∧ names (heading none e) 0) ∧
    (Settled (heading none 0 0x1014) ∧ ¬ names (heading none 0 0x1014) 0 ∧ names (heading none 0 0x1014) 1) ∧
    (Settled (heading none 0x1010 0x1008) ∧ names (heading none 0x1010 0x1008) 1 ∧
      (heading none 0x1010 0x1008).t.loops[(1 : Fin 2)].le.toNat / 4 * 4 < (heading none 0x1010 0x1008).t.loops[(0 : Fin 2)].le.toNat / 4 * 4) ∧
    ((heading (some 1) 0).c.holder = some 1 ∧ (heading (some 1) 0).t.front = 0) := by
  have q (h : Option Nat) (e f : Nat) : Settled (heading h e f) :=
    ⟨⟨rfl, rfl, rfl, rfl, by simp [heading, regs, base, State.withTask, State.reset]⟩, rfl⟩
  refine ⟨?_, ?_, ⟨q .., by unfold names; decide +kernel⟩, ⟨q .., by unfold names; decide +kernel⟩, by decide +kernel⟩
  · intro h hh e he
    refine ⟨(q h e 0).1, ?_⟩
    simp only [List.mem_cons, List.not_mem_nil, or_false] at hh he
    rcases hh with rfl | rfl <;> rcases he with rfl | rfl <;> unfold names <;> decide +kernel
  · intro e he
    refine ⟨q .., ?_⟩
    simp only [List.mem_cons, List.not_mem_nil, or_false] at he
    rcases he with rfl | rfl <;> unfold names <;> decide +kernel

/-- ConvoyHeaders, members: a word of each class where it may not stand. -/
theorem wit_members : (∃ r, encodeRaw (.vadd false 1 2 3) = some r ∧ vectorClass r.opc = true) ∧
    (∃ r, encodeRaw (.add 1 2 3) = some r ∧ vectorClass r.opc = false) ∧ Settled (regs base 0 0) ∧ (lone 4 4 0 0).t.conv.isSome = true :=
  ⟨some_some (x := encodeRaw (.vadd false 1 2 3)) (p := fun r => vectorClass r.opc) (by decide +kernel) |>.imp fun _ h => ⟨h.1, by simpa using h.2⟩,
   some_some (x := encodeRaw (.add 1 2 3)) (p := fun r => !vectorClass r.opc) (by decide +kernel) |>.imp fun _ h => ⟨h.1, by simpa using h.2⟩,
   settled 0 0, rfl⟩

/-! ## Engine words, batches, queues and events of the engines -/

/-- s with its registers set as l says. -/
def gs (s : State) (l : List (Nat × Nat)) : State :=
  s.withTask { s.t with g := l.foldl (fun g p => g.set! p.1 (BitVec.ofNat 64 p.2)) s.t.g }

/-- base with the registers of a copy of 4 rows of 8 bytes in g40 to g47, and chain 2 of its launch on its die. -/
def copying : State :=
  let s := gs base [(40, 0x100), (41, 0x1000), (42, 4 + 8 * 2 ^ 16 + 2 ^ 32), (43, 0x20 + 0x20 * 2 ^ 32), (44, 4 + 8 * 2 ^ 16), (46, 7), (31, 2)]
  { s with dies := s.dies.set 0 { s.dies[0] with chains := [{ handle := 2, launch := 1, fn := 1, quarantine := 9, stages := [] }] } }

theorem settled_copying : Settled copying := ⟨⟨rfl, rfl, rfl, rfl, by simp [copying, gs, base, State.withTask, State.reset]⟩, rfl⟩

/-- EngineWords: a copy, a chain of the launch, a dense and a sparse product, and a timed task. -/
theorem wit_engines : Settled copying ∧ (copying.t.timed = false ∧ copying.ahead = false ∧ copying.t.refused = [] ∧ HasRoom copying 7 ∧
      lcpyTrap copying (.lcpy 40 1 false 0 0 7) 40 (copyOf (((List.range 8).map fun k => copying.g (regAfter 40 k)) ++ [copying.g 1]) false 0 0)
        (((List.range 8).map fun k => copying.g (regAfter 40 k)) ++ [copying.g 1]) = none ∧
      ∃ c ∈ copying.dies[dieOf copying.t.core].chains, c.handle = (copying.g 31).toNat % 16 ∧ c.launch = copying.t.launch) ∧
    (Lone (lone 4 4 0 0 0xBB (shape 2 2 24)) ∧ (lone 4 4 0 0 0xBB (shape 2 2 24)).t.mbFault = none ∧
      (lone 4 4 0 0 0xBB (shape 2 2 24)).t.refused = [] ∧ HasRoom (lone 4 4 0 0 0xBB (shape 2 2 24)) 0 ∧
      Accepted (lone 4 4 0 0 0xBB (shape 2 2 24)) (.mmaA 1 0 0 1)) ∧ Accepted (lone 4 4 0 0 0x40BB (shape 2 2 24)) (.mmasA 1 0 0 1) ∧
    Settled (timed (regs base 0 0)) ∧ (timed (regs base 0 0)).c.pipe = [] :=
  ⟨settled_copying, ⟨rfl, rfl, rfl, ⟨by decide +kernel, .inl rfl⟩, by decide +kernel, by decide +kernel⟩,
    ⟨lone_lone .., rfl, rfl, ⟨by decide +kernel, .inl rfl⟩, accepted (by decide +kernel)⟩, accepted (by decide +kernel), settled_timed 0 0, rfl⟩

/-- A command of number 4 in batch 2 of base's task: words i with registers rs. -/
def cmd (i : Instr) (rs : List Nat) : Cmd :=
  { id := 4, instr := i, addr := 0x900, batch := 2, launch := 1, task := 0, frame := 0, fn := 1, front := 0, regs := rs.map (BitVec.ofNat 64),
    modes := { mtype := 0xBB, shape := BitVec.ofNat 48 (shape 2 2 24), ttype := 11 }, count := 0, segs := segs, sealed := true, released := true }

/-- base with one command of its core, the event's arguments naming it, x and y. -/
def holding (d : Cmd) (x : Nat := 0) (y : Nat := 0) : State :=
  { base with input := { n := [0, 4, x, y] }, c := { base.c with cmds := [d], batches := base.c.batches.set 2 { owner := some (1, 0) } } }

/-- EngineWords, batches: with a command pending, and with none. -/
theorem wit_batches : Quiet (holding (cmd (.mmaA 1 2 0 1) [0])) ∧
    (let pend (s : State) := (s.c.cmds.filter fun d => d.batch == 2 && d.launch == s.t.launch && d.task == s.t.task && d.sealed && !d.done).length
     pend (holding (cmd (.mmaA 1 2 0 1) [0])) = 1 ∧ pend (holding { cmd (.mmaA 1 2 0 1) [0] with done := true, flags := 8 }) = 0 ∧ pend base = 0 ∧
     (holding (cmd (.mmaA 1 2 0 1) [0])).c.batches[(2 : Fin 8)].owner = some ((holding (cmd (.mmaA 1 2 0 1) [0])).t.launch, (holding (cmd (.mmaA 1 2 0 1) [0])).t.task)) :=
  ⟨(settled_t (settled 0 0) (show _ = (regs base 0 0).t by decide +kernel)).1, by decide +kernel⟩

/-- base with the queue of segment 5 holding es. -/
def queued (es : List Nat) (o i : Bool) : State :=
  let s := regs base 0x80 0
  { s with dies := s.dies.set 0 { s.dies[0] with queues := [{ n := 6, entries := es, isOut := o, isIn := i }] } }

theorem settled_queued (es : List Nat) (o i : Bool) : Settled (queued es o i) :=
  ⟨⟨rfl, rfl, rfl, rfl, by simp [queued, regs, base, State.withTask, State.reset]⟩, rfl⟩

/-- QueueWords: an empty, a short and a full queue, and queues of chains; a unit that an entry stands in, or that a push would
have to merge with. -/
theorem wit_queues : (let q (s : State) := queueOf s.actor s.t.segs[(5 : SReg)]
     let at_ (s : State) := s.queue (q s).1 (q s).2
     let room (s : State) := s.queueRoom (q s).1 (q s).2
     Settled (queued [] false false) ∧ (queued [] false false).t.segs[(5 : SReg)].desc.disc = .stream ∧
     (queued [] false false).t.segs[(5 : SReg)].desc.writable = true ∧
     ((queued [] false false).setSeg 5 fun g => { g with desc := { g.desc with writable := false } }).t.segs[(5 : SReg)].desc.writable = false ∧
     (at_ (queued [] false false)).entries = [] ∧ room (queued [] false false) = 8192 ∧ (at_ (queued [7] false false)).entries = [7] ∧
     room (queued (List.replicate 8192 3) false false) = 0 ∧ (at_ (queued (List.replicate 8192 3) false false)).isOut = false ∧
     (at_ (queued [] true false)).isOut = true ∧ (at_ (queued [] false true)).isIn = true ∧
     queueMerge (queued [7] false false) (q (queued [7] false false)).1 (q (queued [7] false false)).2 1 = none ∧
     queueBad (queued [7] false false) (q (queued [7] false false)).1 (q (queued [7] false false)).2 1 = none ∧
     (let s := { queued [7] false false with bad := [chip + 6 * 2 ^ 27 + 0x8000 * 6] }
      (queueMerge s (q s).1 (q s).2 1).isSome = true ∧ (queueBad s (q s).1 (q s).2 1).isSome = true)) :=
  ⟨settled_queued .., by decide +kernel⟩

/-- base with a block of one decompress stage at 0x80 of segment 0. -/
def configured : State := putPlace (queued [] false false) (chip + 0x80) 64 (1 + 9 * 2 ^ 8 + (1 + 5 * 2 ^ 24) * 2 ^ 128 + 0x10 * 2 ^ 192)

/-- QueueWords, TXCFG: such a block builds a chain. -/
theorem wit_chains : ∃ (x v h : Nat) (y z w : State) (ps : List (Nat × Nat)), let s := configured
    Settled s ∧ checkRights s s.actor (s.g 1).toNat 64 1 .rd = .ok x ∧ reachAll s s.actor x 64 false = .ok (y, ps) ∧
    engineRead y y.actor sightNow (s.g 1) 64 1 = .ok (z, v) ∧ chainOk z v = true ∧ (z.dies[dieOf z.t.core]).handle = some h ∧
    readHeaders z (blockStages v) = .ok w := by
  obtain ⟨x, hx, h1⟩ := some_ok (x := checkRights configured configured.actor (configured.g 1).toNat 64 1 .rd)
    (p := fun x => (reachAll configured configured.actor x 64 false).toOption.any fun q =>
      (engineRead q.1 q.1.actor sightNow (configured.g 1) 64 1).toOption.any fun (z : State × Nat) => chainOk z.1 z.2 &&
        ((z.1.dies[dieOf z.1.t.core]).handle).any fun (_ : Nat) => (readHeaders z.1 (blockStages z.2)).toOption.any fun _ => true) (by decide +kernel)
  obtain ⟨⟨y, ps⟩, hy, h2⟩ := some_ok h1
  obtain ⟨⟨z, v⟩, hz, h3⟩ := some_ok h2
  simp only [Bool.and_eq_true] at h3
  obtain ⟨h, hh, h4⟩ := some_some h3.2
  obtain ⟨w, hw, -⟩ := some_ok h4
  have e : configured.t = (queued [] false false).t := by decide +kernel
  exact ⟨x, v, h, y, z, w, ps, settled_t (settled_queued ..) e, hx, hy, hz, h3.1, hh, hw⟩

/-- A command of each engine: a copy, a product, a stream, a message and a launch. -/
def cmds : List Cmd :=
  [cmd (.lcpy 40 1 false 0 0 2) [0x100, 0x1000, 4 + 8 * 2 ^ 16 + 2 ^ 32, 0x20 + 0x20 * 2 ^ 32, 4 + 8 * 2 ^ 16, 0, 7, 0, 0], cmd (.mmaA 1 2 0 1) [0],
   cmd (.istream 1 2) [0x40], cmd (.txsub 31 1 2) [2, 0x80], cmd (.launch 1 2) [0x2000]]

/-- A block that moves one element of 8 bytes. -/
def blockWord : Nat := 0x3000 + 1 * 2 ^ 64 + 4 * 2 ^ 96 + 8 * 2 ^ 128 + 0x1000 * 2 ^ 192 + 3 * 2 ^ 256 + 0x5000 * 2 ^ 320

/-- s with that block at 0x40 of segment 0. -/
def blocked (s : State) : State :=
  let s := putPlace s (chip + 0x40) 64 blockWord
  putPlace s (chip + 0x3000) 4 1

/-- copying with a command of its core that the event names. -/
def forking (d : Cmd) : State := blocked { copying with input := (holding d).input, c := (holding d).c }

/-- CommandForks: each engine takes its command. -/
theorem wit_forks : ∀ d ∈ cmds, ∃ (y : State) (ts : List Touch) (go : State → State), let s := forking d
    let f0 : Cmd := { d with forked := true, segs := (issuerOf s d).elim d.segs Task.segs }
    let f : Cmd := { f0 with start := s.cycle }
    s.arg 0 = 0 ∧ s.cmdAt 0 (s.arg 1) = some d ∧ d.done = false ∧ d.begun = false ∧ d.pages = [] ∧ d.forked = false ∧ d.timed = false ∧
    d.released = true ∧ engineFull s 0 d = false ∧ forkThrottled s 0 d = false ∧ prepare (enlist (s.setCmd 0 f0) 0 f0) 0 f = .ok (y, ts, go) ∧
    forkConflict y 0 f (ts.filter fun t => !t.later) = none ∧ laterConflicts y 0 { f.begin ts with finish := f.finishCycle } = [] := by
  intro d hd
  have h : (let s := forking d
      let f0 : Cmd := { d with forked := true, segs := (issuerOf s d).elim d.segs Task.segs }
      let f : Cmd := { f0 with start := s.cycle }
      decide (s.arg 0 = 0 ∧ s.cmdAt 0 (s.arg 1) = some d ∧ d.done = false ∧ d.begun = false ∧ d.pages = [] ∧ d.forked = false ∧ d.timed = false ∧
        d.released = true ∧ engineFull s 0 d = false ∧ forkThrottled s 0 d = false) && (prepare (enlist (s.setCmd 0 f0) 0 f0) 0 f).toOption.any fun q =>
          decide (forkConflict q.1 0 f (q.2.1.filter fun t => !t.later) = none ∧ laterConflicts q.1 0 { f.begin q.2.1 with finish := f.finishCycle } = [])) =
      true := by
    simp only [cmds, List.mem_cons, List.not_mem_nil, or_false] at hd
    rcases hd with rfl | rfl | rfl | rfl | rfl <;> decide +kernel
  simp only [Bool.and_eq_true, decide_eq_true_eq] at h
  obtain ⟨⟨y, ts, go⟩, hp, hf⟩ := some_ok h.2
  obtain ⟨a, b, c, e, g, k, l, m, n, o⟩ := h.1
  simp only [decide_eq_true_eq] at hf
  exact ⟨y, ts, go, a, b, c, e, g, k, l, m, n, o, hp, hf⟩

/-- A stream at its fork, behind a stream that still reads its destination. -/
def conflicting : State :=
  let d := cmd (.istream 1 2) [0x40]
  { forking d with c := { (forking d).c with cmds := [{ d with id := 2, forked := true, begun := true, reads := [(chip + 0x5000, 64)] }, d] } }
def conflictCmd : Cmd :=
  let d := cmd (.istream 1 2) [0x40]
  { d with forked := true, segs := (issuerOf conflicting d).elim d.segs Task.segs }

/-- CommandForks: a command that conflicts with an earlier one. -/
theorem wit_conflict : ∃ (y : State) (ts : List Touch) (go : State → State) (tr : Trap), let s := conflicting
    s.cmdAt 0 (s.arg 1) = some (cmd (.istream 1 2) [0x40]) ∧ engineFull s 0 (cmd (.istream 1 2) [0x40]) = false ∧
    forkThrottled s 0 (cmd (.istream 1 2) [0x40]) = false ∧
    prepare (enlist (s.setCmd 0 conflictCmd) 0 conflictCmd) 0 { conflictCmd with start := s.cycle } = .ok (y, ts, go) ∧
    forkConflict y 0 { conflictCmd with start := s.cycle } (ts.filter fun t => !t.later) = some tr := by
  obtain ⟨⟨y, ts, go⟩, hp, hf⟩ := some_ok (x := prepare (enlist (conflicting.setCmd 0 conflictCmd) 0 conflictCmd) 0
      { conflictCmd with start := conflicting.cycle })
    (p := fun q => (forkConflict q.1 0 { conflictCmd with start := conflicting.cycle } (q.2.1.filter fun t => !t.later)).isSome) (by decide +kernel)
  obtain ⟨tr, ht⟩ := Option.isSome_iff_exists.1 hf
  exact ⟨y, ts, go, tr, by decide +kernel, by decide +kernel, by decide +kernel, hp, ht⟩

/-- CommandForks: a command not released; one that waits for its engine, one that a throttle level withholds, and one whose cycle has
not come. The completion of a batch's command. -/
theorem wit_held : { cmd (.istream 1 2) [0x40] with released := false }.released = false ∧
    Cmd.due { cmd (.istream 1 2) [] with finish := 24 } base = false ∧
    forkThrottled { base with cycle := 7, c := { base.c with throttle := 1 } } 0 (cmd (.istream 1 2) []) = true ∧ engineFull { base with c := { base.c with cmds := [{ cmd (.istream 1 2) [] with id := 3 },
      cmd (.istream 1 2) []] } } 0 (cmd (.istream 1 2) []) = true ∧
    (let s := holding (cmd (.mmaA 1 2 0 1) [0])
     (s.cmdAt 0 4).isSome = true ∧ ((s.coreAt 0).batches[(2 : Fin 8)]).owner = some (1, 0) ∧ ∃ t ∈ s.allTasks, t.launch = 1 ∧ t.task = 0) := by
  decide +kernel

/-- A command begun, in a state whose event names it, with argument x. -/
def started (d : Cmd) : Cmd := { d with forked := true, begun := true }
def begun (d : Cmd) (x : Nat) : State := blocked (holding (started d) x 77)

/-- A copy, a product and a stream. -/
def copyCmd : Cmd := cmd (.lcpy 40 1 false 0 0 2) [0x100, 0x1000, 4 + 8 * 2 ^ 16 + 2 ^ 32, 0x20 + 0x20 * 2 ^ 32, 4 + 8 * 2 ^ 16, 0, 7, 0, 0]
def productCmd : Cmd := cmd (.mmaA 1 2 0 1) [0]
def streamCmd : Cmd := { cmd (.istream 1 2) [0x40] with block := some blockWord }

/-- A run that ends without a fault, in its parts. -/
theorem ends {α : Type} {r : State × Cmd × Option α} (h : r.2.2 = none) : ∃ z e, r = (z, e, none) ∧ e = r.2.1 := by
  obtain ⟨z, e, o⟩ := r
  exact ⟨z, e, by simpa using h, rfl⟩

/-- CommandForks, completions: each is ready, and its run ends without a fault. -/
theorem wit_complete : (∀ d ∈ cmds, CmdReady (begun d 1) 0 (started d)) ∧
    (∃ (c : Copy) (y : State) (e : Cmd), let d := started copyCmd
      d.copy = some c ∧ mailStop (begun d 0) d = .lands ∧
      c.run 0 (if c.dstRows = [] then 0 else c.drows - d.progress) (begun d 0) (d.aim (begun d 0)) = (y, e, none)) ∧
    (arrayBusy (begun productCmd 0) 0 (started productCmd) = false ∧ productTrap (begun productCmd 0) 0 (started productCmd) = none) ∧
    (∃ (v : Nat) (z : State) (e : Cmd), let d := started streamCmd
      d.block = some v ∧ mailStop (begun d 0) d = .lands ∧
      (blockOf v).run 0 ((blockOf v).count - d.progress) (begun d 0) (d.aim (begun d 0)) = (z, e, none) ∧ e.progress = (blockOf v).count) := by
  refine ⟨?_, ?_, by decide +kernel, ?_⟩
  · intro d hd
    simp only [cmds, List.mem_cons, List.not_mem_nil, or_false] at hd
    rcases hd with rfl | rfl | rfl | rfl | rfl <;> (unfold CmdReady; decide +kernel)
  · obtain ⟨c, hc, h⟩ := some_some (x := (started copyCmd).copy) (p := fun c => let d := started copyCmd
      decide (mailStop (begun d 0) d = .lands) &&
        (c.run 0 (if c.dstRows = [] then 0 else c.drows - d.progress) (begun d 0) (d.aim (begun d 0))).2.2.isNone)
      (by decide +kernel)
    simp only [Bool.and_eq_true, decide_eq_true_eq, Option.isNone_iff_eq_none] at h
    exact ⟨c, _, _, hc, h.1, Prod.ext rfl (Prod.ext rfl h.2)⟩
  · have h : (let d := started streamCmd
        let r := (blockOf blockWord).run 0 ((blockOf blockWord).count - d.progress) (begun d 0) (d.aim (begun d 0))
        decide (mailStop (begun d 0) d = .lands) && r.2.2.isNone && decide (r.2.1.progress = (blockOf blockWord).count)) = true := by decide +kernel
    simp only [Bool.and_eq_true, decide_eq_true_eq, Option.isNone_iff_eq_none] at h
    obtain ⟨z, e, hr, he⟩ := ends h.1.2
    exact ⟨blockWord, z, e, rfl, h.1.1, hr, by rw [he]; exact h.2⟩

/-- CommandForks, the mailbox and the stages: a waiting write in its holder's range, values for a queue with room. -/
theorem wit_mail : (let w : Store := { place := chip + 2 ^ 31 + 2 ^ 27 + 4096 * 3 + 8, len := 8, val := 5, hdr := 0 }
     let t : Machine.Task := { live := true, core := 1, front := 1, mbFirst := 3, mbCount := 1, launch := 1, task := 0, fn := 1 }
     let s := { base with cores := [{ num := 1, holder := some 1, mailbox := [[w]] }], tasks := [t], input := { n := [1] } }
     (s.coreAt (s.arg 0)).mailbox = [[w]] ∧ (s.coreAt 1).holder = some 1 ∧ s.taskAt 1 1 = some t ∧
     chip ≤ w.place ∧ mapSpace (w.place - chip) = 1 ∧ mapNum (w.place - chip) = 1 ∧
     t.mbFirst ≤ mapOff (w.place - chip) / 4096 ∧ mapOff (w.place - chip) / 4096 < t.mbFirst + t.mbCount ∧ w.target = none) ∧
    (let st : Stage := { kind := 1, engine := 0, inq := 0, outq := 6, opts := 0, pending := [4, 5, 6] }
     let c : Chain := { handle := 2, launch := 1, fn := 1, quarantine := 9, stages := [st] }
     let s := { base with dies := base.dies.set 0 { base.dies[0] with chains := [c] }, input := { n := [0, 2, 0] } }
     s.chainAt 0 (s.arg 1) = some c ∧ c.stages[s.arg 2]? = some st ∧ st.records = [] ∧ st.pending.length ≤ s.queueRoom 0 st.outq ∧ st.kind ≠ 0) ∧
    ({ base with input := { n := [0, 3] } } : State).chainAt 0 3 = none := by
  decide +kernel

/-! ## Events of a front and of contexts -/

/-- base with page tables, a launch with room for its frames, and a code object; the event names the current front. -/
def paged : State :=
  { base with mem := probeMem base.mem, funcs := [{ n := 1, ptroot := 1 + 2 ^ 16 }, { n := 0, ptroot := 1 + 2 ^ 16 }], objs := [probeObj],
              launches := [{ id := 1, fn := 1, total := 4, record := { savePtr := 0x100000, saveSize := 0x418000, comp := 0x300000, slots := 4, handle := 1 },
                             frames := [(0, 0)] }], input := { n := [0, 0] } }

/-- The events of a front name it. -/
theorem wit_here : Here paged := ⟨rfl, rfl, by decide +kernel, rfl, rfl⟩

/-- FrontEvents, columns: a convoy whose turn runs without a trap; a command at its turn. -/
theorem wit_columns : ∃ (s u v : State) (cv cmd : Convoy), Here (s.withQueue [cv]) ∧ (s.withQueue [cv]).t.queue = [cv] ∧
    runConvoy (s.withQueue []) cv = (u, none) ∧ SameFront s u ∧ cv.cmd = none ∧
    runConvoy (s.withQueue []) cmd = (v, none) ∧ SameFront s v ∧ cmd.cmd.isSome = true := by
  have h : (let s := lone 4 4 0 0
      let cv : Convoy := { hdr := 0xF80, word := 0x7F, entries := [capture (.vadd false 1 2 3) s] }
      let cmd : Convoy := { hdr := 0xF80, word := 0, entries := [], cmd := some 4 }
      let u := runConvoy (s.withQueue []) cv
      let v := runConvoy (s.withQueue []) cmd
      u.2 = none ∧ v.2 = none ∧ (u.1.t.core = 0 ∧ u.1.t.front = 0 ∧ u.1.c.num = 0) ∧ v.1.t.core = 0 ∧ v.1.t.front = 0 ∧ v.1.c.num = 0) := by
    decide +kernel
  exact ⟨lone 4 4 0 0, _, _, _, _, ⟨rfl, rfl, by decide, rfl, rfl⟩, rfl, Prod.ext rfl h.1, h.2.2.1, rfl, Prod.ext rfl h.2.1, h.2.2.2, rfl⟩

/-- FrontEvents, columns: a convoy of a single-stepped task, whose strip closes after it. -/
theorem wit_stepping : ∃ (s u v : State) (cv : Convoy), Here (s.withQueue [cv]) ∧ stepping s.t = true ∧ s.t.conv = none ∧ cv.cmd = none ∧
    runConvoy (s.withQueue []) cv = (u, none) ∧ SameFront s u ∧ closeStrip u = (v, none) ∧ SameFront s v := by
  have h : (let s := (lone 4 4 0 0).withTask { (lone 4 4 0 0).t with conv := none, dbgctl := 1 }
      let u := runConvoy (s.withQueue []) { hdr := 0xF80, word := 0x7F, entries := [capture (.vadd false 1 2 3) (lone 4 4 0 0)] }
      let v := closeStrip u.1
      stepping s.t = true ∧ u.2 = none ∧ v.2 = none ∧ (u.1.t.core = 0 ∧ u.1.t.front = 0 ∧ u.1.c.num = 0) ∧
        v.1.t.core = 0 ∧ v.1.t.front = 0 ∧ v.1.c.num = 0) := by decide +kernel
  exact ⟨_, _, _, _, ⟨rfl, rfl, by decide, rfl, rfl⟩, h.1, rfl, rfl, Prod.ext rfl h.2.1, h.2.2.2.1, Prod.ext rfl h.2.2.1, h.2.2.2.2⟩

/-- The state in which a word decoded ahead leaves its front, and the one after its convoy's turn. -/
def aheadOf (i : Instr) (s : State) : Option State :=
  match exec i { s with ahead := true } with
  | .next v => some v
  | _ => none
def turnOf (v : State) : Run :=
  runConvoy (({ v with ahead := false } : State).withQueue []) (v.t.queue.headD { hdr := 0, word := 0, entries := [] })

/-- FrontEvents, columns: a word decoded ahead, whose convoy then takes its turn. -/
theorem wit_decoded : ∃ (v w : State) (cv : Convoy), let s := lone 4 4 0 0
    let y : State := { v with ahead := false }
    exec (.vadd false 1 2 3) { s with ahead := true } = .next v ∧ v.t.queue = [cv] ∧ runConvoy (y.withQueue []) cv = (w, none) ∧
    SameFront s w ∧ w.t.queue = [] ∧ w.t.dbgctl.getLsbD 0 = false := by
  obtain ⟨v, he, h⟩ := some_some (x := aheadOf (.vadd false 1 2 3) (lone 4 4 0 0)) (p := fun v => decide (v.t.queue.length = 1 ∧ (turnOf v).2 = none ∧
    ((turnOf v).1.t.core = 0 ∧ (turnOf v).1.t.front = 0 ∧ (turnOf v).1.c.num = 0) ∧ (turnOf v).1.t.queue = [] ∧
    (turnOf v).1.t.dbgctl.getLsbD 0 = false)) (by decide +kernel)
  simp only [decide_eq_true_eq] at h
  obtain ⟨cv, hq⟩ := List.length_eq_one_iff.1 h.1
  unfold turnOf at h
  simp only [hq, List.headD_cons] at h
  refine ⟨v, _, cv, ?_, hq, Prod.ext rfl h.2.1, h.2.2⟩
  unfold aheadOf at he
  split at he
  · next h => rw [h, Option.some.inj he]
  · cases he

/-- A command of core 0 whose turn has come, behind a strip of no stores. -/
def turned : State :=
  let s := holding { cmd (.istream 1 2) [0x40] with released := false }
  { s with t := { s.t with strip := some { hdr := 0xF80, req := 4, ty := 4 },
                           queue := [{ hdr := 0x900, word := 0, entries := [], cmd := some 4 }] } }

/-- FrontEvents, columns: a command that closes a strip. -/
theorem wit_closes : Here { turned with input := { n := [0, 0] } } ∧ ∃ (cv : Convoy) (d : Cmd) (p : Strip), turned.t.queue = [cv] ∧
    cv.cmd = some d.id ∧ cv.entries = [] ∧ turned.t.strip = some p ∧ p.stores = [] ∧ p.apps = [] ∧ turned.t.mbFault = none ∧
    turned.t.refused = [] ∧ turned.c.cmds = [d] :=
  ⟨⟨rfl, rfl, by decide +kernel, rfl, rfl⟩, _, _, _, rfl, rfl, rfl, rfl, rfl, rfl, rfl, rfl, rfl⟩

/-- paged with a stack of two records, of 64 and of 131,072 bytes, all in the buffer. -/
def spilling : State :=
  paged.withTask { paged.t with depth := 131136, riser := Memory.write (Memory.write [] 131128 4 131072) 56 4 64 }

/-- FrontEvents, the riser: a stack with a record to spill. -/
theorem wit_spilling : ∃ (v : State) (ps : List (Nat × Nat × Nat)), let ends := recEnds spilling.t 16384 spilling.t.depth []
    Here spilling ∧ spilling.t.spill = 0 ∧ 131072 < spilling.t.depth ∧ 64 ∈ ends ∧ 64 ≤ spilling.stripNow.depth ∧
    spilling.t.depth - 64 ≤ 131072 ∧ (∀ p ∈ ends, p < 64 → 131072 < spilling.t.depth - p) ∧ spilling.bad = [] ∧
    riserPlaces true 0 spilling (linesOf 0 64) = .ok (v, ps) ∧ (∀ q ∈ ps, q.1 + q.2.1 ≤ chip ∧ q.1 % 64 + q.2.1 ≤ 64 ∧ 0 < q.2.1) ∧
    ps.Pairwise (fun p q => p.1 + p.2.1 ≤ q.1 ∨ q.1 + q.2.1 ≤ p.1) := by
  obtain ⟨⟨v, ps⟩, hp, h⟩ := some_ok (x := riserPlaces true 0 spilling (linesOf 0 64)) (p := fun q : State × List (Nat × Nat × Nat) => decide
    ((∀ r ∈ q.2, r.1 + r.2.1 ≤ chip ∧ r.1 % 64 + r.2.1 ≤ 64 ∧ 0 < r.2.1) ∧
      q.2.Pairwise (fun (p q : Nat × Nat × Nat) => p.1 + p.2.1 ≤ q.1 ∨ q.1 + q.2.1 ≤ p.1))) (by decide +kernel)
  simp only [decide_eq_true_eq] at h
  exact ⟨v, ps, ⟨rfl, rfl, by decide +kernel, rfl, rfl⟩, rfl, by decide +kernel, by decide +kernel, by decide +kernel, by decide +kernel,
    by decide +kernel, rfl, hp, h.1, h.2⟩

/-- FrontEvents, the riser: bytes to spill from, and bytes to fill again; each moves without a page fault. -/
theorem wit_riser : (∃ u, spillOver paged = .ok u ∧ SameFront paged u) ∧
    ∃ u, let s := paged.withTask { paged.t with depth := 0x7400, spill := 0x7000 }
      s.t.timed = false ∧ s.t.depth - s.t.spill < 32768 ∧ s.t.spill ≠ 0 ∧ fillUp 16384 s = .ok u ∧ SameFront s u :=
  ⟨ok_dec (x := spillOver paged) (P := fun u => u.t.core = 0 ∧ u.t.front = 0 ∧ u.c.num = 0) (by decide +kernel),
   (ok_dec (x := fillUp 16384 (paged.withTask { paged.t with depth := 0x7400, spill := 0x7000 }))
    (P := fun u => u.t.core = 0 ∧ u.t.front = 0 ∧ u.c.num = 0) (by decide +kernel)).imp fun _ h =>
      ⟨rfl, by decide +kernel, by decide +kernel, h.1, h.2⟩⟩

/-- FrontEvents, stops: a step stop due; the end of a launch by a trap, the frame written; a wait whose condition holds. -/
theorem wit_stops : (let s := paged.withTask { paged.t with wait := some .trapEntry, dbgctl := 1 }
      s.t.conv = none ∧ s.t.queue = [] ∧ s.t.strip = none ∧ s.t.timed = false ∧ s.t.inHandler = false ∧
      s.t.dbgctl.getLsbD 0 = true) ∧
    (let s := paged.withTask { paged.t with wait := some .launchEndByTrap, tcause := 7 }
     s.c.holder ≠ some s.t.front ∧ riserBusy s s.t = false ∧ (s.launch s.t.launch).any (fun l => !l.stopped) = true ∧
     (saveContext s s.t.frozen [] true false).t.wait ≠ some .contextSave) ∧
    (let s := paged.withTask { paged.t with wait := some (.waitev 1) }
     Quiet s ∧ s.t.timed = false ∧ (s.g 1).toNat % 2 ^ 32 ≤ s.t.mbcnt.toNat) :=
  ⟨by decide +kernel, by decide +kernel, ⟨rfl, rfl, rfl, rfl, by simp [paged, base, State.withTask, State.reset]⟩, by decide +kernel⟩

/-- A context of paged's task, saved with two pages missing, or still frozen. -/
def saved (frozen : Bool) : Saved :=
  { ctx := paged.t.ctx, task := { paged.t with frame := 0 }, lanes := none, outstanding := if frozen then 1 else 2, pages := [0x70000, 0x80000],
    refused := [], frozen := frozen }

/-- paged with its front being saved, one page missing, and its task as it is written. -/
def saving : State := { paged.withTask { paged.t with wait := some .contextSave } with input := { n := [0, 0, 0, 0x70000] } }
def savedTask : Machine.Task := { saving.t with queue := [], strip := none, conv := none }
def writing : Except Nat State :=
  writePieces (saving.withTask savedTask) saving.t.fn (frameOf saving saving.t) (framePieces (saving.withTask savedTask) none saving.t.frozen 1 false)

/-- paged with a convoy header at its front's pc. -/
def atWord : State :=
  { paged.withTask { paged.t with pc := 0x1000 } with mem := Memory.write paged.mem 0x20001000 4 0x7F }

/-- ContextEvents: a fetch that needs a page; a front at a word of its own, at a header, in its handler, and with convoys frozen, its
wait begun and run out; a save that is written, and one that meets a bad unit of the riser buffer; one that is tried again; one that
is ready. -/
theorem wit_context : (Settled paged ∧ Here paged ∧ paged.t.wait = none ∧ paged.t.timed = false ∧ paged.t.inHandler = false ∧
      unforked paged.c paged.t.launch paged.t.task = 0 ∧ (recallHeld paged).2 = [] ∧ atHeader paged = false ∧ paged.mgmt.dusk = false ∧
      newerStrip paged.t.queue = false ∧ paged.t.strip = none ∧ paged.cycle < paged.t.issued + 4096 ∧
      ({ paged with cycle := 4096 } : State).t.issued + 4096 ≤ 4096) ∧
    (∃ w v, fetch atWord 0x1000 = .ok (w, v) ∧ w % 128 = 0x7F ∧ Here atWord ∧ atWord.t.pc = 0x1000) ∧
    (saveBad (saving.withTask savedTask) none = none ∧
      (let t : Machine.Task := { savedTask with depth := 64 }
       saveBad { saving.withTask t with bad := [chipPlace t.core 5 0] } none).isSome = true) ∧
    (∃ tr, let s := { paged.withTask { paged.t with pc := 0x40001004 } with objs := [{ probeObj with codeBase := 0x40001000 }] }
      fetch s s.t.pc = .error tr ∧ tr.pages s.t = true) ∧
    (∃ y, Here saving ∧ saveFrozen saving = false ∧ saving.c.holder ≠ some saving.t.front ∧ riserBusy saving saving.t = false ∧ writing = .ok y) ∧
    (let v := saved true
     let s := { paged.withTask { paged.t with wait := some .contextSave } with saved := [v], input := { n := [v.ctx] } }
     (s.saved.find? fun v => v.frozen && v.ctx == s.arg 0) = some v ∧ s.t.ctx = v.ctx ∧ v.ended = false ∧
     (saveContext (s.withTask v.task) v.task.frozen v.pages false v.timed).t.wait ≠ some .contextSave) ∧
    (let v := { saved false with outstanding := 0 }
     let s := { paged.withTask { paged.t with live := false } with saved := [v], input := { n := [v.ctx] } }
     (s.saved.find? fun v => v.ready && v.ctx == s.arg 0) = some v ∧ s.t.live = false ∧ s.domains = [] ∧ s.t.front = 0 ∧ v.lanes = none ∧
       frameBad s v = none) := by
  refine ⟨⟨⟨⟨rfl, rfl, rfl, rfl, by simp [paged, base, State.reset]⟩, rfl⟩, wit_here, rfl, rfl, rfl, by decide +kernel⟩, ?_, by decide +kernel, ?_, ?_,
    by decide +kernel, by decide +kernel⟩
  · obtain ⟨⟨w, v⟩, h, hw⟩ := some_ok (x := fetch atWord 0x1000) (p := fun q => decide (q.1 % 128 = 0x7F)) (by decide +kernel)
    exact ⟨w, v, h, by simpa using hw, ⟨rfl, rfl, by decide +kernel, rfl, rfl⟩, rfl⟩
  · exact some_error (x := fetch { paged.withTask { paged.t with pc := 0x40001004 } with objs := [{ probeObj with codeBase := 0x40001000 }] } 0x40001004)
      (p := fun tr => tr.pages (paged.withTask { paged.t with pc := 0x40001004 }).t) (by decide +kernel)
  · obtain ⟨y, h, -⟩ := some_ok (x := writing) (p := fun _ => true) (by decide +kernel)
    exact ⟨y, ⟨rfl, rfl, by decide +kernel, rfl, rfl⟩, by decide +kernel, by decide +kernel, by decide +kernel, h⟩

/-- paged with a reply in the host's ring. -/
def replying (x : Nat) : State :=
  { paged.withTask { paged.t with live := false } with
      mem := Memory.write paged.mem (0x20000000 + 0x400000 + 16 * 3) 16 x, saved := [saved false],
      mgmt := { paged.mgmt with frplBase := 0x400000 + 4, frplHead := 3, frplTail := 4, freqHead := 1 } }

/-- ContextEvents, replies: a page given, one refused, and no reply. -/
theorem wit_replies : ∀ r ∈ [0, 1], let x := paged.t.ctx + (0x70000 + r) * 2 ^ 64
    let s := replying x
    (s.mgmt.frplTail + 2 ^ 32 - s.mgmt.frplHead) % 2 ^ 32 ≠ 0 ∧ (∀ c ∈ s.allCores, c.cmds = []) ∧ (∀ t ∈ s.allTasks, t.riserPages = []) ∧
    s.saved = [saved false] ∧ (saved false).task.riserPages = [] ∧
    devRead s 0 (s.mgmt.frplBase / 64 * 64 % 2 ^ 55 + 16 * (s.mgmt.frplHead % 2 ^ (s.mgmt.frplBase % 16))) 16 = some x ∧
    (saved false).ctx = x % 2 ^ 64 ∧ (saved false).outstanding = 1 + 1 ∧ s.requests = [] ∧ x.testBit 64 = decide (r = 1) ∧
    (base.mgmt.frplTail + 2 ^ 32 - base.mgmt.frplHead) % 2 ^ 32 = 0 := by decide +kernel

/-! ## Events of the scheduler, the host, the loader and the package -/

/-- paged with the event's arguments. -/
def evented (l : List Nat) : State := { paged with input := { n := l } }

/-- A launch record of two tasks, of regime r and priority p. -/
def recBytes (p r : Nat) : List Byte :=
  bytesOf 1024 (1 + r * 2 ^ 32 + 2 ^ 48 + p * 2 ^ 56 + 2 ^ 64 + 0x100000 * 2 ^ 256 + 0x418000 * 2 ^ 320 + 128 * 2 ^ 384 + 0x300000 * 2 ^ (8 * 0x48) +
    2 * 2 ^ (8 * 0x80) + 2 ^ (8 * 0x84))

/-- LaunchEvents, selection: a record that is accepted, and one that is refused. -/
theorem wit_selection : (let c : Candidate := { queue := 3, fn := 1, bytes := recBytes 0 0 }
      let s := { paged with candidates := [c] }
      s.candidates = [c] ∧ failedWait s c = none ∧ isReady s c = true ∧ s.mgmt.dusk = false ∧ refusal s c.fn c.bytes = none ∧
      canAccept s (recOf c.bytes) = true ∧ (recOf c.bytes).regime = 0) ∧
    (let c : Candidate := { queue := 3, fn := 1, bytes := recBytes 9 0 }
     failedWait paged c = none ∧ isReady paged c = true ∧ (refusal paged c.fn c.bytes).isSome = true) := by decide +kernel

/-- LaunchEvents: a ready task and an idle front; a start with and without a context's own time; a launch with tasks
left, and one whose last has ended. -/
theorem wit_placing : (let r : Ready := { launch := 1, task := 2, since := 5 }
      let s := { paged.withTask {} with readyTasks := [r] }
      nextPlacement s = some (.fresh r, s.t.core) ∧ (s.launch r.launch).any (fun l => freeFrame l == some 1) = true ∧ s.t.live = false ∧ s.t.front = 0 ∧
      s.domains = []) ∧
    (let s := paged.withTask { paged.t with wait := some .taskStart, segs := Vector.replicate 16 {} }
     s.t.ready = true ∧ s.t.timed = false ∧ (s.withTask { s.t with ready := false }).t.ready = false ∧
     (∀ k : Fin 16, s.t.segs[k].desc.disc ≠ .owned ∧ s.t.segs[k].desc.disc ≠ .sliced)) ∧
    (let l (k : Nat) : Launch := { id := 1, fn := 1, total := 4, record := { comp := 0x300000, slots := 4 }, ended := k, parent := some (0, 4) }
     launchOver { (evented [1]).withTask {} with launches := [l 1] } (l 1) = false ∧
     launchOver { (evented [1]).withTask {} with launches := [l 4] } (l 4) = true) := by decide +kernel

/-- DomainEvents: a first and a second failure of a launch of one timed task; its resumption; a claim granted and one
not; an estimate that just fits. -/
theorem wit_domains : (let d (s : State) : Domain := { launch := 1, cores := [0], tasks := [s.t], coreCopies := [s.c], restart := 9000 }
      let s := (evented [1, 7]).withTask { paged.t with timed := true, domain := 4, wait := some .timedRollback }
      let s := { s with domains := [d s] }
      (s.domains.find? fun e => e.launch == s.arg 0) = some (d s) ∧ (s.launch (s.arg 0)).any (fun l => !l.stopped && !l.rolled) = true ∧
      (d s).tasks = [s.t] ∧ s.tasks = [] ∧ s.t.live = true ∧ s.t.launch = s.arg 0 ∧ s.t.core = 0 ∧ s.t.wait ≠ some .launchEndByTrap ∧
      s.mgmt.dusk = false) ∧
    (evented [9]).launch 9 = none ∧ ({ base with startStep := 1536, claims := [{ launch := 1, core := 3 }] } : State).launches = [] ∧
    1536 < ({ base with startStep := 1537 } : State).startStep ∧
    (let s := evented [1536]
     let y := weighCores { s with partials := s.partials + 1, otherNow := s.input.n.headD s.otherNow } (s.slot * 4096 + 256 * (s.partials + 1))
     ((freeCores y).map fun n => (y.coreAt n).activity).sum * 16 / y.partials + y.otherNow + reservedRise y y.slot =
       freeEstimate y + y.otherLast + 1536) :=
  ⟨⟨rfl, by decide +kernel, rfl, rfl, rfl, rfl, rfl, by decide +kernel, rfl⟩, rfl, rfl, by decide +kernel, by decide +kernel⟩

/-- paged with host queue 3 and an administration ring of function 1, one entry in each. -/
def ringed (l : List Nat) : State :=
  { evented l with
    funcs := [{ n := 1, ptroot := 1 + 2 ^ 16, queues := [{ q := 3, base := 0x400000 + 4, head := 0, tail := 0 }], admBase := 0x500000 + 3 }],
    mem := Memory.write (Memory.write paged.mem 0x20400000 8 0x600000) 0x20600000 8 7, trust := { paged.trust with verified := true } }

/-- HostEvents: doorbells with an entry and with none; a cycle that a front has still to see; invalidations of some pages and of all; a root register; a time of
640 ns. -/
theorem wit_host : (let s := ringed [1, 3, 1]
      let x := (s.func 1).queue 3
      s.trust.verified = true ∧ s.mgmt.dusk = false ∧ s.arg 2 % 2 ^ 32 = (x.head + 1) % 2 ^ 32 ∧ x.head < 2 ^ 32 ∧
      ringEntry s 1 x.base x.head 8 = some 0x600000 ∧ (devRead s 1 0x600000 1024).isSome = true ∧ (s.func 1).admHead < 2 ^ 16 ∧
      (ringEntry s 1 (s.func 1).admBase (s.func 1).admHead 32).isSome = true) ∧
    ((ringed [1, 3, 0]).arg 2 % 2 ^ 32 = (((ringed [1, 3, 0]).func 1).queue 3).head ∧ (ringed [1, 1]).arg 1 % 2 ^ 16 = 1) ∧
    (let s := { base.withTask { base.t with cycle := 5 } with cycle := 10 }
     leastCycle s ≤ 5 ∧ (5 : Nat) < s.cycle ∧ (s.timeBase, s.timeCycle, s.slew).2.1 ≤ 5) ∧
    (base.domains = [] ∧ ∀ t ∈ base.t :: base.tasks, t.deferred = [] ∧ t.engineLate = [] ∧ t.strip = none) ∧
    ((evented [1, 0, 5]).arg 1 = 0 ∧ (evented [1, 0x10, 5]).arg 1 = 0x10 ∧ (evented [1, 7, 0]).arg 2 = 0 ∧ (evented [0, 640, 1000100]).arg 2 ≠ 0 ∧
      (evented [1]).trust.verified = true ∧ ({ evented [0, 0x8000] with trust := { verified := false } } : State).trust.verified = false ∧
      ¬((evented [0, 0x8000]).arg 0 = 0 ∧ 0x8400 ≤ (evented [0, 0x8000]).arg 1)) := by decide +kernel

/-- s reaches paged's page tables of function 0. -/
structure Tabled (s : State) : Prop where
  root : (s.func 0).ptroot = 0x10001
  home : s.package = 0
  top : Memory.read s.mem 0x10000 8 = 0x20001
  next : Memory.read s.mem 0x20000 8 = 0x2000000F
  sound : s.bad = []

/-- A walk of those tables, whatever else memory holds. -/
theorem walked {s : State} (h : Tabled s) : ∀ va ∈ [0x700000, 0x700040, 0x700080, 0x7000C0],
    vaToPa s 0 va = some (0x20000000 + va, true, true) := by
  intro va hv
  simp only [List.mem_cons, List.not_mem_nil, or_false] at hv
  rcases hv with rfl | rfl | rfl | rfl <;>
    simp [vaToPa, walk, h.root, h.home, h.top, h.next, frameOk, TlbEntry.pa, wrap, Nat.testBit]

/-- A line of the buffer written leaves the tables. -/
theorem tabled_put {s : State} (h : Tabled s) {a : Nat} (m : a ∈ [0x700000, 0x700040, 0x700080, 0x7000C0]) (x : Nat) :
    Tabled (putPlace s (0x20000000 + a) 64 x) := by
  have l : linesOf (0x20000000 + a) 64 = [(0x20000000 + a, 64)] := by
    simp only [List.mem_cons, List.not_mem_nil, or_false] at m
    rcases m with rfl | rfl | rfl | rfl <;> decide +kernel
  have c : 0x20000000 + a < chip := by
    simp only [List.mem_cons, List.not_mem_nil, or_false] at m
    rcases m with rfl | rfl | rfl | rfl <;> decide +kernel
  have e : putPlace s (0x20000000 + a) 64 x = { s with mem := Memory.write s.mem (0x20000000 + a) 64 x } := by
    simp only [putPlace, l, List.foldl_cons, List.foldl_nil, putIn, c, ↓reduceIte, Nat.sub_self, Nat.mul_zero, Nat.pow_zero, Nat.div_one, h.sound]
  rw [e]
  exact ⟨h.root, h.home, (Memory.read_write_other _ _ _ _ _ _ (.inl (by omega))).trans h.top,
    (Memory.read_write_other _ _ _ _ _ _ (.inl (by omega))).trans h.next, h.sound⟩

/-- HostEvents, attestation: the buffer takes any report, for its lines are apart from the tables. -/
theorem wit_report {s : State} (h : Tabled s) (v : Nat) : ∃ y, devWrite s 0 0x700000 256 v = .ok y := by
  have l : linesOf 0x700000 256 = [0x700000, 0x700040, 0x700080, 0x7000C0].map fun a => (a, 64) := by decide +kernel
  unfold devWrite
  rw [l]
  have : ∀ as : List Nat, (∀ a ∈ as, a ∈ [0x700000, 0x700040, 0x700080, 0x7000C0]) → ∀ s : State, Tabled s → ∃ y,
      (as.map fun a => (a, 64)).foldl (fun (acc : Except Nat State) q => match acc with
        | .error e => .error e
        | .ok s => match vaToPa s 0 q.1 with
          | some (pa, true, _) =>
            if mergesBad s pa q.2 ≠ none ∨ routed s pa = false then .error (q.1 - 0x700000) else .ok (putPlace s pa q.2 (v / 2 ^ (8 * (q.1 - 0x700000))))
          | _ => .error (q.1 - 0x700000)) (.ok s) = .ok y := by
    intro as
    induction as with
    | nil => exact fun _ s _ => ⟨s, rfl⟩
    | cons a as ih =>
      intro ha s h
      have m := ha a (by simp)
      have r : mergesBad s (0x20000000 + a) 64 = none ∧ routed s (0x20000000 + a) = true := by
        simp only [List.mem_cons, List.not_mem_nil, or_false] at m
        rcases m with rfl | rfl | rfl | rfl <;> simp [mergesBad, routed, h.sound, h.home]
      simp only [List.map_cons, List.foldl_cons, walked h a m, r, ne_eq, not_true_eq_false, reduceCtorEq, or_self, ↓reduceIte]
      exact ih (fun b hb => ha b (by simp [hb])) _ (tabled_put h m _)
  exact this _ (by simp) s h

/-- HostEvents, attestation: such a state with a request under way and a key. -/
theorem wit_attest : let s := { paged with mgmt := { paged.mgmt with attGo := true, attBuf := 0x700000 }, trust := { paged.trust with keyReadable := true } }
    Tabled s ∧ s.mgmt.attGo = true ∧ s.trust.keyReadable = true ∧ s.mgmt.attBuf = 0x700000 :=
  ⟨⟨rfl, rfl, by decide +kernel, by decide +kernel, rfl⟩, rfl, rfl, rfl⟩

/-- An object of one code section of two words, and a file of zeros. -/
def objBytes : List Byte :=
  bytesOf 64 (0x4F535455 + 2 ^ 32 + 2 ^ 48 + 64 * 2 ^ 128) ++ bytesOf 32 (1 + 96 * 2 ^ 64 + 8 * 2 ^ 128) ++ bytesOf 8 0x5000002250000022

/-- ObjectEvents: an object that loads and one that does not; one in use and one that is not; Dusk with nothing left. -/
theorem wit_objects : (∃ (p : Parsed) (m : Image) (v w : State), let s := { paged with input := { n := [1, 0x2000, 0x3000], bytes := objBytes } }
      headerStatus objBytes = none ∧ parse objBytes = some p ∧ contentStatus s 1 objBytes p = none ∧ s.arg 1 % p.codeAlign = 0 ∧
      s.arg 2 % p.constAlign = 0 ∧
      (let img := imageOf s objBytes p.code
       let at_ (o : Nat) : Nat := if older objBytes then Config.ezbiacMap p.code o else o
       p.relocs.foldlM (relocate p s 1 0x2000 at_) { code := leNat img.1, consts := leNat p.consts, refs := [] } = .ok m ∧
       loaderPut img.2 1 0x2000 (bytesOf img.1.length m.code) = some v ∧ loaderPut v 1 0x3000 (bytesOf p.consts.length m.consts) = some w)) ∧
    (headerStatus (bytesOf 64 0)).isSome = true ∧
    (linesOf 0x2000 8 = [(0x2000, 8)] ∧ (vaToPa paged 1 0x2000).isSome = true) ∧
    (let c : Candidate := { queue := 3, fn := 1, bytes := recBytes 0 0 }
     c.fn = probeObj.fn ∧ (recOf c.bytes).handle = 1) ∧
    (∀ b ∈ [true, false], ({ paged.mgmt with dusk := b }).dusk = b ∧ ({ paged.trust with verified := b }).verified = b) ∧ paged.mgmt.dusk = false ∧
    paged.trust.verified = true ∧ (paged.tasks = [] ∧ newerStrip paged.t.queue = false ∧ paged.t.wait ≠ some .launchEndByTrap) ∧
    (∀ s ∈ [paged.withTask {}, paged], ∃ l, s.launches = [l] ∧ l.stopped = false ∧ l.final = false ∧ refersTo s l.id 1 = true ∧ s.saved = [] ∧
      s.candidates = [] ∧ s.t.conv = none ∧ s.t.strip = none ∧ (s.t.live = true → s.t.launch = l.id) ∧ (s.t.live = false → s.allTasks = [])) ∧
    (paged.objs.find? fun o => o.handle == 9) = none ∧
    (paged.objs.find? fun o => o.handle == 1) = some probeObj ∧ inUse paged probeObj = true ∧
    inUse { paged.withTask {} with launches := [] } probeObj = false ∧
    (let s := { paged.withTask {} with mgmt := { paged.mgmt with dusk := true }, objs := [] }
     s.mgmt.duskDone = false ∧ s.allTasks = [] ∧ s.objs = [] ∧ ∀ c ∈ s.allCores, ∀ d ∈ c.cmds, d.done = true) ∧ paged.objs ≠ [] := by
  refine ⟨?_, by decide +kernel, by decide +kernel, by decide +kernel, by decide +kernel, rfl, rfl, by decide +kernel, ?_, by decide +kernel⟩
  · obtain ⟨p, hp, h⟩ := some_some (x := parse objBytes) (p := fun p => let s := { paged with input := { n := [1, 0x2000, 0x3000], bytes := objBytes } }
      let img := imageOf s objBytes p.code
      let at_ (o : Nat) : Nat := if older objBytes then Config.ezbiacMap p.code o else o
      decide (headerStatus objBytes = none ∧ contentStatus s 1 objBytes p = none ∧ s.arg 1 % p.codeAlign = 0 ∧ s.arg 2 % p.constAlign = 0) &&
        (p.relocs.foldlM (relocate p s 1 0x2000 at_) { code := leNat img.1, consts := leNat p.consts, refs := [] }).toOption.any fun m =>
          (loaderPut img.2 1 0x2000 (bytesOf img.1.length m.code)).any fun v => (loaderPut v 1 0x3000 (bytesOf p.consts.length m.consts)).isSome)
      (by decide +kernel)
    simp only [Bool.and_eq_true, decide_eq_true_eq] at h
    obtain ⟨m, hm, h'⟩ := some_ok h.2
    obtain ⟨v, hv, hs⟩ := some_some h'
    obtain ⟨w, hw⟩ := Option.isSome_iff_exists.1 hs
    exact ⟨p, m, v, w, h.1.1, hp, h.1.2.1, h.1.2.2.1, h.1.2.2.2, hm, hv, hw⟩
  · intro s hs
    refine ⟨(paged.launches.head (by decide +kernel)), ?_⟩
    simp only [List.mem_cons, List.not_mem_nil, or_false] at hs
    rcases hs with rfl | rfl <;> decide +kernel

/-- evented with port 3 holding a flit for package 2's first bytes, the package that it leads to. -/
def linked (l : List Nat) (up : Bool) : State :=
  let s := evented l
  { s with ports := s.ports.set 3 { s.ports[(3 : Fin 16)] with up := up, peer := 2, replay := [(2 * 2 ^ 40 + 64, 8, 5)] }, unrouted := [(2, 100)],
           cycle := 17000100 }

/-- PackageEvents, links: a port that fails with a route in its place, and one that cuts its peer off; a flit, a port that is down;
routes told and taken away; a package without a route for 10 ms and for less. -/
theorem wit_links : (let s := linked [3, 2, 2] true
      let x := s.ports[(3 : Fin 16)]
      x.up = true ∧ s.input.n.drop 1 = [x.peer, 2] ∧ x.replay = [(2 * 2 ^ 40 + 64, 8, 5)] ∧ 2 * 2 ^ 40 + 64 + 8 ≤ chip) ∧
    (let s := linked [3] true
     let x := s.ports[(3 : Fin 16)]
     s.input.n.drop 1 = [] ∧ (∀ q : Fin 16, q ≠ 3 → s.ports[q].peer = x.peer → s.ports[q].up = false) ∧ ∀ h ∈ s.hops, h.1 = x.peer → h.2 = 1) ∧
    ((linked [3, 1, 4096] true).arg 1 ≠ 0 ∧ (linked [3, 1, 4096] true).arg 2 + 256 ≤ chip ∧ (linked [3] false).ports[(3 : Fin 16)].up = false) ∧
    ((linked [3, 2, 5, 1] true).input.n.drop 2 = [5, 1] ∧ (linked [3, 2, 5, 0] true).input.n.drop 2 = [5, 0] ∧ (linked [3, 2] true).input.n.drop 2 = []) ∧
    ((((linked [2] true).arg 0, 100) ∈ (linked [2] true).unrouted ∧ 100 + 17000000 ≤ (linked [2] true).cycle) ∧
     ∀ c, ((linked [3] true).arg 0, c) ∈ (linked [3] true).unrouted → (linked [3] true).cycle < c + 17000000) :=
  ⟨by decide +kernel, by decide +kernel, by decide +kernel, by decide +kernel, by decide +kernel, by simp [linked, evented, State.arg]⟩

/-- PackageEvents: a port that is up, at its last retry and before it; another package; an error corrected and one not. -/
theorem wit_package : (let s := evented [3, 0]
      let x := s.ports[(3 : Fin 16)]
      x.up = true ∧ x.tries < 8 ∧ s.arg 1 = 0 ∧ 8 ≤ ({ x with tries := 8 } : Port).tries) ∧ (evented [3, 0]).arg 0 ≠ (evented [3, 0]).package ∧
    (evented [3, 64, 0]).arg 2 = 0 ∧ (evented [3, 64, 1]).arg 2 ≠ 0 := by decide +kernel

/-! ## The step and the encoding -/

/-- paged with the word w after a header at the pc. -/
def fetching (w : Nat) : State := { paged with mem := Memory.write paged.mem 0x20001000 8 (0x7F + w * 2 ^ 32) }

/-- StepRuns: a word that decodes, one of a reserved code, one with a bit that must be zero; a tick; a partial estimate; a
step that is due. -/
theorem wit_step : (let s := { base with cycle := 256 }
      s.cycle / 4096 ≤ s.slot ∧ s.partials < 15 ∧ s.slot * 4096 + 256 * (s.partials + 1) = s.cycle ∧ partialDue base = false) ∧
    (∀ w ∈ [3 * 2 ^ 21 + 2 * 2 ^ 14 + 2 ^ 7 + 1, 0xF0000001, 0x00004022], ∃ u, let s := fetching w
      s.power = true ∧ s.plan = [] ∧ s.agenda = [] ∧ s.cycle / 4096 ≤ s.slot ∧ partialDue s = false ∧ s.ahead = false ∧ s.t.live = true ∧ s.t.wait = none ∧
      s.t.timed = false ∧ s.t.dbgctl = 0 ∧ (∀ t ∈ s.tasks, t.live = true → s.t.cycle ≤ t.cycle) ∧ fetch s s.t.pc = .ok (w, u) ∧ Settled s) ∧
    decode (3 * 2 ^ 21 + 2 * 2 ^ 14 + 2 ^ 7 + 1) = .ok (.add 1 2 3) ∧ decode 0xF0000001 = .error (.reserved 1) ∧
    decode 0x00004022 = .error (.nonzero 14) ∧ ({ base with cycle := 4096 } : State).slot < 4096 / 4096 ∧ base.turn = false := by
  refine ⟨by decide +kernel, ?_, by decide +kernel⟩
  intro w hw
  have h : ((fetch (fetching w) (fetching w).t.pc).toOption.any fun q => decide (q.1 = w ∧ (fetching w).power = true ∧ (fetching w).plan = [] ∧
      (fetching w).agenda = [] ∧ (fetching w).cycle / 4096 ≤ (fetching w).slot ∧ partialDue (fetching w) = false ∧ (fetching w).ahead = false ∧ (fetching w).t.live = true ∧
      (fetching w).t.wait = none ∧ (fetching w).t.timed = false ∧ (fetching w).t.dbgctl = 0 ∧
      ∀ t ∈ (fetching w).tasks, t.live = true → (fetching w).t.cycle ≤ t.cycle)) = true := by
    simp only [List.mem_cons, List.not_mem_nil, or_false] at hw
    rcases hw with rfl | rfl | rfl <;> decide +kernel
  obtain ⟨⟨v, u⟩, hf, h1⟩ := some_ok h
  simp only [decide_eq_true_eq] at h1
  obtain ⟨rfl, h2, h3, h4, h5, h6, h7, h8, h9, h10, h11, h12⟩ := h1
  exact ⟨u, h2, h3, h4, h5, h6, h7, h8, h9, h10, h11, h12, hf, settled_t (settled 0 0) (show _ = (regs base 0 0).t by
    simp only [List.mem_cons, List.not_mem_nil, or_false] at hw; rcases hw with rfl | rfl | rfl <;> decide +kernel)⟩

/-- EncodeDecode and DecodeEncode: a well-formed instruction that has a word, and a word that decodes. -/
theorem wit_encoding : (Instr.lcpy 1 2 true 7 1 3).wf = true ∧ encode (.lcpy 1 2 true 7 1 3) = some 0xB96080E2 ∧
    (0xB96080E2 : Nat) < 2 ^ 32 ∧ decode 0xB96080E2 = .ok (.lcpy 1 2 true 7 1 3) := by decide +kernel

/-- AlwaysGoes and MemoryForm: a package without power, with Dawn planned and with nothing; a step from a state whose
memory has its form. -/
theorem wit_goes : (({ base with power := false, plan := [.event .dawn {}] } : State).power = false) ∧ ({ base with plan := [] } : State).power = true ∧
    ∃ t, Memory.wf (fetching 0x00E08081).mem = true ∧ step (fetching 0x00E08081) = .next t := by
  refine ⟨rfl, rfl, ?_⟩
  have h : (match step (fetching 0x00E08081) with | .next _ => true | _ => false) = true := by decide +kernel
  cases hs : step (fetching 0x00E08081) with
  | next t => exact ⟨t, by decide +kernel, rfl⟩
  | fault f => simp [hs] at h
  | refused r => simp [hs] at h

/-! ## Decoding: a word of each encoded instruction, written out from its row of the table of operations, its fields at
values of their own, by the low seven bits -/

/-- Each word decodes to the instruction beside it, which is well formed and encodes to the word again. -/
def decodes (l : List (Nat × Instr)) : Bool := l.all fun p => (decode p.1).toOption == some p.2 && p.2.wf && encode p.2 == some p.1

theorem test_decode_add : decodes
    [(0x035B6001, .add 64 109 26), (0x143D2381, .sub 71 116 33), (0x251EE701, .and 78 123 40), (0x35E0AA81, .or 85 2 47),
     (0x46C26E01, .xor 92 9 54), (0x57A43181, .sll 99 16 61), (0x6885F501, .srl 106 23 68), (0x7967B881, .sra 113 30 75),
     (0x8A497C01, .min 120 37 82), (0x9B2B3F81, .max 127 44 89), (0xAC0CC301, .mins 6 51 96), (0xBCEE8681, .maxs 13 58 103),
     (0xCDD04A01, .slt 20 65 110), (0xDEB20D81, .slts 27 72 117), (0xEF93D101, .sel 34 79 124)] = true := by decide +kernel

theorem test_decode_mul : decodes
    [(0x00759482, .mul 41 86 3), (0x11575802, .mulh 48 93 10), (0x22391B82, .mulhs 55 100 17), (0x331ADF02, .div 62 107 24),
     (0x43FCA282, .divs 69 114 31), (0x54DE6602, .rem 76 121 38), (0x65A02982, .rems 83 0 45)] = true := by decide +kernel

theorem test_decode_clz : decodes
    [(0x0001ED03, .clz 90 7), (0x10185A03, .ctz 52 97), (0x200EC703, .popc 14 59), (0x30057403, .brev 104 21),
     (0x401BE103, .bswap 66 111), (0x5ED24E03, .sext 28 73 118), (0x6FB41183, .zext 35 80 125), (0x7095D503, .extr 42 87 4),
     (0x81779883, .ins 49 94 11), (0x02595C04, .addi 56 101 18), (0x133B1F85, .andi 63 108 153), (0x241CE306, .ori 70 115 288)] = true := by decide +kernel

theorem test_decode_xori : decodes
    [(0x34FEA687, .xori 77 122 423), (0x45C06A08, .slti 84 1 558), (0x56A22D89, .sltis 91 8 693), (0x0783F10A, .slli 98 15 60),
     (0x4065B48A, .srli 105 22 3), (0x8147780A, .srai 112 29 10), (0x05293B8B, .lui 119 5284), (0x053FA88C, .lsh 81 5374),
     (0xB0B6158D, .ldB 43 88 1413), (0xC197D90E, .ldBs 50 95 1548), (0xD2799C8F, .ldH 57 102 1683),
     (0xE35B6010, .ldHs 64 109 1818)] = true := by decide +kernel

theorem test_decode_ldW : decodes
    [(0xF43D2391, .ldW 71 116 1953), (0x051EE712, .ldWs 78 123 40), (0x15E0AA93, .ldD 85 2 175), (0x26C26E14, .stB 92 9 310),
     (0x37A43195, .stH 99 16 445), (0x4885F516, .stW 106 23 580), (0x5967B897, .stD 113 30 715), (0x6A497C18, .beq 120 37 850),
     (0x7B2B3F99, .bne 127 44 985), (0x8C0CC31A, .blt 6 51 1120), (0x9CEE869B, .bge 13 58 1255), (0xADD04A1C, .blts 20 65 1390)] = true := by decide +kernel

theorem test_decode_bges : decodes
    [(0xBEB20D9D, .bges 27 72 1525), (0x000F111E, .j 7714), (0x000F279F, .jal 7759), (0x001F0020, .jr 124),
     (0x101594A0, .jalr 41 86), (0xEBAC00A1, .loop 1 48 1885)] = true := by decide +kernel

theorem test_decode_lclr : decodes
    [(0x00000122, .lclr 2), (0x100DC022, .wbase 55), (0x20044222, .flset 4 17), (0x3000DF22, .flget 62 3), (0x40000022, .yield),
     (0x50000022, .exit), (0x60000022, .rpoint), (0x70000022, .realign), (0x80000022, .fencei), (0x90000022, .brk),
     (0xA8A60022, .dross 24 69), (0xB01C8022, .waitt 114), (0xC007C022, .waitev 31)] = true := by decide +kernel

theorem test_decode_crr : decodes
    [(0x2F202623, .crr 76 377), (0x3A601324, .crw 38 467), (0x45A00025, .crs 0 557), (0x50E02D26, .crc 90 647),
     (0x08AD0027, .trap 8884), (0x00000028, .eret), (0x00D84029, .launch 97 6), (0x02BA1DAA, .padd 59 104 21),
     (0x139BE12A, .pmk 66 111 28), (0x201DA4AA, .pseg 73 118), (0x301411AA, .poff 35 80), (0xAAEABEAB, .paddi 125 42 1367)] = true := by decide +kernel

theorem test_decode_vadd : decodes
    [(0x033B1FB0, .vadd false 63 108 25), (0x19A839B0, .vsub false 115 32 77), (0x203513B0, .vand false 39 84 1),
     (0x36A22DB0, .vor false 91 8 53), (0x4D2F07B0, .vxor false 15 60 105), (0x53BC21B0, .vmin false 67 112 29),
     (0x6A293BB0, .vmax false 119 36 81), (0x70B615B0, .vmul false 43 88 5)] = true := by decide +kernel

theorem test_decode_vsll : decodes
    [(0x07232FB1, .vsll false 95 12 57), (0x1DB009B1, .vsrl false 19 64 109), (0x243D23B1, .vsra false 71 116 33),
     (0x3AAA3DB1, .vadds false 123 40 85), (0x413717B1, .vsubs false 47 92 9), (0x57A431B1, .vmulh false 99 16 61),
     (0x60110BB1, .vabs false 23 68), (0xF012CF31, .vneg true 30 75), (0x559FC132, .vcmp false 5 2 127 44)] = true := by decide +kernel

theorem test_decode_vfadd : decodes
    [(0x8C0CC333, .vfadd true 6 51 96), (0x9299DD33, .vfsub true 58 103 20), (0xA906F733, .vfmul true 110 27 72),
     (0xBF93D133, .vfmin true 34 79 124), (0xC600EB33, .vfmax true 86 3 48), (0xDC8DC533, .vfdiv true 10 55 100),
     (0xE01ADF33, .vfsqrt true 62 107), (0x03FCA2B4, .vfma false 69 114 31), (0x1A69BCB4, .vfms false 121 38 83),
     (0x20F696B4, .vfnma false 45 90 7), (0x3003B0B4, .vfneg false 97 14), (0xC0057434, .vfabs true 104 21)] = true := by decide +kernel

theorem test_decode_vfcmp : decodes
    [(0x2ED24635, .vfcmp false 2 12 73 118), (0x801F6836, .vexp2 true 80 125), (0x10012BB6, .vlog2 false 87 4),
     (0xA002EF36, .vrcp true 94 11), (0x3004B2B6, .vrsqrt false 101 18), (0xC0067636, .vtanh true 108 25),
     (0x500839B6, .vsigm false 115 32), (0x8289FD37, .vcvt true 122 39 4 1)] = true := by decide +kernel

theorem test_decode_vmv : decodes
    [(0x00022DB8, .vmv false 91 8), (0x9003F138, .vbcast true 98 15), (0x2865B4B8, .vext false 105 22 67),
     (0x3EF28EB8, .vins false 29 74 119), (0x400028B8, .viota false 81), (0x50B615B8, .vslideup false 43 88 5),
     (0x67232FB8, .vslidedn false 95 12 57), (0x7DB009B8, .vgatheri false 19 64 109)] = true := by decide +kernel

theorem test_decode_vredsum : decodes
    [(0x001D23B9, .vredsum false 71 116), (0x901EE739, .vredmin true 78 123), (0x2000AAB9, .vredmax false 85 2),
     (0xB0026E39, .vredmins true 92 9), (0x400431B9, .vredmaxs false 99 16), (0xD005F539, .vfredsum true 106 23),
     (0x6007B8B9, .vfredmin false 113 30), (0xF0097C39, .vfredmax true 120 37)] = true := by decide +kernel

theorem test_decode_vscanAdd : decodes
    [(0x000B3FBA, .vscanAdd false 127 44), (0x900CC33A, .vscanMin true 6 51), (0x200E86BA, .vscanMax false 13 58),
     (0xB0104A3A, .vfscanAdd true 20 65), (0x40120DBA, .vfscanMax false 27 72)] = true := by decide +kernel

theorem test_decode_mand : decodes
    [(0x8183C13B, .mand true 2 15 12), (0x9000C33B, .mor true 6 3 0), (0xA081C53B, .mxor true 10 7 4),
     (0xB102C73B, .mandn true 14 11 8), (0xC003C13B, .mnot true 2 15), (0x5001BCBB, .mpopc false 121 6),
     (0xE003403B, .mfirst true 0 13), (0x702D03BB, .vcompress false 7 52 1), (0x3005743C, .vpack false 3 104 21),
     (0x019BE13D, .setvl 66 111 12)] = true := by decide +kernel

theorem test_decode_vmsel : decodes
    [(0x000004BE, .vmsel 9), (0x1000FB3E, .vbind 118 3), (0x2000283E, .vunbind 80), (0x3AE2BEBE, .vappend 125 10 87),
     (0x400C423E, .vspill 4 49), (0x5002EF3E, .vfill 94 11), (0x6000003E, .vrelease), (0x7CAE003E, .vmbox 56 101)] = true := by decide +kernel

theorem test_decode_vld : decodes
    [(0x001B1FBF, .vld false 63 108), (0x901CE33F, .vst true 70 115), (0x24FEA6BF, .vlds false 77 122 39),
     (0x3B6B80BF, .vsts false 1 46 91), (0x41F89ABF, .vldx false 53 98 15), (0x5865B4BF, .vstx false 105 22 67),
     (0x6EF28EBF, .vldt false 29 74 119), (0x1B0AFF40, .vpmul false 1 126 43 88), (0xA7232FC1, .vpmula true 2 95 12 57),
     (0x301B6042, .vpext false 3 64 109), (0x0011CD50, .mshape 26 71)] = true := by decide +kernel

theorem test_decode_tmvr : decodes
    [(0x0F738A51, .tmvr 4 1 78 123), (0x15E95451, .tmvc 40 5 2 47), (0x26C04251, .tmvrr 4 1 54), (0x300001D1, .tzero 3),
     (0x4D4F4051, .tld 0 61 106), (0x501103D1, .tst 7 68)] = true := by decide +kernel

theorem test_decode_mma : decodes
    [(0x096180D2, .mma 1 6 75), (0x1FE0AC52, .mmaA 8 5 2 127), (0x20C04652, .mmas 12 1 6), (0x374141D2, .mmasA 3 0 5 58),
     (0x400003D2, .azero 7), (0x57D04A52, .amv 20 65 14 3), (0x601D4452, .ald 8 117), (0x7013C152, .ast 2 79),
     (0x853F0052, .bld 124 41), (0x9600C352, .vquant 6 3 48), (0xA0174052, .mperm 93), (0xB0028052, .mcode 10)] = true := by decide +kernel

theorem test_decode_amoAdd : decodes
    [(0x02391BE0, .amoAdd 55 100 17), (0x131ADF60, .amoMin 62 107 24), (0x23FCA2E0, .amoMax 69 114 31),
     (0x34DE6660, .amoMins 76 121 38), (0x45A029E0, .amoMaxs 83 0 45), (0x5681ED60, .amoAnd 90 7 52),
     (0x6763B0E0, .amoOr 97 14 59), (0x78457460, .amoXor 104 21 66), (0x892737E0, .amoSwap 111 28 73),
     (0x9A08FB60, .amoCas 118 35 80), (0xAAEABEE0, .amoFaddF32 125 42 87), (0xBBCC4260, .amoFaddF64 4 49 94),
     (0xC702C060, .amoAddnr 11 56)] = true := by decide +kernel

theorem test_decode_acq : decodes
    [(0x0004B2E1, .acq 101 18), (0x1D8FC061, .rel 63 108), (0x20024061, .segacq 9), (0x3E618061, .segrel 6 115),
     (0x40000061, .segphase 0), (0x50800061, .fence 4), (0x6A89FD61, .waiteq 122 39 84), (0x7B6B80E1, .waitge 1 46 91),
     (0x3C2D4462, .lcpy 8 53 false 7 4 1), (0x00C00063, .bcommit 6), (0x10600063, .bwait 3), (0x20A03863, .btest 112 5)] = true := by decide +kernel

theorem test_decode_istream : decodes
    [(0x00F28064, .istream 74 7), (0x00145265, .txcfg 36 81), (0x100AFF65, .txsub 126 43 0), (0x200082E5, .qpush 5 2),
     (0x30032FE5, .qpop 95 12), (0x40019CE5, .qstat 57 6), (0x0004C066, .tfree 19), (0x1DB00066, .sptag 64 109),
     (0x2011CD66, .spsize 26 71)] = true := by decide +kernel

theorem test_decode_rmul : decodes
    [(0x0F7390F0, .rmul false 33 78 123), (0x15E0AAF0, .rfma false 85 2 47), (0x2C6D84F0, .rshr false 9 54 99),
     (0x32FA9EF0, .rlrelu false 61 106 23), (0x4967B8F0, .rscale false 113 30 75), (0x09F492F1, .rcvt false 37 82 15 4),
     (0x8C0CC372, .umul true 6 51 96), (0x9299DD72, .ufma true 58 103 20), (0xA906F772, .ushr true 110 27 72),
     (0xBF93D172, .ulrelu true 34 79 124), (0xC600EB72, .uscale true 86 3 48), (0x808DC573, .ucvt true 10 55 4)] = true := by decide +kernel

theorem test_decode_rsmark : decodes
    [(0x00000074, .rsmark), (0x10000074, .rsdrop), (0x200008F4, .rsdepth 17), (0x30000074, .rssync),
     (0x11F2F1FF, .convoyHeader false 17 30 11 24 3)] = true := by decide +kernel

end Sys2Proof.Tests
end

section
/-! PROOFS. The scalar words that only compute (R147 to R152), and sequential flow through the hardware loops (R157). -/

namespace Sys2Proof.Machine

/-! ## Computing words, at a value in the rule's own form -/

/-- A computing word of latency n writes v, once v is shown to be what it computes. -/
theorem computeIn_writes_as {s : State} (h : Quiet s) {n : Nat} {i : Instr} {reads : List GReg} {a : GReg} {f : State → Word}
    {v : Word} (hi : exec i s = computeIn n i reads a f s) (hv : f s = v) : Writes s i a v :=
  hv ▸ computeIn_writes h n i reads a f hi

/-- A computing word of one cycle writes v, once v is shown to be what it computes. -/
theorem compute_writes_as {s : State} (h : Quiet s) {i : Instr} {reads : List GReg} {a : GReg} {f : State → Word}
    {v : Word} (hi : exec i s = compute i reads a f s) (hv : f s = v) : Writes s i a v :=
  computeIn_writes_as h hi hv

/-! ## Comparisons -/

theorem truth_decide (p : Prop) [Decidable p] : truth (decide p) = if p then 1 else 0 := by simp [truth]

/-- The rules name the operand that replaces gB, the model the one that stays: the same minimum and maximum. -/
theorem ite_le_eq_ite_lt {α β : Type} [LinearOrder α] (x y : α) (p q : β) :
    (if x ≤ y then p else q) = if y < x then q else p := by
  by_cases h : x ≤ y
  · rw [if_pos h, if_neg (not_lt.2 h)]
  · rw [if_neg h, if_pos (not_le.1 h)]

/-- At a tie of an order that tells words apart, the larger of two is either. -/
theorem max_eq_ite_lt {α : Type} [LinearOrder α] {f : Word → α} (hf : ∀ {x y}, f x = f y → x = y) (x y : Word) :
    (if f x ≤ f y then y else x) = if f x < f y then y else x := by
  rcases lt_trichotomy (f x) (f y) with h | h | h
  · rw [if_pos h.le, if_pos h]
  · rw [if_pos h.le, if_neg h.not_lt, hf h]
  · rw [if_neg h.not_ge, if_neg h.not_gt]

/-- Settles O1: each ALU form is a computing word whose value is Table 8-1's. -/
theorem aluResults : Obligations.AluResults := by
  intro s a b c h
  refine ⟨?add, ?sub, ?and, ?or, ?xor, ?sll, ?srl, ?sra, ?min, ?max, ?mins, ?maxs, ?slt, ?slts, ?sel⟩
  case min | mins => exact compute_writes_as h rfl (ite_le_eq_ite_lt ..)
  case max => exact compute_writes_as h rfl (max_eq_ite_lt BitVec.eq_of_toNat_eq ..)
  case maxs => exact compute_writes_as h rfl (max_eq_ite_lt BitVec.eq_of_toInt_eq ..)
  case slt | slts => exact compute_writes_as h rfl (truth_decide _)
  case sel => exact compute_writes_as h rfl (ite_not ..)
  all_goals exact compute_writes_as h rfl rfl

/-! ## Products, quotients and remainders (R148) -/

theorem ofNat_mul_toNat (x y : Word) : x * y = BitVec.ofNat 64 (x.toNat * y.toNat) :=
  BitVec.eq_of_toNat_eq (by simp)

theorem mulHi_natCast (x y : Nat) : mulHi x y = BitVec.ofNat 64 (x * y / 2 ^ 64) := by
  rw [mulHi, ← BitVec.ofInt_natCast]
  norm_cast

theorem remU_eq (x y : Word) :
    remU x y = if y = 0 then BitVec.allOnes 64 else BitVec.ofNat 64 (x.toNat - y.toNat * (x.toNat / y.toNat)) := by
  rw [remU, Nat.mod_eq_sub]

theorem remS_eq (x y : Word) :
    remS x y = if y = 0 then BitVec.allOnes 64 else BitVec.ofInt 64 (x.toInt - y.toInt * x.toInt.tdiv y.toInt) := by
  rw [remS, Int.tmod_def]

/-- Settles O2: the latency of these words is longer, their values are those of R148. -/
theorem mulDivResults : Obligations.MulDivResults := by
  intro s a b c h
  refine ⟨?mul, ?mulh, ?mulhs, ?div, ?divs, ?rem, ?rems⟩
  case mul => exact computeIn_writes_as h rfl (ofNat_mul_toNat ..)
  case mulh => exact computeIn_writes_as h rfl (mulHi_natCast ..)
  case rem => exact computeIn_writes_as h rfl (remU_eq ..)
  case rems => exact computeIn_writes_as h rfl (remS_eq ..)
  all_goals exact computeIn_writes_as h rfl rfl

/-! ## Bits (R149) -/

theorem leadingZeros_le (w : Word) : leadingZeros w ≤ 64 := Nat.sub_le ..

/-- The highest bit of a word that is not zero lies within it. -/
theorem log2_toNat_lt {w : Word} (h : w ≠ 0) : w.toNat.log2 < 64 := by
  rw [Nat.log2_lt (by simpa using BitVec.toNat_ne.1 h)]
  exact w.isLt

theorem getLsbD_of_lt_leadingZeros (w : Word) {j : Nat} (h : j < leadingZeros w) : w.getLsbD (63 - j) = false := by
  by_cases hw : w = 0
  · simp [hw]
  · rw [leadingZeros, if_neg hw] at h
    exact Nat.testBit_lt_two_pow (Nat.lt_log2_self.trans_le (Nat.pow_le_pow_right (by decide) (by omega)))

theorem getLsbD_leadingZeros (w : Word) (h : leadingZeros w < 64) : w.getLsbD (63 - leadingZeros w) = true := by
  have hw : w ≠ 0 := by rintro rfl; exact absurd h (by decide)
  have hl := log2_toNat_lt hw
  rw [leadingZeros, if_neg hw, show 63 - (64 - (w.toNat.log2 + 1)) = w.toNat.log2 by omega]
  exact Nat.testBit_log2 (by simpa using BitVec.toNat_ne.1 hw)

/-- The trailing zeros end at the lowest bit set, or at 64 where none is. -/
theorem trailingZeros_spec (w : Word) : trailingZeros w ≤ 64 ∧ (∀ j, j < trailingZeros w → w.getLsbD j = false) ∧
    (trailingZeros w < 64 → w.getLsbD (trailingZeros w) = true) := by
  unfold trailingZeros firstSet
  cases h : (List.range 64).find? fun i => w.toNat.testBit i with
  | none =>
    rw [List.find?_range_eq_none] at h
    exact ⟨le_rfl, fun j hj => by simpa [← BitVec.testBit_toNat] using h j hj, fun hk => absurd hk (lt_irrefl 64)⟩
  | some i =>
    obtain ⟨hset, hmem, hbelow⟩ := List.find?_range_eq_some.1 h
    exact ⟨(List.mem_range.1 hmem).le, fun j hj => by simpa [← BitVec.testBit_toNat] using hbelow j hj, fun _ => hset⟩

theorem popCount_eq_length (x n : Nat) : popCount x n = ((List.range n).filter x.testBit).length := by
  induction n with
  | zero => rfl
  | succ n ih =>
    rw [popCount, ih, List.range_succ, List.filter_append, List.length_append]
    cases h : x.testBit n <;> simp [h]

theorem getLsbD_bitReverse (w : Word) {k : Nat} (h : k < 64) : (bitReverse w).getLsbD k = w.getLsbD (63 - k) := by
  rw [bitReverse, BitVec.getLsbD_reverse, BitVec.getMsbD_eq_getLsbD]
  simp [h]

/-- Eight bytes laid out from the top down: byte k of their value is the one that was laid at place 7 - k. -/
theorem field_foldl_bytes (f : Nat → Nat) (hf : ∀ i, f i < 2 ^ 8) {k : Nat} (h : k < 8) :
    field ((List.range 8).foldl (fun acc i => acc + f i * 2 ^ (8 * (7 - i))) 0) (8 * k) 8 = f (7 - k) := by
  have low : f 0 < 2 ^ 8 ∧ f 1 < 2 ^ 8 ∧ f 2 < 2 ^ 8 ∧ f 3 < 2 ^ 8 := ⟨hf 0, hf 1, hf 2, hf 3⟩
  have high : f 4 < 2 ^ 8 ∧ f 5 < 2 ^ 8 ∧ f 6 < 2 ^ 8 ∧ f 7 < 2 ^ 8 := ⟨hf 4, hf 5, hf 6, hf 7⟩
  simp only [List.range_succ, List.range_zero, List.nil_append, List.cons_append, List.foldl_cons, List.foldl_nil, field]
  interval_cases k <;> simp only [Nat.reduceSub, Nat.reduceMul, Nat.reducePow] <;> omega

theorem field_byteSwap (w : Word) {k : Nat} (h : k < 8) :
    field (byteSwap w).toNat (8 * k) 8 = field w.toNat (8 * (7 - k)) 8 := by
  rw [byteSwap, ofNat_field _ _ _ _ (by omega)]
  exact field_foldl_bytes (fun i => field w.toNat (8 * i) 8) (fun _ => field_lt ..) h

theorem getLsbD_byteSwap (w : Word) {k j : Nat} (hk : k < 8) (hj : j < 8) :
    (byteSwap w).getLsbD (8 * k + j) = w.getLsbD (8 * (7 - k) + j) := by
  have e := congrArg (Nat.testBit · j) (field_byteSwap w hk)
  simpa only [testBit_field, hj, decide_true, Bool.true_and, BitVec.testBit_toNat] using e

/-- The value of the low n bits taken as signed is that of the truncated word. -/
theorem signed_eq_toInt (w : Word) (n : Nat) : signed w.toNat n = (w.setWidth n).toInt := by
  rcases n with _ | n
  · simp [signed, Nat.mod_one, BitVec.toInt_zero_length]
  · rw [BitVec.toInt_eq_toNat_cond, signed, BitVec.toNat_setWidth, pow_succ]
    by_cases h : 2 ^ n ≤ w.toNat % (2 ^ n * 2)
    · rw [if_pos ⟨n.succ_ne_zero, h⟩, if_neg (by omega)]
    · rw [if_neg (fun p => h p.2), if_pos (by omega)]

theorem getLsbD_sextN (w : Word) {n k : Nat} (hn : 0 < n) (hk : k < 64) :
    (sextN w n).getLsbD k = w.getLsbD (if k < n then k else n - 1) := by
  rw [sextN, signed_eq_toInt, ← BitVec.signExtend, BitVec.getLsbD_signExtend, BitVec.msb_eq_getLsbD_last,
    BitVec.getLsbD_setWidth, BitVec.getLsbD_setWidth]
  by_cases h : k < n
  · simp [hk, h]
  · simp [hk, h, hn]

theorem getLsbD_zextN (w : Word) (n k : Nat) : (zextN w n).getLsbD k = (decide (k < n) && w.getLsbD k) := by
  rw [zextN, BitVec.getLsbD_ofNat, Nat.testBit_mod_two_pow, BitVec.testBit_toNat]
  by_cases h : k < 64
  · simp [h]
  · simp [h, BitVec.getLsbD_of_ge w k (Nat.not_lt.1 h)]

theorem getLsbD_zextN_shift (w : Word) (p n k : Nat) :
    (zextN (w >>> p) n).getLsbD k = (decide (k < n) && w.getLsbD (p + k)) := by
  rw [getLsbD_zextN, BitVec.getLsbD_ushiftRight]

theorem getLsbD_insertField (old src : Word) (p n : Nat) {k : Nat} (h : k < 64) :
    (insertField old src p n).getLsbD k = if p ≤ k ∧ k < p + n then src.getLsbD (k - p) else old.getLsbD k := by
  rw [insertField, BitVec.getLsbD_ofNat, Nat.testBit_mod_two_pow, testBit_splice]
  simp only [h, decide_true, Bool.true_and, BitVec.testBit_toNat]

theorem lenField_pos (n : Nat) : 0 < lenField n := by
  unfold lenField
  split <;> omega

/-- Settles O3: each bit form is a computing word, and its value has the bits of Table 8-2. -/
theorem bitResults : Obligations.BitResults := by
  intro s a b c h
  refine ⟨?clz, ?ctz, ?popc, ?brev, ?bswap, ?sext, ?zext, ?extr, ?ins⟩
  case clz =>
    exact ⟨_, compute_writes_as h rfl rfl, leadingZeros_le _, fun _ => getLsbD_of_lt_leadingZeros _, getLsbD_leadingZeros _⟩
  case ctz => exact ⟨_, compute_writes_as h rfl rfl, trailingZeros_spec _⟩
  case popc => exact compute_writes_as h rfl (congrArg (BitVec.ofNat 64) (popCount_eq_length ..))
  case brev => exact ⟨_, compute_writes_as h rfl rfl, fun _ => getLsbD_bitReverse _⟩
  case bswap => exact ⟨_, compute_writes_as h rfl rfl, fun _ _ => getLsbD_byteSwap _⟩
  case sext => exact ⟨_, compute_writes_as h rfl rfl, fun _ => getLsbD_sextN _ (lenField_pos _)⟩
  case zext => exact ⟨_, compute_writes_as h rfl rfl, getLsbD_zextN _ _⟩
  case extr => exact ⟨_, compute_writes_as h rfl rfl, getLsbD_zextN_shift _ _ _⟩
  case ins => exact ⟨_, compute_writes_as h rfl rfl, fun _ => getLsbD_insertField _ _ _ _⟩

/-! ## Immediates and pointers (R150 to R152) -/

theorem toInt_sext11 (imm : BitVec 11) : (sext11 imm).toInt = imm.toInt := BitVec.toInt_signExtend_of_le (by decide)

/-- An offset moved by a number that is not negative. -/
theorem ptrAdd_natCast (p : Word) (n : Nat) :
    ptrAdd p n = BitVec.ofNat 64 (p.toNat / 2 ^ 60 * 2 ^ 60 + (p.toNat % 2 ^ 60 + n) % 2 ^ 60) := by
  rw [ptrAdd, wrap]
  norm_cast

/-- An offset moved by an immediate, which may be negative: the sum is taken modulo 2^60 all the same. -/
theorem ptrAdd_eq (p : Word) (d : Int) : ptrAdd p d =
    BitVec.ofNat 64 (p.toNat / 2 ^ 60 * 2 ^ 60 + (((p.toNat % 2 ^ 60 : Nat) + d) % 2 ^ 60).toNat) := by
  rw [ptrAdd, wrap]
  norm_cast

/-- Settles O4: the immediate forms, the constants and the pointer group are computing words. -/
theorem immediateResults : Obligations.ImmediateResults := by
  refine ⟨fun s a b imm sh h => ?_, fun s a imm h => ?_, fun s a b c imm h => ?_⟩
  · refine ⟨?addi, ?andi, ?ori, ?xori, ?slti, ?sltis, ?slli, ?srli, ?srai⟩
    case slti => exact compute_writes_as h rfl (truth_decide _)
    case sltis => exact compute_writes_as h rfl ((truth_decide _).trans (by rw [toInt_sext11]))
    all_goals exact compute_writes_as h rfl rfl
  · exact ⟨compute_writes_as h rfl rfl, compute_writes_as h rfl rfl⟩
  · refine ⟨?padd, ?pmk, ?pseg, ?poff, ?paddi⟩
    case padd => exact compute_writes_as h rfl (ptrAdd_natCast ..)
    case paddi => exact compute_writes_as h rfl (ptrAdd_eq ..)
    all_goals exact compute_writes_as h rfl rfl

/-! ## Sequential flow through the loops (R157) -/

theorem Loop.ends_iff (l : Loop) (a : Word) : l.ends a = true ↔ l.le.getLsbD 0 = true ∧ l.le.toNat / 4 * 4 = a.toNat := by
  simp [Loop.ends, Loop.armed]

theorem setLoop_loops_same (t : Task) (k : Fin 2) (l : Loop) : (t.setLoop k l).loops[k] = l := by simp

theorem setLoop_loops_other (t : Task) {k j : Fin 2} (h : k ≠ j) (l : Loop) : (t.setLoop k l).loops[j] = t.loops[j] := by
  simp [Fin.val_ne_iff.2 h]

/-- A level with passes left counts one down, and its body begins again. -/
theorem endPass_again {t : Task} {k : Fin 2} (a : Word) (h : 1 < t.loops[k].lc.toNat) :
    endPass t k a = (t.setLoop k { t.loops[k] with lc := t.loops[k].lc - 1 }, t.loops[k].lb, false) := if_pos h

/-- A level on its last pass disarms with its count at zero, and falls through. -/
theorem endPass_last {t : Task} {k : Fin 2} (a : Word) (h : ¬ 1 < t.loops[k].lc.toNat) :
    endPass t k a = (t.setLoop k { (t.loops[k]).arm false with lc := 0 }, a, true) := if_neg h

/-- The end of a pass of one level leaves the other alone. -/
theorem endPass_loops_other (t : Task) {k j : Fin 2} (h : k ≠ j) (a : Word) : (endPass t k a).1.loops[j] = t.loops[j] := by
  by_cases hk : 1 < t.loops[k].lc.toNat
  · rw [endPass_again a hk]; exact setLoop_loops_other t h _
  · rw [endPass_last a hk]; exact setLoop_loops_other t h _

/-- The task once level k has ended a pass at a. -/
def passed (t : Task) (k : Fin 2) (a : Word) : Task := { (endPass t k a).1 with pc := (endPass t k a).2.1 }

theorem passed_loops_other (t : Task) {k j : Fin 2} (h : k ≠ j) (a : Word) : (passed t k a).loops[j] = t.loops[j] :=
  endPass_loops_other t h a

theorem passed_again {t : Task} {k : Fin 2} (a : Word) (h : 1 < t.loops[k].lc.toNat) :
    (passed t k a).pc = t.loops[k].lb ∧ (passed t k a).loops[k] = { t.loops[k] with lc := t.loops[k].lc - 1 } := by
  rw [passed, endPass_again a h]
  exact ⟨rfl, setLoop_loops_same ..⟩

theorem passed_last {t : Task} {k : Fin 2} (a : Word) (h : ¬ 1 < t.loops[k].lc.toNat) :
    (passed t k a).pc = a ∧ (passed t k a).loops[k] = { (t.loops[k]).arm false with lc := 0 } := by
  rw [passed, endPass_last a h]
  exact ⟨rfl, setLoop_loops_same ..⟩

/-- The address at which a pass ends is its argument; the pc is not looked at. -/
theorem passed_pc (t : Task) (p : Word) (k : Fin 2) (a : Word) : passed { t with pc := p } k a = passed t k a := by
  by_cases h : 1 < t.loops[k].lc.toNat
  · rw [passed, passed, endPass_again a h, endPass_again a (t := { t with pc := p }) h]; rfl
  · rw [passed, passed, endPass_last a h, endPass_last a (t := { t with pc := p }) h]; rfl

/-- Where both levels end at one address, level k is taken first: its body is the shorter, or as long and k is 1. -/
def EndsFirst (t : Task) (k j : Fin 2) : Prop :=
  t.loops[k].body < t.loops[j].body ∨ t.loops[k].body = t.loops[j].body ∧ k = 1

theorem flowTo_neither {t : Task} {a : Word} (h0 : t.loops[(0 : Fin 2)].ends a = false)
    (h1 : t.loops[(1 : Fin 2)].ends a = false) : flowTo t a = { t with pc := a } := by
  simp only [flowTo, h0, h1]
  rfl

/-- Where one level ends, that level ends a pass and the word it leads to is next. -/
theorem flowTo_one {t : Task} {k j : Fin 2} {a : Word} (hkj : k ≠ j) (hk : t.loops[k].ends a = true)
    (hj : t.loops[j].ends a = false) : flowTo t a = passed t k a := by
  have go : (if (endPass t k a).2.2 then { (endPass t k a).1 with pc := a } else passed t k a) = passed t k a := by
    by_cases h : 1 < t.loops[k].lc.toNat
    · rw [endPass_again a h]; rfl
    · rw [passed, endPass_last a h]; rfl
  obtain ⟨rfl, rfl⟩ | ⟨rfl, rfl⟩ : k = 0 ∧ j = 1 ∨ k = 1 ∧ j = 0 := by omega
  · simp only [flowTo, hk, hj]; exact go
  · simp only [flowTo, hk, hj]; exact go

/-- Where both levels end, the first one ends a pass, and the other only if that one falls through. -/
theorem flowTo_both {t : Task} {k j : Fin 2} {a : Word} (hkj : k ≠ j) (hk : t.loops[k].ends a = true)
    (hj : t.loops[j].ends a = true) (hf : EndsFirst t k j) :
    flowTo t a = if 1 < t.loops[k].lc.toNat then passed t k a else passed (passed t k a) j a := by
  have go : (if (endPass t k a).2.2 then passed (endPass t k a).1 j a else passed t k a) =
      if 1 < t.loops[k].lc.toNat then passed t k a else passed (passed t k a) j a := by
    by_cases h : 1 < t.loops[k].lc.toNat
    · rw [if_pos h, endPass_again a h]; rfl
    · rw [if_neg h, ← passed_pc _ (endPass t k a).2.1, ← passed, if_pos (by rw [endPass_last a h])]
  unfold EndsFirst at hf
  obtain ⟨rfl, rfl⟩ | ⟨rfl, rfl⟩ : k = 0 ∧ j = 1 ∨ k = 1 ∧ j = 0 := by omega
  · have first : t.loops[(0 : Fin 2)].body < t.loops[(1 : Fin 2)].body := by simpa using hf
    rw [← go]; simp only [flowTo, hk, hj, if_pos first, passed, Bool.and_self, if_true]
  · have first : ¬ t.loops[(0 : Fin 2)].body < t.loops[(1 : Fin 2)].body := by omega
    rw [← go]; simp only [flowTo, hk, hj, if_neg first, passed, Bool.and_self, if_true]

/-- Settles O8: sequential flow ends no pass, one, or two in the order of the bodies' lengths. -/
theorem loopFlow : Obligations.LoopFlow := by
  intro t a u ends body again passes falls
  have ends_of (k : Fin 2) (h : ends k) : t.loops[k].ends a = true := (Loop.ends_iff ..).2 h
  have not_ends_of (k : Fin 2) (h : ¬ ends k) : t.loops[k].ends a = false := by
    rwa [← Bool.not_eq_true, Loop.ends_iff]
  have falls_of (k : Fin 2) (h : u.loops[k] = { (t.loops[k]).arm false with lc := 0 }) : falls k := by
    obtain ⟨hlb, -, hle⟩ := arm_false t.loops[k]
    simp only [falls, h]
    exact ⟨trivial, hlb, (hle 0).trans (Bool.and_false _), fun n hn => (hle n).trans (by simp [hn])⟩
  refine ⟨fun h0 h1 => ?neither, fun k j hkj hk hj => ?one, fun k j hkj hk hj hf => ?both⟩
  case neither =>
    have hu : u = { t with pc := a } := flowTo_neither (not_ends_of 0 h0) (not_ends_of 1 h1)
    exact ⟨by rw [hu], by rw [hu]⟩
  case one =>
    have hu : u = passed t k a := flowTo_one hkj (ends_of k hk) (not_ends_of j hj)
    refine ⟨by rw [hu, passed_loops_other t hkj], fun h => ?_, fun h => ?_⟩
    · simp only [passes, hu]
      exact passed_again a h
    · obtain ⟨hpc, hl⟩ := passed_last a h
      exact ⟨falls_of k (by rw [hu, hl]), by rw [hu, hpc]⟩
  case both =>
    have hu := flowTo_both hkj (ends_of k hk) (ends_of j hj) hf
    refine ⟨fun h => ?_, fun h => ?_⟩
    · have hu : u = passed t k a := hu.trans (if_pos h)
      simp only [passes, hu]
      exact ⟨passed_again a h, passed_loops_other t hkj a⟩
    · have hu : u = passed (passed t k a) j a := hu.trans (if_neg h)
      have hj' := passed_loops_other t hkj a
      obtain ⟨-, hl⟩ := passed_last a h
      refine ⟨falls_of k (by rw [hu, passed_loops_other _ hkj.symm, hl]), fun h2 => ?_, fun h2 => ?_⟩
      · simp only [passes, hu, ← hj']
        exact passed_again a (by rwa [hj'])
      · obtain ⟨hpc, hl2⟩ := passed_last (t := passed t k a) (k := j) a (by rwa [hj'])
        exact ⟨falls_of j (by rw [hu, hl2, hj']), by rw [hu, hpc]⟩

end Sys2Proof.Machine
end
